-- ==== Sys2Proof/Word.lean ====
section
/-! DEFINITION. The word types of the machine (01_instruction_words.md: 32-bit instruction words and
registers; 03_data_layouts.md R63: 64-bit values in even-aligned pairs; 06 R133: the aligned 8-byte word). -/

namespace Sys2Proof

/-- A 32-bit register or instruction word. -/
abbrev Word := BitVec 32

/-- A 64-bit value: a register pair, an aligned 8-byte word of memory, an address. -/
abbrev DWord := BitVec 64

/-- A byte of memory. -/
abbrev Byte := BitVec 8

/-- A lane mask of a sheaf: bit `n` stands for lane `n` (R3). -/
abbrev LaneMask := BitVec 32

/-- A 7-bit operand code (R19). -/
abbrev OpCode7 := BitVec 7

end Sys2Proof
end

