-- ==== Sys2Proof/Syntax.lean ====
section
/-! DEFINITION. The syntax: the word formats of 01_instruction_words.md (R11 to R16), the arguments of the
device's events, and `Instr`, one constructor for each row of spec/opcode_table.json. A row with an encoding carries
the fields of its words, none of them judged here: what a field may hold is checked at issue (R31). A row that is an
event of the device carries which core, lane, request or message it is about. -/

namespace Sys2Proof

/-- The A format (R11): D, N, A, B, and the E extension word when X = 1. -/
structure AWord where
  d : OpCode7
  n : Bool
  a : OpCode7
  b : OpCode7
  ext : Option Word
  deriving DecidableEq, Repr, Inhabited

/-- The I format (R11, R12): D, N, A, IMM8. -/
structure IWord where
  d : OpCode7
  n : Bool
  a : OpCode7
  imm : Byte
  deriving DecidableEq, Repr, Inhabited

/-- The unconditional J layout (R13). A control transfer stands in three classes (R42): `cls` is OP[8:6]. -/
structure JWord where
  cls : BitVec 3
  off : BitVec 23
  deriving DecidableEq, Repr, Inhabited

/-- The conditional J layout (R13). -/
structure JcWord where
  cls : BitVec 3
  a : OpCode7
  off : BitVec 16
  deriving DecidableEq, Repr, Inhabited

/-- The M format with its ME extension word (R14, R16). -/
structure MWord where
  d : OpCode7
  n : Bool
  a : OpCode7
  slot : BitVec 6
  s : Bool
  x : Bool
  me : Word
  deriving DecidableEq, Repr, Inhabited

/-- A word of an unassigned slot (R45): for the clause walk it is an A word. -/
structure UWord where
  w : Word
  ext : Option Word
  deriving DecidableEq, Repr, Inhabited

/-- A lane: the stook (by the model's own number of its placement), the sheaf index, the lane index. -/
structure LaneRef where
  stook : Nat
  sheaf : Nat
  lane : Nat
  deriving DecidableEq, Repr, Inhabited

/-- A path (R98): lanes of one sheaf of one stook. -/
structure PathRef where
  stook : Nat
  sheaf : Nat
  lanes : LaneMask
  deriving DecidableEq, Repr, Inhabited

/-- The header of a control-link request (R345). -/
structure MsgHdr where
  context : Nat
  seq : Word
  length : Nat
  tag : Word
  flags : Byte := 0
  reserved : Byte := 0
  deriving DecidableEq, Repr, Inhabited

/-- The request block of MEMREAD and MEMWRITE (R348). -/
structure MemBlock where
  mode : DWord
  addr : DWord
  size : DWord
  deriving DecidableEq, Repr, Inhabited

/-- A request that R346 does not list: its TYPE and, of a TYPE that has them, its OP or ACTION and the FAULTID it names. -/
structure Unlisted where
  type : Byte
  op : Byte
  arg : Word
  deriving DecidableEq, Repr, Inhabited

/-- What a read of a storage sector met (R386, R387): the environment's part of a read. `transient` errors pass at the
retry, `lasting` ones do not. -/
inductive SectorRead where
  | good
  | corrected
  | eccTransient
  | eccLasting
  | sramTransient
  | sramLasting
  | integrityTransient
  | integrityLasting
  | peerDownTransient
  | peerDownLasting
  deriving DecidableEq, Repr, Inhabited

/-- What firmware's second run of a sampled stook gave (R385), apart from the digests: the run was completed with a
digest and a store count, or was abandoned. -/
inductive SampleVerdict where
  | ran (digest : DWord) (stores : Nat)
  | abandoned
  deriving DecidableEq, Repr, Inhabited

/-- The instructions and events of the device: one constructor for each row of the opcode table. -/
inductive Instr where
  /-- CLAUSE_FETCH (R30): A path fetches the clause at its PC and makes the ordered header and clause checks before any word issues. -/
  | clauseFetch (p : PathRef)
  /-- ROTATION_STEP (R114): A core in deterministic mode takes one rotation step, in which each port considers one slot and every ready sheaf issues. -/
  | rotationStep (core : Nat)
  /-- IADD (R214): Adds two 32-bit integers per lane, modulo 2^32. -/
  | iadd (w : AWord)
  /-- ISUB (R214): Subtracts two 32-bit integers per lane, modulo 2^32. -/
  | isub (w : AWord)
  /-- IMUL (R214): Writes the low 32 bits of the product per lane. -/
  | imul (w : AWord)
  /-- IMULH (R214): Writes the high 32 bits of the signed or unsigned product per lane. -/
  | imulh (w : AWord)
  /-- IMAD (R214): Writes the low 32 bits of a times b plus c per lane. -/
  | imad (w : AWord)
  /-- IMIN (R214): Writes the lesser of two integers under signed or unsigned order. -/
  | imin (w : AWord)
  /-- IMAX (R214): Writes the greater of two integers under signed or unsigned order. -/
  | imax (w : AWord)
  /-- IABS (R214): Writes the absolute value of a 32-bit signed integer, wrapping. -/
  | iabs (w : AWord)
  /-- AND (R216): Bitwise AND of two registers per lane. -/
  | and (w : AWord)
  /-- OR (R216): Bitwise OR of two registers per lane. -/
  | or (w : AWord)
  /-- XOR (R216): Bitwise XOR of two registers per lane. -/
  | xor (w : AWord)
  /-- ANDN (R216): Bitwise a AND NOT b per lane. -/
  | andn (w : AWord)
  /-- SHL (R216): Shifts left by an unsigned count from b; counts of 32 or more give 0. -/
  | shl (w : AWord)
  /-- SHR (R216): Logical right shift by an unsigned count from b. -/
  | shr (w : AWord)
  /-- SAR (R216): Arithmetic right shift by an unsigned count from b. -/
  | sar (w : AWord)
  /-- ROTL (R216): Rotates left by the count from b modulo 32. -/
  | rotl (w : AWord)
  /-- BFX (R217): Extracts a bit field at the position and width in b, sign-extending for I32. -/
  | bfx (w : AWord)
  /-- BFI (R217): Inserts the low bits of a into c at the position and width in b. -/
  | bfi (w : AWord)
  /-- POPC (R218): Counts the set bits of a. -/
  | popc (w : AWord)
  /-- CLZ (R218): Counts the leading zero bits of a. -/
  | clz (w : AWord)
  /-- CTZ (R218): Counts the trailing zero bits of a. -/
  | ctz (w : AWord)
  /-- BREV (R218): Reverses the bit order of a. -/
  | brev (w : AWord)
  /-- ISET (R219): Compares two integers and writes all ones or zero, or sets lane bits of a mask. -/
  | iset (w : AWord)
  /-- SEL (R220): Writes a where c is nonzero and b otherwise. -/
  | sel (w : AWord)
  /-- MOV (R220): Copies a register's bit pattern. -/
  | mov (w : AWord)
  /-- MOVI (R220): Writes the sign-extended 8-bit immediate to a vector register. -/
  | movi (w : IWord)
  /-- MOVW (R220): Writes the 32-bit literal word that follows to a vector register. -/
  | movw (w : IWord) (lit : Word)
  /-- IADD64 (R215): Adds two 64-bit register pairs modulo 2^64. -/
  | iadd64 (w : AWord)
  /-- IMAD64 (R215): Writes a 32-by-32 product plus a 64-bit addend into a register pair. -/
  | imad64 (w : AWord)
  /-- FADD (R221): Floating-point addition with one rounding per element. -/
  | fadd (w : AWord)
  /-- FSUB (R221): Floating-point subtraction with one rounding per element. -/
  | fsub (w : AWord)
  /-- FMUL (R221): Floating-point multiplication with one rounding per element. -/
  | fmul (w : AWord)
  /-- FFMA (R221): Fused multiply-add with a single rounding. -/
  | ffma (w : AWord)
  /-- FMIN (R223): Selects the lesser operand, NaNs discarded, with -0 below +0. -/
  | fmin (w : AWord)
  /-- FMAX (R223): Selects the greater operand, NaNs discarded, with -0 below +0. -/
  | fmax (w : AWord)
  /-- FABS (R223): Clears the sign of each non-NaN element. -/
  | fabs (w : AWord)
  /-- FNEG (R223): Inverts the sign of each non-NaN element. -/
  | fneg (w : AWord)
  /-- FSET (R224): Compares floating elements and writes all ones or zero, or mask bits. -/
  | fset (w : AWord)
  /-- FCLASS (R225): Writes a one-hot class mask for each element. -/
  | fclass (w : AWord)
  /-- FCVT (R226): Converts between integer and floating formats under RM. -/
  | fcvt (w : AWord)
  /-- FRND (R227): Rounds each element to an integral value in its own format. -/
  | frnd (w : AWord)
  /-- FSCALB (R228): Multiplies each element by 2 to the integer power in b, rounded once. -/
  | fscalb (w : AWord)
  /-- FDIV (R221): Floating-point division with one rounding. -/
  | fdiv (w : AWord)
  /-- FSQRT (R221): Floating-point square root with one rounding. -/
  | fsqrt (w : AWord)
  /-- FDOT2 (R222): Two-element packed dot product plus an F32 addend, rounded once. -/
  | fdot2 (w : AWord)
  /-- IADD_IMM (R41): Adds a sign-extended 8-bit immediate to a register. -/
  | iaddImm (w : IWord)
  /-- SHL_IMM (R216): Shifts left by a zero-extended 8-bit count. -/
  | shlImm (w : IWord)
  /-- SHR_IMM (R216): Logical right shift by a zero-extended 8-bit count. -/
  | shrImm (w : IWord)
  /-- SAR_IMM (R216): Arithmetic right shift by a zero-extended 8-bit count. -/
  | sarImm (w : IWord)
  /-- ROTL_IMM (R216): Rotates left by a zero-extended 8-bit count modulo 32. -/
  | rotlImm (w : IWord)
  /-- AND_IMM (R41): ANDs a register with a sign-extended 8-bit immediate. -/
  | andImm (w : IWord)
  /-- MOVI_SCALAR (R220): Writes the sign-extended 8-bit immediate to an s-register. -/
  | moviScalar (w : IWord)
  /-- MOVW_SCALAR (R220): Writes the following 32-bit literal to an s-register. -/
  | movwScalar (w : IWord) (lit : Word)
  /-- IADD_SCALAR_IMM (R220): Adds a sign-extended 8-bit immediate to an s-register. -/
  | iaddScalarImm (w : IWord)
  /-- BRA (R184): Unconditional branch to the clause header at H plus the offset. -/
  | bra (w : JWord)
  /-- BRV (R184): Branches each lane whose vector condition is nonzero. -/
  | brv (w : JcWord)
  /-- BRS (R184): Branches the path when the scalar condition is nonzero. -/
  | brs (w : JcWord)
  /-- CALL (R184): Writes the return header index to the link register and branches. -/
  | call (w : JcWord)
  /-- RET (R184): Jumps each lane to the header index held in its register. -/
  | ret (w : JcWord)
  /-- JMPI (R184): Jumps each lane into a jump table at H plus offset plus twice its index. -/
  | jmpi (w : JcWord)
  /-- EXIT (R185): Ends each executing lane; it counts as exited from issue. -/
  | exit (w : JWord)
  /-- EXIT_COMPLETE (R119): An EXIT completes once the lane's outstanding register writes and copies have delivered, been discarded or completed. -/
  | exitComplete (l : LaneRef)
  /-- JOIN (R187): Sets the executing lanes' bits in a mask. -/
  | join (w : IWord)
  /-- LEAVE (R187): Clears the executing lanes' bits in a mask. -/
  | leave (w : IWord)
  /-- WAITM (R104): Holds each executing lane until every member of the mask stands at a WAITM on it. -/
  | waitm (w : IWord)
  /-- MSET (R187): Writes a mask from an s-register or constant. -/
  | mset (w : IWord)
  /-- MMOV (R187): Copies one mask register to another. -/
  | mmov (w : IWord)
  /-- MGET (R187): Copies a mask into an s-register. -/
  | mget (w : IWord)
  /-- BAR (R189): Arrives the sheaf at a named barrier and holds its lanes until the phase completes. -/
  | bar (w : IWord)
  /-- BARA (R189): Arrives the sheaf at a named barrier without waiting and records the phase. -/
  | bara (w : IWord)
  /-- BARW (R189): Holds the lane until the sheaf's recorded barrier phase has completed. -/
  | barw (w : IWord)
  /-- MON (R191): Arms each lane's monitor on the 64 B line of its element. -/
  | mon (w : MWord)
  /-- MWAIT (R192): Holds each lane until its monitor wakes it and writes the wake reason. -/
  | mwait (w : AWord)
  /-- MWAIT_TIMEOUT (R192): A lane's MWAIT timeout elapses and the lane wakes with reason 1. -/
  | mwaitTimeout (l : LaneRef)
  /-- MWAIT_SPURIOUS_WAKE (R153): A lane at MWAIT wakes spuriously with reason 3. -/
  | mwaitSpuriousWake (l : LaneRef)
  /-- SHFL (R194): Moves values between members of a mask by index, rotation, shift or quad pattern. -/
  | shfl (w : AWord)
  /-- VOTE (R193): Writes ANY, ALL, BALLOT or EQ over the members of a mask. -/
  | vote (w : AWord)
  /-- MATCH (R193): Writes the members holding the same value, or the lowest such member. -/
  | matchLanes (w : AWord)
  /-- UNI (R195): Copies a value uniform over the executing lanes into an s-register, or traps NONUNIFORM. -/
  | uni (w : AWord)
  /-- RDLANE (R193): Gives every member the value of member lane n. -/
  | rdlane (w : AWord)
  /-- WRLANE (R193): Writes the lowest member's value into lane n's destination. -/
  | wrlane (w : AWord)
  /-- ELECT (R193): Flags or names the lowest member of a mask. -/
  | elect (w : AWord)
  /-- REGROUP (R196): Synchronises participating sheaves and moves lanes with their PC and register range into key order. -/
  | regroup (w : AWord)
  /-- YIELD (R186): Ends the group and makes the port prefer another sheaf in free mode. -/
  | yield (w : AWord)
  /-- NOP (R186): Has no effect. -/
  | nop (w : AWord)
  /-- RDSR (R197): Reads a special register into each executing lane. -/
  | rdsr (w : IWord)
  /-- WRSR (R197): Writes a uniform value to FRM or FX for later instructions of the sheaf. -/
  | wrsr (w : IWord)
  /-- RAND (R202): Returns ZMIX of the seed, lane position and counter, and advances the counter. -/
  | rand (w : AWord)
  /-- TRAP (R203): Stops each executing lane with SW_TRAP and the given code. -/
  | trap (w : IWord)
  /-- BKPT (R203): Parks each executing lane with BREAKPOINT when debugging is enabled. -/
  | bkpt (w : IWord)
  /-- LAUNCH (R204): Each lane releases at DEVICE scope and submits a launch descriptor to a queue of its context. -/
  | launch (w : AWord)
  /-- LAUNCH_ANSWER (R204): The launch controller's answer to a device-side LAUNCH arrives and is written to D. -/
  | launchAnswer (core : Nat) (k : Nat)
  /-- VFREE (R205): Releases a range of vector registers for the executing lanes. -/
  | vfree (w : AWord)
  /-- FFN (R233): Computes a selected elementary function rounded once, parking lanes whose rounding is in doubt. -/
  | ffn (w : AWord)
  /-- REDL (R236): Gives every member of a mask the once-rounded sum of the members' values. -/
  | redl (w : AWord)
  /-- MMA (R240): Sheaf-wide 8x8 tile multiply-accumulate, rounded once per element. -/
  | mma (w : AWord)
  /-- MMAL (R243): Sheaf-wide LG6 tile multiply-accumulate with block scales from the side tables. -/
  | mmal (w : AWord)
  /-- LDF (R246): Loads a matrix fragment through a record into a register group. -/
  | ldf (w : MWord)
  /-- STF (R247): Stores a matrix fragment from a register group through a record. -/
  | stf (w : MWord)
  /-- PARK_ENTRY_GRANT (R171): An element waiting in staging for a free park-queue entry receives one. -/
  | parkEntryGrant (core : Nat) (k : Nat)
  /-- WU_ACCEPT (R174): The cluster's wide unit takes the oldest queued request from the next core in round robin. -/
  | wuAccept (cluster : Nat)
  /-- WU_DECIDE (R163): The wide unit finishes a request and delivers its result or passes it to the exact stage. -/
  | wuDecide (core : Nat) (k : Nat)
  /-- XS_ACCEPT (R174): The die's exact stage takes the oldest request of the next cluster in round robin. -/
  | xsAccept (die : Nat)
  /-- XS_DECIDE (R165): The exact stage decides a request and delivers its result. -/
  | xsDecide (core : Nat) (k : Nat)
  /-- REGISTER_REFILL (R110): A spilled register read back is refilled and its lanes' pending mark cleared. -/
  | registerRefill (stook : Nat) (sheaf : Nat) (reg : Nat)
  /-- BRSET (R256): Validates a record from eight s-registers and installs it in a slot, or refuses it. -/
  | brset (w : MWord)
  /-- BRGET (R256): Reads a slot's record into eight s-registers. -/
  | brget (w : MWord)
  /-- BRINV (R256): Unsets a record slot and drops its block-side cache entries. -/
  | brinv (w : MWord)
  /-- LD (R257): Loads elements through a record into registers, converting under AF. -/
  | ld (w : MWord)
  /-- ST (R257): Stores elements through a record, converting under AF. -/
  | st (w : MWord)
  /-- LDS (R259): Loads from the stook's scratchpad. -/
  | lds (w : MWord)
  /-- STS (R259): Stores to the stook's scratchpad. -/
  | sts (w : MWord)
  /-- ATOM (R260): Atomic read-modify-write of a word at its home or in the scratchpad, returning the old value. -/
  | atom (w : MWord)
  /-- CAS (R260): Compare-and-swap of a word, returning the old value. -/
  | cas (w : MWord)
  /-- RED (R262): Reduction into a word without return, in update-only state or at the home. -/
  | red (w : MWord)
  /-- XRED (R263): Adds an exact floating value into an exact cell. -/
  | xred (w : MWord)
  /-- XRD (R263): Combines and reads an exact cell, rounding once, optionally clearing it. -/
  | xrd (w : MWord)
  /-- FENCE (R264): Orders the lane's accesses at a scope as acquire, release or acq_rel. -/
  | fence (w : MWord)
  /-- PREF (R265): Brings the line of each lane's element to a named cache level. -/
  | pref (w : MWord)
  /-- CCTL (R266): Cleans or discards the line of each lane's element in L1 and L2. -/
  | cctl (w : MWord)
  /-- LOAD_RESPONSE (R257): Data of an outstanding load or atomic arrives and is written to the lane's registers. -/
  | loadResponse (core : Nat) (k : Nat)
  /-- HOME_REQUEST (R134): A write, atomic or read reaches the home slice of its line and is performed there in coherence order. -/
  | homeRequest (core : Nat) (k : Nat) (sector : SectorRead)
  /-- BSC_FILL (R74): A missing side-table entry arrives in the block-side cache and the waiting lanes or tile proceed. -/
  | bscFill (core : Nat) (k : Nat)
  /-- TBEGIN (R316): Begins or nests an optimistic transaction with an abort target. -/
  | tbegin (w : MWord)
  /-- TBEGINL (R316): Begins or nests a locked transaction, drawing a ticket when none is held. -/
  | tbeginl (w : MWord)
  /-- TEND (R317): Commits the outermost transaction of each lane or lowers its depth, and writes the continuing-lane mask. -/
  | tend (w : AWord)
  /-- TABORT (R318): Aborts each lane's transaction with a software status code. -/
  | tabort (w : AWord)
  /-- TVAL (R279): Validates each lane's read log without committing. -/
  | tval (w : AWord)
  /-- TSTAT (R319): Writes transaction depth and status to each lane, optionally clearing the status. -/
  | tstat (w : AWord)
  /-- COMMIT_LOCK_TIMEOUT (R277): An optimistic commit that has held locks for 2 us releases them and aborts with CONFLICT. -/
  | commitLockTimeout (l : LaneRef)
  /-- LOCKED_ACCESS_TIMEOUT (R287): A plain access waiting 2 us on a locked word aborts the holder with CONFLICT and is then performed. -/
  | lockedAccessTimeout (core : Nat) (k : Nat)
  /-- PBAR_ORD (R320): Places a persist barrier and completes at issue. -/
  | pbarOrd (w : MWord)
  /-- PBAR_SYNC (R320): Places a persist barrier and holds the lane's next access until its predecessors are durable. -/
  | pbarSync (w : MWord)
  /-- PBAR_SYNC_COMPLETE (R294): Every write preceding a PBAR.SYNC in persist order becomes durable and the barrier completes. -/
  | pbarSyncComplete (l : LaneRef)
  /-- CPY (R306): Starts a contiguous bulk copy described by five s-registers. -/
  | cpy (w : MWord)
  /-- CPYG (R306): Starts a gathering bulk copy through an index list. -/
  | cpyg (w : MWord)
  /-- CPYS (R306): Starts a scattering bulk copy through an index list. -/
  | cpys (w : MWord)
  /-- COPY_ACCEPT (R308): The copy engine accepts a command once it holds a range-lock entry and any buffer slot, finishing the token. -/
  | copyAccept (core : Nat) (k : Nat)
  /-- COPY_CHUNK (R309): The engine translates and writes one chunk of a copy and advances its cursor. -/
  | copyChunk (core : Nat) (k : Nat) (n : Nat) (sector : SectorRead)
  /-- CWAIT (R312): Waits for the lane's copies of a group or all copies, then acquires or traps on a failure. -/
  | cwait (w : AWord)
  /-- CBINIT (R313): Initialises a circular buffer's geometry, counters and ring positions. -/
  | cbinit (w : AWord)
  /-- CBACQ (R314): Takes the next filled slot and returns its scratchpad offset, as an acquire. -/
  | cbacq (w : AWord)
  /-- CBREL (R314): Releases the oldest acquired slot, as a release. -/
  | cbrel (w : AWord)
  /-- PAGE_WALK (R361): A walker translates a missing address through the page tables, ending in a leaf or a cause. -/
  | pageWalk (core : Nat) (ctx : Nat) (va : DWord)
  /-- FAULT_SERVICE (R369): Service cores join misses per granule, walk again, and acknowledge or report the fault. -/
  | faultService (fault : Word)
  /-- FAULT_ACK_RETRY (R371): FAULT_ACK with RETRY drops TLB entries for the page and re-issues the fault's replay entries, fetch or copy. -/
  | faultAckRetry (h : MsgHdr) (fault : Word)
  /-- FAULT_ACK_NOMAP (R371): FAULT_ACK with NOMAP turns the parked accesses into NO_MAPPING, aborts or fails them. -/
  | faultAckNomap (h : MsgHdr) (fault : Word)
  /-- FAULT_ACK_RESUME (R371): FAULT_ACK with RESUME lets stopped lanes continue after their word. -/
  | faultAckResume (h : MsgHdr) (fault : Word)
  /-- FAULT_ACK_END_LAUNCH (R371): FAULT_ACK with END_LAUNCH ends the launch as under CANCEL. -/
  | faultAckEndLaunch (h : MsgHdr) (fault : Word)
  /-- FAULT_ACK_END_CONTEXT (R371): FAULT_ACK with END_CONTEXT ends every launch of the context and empties its queues. -/
  | faultAckEndContext (h : MsgHdr) (fault : Word)
  /-- SUBMIT (R353): Validates a launch descriptor and enqueues it with the context's next identifier. -/
  | submit (h : MsgHdr) (queue : DWord) (desc : BitVec 2048)
  /-- CANCEL (R356): Removes a launch's unplaced stooks and stops its resident ones, ending it cancelled. -/
  | cancel (h : MsgHdr) (launch : Word)
  /-- QUERY (R356): Returns the state of a launch. -/
  | query (h : MsgHdr) (launch : Word)
  /-- TELEMETRY_QUERY (R398): A QUERY with CONTEXT 0xFF returns the telemetry payload. -/
  | telemetryQuery (h : MsgHdr)
  /-- MEMREAD (R348): Reads bytes by virtual or physical address as an acquire at SYSTEM scope. -/
  | memread (h : MsgHdr) (b : MemBlock)
  /-- MEMWRITE (R347): Writes bytes by virtual or physical address as a release at SYSTEM scope, answering once performed or durable. -/
  | memwrite (h : MsgHdr) (b : MemBlock) (data : List Byte)
  /-- SETTINGS_WRITE (R393): A physical MEMWRITE with CONTEXT 0xFF to the settings block sets quotas, pools, telemetry interval, partitions or power cap. -/
  | settingsWrite (h : MsgHdr) (b : MemBlock) (data : List Byte)
  /-- CTXSET (R350): Writes a context record, creating, changing or destroying the context. -/
  | ctxset (h : MsgHdr) (rec : BitVec 512)
  /-- PEERCFG (R358): Sets the peer link enables, routes, domain and device number. -/
  | peercfg (h : MsgHdr) (cfg : BitVec 4160)
  /-- SEQ_GAP_TIMEOUT (R347): After 1 ms without a missing SEQ the device answers the next request with a sequence-gap error and moves on. -/
  | seqGapTimeout (ctx : Nat)
  /-- CONTROL_PORT_FAILOVER (R344): Loss of the working control port moves all traffic to the standby without losing accepted messages. -/
  | controlPortFailover (port : Nat)
  /-- STOOK_PLACEMENT (R354): When a core frees resources the controller offers them to the highest-priority ready launch and places stooks. -/
  | stookPlacement (core : Nat)
  /-- QUANTUM_EXPIRY (R112): A stook resident for its quantum is pre-empted when a stook of its launch waits for placement. -/
  | quantumExpiry (stook : Nat)
  /-- WATCHDOG_EXPIRY (R121): The launch watchdog expires; every path stops and the launch ends with WATCHDOG. -/
  | watchdogExpiry (ctx : Nat) (launch : Word)
  /-- PREEMPT (R375): Saves the resident stooks of a launch or context into the spill region. -/
  | preempt (h : MsgHdr) (launch : Word)
  /-- RESTORE (R378): Places a launch's saved stooks again and reinstates their state. -/
  | restore (h : MsgHdr) (launch : Word)
  /-- SETBP (R373): Sets a hardware breakpoint at a header index of a launch. -/
  | setbp (h : MsgHdr) (launch : Word) (arg0 : Word) (arg1 : Word)
  /-- CLRBP (R373): Removes a hardware breakpoint. -/
  | clrbp (h : MsgHdr) (launch : Word) (arg0 : Word) (arg1 : Word)
  /-- STOPALL (R123): Stops every path of a stook at its next clause boundary with BREAKPOINT. -/
  | stopall (h : MsgHdr) (launch : Word) (arg0 : Word) (arg1 : Word)
  /-- RELEASE (R373): Releases the stopped lanes of a sheaf or stook. -/
  | release (h : MsgHdr) (launch : Word) (arg0 : Word) (arg1 : Word)
  /-- STEP (R122): Releases stopped lanes in single-step so each executes one instruction and parks with STEP. -/
  | step (h : MsgHdr) (launch : Word) (arg0 : Word) (arg1 : Word)
  /-- DUMP (R373): Writes a save image of a stopped stook without removing it. -/
  | dump (h : MsgHdr) (launch : Word) (arg0 : Word) (arg1 : Word)
  /-- KEYLOAD_LOAD (R388): Unwraps and installs a key into a slot bound to the context after flushing the slot's lines. -/
  | keyloadLoad (h : MsgHdr) (slot : Byte) (rsv : BitVec 48) (epk : BitVec 448) (wkey : BitVec 576)
  /-- KEYLOAD_ERASE (R388): Erases a key slot after flushing its cached lines. -/
  | keyloadErase (h : MsgHdr) (slot : Byte) (rsv : BitVec 48) (epk : BitVec 448) (wkey : BitVec 576)
  /-- FWUPDATE_BEGIN (R390): Clears the inactive firmware bank. -/
  | fwupdateBegin (h : MsgHdr) (total : DWord)
  /-- FWUPDATE_DATA (R390): Writes data into the inactive firmware bank. -/
  | fwupdateData (h : MsgHdr) (offset : DWord) (data : List Byte)
  /-- FWUPDATE_COMMIT (R390): Verifies the inactive bank and marks it pending for the next reset. -/
  | fwupdateCommit (h : MsgHdr)
  /-- ATTEST (R391): Returns a signed attestation report over a nonce. -/
  | attest (h : MsgHdr) (nonce : BitVec 256)
  /-- TELEMETRY_TICK (R398): Every TELEM_MS the device sends a TELEMETRY message. -/
  | telemetryTick
  /-- POWER_WINDOW (R395): At the end of each 1 ms power window the clock is lowered or raised by 25 MHz. -/
  | powerWindow (mw : Nat) (mdeg : Nat)
  /-- THERMAL_TRIP (R396): A die above 110 C makes the service die cut power to compute dies and DRAM, as on supply loss. -/
  | thermalTrip (die : Nat) (mdeg : Nat)
  /-- POWER_LOSS (R291): Loss of the 54 V supply; the hold-up store drains every staging buffer to NV media. -/
  | powerLoss (drained : Bool)
  /-- STAGING_DRAIN (R291): NV staging buffers drain to media at the stack's durable write rate. -/
  | stagingDrain (stack : Nat)
  /-- POWER_UP (R392): Service cores boot firmware, train links, load retirement tables, recover NV and report. -/
  | powerUp (energyOk : Bool)
  /-- LA_SNAPSHOT (R298): The NV copier takes a durable snapshot of a granule on a launch-atomic launch's first write to it. -/
  | laSnapshot (ctx : Nat) (launch : Word) (granule : Nat)
  /-- GRANULE_SNAPSHOT (R380): A copier snapshots a granule on a REPLAY or PAIRED launch's first write to it. -/
  | granuleSnapshot (ctx : Nat) (launch : Word) (granule : Nat)
  /-- LA_COMPLETION_RECORD (R300): A launch-atomic launch's completion record is written in SEQ order and its snapshots released. -/
  | laCompletionRecord (ctx : Nat) (launch : Word)
  /-- WATERMARK_COMPARE (R384): Twins compare window watermarks at a compare point and release the held stores or raise WATERMARK. -/
  | watermarkCompare (stook : Nat) (twin : Nat)
  /-- TWIN_TIMEOUT (R384): A twin absent 10 ms after the other reaches a compare point raises WATERMARK. -/
  | twinTimeout (stook : Nat)
  /-- SAMPLE_CHECK (R385): Firmware reruns a sampled stook of a PURE launch and compares digests. -/
  | sampleCheck (ctx : Nat) (launch : Word) (stookid : Word) (verdict : SampleVerdict)
  /-- SCRUB (R397): Background scrub of DRAM, granary and NV within its bandwidth cap. -/
  | scrub (pa : Nat) (sector : SectorRead)
  /-- CALIBRATION (R397): Periodic link and DRAM calibration. -/
  | calibration (resource : Nat)
  /-- NV_WEAR_MANAGEMENT (R397): Continuous NV wear management within its cap. -/
  | nvWearManagement (stack : Nat) (permille : Nat)
  /-- LINK_RETRAIN (R402): A peer link whose retransmissions exceed the threshold is retrained, and marked down after three failures in 1 h. -/
  | linkRetrain (link : Nat) (ok : Bool)
  /-- UNASSIGNED_SLOT_ISSUE (R45): A word in an unassigned slot issues and its path traps ILLEGAL_OPCODE, precisely. -/
  | unassignedSlotIssue (w : UWord)
  /-- UNKNOWN_MESSAGE_TYPE (R346): A control-link request with an unknown TYPE is answered with STATUS 0x8000_00F1. One of a listed TYPE
  whose OP or ACTION is not listed stands here too. -/
  | unknownMessageType (h : MsgHdr) (m : Unlisted)
  /-- CONTROL_FRAME_RETRANSMIT (R344): A control-link frame that fails its CRC-32C is retransmitted by the link layer. -/
  | controlFrameRetransmit (port : Nat)
  /-- PEER_FRAME_RETRANSMIT (R386): A peer-link frame that fails its link CRC is retransmitted and counted. -/
  | peerFrameRetransmit (link : Nat)
  /-- STORE_QUEUE_DRAIN (R142): A sheaf's store-queue entry drains into L1 or onward and becomes visible at its scope. -/
  | storeQueueDrain (stook : Nat) (sheaf : Nat)
  deriving DecidableEq, Repr, Inhabited

end Sys2Proof
end

