-- ==== Sys2Proof/Machine/Fields.lean ====
section
/-! DEFINITION. Bit fields of the instruction, extension and special words (01_instruction_words.md R11 to R16),
and the integer readings and little-endian groupings every other file uses (R4, R63). -/

namespace Sys2Proof

/-- Bits `[lo + len - 1 : lo]` of a number. -/
def natField (x lo len : Nat) : Nat := (x >>> lo) % 2 ^ len

/-! ### E word (R15) -/

def eC (e : Word) : OpCode7 := e.extractLsb' 25 7
def eRM (e : Word) : BitVec 3 := e.extractLsb' 22 3
def eFMT (e : Word) : BitVec 6 := e.extractLsb' 16 6
def eTOK (e : Word) : BitVec 3 := e.extractLsb' 13 3
def eSCALAR (e : Word) : Bool := e.getLsbD 12
def eOPT (e : Word) : BitVec 6 := e.extractLsb' 6 6
def eSREG (e : Word) : BitVec 6 := e.extractLsb' 0 6

/-! ### ME word (R16) -/

def meSCOPE (m : Word) : BitVec 3 := m.extractLsb' 29 3
def meORDER (m : Word) : BitVec 2 := m.extractLsb' 27 2
def meREUSE (m : Word) : BitVec 2 := m.extractLsb' 25 2
def meREPL (m : Word) : Bool := m.getLsbD 24
def meTOK (m : Word) : BitVec 3 := m.extractLsb' 21 3
def meSV (m : Word) : BitVec 5 := m.extractLsb' 16 5
def meIMM (m : Word) : Int := (m.extractLsb' 0 16).toInt

/-! ### Operand codes (R19) -/

def cZERO : OpCode7 := 0x74
def cLANE : OpCode7 := 0x75
def cONES : OpCode7 := 0x76
def cSIGN : OpCode7 := 0x77
def cBCAST : OpCode7 := 0x78

/-- A vector register code 0x00 to 0x6F (v0 to v111). -/
def isVReg (c : OpCode7) : Bool := c.toNat < 112
/-- A scalar register code 0x00 to 0x3F. -/
def isSReg (c : OpCode7) : Bool := c.toNat < 64
/-- A latch code 0x70 to 0x73. -/
def isLatch (c : OpCode7) : Bool := 112 ≤ c.toNat && c.toNat < 116
/-- A reserved code 0x79 to 0x7F. -/
def isReservedCode (c : OpCode7) : Bool := 0x79 ≤ c.toNat
/-- A constant permitted in the scalar domain: ZERO, ONES, SIGNBIT (the SD column of R19). -/
def isScalarConst (c : OpCode7) : Bool := c == cZERO || c == cONES || c == cSIGN
/-- A constant source of any kind. -/
def isConst (c : OpCode7) : Bool := c == cZERO || c == cLANE || c == cONES || c == cSIGN

/-! ### Numbers and bytes -/

/-- The two's-complement reading of the low `n` bits of a number. -/
def signedOf (n x : Nat) : Int :=
  let y := x % 2 ^ n
  if 2 * y < 2 ^ n then (y : Int) else (y : Int) - (2 ^ n : Nat)

/-- The residue of an integer modulo `2^n`, as a number. -/
def wrapInt (n : Nat) (x : Int) : Nat := (x % (2 ^ n : Nat)).toNat

/-- The low `k` bytes of a number, least significant first (R4). -/
def leBytes : Nat → Nat → List Byte
  | 0, _ => []
  | k + 1, x => BitVec.ofNat 8 x :: leBytes k (x >>> 8)

/-- The number whose bytes, least significant first, are given (R4). -/
def leNat : List Byte → Nat
  | [] => 0
  | b :: bs => b.toNat + 256 * leNat bs

/-- The little-endian 32-bit words of a byte list; an incomplete last word is dropped. -/
def leWords : List Byte → List Word
  | a :: b :: c :: d :: r => BitVec.ofNat 32 (leNat [a, b, c, d]) :: leWords r
  | _ => []

/-- The numbers of the set bits of a mask among lanes `0 … 31`, ascending: the order in which lanes act (R136). -/
def lanesOf (m : LaneMask) : List Nat := (List.range 32).filter fun l => m.getLsbD l

/-- The mask with exactly the listed lanes. -/
def maskOf (ls : List Nat) : LaneMask := ls.foldl (fun m l => m ||| (1#32 <<< l)) 0

/-- The mask of the lanes of `m` that satisfy a test. -/
def maskFilter (m : LaneMask) (p : Nat → Bool) : LaneMask := maskOf ((lanesOf m).filter p)

/-- The number of lanes of a mask: the population of a path (R98). -/
def population (m : LaneMask) : Nat := (lanesOf m).length

end Sys2Proof
end

