-- ==== Sys2Proof/WellFormed.lean ====
section
/-! DEFINITION. Which terms of the syntax stand for words: the constraints an encoding puts on a term (a transfer stands
in VALU, SYNC or SYS, R42; PBAR.ORD and PBAR.SYNC differ in SIZE/VEC [16], R320; an unassigned word names an unassigned
slot of the seven classes and has its extension word exactly when its bit 0 is 1, R45) and the ranges of the arguments of
an event. What a word's fields may hold is judged at issue (R31), not here. -/

namespace Sys2Proof

/-- The three classes a control transfer may stand in (R42). -/
def transferClassOk (c : BitVec 3) : Bool := c == 0 || c == 5 || c == 6

/-- The OP values of the assigned slots that are no transfers (R40, R44). -/
def assignedOps : List Nat :=
  ([0x000, 0x001, 0x002, 0x003, 0x004, 0x005, 0x006, 0x007, 0x008, 0x009, 0x00a, 0x00b, 0x00c, 0x00d, 0x00e, 0x00f]
   ++ [0x010, 0x011, 0x012, 0x013, 0x014, 0x015, 0x016, 0x017, 0x018, 0x019, 0x01a, 0x01b, 0x01c, 0x020, 0x021, 0x022]
   ++ [0x023, 0x024, 0x025, 0x026, 0x027, 0x028, 0x029, 0x02a, 0x02b, 0x02c, 0x02d, 0x02e, 0x02f, 0x030, 0x031, 0x032]
   ++ [0x033, 0x034, 0x035, 0x036, 0x037, 0x038, 0x040, 0x041, 0x080, 0x081, 0x088, 0x089, 0x0c0, 0x0c1, 0x0c2, 0x0c8]
   ++ [0x0c9, 0x0ca, 0x0cb, 0x0d0, 0x0d1, 0x0d2, 0x0d3, 0x0d4, 0x0d8, 0x0d9, 0x0da, 0x0db, 0x0e0, 0x0e1, 0x0e2, 0x0e3]
   ++ [0x0e4, 0x0e5, 0x100, 0x101, 0x102, 0x108, 0x110, 0x111, 0x112, 0x140, 0x141, 0x142, 0x143, 0x144, 0x145, 0x148]
   ++ [0x149, 0x14a, 0x14c, 0x14d, 0x150, 0x151, 0x152, 0x153, 0x154, 0x155, 0x156, 0x157, 0x15e, 0x15f, 0x180, 0x181]
   ++ [0x182, 0x183, 0x184, 0x185, 0x186])

/-- An unassigned slot of one of the seven classes (R45). -/
def unassignedOp (op : Nat) : Bool :=
  op < 0x1c0 && !assignedOps.contains op
    && !((op / 64 == 0 || op / 64 == 5 || op / 64 == 6) && 0x39 ≤ op % 64)

def LaneRef.ok (l : LaneRef) : Bool := l.sheaf < 32 && l.lane < 32
def PathRef.ok (p : PathRef) : Bool := p.sheaf < 32 && p.lanes != 0
def coreOk (c : Nat) : Bool := c < 3456
/-- A context number 0 to 63, or 0xFF for the device (R345). -/
def MsgHdr.ok (h : MsgHdr) : Bool :=
  (h.context < 64 || h.context == 255) && h.length % 8 == 0 && h.length ≤ 65536 && h.flags == 0 && h.reserved == 0

/-- The requests R346 lists, with the operations that R371, R373, R388 and R390 list for their TYPEs. -/
def listedRequest (type op : Nat) : Bool :=
  (1 ≤ type && type ≤ 9) || (type = 0x0a && op < 6) || (type = 0x0b && op < 2) || (type = 0x0c && op < 4) || (type = 0x0d && op < 5)

/-- Whether a term of the syntax is well formed. -/
def WellFormed : Instr → Bool
  | .clauseFetch p => p.ok
  | .rotationStep core => coreOk core
  | .iadd _ => true
  | .isub _ => true
  | .imul _ => true
  | .imulh _ => true
  | .imad _ => true
  | .imin _ => true
  | .imax _ => true
  | .iabs _ => true
  | .and _ => true
  | .or _ => true
  | .xor _ => true
  | .andn _ => true
  | .shl _ => true
  | .shr _ => true
  | .sar _ => true
  | .rotl _ => true
  | .bfx _ => true
  | .bfi _ => true
  | .popc _ => true
  | .clz _ => true
  | .ctz _ => true
  | .brev _ => true
  | .iset _ => true
  | .sel _ => true
  | .mov _ => true
  | .movi _ => true
  | .movw _ _ => true
  | .iadd64 _ => true
  | .imad64 _ => true
  | .fadd _ => true
  | .fsub _ => true
  | .fmul _ => true
  | .ffma _ => true
  | .fmin _ => true
  | .fmax _ => true
  | .fabs _ => true
  | .fneg _ => true
  | .fset _ => true
  | .fclass _ => true
  | .fcvt _ => true
  | .frnd _ => true
  | .fscalb _ => true
  | .fdiv _ => true
  | .fsqrt _ => true
  | .fdot2 _ => true
  | .iaddImm _ => true
  | .shlImm _ => true
  | .shrImm _ => true
  | .sarImm _ => true
  | .rotlImm _ => true
  | .andImm _ => true
  | .moviScalar _ => true
  | .movwScalar _ _ => true
  | .iaddScalarImm _ => true
  | .bra w => transferClassOk w.cls
  | .brv w => transferClassOk w.cls
  | .brs w => transferClassOk w.cls
  | .call w => transferClassOk w.cls
  | .ret w => transferClassOk w.cls
  | .jmpi w => transferClassOk w.cls
  | .exit w => transferClassOk w.cls
  | .exitComplete l => l.ok
  | .join _ => true
  | .leave _ => true
  | .waitm _ => true
  | .mset _ => true
  | .mmov _ => true
  | .mget _ => true
  | .bar _ => true
  | .bara _ => true
  | .barw _ => true
  | .mon _ => true
  | .mwait _ => true
  | .mwaitTimeout l => l.ok
  | .mwaitSpuriousWake l => l.ok
  | .shfl _ => true
  | .vote _ => true
  | .matchLanes _ => true
  | .uni _ => true
  | .rdlane _ => true
  | .wrlane _ => true
  | .elect _ => true
  | .regroup _ => true
  | .yield _ => true
  | .nop _ => true
  | .rdsr _ => true
  | .wrsr _ => true
  | .rand _ => true
  | .trap _ => true
  | .bkpt _ => true
  | .launch _ => true
  | .launchAnswer core _ => coreOk core
  | .vfree _ => true
  | .ffn _ => true
  | .redl _ => true
  | .mma _ => true
  | .mmal _ => true
  | .ldf _ => true
  | .stf _ => true
  | .parkEntryGrant core _ => coreOk core
  | .wuAccept cluster => cluster < 144
  | .wuDecide core _ => coreOk core
  | .xsAccept die => die < 16
  | .xsDecide core _ => coreOk core
  | .registerRefill _ sheaf reg => sheaf < 32 && reg < 112
  | .brset _ => true
  | .brget _ => true
  | .brinv _ => true
  | .ld _ => true
  | .st _ => true
  | .lds _ => true
  | .sts _ => true
  | .atom _ => true
  | .cas _ => true
  | .red _ => true
  | .xred _ => true
  | .xrd _ => true
  | .fence _ => true
  | .pref _ => true
  | .cctl _ => true
  | .loadResponse core _ => coreOk core
  | .homeRequest core _ _ => coreOk core
  | .bscFill core _ => coreOk core
  | .tbegin _ => true
  | .tbeginl _ => true
  | .tend _ => true
  | .tabort _ => true
  | .tval _ => true
  | .tstat _ => true
  | .commitLockTimeout l => l.ok
  | .lockedAccessTimeout core _ => coreOk core || core == 3456
  | .pbarOrd w => !w.me.getLsbD 16
  | .pbarSync w => w.me.getLsbD 16
  | .pbarSyncComplete l => l.ok
  | .cpy _ => true
  | .cpyg _ => true
  | .cpys _ => true
  | .copyAccept core _ => coreOk core
  | .copyChunk core _ _ _ => coreOk core
  | .cwait _ => true
  | .cbinit _ => true
  | .cbacq _ => true
  | .cbrel _ => true
  | .pageWalk core ctx _ => coreOk core && ctx < 64
  | .faultService _ => true
  | .faultAckRetry h _ => h.ok
  | .faultAckNomap h _ => h.ok
  | .faultAckResume h _ => h.ok
  | .faultAckEndLaunch h _ => h.ok
  | .faultAckEndContext h _ => h.ok
  | .submit h _ _ => h.ok
  | .cancel h _ => h.ok
  | .query h _ => h.ok
  | .telemetryQuery h => h.ok
  | .memread h _ => h.ok
  | .memwrite h _ _ => h.ok
  | .settingsWrite h _ _ => h.ok
  | .ctxset h _ => h.ok
  | .peercfg h _ => h.ok
  | .seqGapTimeout ctx => ctx < 64 || ctx = 255
  | .controlPortFailover port => port < 2
  | .stookPlacement core => coreOk core
  | .quantumExpiry _ => true
  | .watchdogExpiry ctx _ => ctx < 64
  | .preempt h _ => h.ok
  | .restore h _ => h.ok
  | .setbp h _ _ _ => h.ok
  | .clrbp h _ _ _ => h.ok
  | .stopall h _ _ _ => h.ok
  | .release h _ _ _ => h.ok
  | .step h _ _ _ => h.ok
  | .dump h _ _ _ => h.ok
  | .keyloadLoad h _ _ _ _ => h.ok
  | .keyloadErase h _ _ _ _ => h.ok
  | .fwupdateBegin h _ => h.ok
  | .fwupdateData h _ _ => h.ok
  | .fwupdateCommit h => h.ok
  | .attest h _ => h.ok
  | .telemetryTick => true
  | .powerWindow _ _ => true
  | .thermalTrip die _ => die < 16
  | .powerLoss _ => true
  | .stagingDrain stack => stack < 4
  | .powerUp _ => true
  | .laSnapshot ctx _ _ => ctx < 64
  | .granuleSnapshot ctx _ _ => ctx < 64
  | .laCompletionRecord ctx _ => ctx < 64
  | .watermarkCompare _ _ => true
  | .twinTimeout _ => true
  | .sampleCheck ctx _ _ _ => ctx < 64
  | .scrub pa _ => pa < 2 ^ 48
  | .calibration _ => true
  | .nvWearManagement stack _ => stack < 4
  | .linkRetrain link _ => link < 48
  | .unassignedSlotIssue u => unassignedOp (u.w.extractLsb' 23 9).toNat && (u.ext.isSome == u.w.getLsbD 0)
  | .unknownMessageType h m => h.ok && !listedRequest m.type.toNat m.op.toNat
  | .controlFrameRetransmit port => port < 2
  | .peerFrameRetransmit link => link < 48
  | .storeQueueDrain _ sheaf => sheaf < 32

end Sys2Proof
end

