-- ==== Sys2Proof/Decode.lean ====
section
/-! DEFINITION. Decoding and encoding instruction words (01 R10 to R18, 02 R38 to R45). The decoder is total: on any
list of words it answers an instruction with the words that follow it, or a named reason why there is none. It pulls the
fields out and judges none of them: what a field may hold is an issue check (R31), made by Machine/Checks.lean. -/

namespace Sys2Proof

/-- Why a list of words holds no instruction word. -/
inductive DecodeError where
  /-- no word is left -/
  | noWord
  /-- the extension word of the instruction is missing (R30 check 7) -/
  | extensionMissing
  /-- the literal word of the instruction is missing (R30 check 7) -/
  | literalMissing
  /-- OP 0x1C0 to 0x1FF: class 7, which no clause can have (R39) -/
  | class7
  deriving DecidableEq, Repr

/-- The format keys of R38. An unassigned slot is walked as an A word (R45). -/
inductive Key where
  | A | I | IL | J | Jc | M
  deriving DecidableEq, Repr

/-! ### Word layouts -/

/-- OP, bits [31:23] (R11). -/
def opOf (w : Word) : Nat := (w.extractLsb' 23 9).toNat

/-- OP [8:6], the class of a word (R11). -/
def classOf (w : Word) : Nat := (w.extractLsb' 29 3).toNat

def unpackA (w : Word) (e : Option Word) : AWord :=
  { d := w.extractLsb' 16 7, n := w.getLsbD 15, a := w.extractLsb' 8 7, b := w.extractLsb' 1 7,
    ext := if w.getLsbD 0 then some (e.getD 0) else none }

def unpackI (w : Word) : IWord :=
  { d := w.extractLsb' 16 7, n := w.getLsbD 15, a := w.extractLsb' 8 7, imm := w.extractLsb' 0 8 }

def unpackJ (w : Word) : JWord := { cls := w.extractLsb' 29 3, off := w.extractLsb' 0 23 }

def unpackJc (w : Word) : JcWord :=
  { cls := w.extractLsb' 29 3, a := w.extractLsb' 16 7, off := w.extractLsb' 0 16 }

def unpackM (w : Word) (me : Word) : MWord :=
  { d := w.extractLsb' 16 7, n := w.getLsbD 15, a := w.extractLsb' 8 7, slot := w.extractLsb' 2 6,
    s := w.getLsbD 1, x := w.getLsbD 0, me := me }

def bit1 (b : Bool) : BitVec 1 := BitVec.ofBool b

def packA (op : Nat) (w : AWord) : Word :=
  BitVec.ofNat 9 op ++ w.d ++ bit1 w.n ++ w.a ++ w.b ++ bit1 w.ext.isSome

def packI (op : Nat) (w : IWord) : Word := BitVec.ofNat 9 op ++ w.d ++ bit1 w.n ++ w.a ++ w.imm

def packJ (slot : Nat) (w : JWord) : Word := w.cls ++ BitVec.ofNat 6 slot ++ w.off

def packJc (slot : Nat) (w : JcWord) : Word := w.cls ++ BitVec.ofNat 6 slot ++ w.a ++ w.off

def packM (op : Nat) (w : MWord) : Word :=
  BitVec.ofNat 9 op ++ w.d ++ bit1 w.n ++ w.a ++ w.slot ++ bit1 w.s ++ bit1 w.x

/-! ### The opcode map (R40 to R45) -/

/-- The slots with key I. -/
def opsI : List Nat :=
  ([0x019, 0x030, 0x031, 0x032, 0x033, 0x034, 0x035, 0x036, 0x038, 0x140, 0x141, 0x142, 0x143, 0x144, 0x145, 0x148]
   ++ [0x149, 0x14a, 0x180, 0x181, 0x183, 0x184])

/-- The slots with key M. -/
def opsM : List Nat :=
  ([0x088, 0x089, 0x0c0, 0x0c1, 0x0c2, 0x0c8, 0x0c9, 0x0ca, 0x0cb, 0x0d0, 0x0d1, 0x0d2, 0x0d3, 0x0d4, 0x0d8, 0x0d9]
   ++ [0x0da, 0x0db, 0x0e0, 0x0e1, 0x100, 0x101, 0x102, 0x14c])

/-- The assigned slots with key A. -/
def opsA : List Nat :=
  ([0x000, 0x001, 0x002, 0x003, 0x004, 0x005, 0x006, 0x007, 0x008, 0x009, 0x00a, 0x00b, 0x00c, 0x00d, 0x00e, 0x00f]
   ++ [0x010, 0x011, 0x012, 0x013, 0x014, 0x015, 0x016, 0x017, 0x018, 0x01b, 0x01c, 0x020, 0x021, 0x022, 0x023, 0x024]
   ++ [0x025, 0x026, 0x027, 0x028, 0x029, 0x02a, 0x02b, 0x02c, 0x02d, 0x02e, 0x02f, 0x040, 0x041, 0x080, 0x081, 0x0e2]
   ++ [0x0e3, 0x0e4, 0x0e5, 0x108, 0x110, 0x111, 0x112, 0x14d, 0x150, 0x151, 0x152, 0x153, 0x154, 0x155, 0x156, 0x157]
   ++ [0x15e, 0x15f, 0x182, 0x185, 0x186])

/-- The slots of the control transfers, 0x39 to 0x3F of VALU, SYNC and SYS (R42). -/
def isTransferOp (op : Nat) : Bool :=
  (op / 64 == 0 || op / 64 == 5 || op / 64 == 6) && 0x39 ≤ op % 64

/-- The format key of an OP (R38, R40, R44). -/
def keyOf (op : Nat) : Key :=
  if isTransferOp op then (if op % 64 == 0x39 || op % 64 == 0x3f then .J else .Jc)
  else if op == 0x01a || op == 0x037 then .IL
  else if opsI.contains op then .I
  else if opsM.contains op then .M
  else .A

/-- Whether a slot is assigned (R45). -/
def isAssigned (op : Nat) : Bool :=
  isTransferOp op || op == 0x01a || op == 0x037 || opsI.contains op || opsM.contains op || opsA.contains op

/-- Whether an extension or literal word follows the word (R38): how the clause walk of R30 skips. -/
def hasSecondWord (w : Word) : Bool :=
  match keyOf (opOf w) with
  | .A => w.getLsbD 0
  | .M => true
  | .IL => true
  | _ => false

/-- The constructor of an OP, from its first word and the word that follows it. `none` for an unassigned slot. -/
def ofOp (op : Nat) (w : Word) (e1 : Option Word) : Option Instr :=
  match op with
  | 0x000 => some (.iadd (unpackA w e1))
  | 0x001 => some (.isub (unpackA w e1))
  | 0x002 => some (.imul (unpackA w e1))
  | 0x003 => some (.imulh (unpackA w e1))
  | 0x004 => some (.imad (unpackA w e1))
  | 0x005 => some (.imin (unpackA w e1))
  | 0x006 => some (.imax (unpackA w e1))
  | 0x007 => some (.iabs (unpackA w e1))
  | 0x008 => some (.and (unpackA w e1))
  | 0x009 => some (.or (unpackA w e1))
  | 0x00a => some (.xor (unpackA w e1))
  | 0x00b => some (.andn (unpackA w e1))
  | 0x00c => some (.shl (unpackA w e1))
  | 0x00d => some (.shr (unpackA w e1))
  | 0x00e => some (.sar (unpackA w e1))
  | 0x00f => some (.rotl (unpackA w e1))
  | 0x010 => some (.bfx (unpackA w e1))
  | 0x011 => some (.bfi (unpackA w e1))
  | 0x012 => some (.popc (unpackA w e1))
  | 0x013 => some (.clz (unpackA w e1))
  | 0x014 => some (.ctz (unpackA w e1))
  | 0x015 => some (.brev (unpackA w e1))
  | 0x016 => some (.iset (unpackA w e1))
  | 0x017 => some (.sel (unpackA w e1))
  | 0x018 => some (.mov (unpackA w e1))
  | 0x019 => some (.movi (unpackI w))
  | 0x01a => some (.movw (unpackI w) (e1.getD 0))
  | 0x01b => some (.iadd64 (unpackA w e1))
  | 0x01c => some (.imad64 (unpackA w e1))
  | 0x020 => some (.fadd (unpackA w e1))
  | 0x021 => some (.fsub (unpackA w e1))
  | 0x022 => some (.fmul (unpackA w e1))
  | 0x023 => some (.ffma (unpackA w e1))
  | 0x024 => some (.fmin (unpackA w e1))
  | 0x025 => some (.fmax (unpackA w e1))
  | 0x026 => some (.fabs (unpackA w e1))
  | 0x027 => some (.fneg (unpackA w e1))
  | 0x028 => some (.fset (unpackA w e1))
  | 0x029 => some (.fclass (unpackA w e1))
  | 0x02a => some (.fcvt (unpackA w e1))
  | 0x02b => some (.frnd (unpackA w e1))
  | 0x02c => some (.fscalb (unpackA w e1))
  | 0x02d => some (.fdiv (unpackA w e1))
  | 0x02e => some (.fsqrt (unpackA w e1))
  | 0x02f => some (.fdot2 (unpackA w e1))
  | 0x030 => some (.iaddImm (unpackI w))
  | 0x031 => some (.shlImm (unpackI w))
  | 0x032 => some (.shrImm (unpackI w))
  | 0x033 => some (.sarImm (unpackI w))
  | 0x034 => some (.rotlImm (unpackI w))
  | 0x035 => some (.andImm (unpackI w))
  | 0x036 => some (.moviScalar (unpackI w))
  | 0x037 => some (.movwScalar (unpackI w) (e1.getD 0))
  | 0x038 => some (.iaddScalarImm (unpackI w))
  | 0x039 => some (.bra (unpackJ w))
  | 0x03a => some (.brv (unpackJc w))
  | 0x03b => some (.brs (unpackJc w))
  | 0x03c => some (.call (unpackJc w))
  | 0x03d => some (.ret (unpackJc w))
  | 0x03e => some (.jmpi (unpackJc w))
  | 0x03f => some (.exit (unpackJ w))
  | 0x040 => some (.ffn (unpackA w e1))
  | 0x041 => some (.redl (unpackA w e1))
  | 0x080 => some (.mma (unpackA w e1))
  | 0x081 => some (.mmal (unpackA w e1))
  | 0x088 => some (.ldf (unpackM w (e1.getD 0)))
  | 0x089 => some (.stf (unpackM w (e1.getD 0)))
  | 0x0c0 => some (.brset (unpackM w (e1.getD 0)))
  | 0x0c1 => some (.brget (unpackM w (e1.getD 0)))
  | 0x0c2 => some (.brinv (unpackM w (e1.getD 0)))
  | 0x0c8 => some (.ld (unpackM w (e1.getD 0)))
  | 0x0c9 => some (.st (unpackM w (e1.getD 0)))
  | 0x0ca => some (.lds (unpackM w (e1.getD 0)))
  | 0x0cb => some (.sts (unpackM w (e1.getD 0)))
  | 0x0d0 => some (.atom (unpackM w (e1.getD 0)))
  | 0x0d1 => some (.cas (unpackM w (e1.getD 0)))
  | 0x0d2 => some (.red (unpackM w (e1.getD 0)))
  | 0x0d3 => some (.xred (unpackM w (e1.getD 0)))
  | 0x0d4 => some (.xrd (unpackM w (e1.getD 0)))
  | 0x0d8 => some (.fence (unpackM w (e1.getD 0)))
  | 0x0d9 => some (.pref (unpackM w (e1.getD 0)))
  | 0x0da => some (.cctl (unpackM w (e1.getD 0)))
  | 0x0db => if (e1.getD 0).getLsbD 16 then some (.pbarSync (unpackM w (e1.getD 0))) else some (.pbarOrd (unpackM w (e1.getD 0)))
  | 0x0e0 => some (.tbegin (unpackM w (e1.getD 0)))
  | 0x0e1 => some (.tbeginl (unpackM w (e1.getD 0)))
  | 0x0e2 => some (.tend (unpackA w e1))
  | 0x0e3 => some (.tabort (unpackA w e1))
  | 0x0e4 => some (.tval (unpackA w e1))
  | 0x0e5 => some (.tstat (unpackA w e1))
  | 0x100 => some (.cpy (unpackM w (e1.getD 0)))
  | 0x101 => some (.cpyg (unpackM w (e1.getD 0)))
  | 0x102 => some (.cpys (unpackM w (e1.getD 0)))
  | 0x108 => some (.cwait (unpackA w e1))
  | 0x110 => some (.cbinit (unpackA w e1))
  | 0x111 => some (.cbacq (unpackA w e1))
  | 0x112 => some (.cbrel (unpackA w e1))
  | 0x140 => some (.join (unpackI w))
  | 0x141 => some (.leave (unpackI w))
  | 0x142 => some (.waitm (unpackI w))
  | 0x143 => some (.mset (unpackI w))
  | 0x144 => some (.mmov (unpackI w))
  | 0x145 => some (.mget (unpackI w))
  | 0x148 => some (.bar (unpackI w))
  | 0x149 => some (.bara (unpackI w))
  | 0x14a => some (.barw (unpackI w))
  | 0x14c => some (.mon (unpackM w (e1.getD 0)))
  | 0x14d => some (.mwait (unpackA w e1))
  | 0x150 => some (.shfl (unpackA w e1))
  | 0x151 => some (.vote (unpackA w e1))
  | 0x152 => some (.matchLanes (unpackA w e1))
  | 0x153 => some (.uni (unpackA w e1))
  | 0x154 => some (.rdlane (unpackA w e1))
  | 0x155 => some (.wrlane (unpackA w e1))
  | 0x156 => some (.elect (unpackA w e1))
  | 0x157 => some (.regroup (unpackA w e1))
  | 0x15e => some (.yield (unpackA w e1))
  | 0x15f => some (.nop (unpackA w e1))
  | 0x179 => some (.bra (unpackJ w))
  | 0x17a => some (.brv (unpackJc w))
  | 0x17b => some (.brs (unpackJc w))
  | 0x17c => some (.call (unpackJc w))
  | 0x17d => some (.ret (unpackJc w))
  | 0x17e => some (.jmpi (unpackJc w))
  | 0x17f => some (.exit (unpackJ w))
  | 0x180 => some (.rdsr (unpackI w))
  | 0x181 => some (.wrsr (unpackI w))
  | 0x182 => some (.rand (unpackA w e1))
  | 0x183 => some (.trap (unpackI w))
  | 0x184 => some (.bkpt (unpackI w))
  | 0x185 => some (.launch (unpackA w e1))
  | 0x186 => some (.vfree (unpackA w e1))
  | 0x1b9 => some (.bra (unpackJ w))
  | 0x1ba => some (.brv (unpackJc w))
  | 0x1bb => some (.brs (unpackJc w))
  | 0x1bc => some (.call (unpackJc w))
  | 0x1bd => some (.ret (unpackJc w))
  | 0x1be => some (.jmpi (unpackJc w))
  | 0x1bf => some (.exit (unpackJ w))
  | _ => none

/-- Decode one instruction from the front of a list of words: the instruction, how many words it takes, and the rest. -/
def decode (ws : List Word) : Except DecodeError (Instr × List Word) :=
  match ws with
  | [] => .error .noWord
  | w :: rest =>
    if opOf w / 64 = 7 then .error .class7
    else
      match hasSecondWord w, rest with
      | true, [] => if keyOf (opOf w) = .IL then .error .literalMissing else .error .extensionMissing
      | true, e :: rest' =>
        .ok ((ofOp (opOf w) w (some e)).getD (.unassignedSlotIssue ⟨w, some e⟩), rest')
      | false, _ => .ok ((ofOp (opOf w) w none).getD (.unassignedSlotIssue ⟨w, none⟩), rest)

/-- Decode from bytes as memory holds them (R4). -/
def decodeBytes (bs : List Byte) : Except DecodeError (Instr × List Word) := decode (leWords bs)

/-- The instruction whose bits the host gives: bit 0 is the least significant bit of the first word, the next word's
bits count on from 32, and the words above `nbits` are zero. -/
def decodeTableWord (nbits w : Nat) : Option Instr :=
  let v := w % 2 ^ nbits
  match decodeBytes (leBytes 8 v) with
  | .ok (i, _) => some i
  | .error _ => none

/-! ### Encoding -/

/-- The OP of an instruction's first word (R39, R40, R44); `none` for an event. -/
def Instr.op : Instr → Option Nat
  | .clauseFetch _ => none
  | .rotationStep _ => none
  | .iadd _ => some 0x000
  | .isub _ => some 0x001
  | .imul _ => some 0x002
  | .imulh _ => some 0x003
  | .imad _ => some 0x004
  | .imin _ => some 0x005
  | .imax _ => some 0x006
  | .iabs _ => some 0x007
  | .and _ => some 0x008
  | .or _ => some 0x009
  | .xor _ => some 0x00a
  | .andn _ => some 0x00b
  | .shl _ => some 0x00c
  | .shr _ => some 0x00d
  | .sar _ => some 0x00e
  | .rotl _ => some 0x00f
  | .bfx _ => some 0x010
  | .bfi _ => some 0x011
  | .popc _ => some 0x012
  | .clz _ => some 0x013
  | .ctz _ => some 0x014
  | .brev _ => some 0x015
  | .iset _ => some 0x016
  | .sel _ => some 0x017
  | .mov _ => some 0x018
  | .movi _ => some 0x019
  | .movw _ _ => some 0x01a
  | .iadd64 _ => some 0x01b
  | .imad64 _ => some 0x01c
  | .fadd _ => some 0x020
  | .fsub _ => some 0x021
  | .fmul _ => some 0x022
  | .ffma _ => some 0x023
  | .fmin _ => some 0x024
  | .fmax _ => some 0x025
  | .fabs _ => some 0x026
  | .fneg _ => some 0x027
  | .fset _ => some 0x028
  | .fclass _ => some 0x029
  | .fcvt _ => some 0x02a
  | .frnd _ => some 0x02b
  | .fscalb _ => some 0x02c
  | .fdiv _ => some 0x02d
  | .fsqrt _ => some 0x02e
  | .fdot2 _ => some 0x02f
  | .iaddImm _ => some 0x030
  | .shlImm _ => some 0x031
  | .shrImm _ => some 0x032
  | .sarImm _ => some 0x033
  | .rotlImm _ => some 0x034
  | .andImm _ => some 0x035
  | .moviScalar _ => some 0x036
  | .movwScalar _ _ => some 0x037
  | .iaddScalarImm _ => some 0x038
  | .bra w => some (w.cls.toNat * 64 + 0x39)
  | .brv w => some (w.cls.toNat * 64 + 0x3a)
  | .brs w => some (w.cls.toNat * 64 + 0x3b)
  | .call w => some (w.cls.toNat * 64 + 0x3c)
  | .ret w => some (w.cls.toNat * 64 + 0x3d)
  | .jmpi w => some (w.cls.toNat * 64 + 0x3e)
  | .exit w => some (w.cls.toNat * 64 + 0x3f)
  | .exitComplete _ => none
  | .join _ => some 0x140
  | .leave _ => some 0x141
  | .waitm _ => some 0x142
  | .mset _ => some 0x143
  | .mmov _ => some 0x144
  | .mget _ => some 0x145
  | .bar _ => some 0x148
  | .bara _ => some 0x149
  | .barw _ => some 0x14a
  | .mon _ => some 0x14c
  | .mwait _ => some 0x14d
  | .mwaitTimeout _ => none
  | .mwaitSpuriousWake _ => none
  | .shfl _ => some 0x150
  | .vote _ => some 0x151
  | .matchLanes _ => some 0x152
  | .uni _ => some 0x153
  | .rdlane _ => some 0x154
  | .wrlane _ => some 0x155
  | .elect _ => some 0x156
  | .regroup _ => some 0x157
  | .yield _ => some 0x15e
  | .nop _ => some 0x15f
  | .rdsr _ => some 0x180
  | .wrsr _ => some 0x181
  | .rand _ => some 0x182
  | .trap _ => some 0x183
  | .bkpt _ => some 0x184
  | .launch _ => some 0x185
  | .launchAnswer _ _ => none
  | .vfree _ => some 0x186
  | .ffn _ => some 0x040
  | .redl _ => some 0x041
  | .mma _ => some 0x080
  | .mmal _ => some 0x081
  | .ldf _ => some 0x088
  | .stf _ => some 0x089
  | .parkEntryGrant _ _ => none
  | .wuAccept _ => none
  | .wuDecide _ _ => none
  | .xsAccept _ => none
  | .xsDecide _ _ => none
  | .registerRefill _ _ _ => none
  | .brset _ => some 0x0c0
  | .brget _ => some 0x0c1
  | .brinv _ => some 0x0c2
  | .ld _ => some 0x0c8
  | .st _ => some 0x0c9
  | .lds _ => some 0x0ca
  | .sts _ => some 0x0cb
  | .atom _ => some 0x0d0
  | .cas _ => some 0x0d1
  | .red _ => some 0x0d2
  | .xred _ => some 0x0d3
  | .xrd _ => some 0x0d4
  | .fence _ => some 0x0d8
  | .pref _ => some 0x0d9
  | .cctl _ => some 0x0da
  | .loadResponse _ _ => none
  | .homeRequest _ _ _ => none
  | .bscFill _ _ => none
  | .tbegin _ => some 0x0e0
  | .tbeginl _ => some 0x0e1
  | .tend _ => some 0x0e2
  | .tabort _ => some 0x0e3
  | .tval _ => some 0x0e4
  | .tstat _ => some 0x0e5
  | .commitLockTimeout _ => none
  | .lockedAccessTimeout _ _ => none
  | .pbarOrd _ => some 0x0db
  | .pbarSync _ => some 0x0db
  | .pbarSyncComplete _ => none
  | .cpy _ => some 0x100
  | .cpyg _ => some 0x101
  | .cpys _ => some 0x102
  | .copyAccept _ _ => none
  | .copyChunk _ _ _ _ => none
  | .cwait _ => some 0x108
  | .cbinit _ => some 0x110
  | .cbacq _ => some 0x111
  | .cbrel _ => some 0x112
  | .pageWalk _ _ _ => none
  | .faultService _ => none
  | .faultAckRetry _ _ => none
  | .faultAckNomap _ _ => none
  | .faultAckResume _ _ => none
  | .faultAckEndLaunch _ _ => none
  | .faultAckEndContext _ _ => none
  | .submit _ _ _ => none
  | .cancel _ _ => none
  | .query _ _ => none
  | .telemetryQuery _ => none
  | .memread _ _ => none
  | .memwrite _ _ _ => none
  | .settingsWrite _ _ _ => none
  | .ctxset _ _ => none
  | .peercfg _ _ => none
  | .seqGapTimeout _ => none
  | .controlPortFailover _ => none
  | .stookPlacement _ => none
  | .quantumExpiry _ => none
  | .watchdogExpiry _ _ => none
  | .preempt _ _ => none
  | .restore _ _ => none
  | .setbp _ _ _ _ => none
  | .clrbp _ _ _ _ => none
  | .stopall _ _ _ _ => none
  | .release _ _ _ _ => none
  | .step _ _ _ _ => none
  | .dump _ _ _ _ => none
  | .keyloadLoad _ _ _ _ _ => none
  | .keyloadErase _ _ _ _ _ => none
  | .fwupdateBegin _ _ => none
  | .fwupdateData _ _ _ => none
  | .fwupdateCommit _ => none
  | .attest _ _ => none
  | .telemetryTick => none
  | .powerWindow _ _ => none
  | .thermalTrip _ _ => none
  | .powerLoss _ => none
  | .stagingDrain _ => none
  | .powerUp _ => none
  | .laSnapshot _ _ _ => none
  | .granuleSnapshot _ _ _ => none
  | .laCompletionRecord _ _ => none
  | .watermarkCompare _ _ => none
  | .twinTimeout _ => none
  | .sampleCheck _ _ _ _ => none
  | .scrub _ _ => none
  | .calibration _ => none
  | .nvWearManagement _ _ => none
  | .linkRetrain _ _ => none
  | .unassignedSlotIssue u => some (opOf u.w)
  | .unknownMessageType _ _ => none
  | .controlFrameRetransmit _ => none
  | .peerFrameRetransmit _ => none
  | .storeQueueDrain _ _ => none

/-- The words of an instruction; an event has none. -/
def encode : Instr → List Word
  | .clauseFetch _ => []
  | .rotationStep _ => []
  | .iadd w => packA 0x000 w :: w.ext.toList
  | .isub w => packA 0x001 w :: w.ext.toList
  | .imul w => packA 0x002 w :: w.ext.toList
  | .imulh w => packA 0x003 w :: w.ext.toList
  | .imad w => packA 0x004 w :: w.ext.toList
  | .imin w => packA 0x005 w :: w.ext.toList
  | .imax w => packA 0x006 w :: w.ext.toList
  | .iabs w => packA 0x007 w :: w.ext.toList
  | .and w => packA 0x008 w :: w.ext.toList
  | .or w => packA 0x009 w :: w.ext.toList
  | .xor w => packA 0x00a w :: w.ext.toList
  | .andn w => packA 0x00b w :: w.ext.toList
  | .shl w => packA 0x00c w :: w.ext.toList
  | .shr w => packA 0x00d w :: w.ext.toList
  | .sar w => packA 0x00e w :: w.ext.toList
  | .rotl w => packA 0x00f w :: w.ext.toList
  | .bfx w => packA 0x010 w :: w.ext.toList
  | .bfi w => packA 0x011 w :: w.ext.toList
  | .popc w => packA 0x012 w :: w.ext.toList
  | .clz w => packA 0x013 w :: w.ext.toList
  | .ctz w => packA 0x014 w :: w.ext.toList
  | .brev w => packA 0x015 w :: w.ext.toList
  | .iset w => packA 0x016 w :: w.ext.toList
  | .sel w => packA 0x017 w :: w.ext.toList
  | .mov w => packA 0x018 w :: w.ext.toList
  | .movi w => [packI 0x019 w]
  | .movw w lit => [packI 0x01a w, lit]
  | .iadd64 w => packA 0x01b w :: w.ext.toList
  | .imad64 w => packA 0x01c w :: w.ext.toList
  | .fadd w => packA 0x020 w :: w.ext.toList
  | .fsub w => packA 0x021 w :: w.ext.toList
  | .fmul w => packA 0x022 w :: w.ext.toList
  | .ffma w => packA 0x023 w :: w.ext.toList
  | .fmin w => packA 0x024 w :: w.ext.toList
  | .fmax w => packA 0x025 w :: w.ext.toList
  | .fabs w => packA 0x026 w :: w.ext.toList
  | .fneg w => packA 0x027 w :: w.ext.toList
  | .fset w => packA 0x028 w :: w.ext.toList
  | .fclass w => packA 0x029 w :: w.ext.toList
  | .fcvt w => packA 0x02a w :: w.ext.toList
  | .frnd w => packA 0x02b w :: w.ext.toList
  | .fscalb w => packA 0x02c w :: w.ext.toList
  | .fdiv w => packA 0x02d w :: w.ext.toList
  | .fsqrt w => packA 0x02e w :: w.ext.toList
  | .fdot2 w => packA 0x02f w :: w.ext.toList
  | .iaddImm w => [packI 0x030 w]
  | .shlImm w => [packI 0x031 w]
  | .shrImm w => [packI 0x032 w]
  | .sarImm w => [packI 0x033 w]
  | .rotlImm w => [packI 0x034 w]
  | .andImm w => [packI 0x035 w]
  | .moviScalar w => [packI 0x036 w]
  | .movwScalar w lit => [packI 0x037 w, lit]
  | .iaddScalarImm w => [packI 0x038 w]
  | .bra w => [packJ 0x39 w]
  | .brv w => [packJc 0x3a w]
  | .brs w => [packJc 0x3b w]
  | .call w => [packJc 0x3c w]
  | .ret w => [packJc 0x3d w]
  | .jmpi w => [packJc 0x3e w]
  | .exit w => [packJ 0x3f w]
  | .exitComplete _ => []
  | .join w => [packI 0x140 w]
  | .leave w => [packI 0x141 w]
  | .waitm w => [packI 0x142 w]
  | .mset w => [packI 0x143 w]
  | .mmov w => [packI 0x144 w]
  | .mget w => [packI 0x145 w]
  | .bar w => [packI 0x148 w]
  | .bara w => [packI 0x149 w]
  | .barw w => [packI 0x14a w]
  | .mon w => [packM 0x14c w, w.me]
  | .mwait w => packA 0x14d w :: w.ext.toList
  | .mwaitTimeout _ => []
  | .mwaitSpuriousWake _ => []
  | .shfl w => packA 0x150 w :: w.ext.toList
  | .vote w => packA 0x151 w :: w.ext.toList
  | .matchLanes w => packA 0x152 w :: w.ext.toList
  | .uni w => packA 0x153 w :: w.ext.toList
  | .rdlane w => packA 0x154 w :: w.ext.toList
  | .wrlane w => packA 0x155 w :: w.ext.toList
  | .elect w => packA 0x156 w :: w.ext.toList
  | .regroup w => packA 0x157 w :: w.ext.toList
  | .yield w => packA 0x15e w :: w.ext.toList
  | .nop w => packA 0x15f w :: w.ext.toList
  | .rdsr w => [packI 0x180 w]
  | .wrsr w => [packI 0x181 w]
  | .rand w => packA 0x182 w :: w.ext.toList
  | .trap w => [packI 0x183 w]
  | .bkpt w => [packI 0x184 w]
  | .launch w => packA 0x185 w :: w.ext.toList
  | .launchAnswer _ _ => []
  | .vfree w => packA 0x186 w :: w.ext.toList
  | .ffn w => packA 0x040 w :: w.ext.toList
  | .redl w => packA 0x041 w :: w.ext.toList
  | .mma w => packA 0x080 w :: w.ext.toList
  | .mmal w => packA 0x081 w :: w.ext.toList
  | .ldf w => [packM 0x088 w, w.me]
  | .stf w => [packM 0x089 w, w.me]
  | .parkEntryGrant _ _ => []
  | .wuAccept _ => []
  | .wuDecide _ _ => []
  | .xsAccept _ => []
  | .xsDecide _ _ => []
  | .registerRefill _ _ _ => []
  | .brset w => [packM 0x0c0 w, w.me]
  | .brget w => [packM 0x0c1 w, w.me]
  | .brinv w => [packM 0x0c2 w, w.me]
  | .ld w => [packM 0x0c8 w, w.me]
  | .st w => [packM 0x0c9 w, w.me]
  | .lds w => [packM 0x0ca w, w.me]
  | .sts w => [packM 0x0cb w, w.me]
  | .atom w => [packM 0x0d0 w, w.me]
  | .cas w => [packM 0x0d1 w, w.me]
  | .red w => [packM 0x0d2 w, w.me]
  | .xred w => [packM 0x0d3 w, w.me]
  | .xrd w => [packM 0x0d4 w, w.me]
  | .fence w => [packM 0x0d8 w, w.me]
  | .pref w => [packM 0x0d9 w, w.me]
  | .cctl w => [packM 0x0da w, w.me]
  | .loadResponse _ _ => []
  | .homeRequest _ _ _ => []
  | .bscFill _ _ => []
  | .tbegin w => [packM 0x0e0 w, w.me]
  | .tbeginl w => [packM 0x0e1 w, w.me]
  | .tend w => packA 0x0e2 w :: w.ext.toList
  | .tabort w => packA 0x0e3 w :: w.ext.toList
  | .tval w => packA 0x0e4 w :: w.ext.toList
  | .tstat w => packA 0x0e5 w :: w.ext.toList
  | .commitLockTimeout _ => []
  | .lockedAccessTimeout _ _ => []
  | .pbarOrd w => [packM 0x0db w, w.me]
  | .pbarSync w => [packM 0x0db w, w.me]
  | .pbarSyncComplete _ => []
  | .cpy w => [packM 0x100 w, w.me]
  | .cpyg w => [packM 0x101 w, w.me]
  | .cpys w => [packM 0x102 w, w.me]
  | .copyAccept _ _ => []
  | .copyChunk _ _ _ _ => []
  | .cwait w => packA 0x108 w :: w.ext.toList
  | .cbinit w => packA 0x110 w :: w.ext.toList
  | .cbacq w => packA 0x111 w :: w.ext.toList
  | .cbrel w => packA 0x112 w :: w.ext.toList
  | .pageWalk _ _ _ => []
  | .faultService _ => []
  | .faultAckRetry _ _ => []
  | .faultAckNomap _ _ => []
  | .faultAckResume _ _ => []
  | .faultAckEndLaunch _ _ => []
  | .faultAckEndContext _ _ => []
  | .submit _ _ _ => []
  | .cancel _ _ => []
  | .query _ _ => []
  | .telemetryQuery _ => []
  | .memread _ _ => []
  | .memwrite _ _ _ => []
  | .settingsWrite _ _ _ => []
  | .ctxset _ _ => []
  | .peercfg _ _ => []
  | .seqGapTimeout _ => []
  | .controlPortFailover _ => []
  | .stookPlacement _ => []
  | .quantumExpiry _ => []
  | .watchdogExpiry _ _ => []
  | .preempt _ _ => []
  | .restore _ _ => []
  | .setbp _ _ _ _ => []
  | .clrbp _ _ _ _ => []
  | .stopall _ _ _ _ => []
  | .release _ _ _ _ => []
  | .step _ _ _ _ => []
  | .dump _ _ _ _ => []
  | .keyloadLoad _ _ _ _ _ => []
  | .keyloadErase _ _ _ _ _ => []
  | .fwupdateBegin _ _ => []
  | .fwupdateData _ _ _ => []
  | .fwupdateCommit _ => []
  | .attest _ _ => []
  | .telemetryTick => []
  | .powerWindow _ _ => []
  | .thermalTrip _ _ => []
  | .powerLoss _ => []
  | .stagingDrain _ => []
  | .powerUp _ => []
  | .laSnapshot _ _ _ => []
  | .granuleSnapshot _ _ _ => []
  | .laCompletionRecord _ _ => []
  | .watermarkCompare _ _ => []
  | .twinTimeout _ => []
  | .sampleCheck _ _ _ _ => []
  | .scrub _ _ => []
  | .calibration _ => []
  | .nvWearManagement _ _ => []
  | .linkRetrain _ _ => []
  | .unassignedSlotIssue u => u.w :: u.ext.toList
  | .unknownMessageType _ _ => []
  | .controlFrameRetransmit _ => []
  | .peerFrameRetransmit _ => []
  | .storeQueueDrain _ _ => []

/-- How many words an instruction takes. -/
def Instr.words (i : Instr) : Nat := (encode i).length

end Sys2Proof
end

