-- ==== Sys2Proof/Config.lean ====
section
/-! DEFINITION. The figures the spec fixes (00_scope.md R1, 05 R94, R97) and the free values it leaves open: opaque
constants, of which nothing can be computed or proved (log entry 4). -/

namespace Sys2Proof.Config

/-- Cores of the device (R1). -/
def numCores : Nat := 3456
/-- Cores of a die and of a cluster (R1, R198). -/
def coresPerDie : Nat := 216
def coresPerCluster : Nat := 24
def numDies : Nat := 16
/-- Sheaf slots, ports and stook places of a core (R94, R97, R111). -/
def slotsPerCore : Nat := 64
def portsPerCore : Nat := 8
def placesPerCore : Nat := 16
/-- Physical vector registers of a core and the least a sheaf holds (R110). -/
def physRegs : Nat := 2048
def minRegs : Nat := 8
/-- Core SRAM, system area (R3). -/
def sramBytes : Nat := 512 * 1024
def systemArea : Nat := 48 * 1024
/-- Lines of 64 B that an L1 holds for each 64 KiB of its size, a die's L2, a base die's granary (R124, R126). -/
def l1LinesPerUnit : Nat := 1024
def l2Lines : Nat := 32 * 1024 * 16
def granaryLines : Nat := 192 * 1024 * 16
/-- Park-queue entries (R171), WU and XS capacity (R174), range-lock entries (R149), replay entries (R370), monitors (R153). -/
def parkEntries : Nat := 128
def wuCapacity : Nat := 32
def xsCapacity : Nat := 4
def copyEntries : Nat := 64
def replayEntries : Nat := 512
def replayReserve : Nat := 32
def monitorEntries : Nat := 64
/-- Entries of a core's TLB and of a cluster's (R364). -/
def tlbEntries : Nat := 96
def clusterTlbEntries : Nat := 8192
/-- Launch queues of a context and launches of a queue (R349). -/
def queuesPerContext : Nat := 16
def launchesPerQueue : Nat := 256
/-- Breakpoints of a launch (R373). -/
def maxBreakpoints : Nat := 8
/-- Instructions of a transaction (R276). -/
def txBudget : Nat := 16384
/-- NV staging bytes of a stack (R290). -/
def stagingBytes : Nat := 64 * 1024 * 1024
/-- The default role budget (R53, R96). -/
def defaultRegs : Nat := 32

/-- Free value: the `n`-th choice the spec leaves open (whether a cached copy is hit, R142; whether an FFN lane's fast
result stands, R155; which of two spellings of an outcome a race takes). Log entry 4. -/
opaque freeChoice : Nat → Bool

/-- Free value: the choice numbered `n` and `k` of the same kind, where one word makes several (log entry 4). -/
opaque freeHit : Nat → Nat → Bool

/-- Free value: the `n`-th 32-bit value the spec leaves undefined. Log entry 4. -/
opaque freeWord : Nat → BitVec 32

/-- Free value: the byte at an address whose contents the spec leaves undefined, at the `n`-th such event. Log entry 4. -/
opaque freeByte : Nat → Nat → BitVec 8

/-- SHAKE256 of a byte string, first `n` bytes (R386, R388 to R391): a named standard whose text is not in the spec. -/
opaque shake256 : List (BitVec 8) → Nat → List (BitVec 8)

/-- Ed448 signing under the device's fused identity key (R391), and verification under the vendor key (R389). -/
opaque ed448Sign : List (BitVec 8) → List (BitVec 8)
opaque ed448Verify : List (BitVec 8) → List (BitVec 8) → Bool

/-- The X448 shared secret of a public key and the device's key, and AES key unwrap under a key (R388). -/
opaque x448Shared : List (BitVec 8) → List (BitVec 8)
opaque aesUnwrap : List (BitVec 8) → List (BitVec 8) → Option (List (BitVec 8))

/-- Fused constants of the module: the Ed448 identity public key (57 bytes) and the X448 public key (56 bytes) (R391). -/
opaque identityKey : List (BitVec 8)
opaque devicePublicKey : List (BitVec 8)

/-- The firmware image a bank holds as the device is delivered (R389); log entry 3. -/
opaque factoryImage : Nat → List (BitVec 8)

/-- Free value: staging bytes of a stack that a weakened hold-up store can drain (R400). -/
opaque drainable : Nat

/-- Free value: spare 64 KiB frames of a DRAM stack as delivered (R387, R399). -/
opaque spareFrames : Nat → Nat

/-- Gauges of the telemetry payload that nothing in the spec's steps sets (R398): the service die's cycles, coolant inlet and
outlet, hold-up energy, at the `n`-th sample. -/
opaque gauge : Nat → Nat → Nat

end Sys2Proof.Config
end

