-- ==== Sys2Proof/Machine/State.lean ====
section
/-! DEFINITION. The state of the device as plain data (00_scope.md R3 and the chapters it points to), and its state
right after power-up. Registers, masks and memory are banks: lists of (key, value) pairs in one canonical form, keys
strictly rising and no entry zero, so that equal contents are equal lists; an unlisted key reads zero. -/

namespace Sys2Proof.Machine

open Sys2Proof

/-- A bank of `w`-bit values by number: keys strictly rising, no entry zero, an unlisted key reads 0. -/
abbrev Bank (w : Nat) := List (Nat × BitVec w)

/-- Physical memory: one byte at each 48-bit physical address (R362). Unlisted bytes read 0 (log entry 2). -/
abbrev Memory := List Host.Cell

/-- The causes of R366. -/
inductive Cause where
  | illegalHeader | illegalOpcode | illegalClass | illegalOperand | illegalFormat | latchInvalid | illegalEncoding
  | codeBounds
  | xlateMiss | xlatePerm | noMapping | badPte | keyEmpty
  | bounds | misaligned | recordInvalid | recordUnset | rangeLock | roStore | laBusy
  | nonuniform | maskMismatch | syncMismatch | rngWrap
  | watchdog | preempt | spillFull
  | copyFault | cbState
  | eccUncorr | integrity | watermark | sampleMismatch | peerDown
  | breakpoint | stepStop | swTrap
  deriving DecidableEq, Repr, Inhabited

/-- What an access does to memory (KIND of R368). -/
inductive AccessKind where
  | fetch | read | write | rmw | copySrc | copyDst | copyIdx | none
  deriving DecidableEq, Repr, Inhabited

/-! ### Requests of a core -/

/-- What a memory request does at the home (R257 to R263). -/
inductive ReqOp where
  | load
  | store
  | atom (aop : Nat)
  | cas
  | red (rop : Nat) (flt : Bool) (rm : Nat)
  | xred (xfmt : Nat)
  | xrd (clr : Bool) (rsel : Nat)
  deriving DecidableEq, Repr, Inhabited

/-- A codebook table or scale entry an element needs (R72, R74): stook place, data slot, block, the addresses of its bytes by the
records as they stood at issue (R80; none where the side record ends before it), the number of the fill it waits for, and the
entry once read. -/
structure SideRef where
  place : Nat
  slot : Nat
  block : Nat
  vas : List Nat
  fill : Nat
  entry : Option (List Byte)
  deriving DecidableEq, Repr, Inhabited

/-- Where a byte is stored: its physical address (a DRAM byte under the interleaved view, R362), the peer device it lies
on, whether its page carries LA, and its page's key slot (R360). In the scratchpad, `pa` is the byte offset. -/
structure ByteLoc where
  pa : Nat
  peer : Option Nat
  la : Bool
  key : Nat
  deriving DecidableEq, Repr, Inhabited

/-- One element of an access: the virtual address of its first byte, where each of the bytes it spans is stored once
translated, the bit offset and width inside them, its memory format, the table entry it needs, and the bytes a load has
read so far (R133). `skip` is an out-of-range element under BOUNDS mode 1. -/
structure Elem where
  va : Nat
  locs : List ByteLoc
  n : Nat
  shift : Nat
  width : Nat
  fmt : Nat
  side : Option SideRef
  known : List (Option Byte)
  skip : Bool
  deriving DecidableEq, Repr, Inhabited

/-- One lane's access of one word: in the store queue, at the core, outstanding at the home, or in the replay buffer
(R136, R255, R257, R370). Values are numbers of the element's width; `af` is the access format (R253). -/
structure Req where
  id : Nat
  /-- the number it had at issue: `id` is renewed when a store leaves its sheaf's queue, to stand in the core's order -/
  born : Nat
  ctx : Nat
  launch : Word
  stook : Nat
  sheaf : Nat
  lane : Nat
  /-- the issue whose token this lane's part finishes (R26); 0 for none -/
  issue : Nat
  opcode : Nat
  op : ReqOp
  af : Nat
  dest : OpCode7
  elems : List Elem
  data : List Nat
  scope : Nat
  order : Nat
  reuse : Nat
  repl : Bool
  sv : Nat
  rm : Nat
  tx : Bool
  /-- a scratchpad access (R259) -/
  spad : Bool
  epoch : Nat
  /-- of a copy's write, the issuing lanes with their persist epochs (R151, R293) -/
  also : List (Nat × Nat)
  /-- of a load: its line was asked for when it issued, and its value may come from that copy whatever its scope (R138, R142);
  of a store of several words: it is one of the words, or what is left when one has gone ahead -/
  early : Bool
  /-- the access at the home has been made and `result` holds its values -/
  performed : Bool
  result : List Nat
  flags : BitVec 5
  /-- a secondary twin's request: its result comes from the primary's (R384) -/
  mirror : Bool
  deriving DecidableEq, Repr, Inhabited

/-- An entry of the replay buffer (R370): the access, and the fault it waits on. -/
structure Replay where
  fault : Word
  req : Req
  kind : AccessKind
  deriving DecidableEq, Repr, Inhabited

/-- An issue of an instruction that names a token and is not finished (R26): its lanes not yet finished. -/
structure Issue where
  id : Nat
  tok : Nat
  lanes : LaneMask
  deriving DecidableEq, Repr, Inhabited

/-! ### Lanes -/

/-- Why a lane is held at a hold point (R182) or waits at its word. -/
inductive Hold where
  /-- WAITM on a mask (R104) -/
  | waitm (m : Nat)
  /-- a cross-lane instruction on a mask (R105) -/
  | cross (m : Nat) (i : Instr)
  /-- BAR (`waits`) or BARA on barrier `n`: the count it names (`none` is ALL), and the phase its sheaf's arrival counts
  for: 0 not counted, 1 the current phase, 2 the following one (R189) -/
  | bar (n : Nat) (cnt : Option Nat) (waits : Bool) (counted : Nat)
  | barw (n : Nat)
  /-- MWAIT: the word, the timeout in cycles or steps, and the count at which it began (R192) -/
  | mwait (i : Instr) (timeout : Nat) (since : Nat)
  /-- REGROUP: key, first register, count, participating set (R196) -/
  | regroup (key : Word) (first count : Nat) (set : Word)
  /-- a sheaf-wide MMA or MMAL word (R238) -/
  | tile (i : Instr)
  /-- CWAIT: a group, or all (R312) -/
  | cwait (group : Option Nat)
  /-- CBACQ and CBINIT: the word, the geometry CBINIT read at issue, and the number of its issue by the path -/
  | cbacq (i : Instr) (group : Nat)
  | cbinit (i : Instr) (geometry : Word) (group : Nat)
  /-- a copy command the engine has not accepted (R308) -/
  | copy (cmd : Nat)
  /-- a transactional access of a word of `n` 32-bit words waiting for a word's lock or a table entry (R74, R274, R286) -/
  | txwait (r : Req) (n : Nat)
  /-- a commit or validation in progress (R277): the TEND or TVAL, the number of its issue, and whether the lane's part
  is done, its destination waiting for the other lanes -/
  | commit (i : Instr) (group : Nat) (done : Bool)
  deriving DecidableEq, Repr, Inhabited

/-- A hold point (R182, R238, R312, R314): a place that counts as a clause boundary. Waits for an engine, a lock or a commit
are none. -/
def Hold.isPoint : Hold → Bool
  | .waitm _ | .cross _ _ | .bar _ _ _ _ | .barw _ | .mwait _ _ _ | .regroup _ _ _ _ | .tile _ | .cwait _ | .cbacq _ _ => true
  | .cbinit _ _ _ | .copy _ | .txwait _ _ | .commit _ _ _ => false

/-- A lane stopped at a word or header (R32, R35), or parked for a fault, breakpoint or step. -/
structure Stop where
  cause : Cause
  /-- the event's FAULTID, 0 when none is outstanding -/
  fault : Word
  /-- the PC at which the lane goes on when it is released -/
  resume : Word
  deriving DecidableEq, Repr, Inhabited

/-- One entry of a transaction log (R272); `pa` and `key` are the model's own note of the word's home and its page's key. -/
structure LogEntry where
  value : DWord
  bytes : Byte
  lock : Bool
  va : Nat
  pa : Nat
  key : Nat
  /-- REUSE of the access that made it (R127) -/
  reuse : Nat
  deriving DecidableEq, Repr, Inhabited

/-- The transaction state of a lane (R201, R273). NWRITE and NREAD are the lengths of the logs. -/
structure TxState where
  depth : Nat
  locked : Bool
  ticket : Nat
  target : Word
  count : Nat
  nvstack : Nat
  reads : List LogEntry
  writes : List LogEntry
  deriving DecidableEq, Repr, Inhabited

/-- A lane (R3, R98). Its vector registers are in its sheaf's bank. -/
structure Lane where
  /-- the lane's PC: a header index, or the index of a word inside its clause (R35) -/
  pc : Word
  /-- the header of the clause that holds the PC, the clause's class and the index after its last word -/
  hdr : Word
  cls : Nat
  fin : Word
  /-- whether the lane has entered the clause -/
  inside : Bool
  /-- ordinal of the next instruction in the clause (R10) -/
  pos : Nat
  /-- q0, q1, … : results of the preceding instructions of the clause, newest first (R23) -/
  latches : List (Option Word)
  /-- resumed from a stop inside its clause: no latch is valid for the rest of it (R35) -/
  resumed : Bool
  /-- vector registers that words of the clause have written so far (R29) -/
  wrote : List Nat
  /-- names the path the lane belongs to when it does not merge with others at its PC; 0 when it does (R98). At a header it
  tells that the scoreboard has held the lane there. -/
  tag : Nat
  age : Nat
  exitIssued : Bool
  exited : Bool
  stop : Option Stop
  hold : Option Hold
  /-- the issue whose token the held instruction counts on (R26); 0 for none -/
  issue : Nat
  /-- token withdrawn at a save for the held instruction (R375); 7 for none -/
  withdrawn : Nat
  /-- single-step (R122), and whether the lane may still execute the instruction of this step -/
  stepping : Bool
  credit : Bool
  /-- released from the header it stands at: no breakpoint or stop-all stops it there again -/
  passed : Bool
  /-- its clause's header asks the port to prefer another sheaf once the clause is over (R37) -/
  yields : Bool
  /-- registers whose write has not completed (R28), with the number of the operation that will write each; number 0 is
  a refill (R110) -/
  pending : List (Nat × Nat)
  /-- the registers its clause reads have been refilled since it came to its header (R110) -/
  refilled : Bool
  /-- a FENCE whose condition holds the lane's next memory instruction: scope, order, and the number of the operation
  before which accesses must be performed (R264) -/
  fence : Option (Nat × Nat × Nat)
  /-- the PBAR.SYNCs not yet complete: the numbers of their issues, 0 for one that names no token, and the PCs of their words (R294,
  R320) -/
  persist : List (Nat × Word)
  /-- persist epoch: barriers placed by the lane (R293) -/
  epoch : Nat
  /-- an NV store was issued since the last PBAR.SYNC (R294) -/
  nvSince : Bool
  /-- writes numbered below this precede the lane's later NV writes in persist order: it has acquired at DURABLE scope (R293) -/
  after : Nat
  /-- the armed monitor: virtual and physical line number, and whether a write reached it since the MON (R153) -/
  monitor : Option (Nat × Nat × Bool)
  /-- an MWAIT must return at once with this reason -/
  wake : Option Nat
  tx : TxState
  /-- TXSTAT: REC and CODE (R201) -/
  txrec : Bool
  txcode : Byte
  deriving DecidableEq, Repr, Inhabited

/-! ### Sheaves and stooks -/

/-- A sheaf (R3, R94). Vector register `r` of lane `l` stands in `v` at key `32 r + l`. -/
structure Sheaf where
  lanes : List Lane
  v : Bank 32
  s : Bank 32
  m : Bank 32
  frm : Word
  fx : Word
  retired : DWord
  issues : List Issue
  /-- vector registers bound to physical ones, least recently used first, and those spilled (R109, R110) -/
  bound : List Nat
  spilled : List Nat
  /-- by register, the lanes that have released it since they last wrote it (R205) -/
  freed : Bank 32
  /-- role: 0 implicit or producer, 1 consumer; its register budget (R96) -/
  role : Nat
  budget : Nat
  slot : Nat
  age : Nat
  /-- a YIELD asked the port to prefer another sheaf at its next choice (R186) -/
  yielded : Bool
  queue : List Req
  deriving DecidableEq, Repr, Inhabited

/-- A circular buffer (R313). -/
structure CBuf where
  slots : Nat
  slotBytes : Nat
  offset : Nat
  free : Nat
  filled : Nat
  held : Nat
  claim : Nat
  acq : Nat
  rel : Nat
  /-- slots whose copy has completed and that FILLED does not yet count (DONE of R376) -/
  done : List Nat
  deriving DecidableEq, Repr, Inhabited

/-- A named barrier (R189, R376). A phase's count: not fixed, ALL (`some none`), or a number. -/
structure Barrier where
  phase : Option (Option Nat)
  nextPhase : Option (Option Nat)
  arrived : Word
  next : Word
  /-- per sheaf: 0 no BARA phase pending, 1 the current phase, 2 the following one -/
  record : Bank 2
  deriving DecidableEq, Repr, Inhabited

/-- A resident stook (R3, R94). -/
structure Stook where
  uid : Nat
  ctx : Nat
  launch : Word
  stookId : Word
  core : Nat
  place : Nat
  scratch : Bank 8
  scratchBytes : Nat
  barriers : List (Nat × Barrier)
  cbufs : List (Nat × CBuf)
  /-- circular buffers the stook declares or has initialised -/
  records : List (Nat × BitVec 256)
  sheaves : List Sheaf
  resident : Nat
  stopAll : Bool
  /-- asked to stop at the next clause boundaries: 0 no, 1 save, 2 end of the launch; and the bytes of the spill region
  reserved for the image it was asked for (R374) -/
  stopping : Nat
  reserve : Nat
  /-- secondary twin of a PAIRED launch, the other twin's uid, the window watermark, the sum over all stores and their
  count, and whether the twin stands at a compare point or may pass it (R383, R384, R385) -/
  secondary : Bool
  twin : Option Nat
  window : DWord
  digest : DWord
  stores : Nat
  windowStores : Nat
  atPoint : Bool
  passPoint : Bool
  /-- stores held until the twins agree (R384), or for good in a second run (R385) -/
  heldStores : List Req
  /-- the second run of a sampled stook: the core of the first (R385) -/
  rerun : Option Nat
  deriving DecidableEq, Repr, Inhabited

/-! ### Cores -/

/-- A park-queue request (R172); a request of several parts is one element of the queue with `nparts` entries.
`state`: 0 in staging, waiting for entries (R171), 1 queued, 2 at the WU, 3 at the XS; `toXs`: the WU could not decide it
(R163). -/
structure Park where
  operands : List Nat
  scales : List Int
  lanes : LaneMask
  stook : Nat
  sheaf : Nat
  dest : OpCode7
  nparts : Nat
  elem : Nat
  fmt : Nat
  rm : Nat
  op : Nat
  sel : Nat
  state : Nat
  toXs : Bool
  /-- number of the operation in the lanes' pending marks -/
  id : Nat
  /-- lanes, with the numbers of their issues, that an element in staging keeps from being finished (R26) -/
  issues : List (Nat × Nat)
  deriving DecidableEq, Repr, Inhabited

/-- A bulk copy in the range-lock table (R310), or a command not yet accepted (`state` 0).
`state`: 0 command, 1 waiting for an earlier lock, 2 running, 3 stopped at a fault, 4 complete, 5 failed. -/
structure Copy where
  id : Nat
  ctx : Nat
  launch : Word
  stook : Nat
  sheaf : Nat
  lanes : LaneMask
  pc : Word
  kind : Nat
  ctl : Word
  shape : Word
  sorg : Int
  dorg : Nat
  iorg : Nat
  srcSlot : Nat
  srcRec : BitVec 256
  /-- the side record of a codebook source as it stood at issue (R80) -/
  sideRec : BitVec 256
  dstRec : BitVec 256
  idxRec : BitVec 256
  /-- the claimed slot's number and byte offset, for a circular-buffer destination -/
  cbSlot : Option (Nat × Nat)
  rm : Nat
  scope : Nat
  rel : Bool
  reuse : Nat
  repl : Bool
  cursor : Nat
  state : Nat
  fcause : Option Cause
  fault : Word
  flags : BitVec 5
  issue : Nat
  /-- the issuing lanes with their persist epochs (R293) -/
  epochs : List (Nat × Nat)
  /-- words of the chunk in hand not yet written, and the elements the chunk takes (R309) -/
  writes : List Req
  taking : Nat
  /-- byte intervals locked (R149): scratchpad or global, low, high, whether the copy writes them; empty until the copy
  has an entry of the range-lock table -/
  ranges : List (Bool × Nat × Nat × Bool)
  /-- issuing lanes to which the completion has not been delivered (R312) -/
  undelivered : LaneMask
  /-- of a secondary twin's copy: the primary's, which is performed for both (R384) -/
  mate : Option Nat
  deriving DecidableEq, Repr, Inhabited

/-- An update-only delta (R145, R146): the word, its kind, and the folded value; for an exact cell the exact sum in units
of 2^-149 and the sticky marks (R175). -/
structure Delta where
  locs : List ByteLoc
  va : Nat
  width : Nat
  /-- ROP of an integer RED, or 8 and its format for XRED -/
  kind : Nat
  fmt : Nat
  value : Int
  nan : Bool
  pinf : Bool
  ninf : Bool
  ctx : Nat
  launch : Word
  id : Nat
  /-- the lanes that contributed, with their persist epochs (R295): stook, sheaf, lane, epoch -/
  who : List (Nat × Nat × Nat × Nat)
  deriving DecidableEq, Repr, Inhabited

/-- A leaf held in a TLB (R364). -/
structure TlbEntry where
  ctx : Nat
  level : Nat
  vpn : Nat
  leaf : DWord
  deriving DecidableEq, Repr, Inhabited

/-- A line held in a cache: its number and its 64 bytes. A cache lists its lines in re-reference order (R127). -/
structure CacheLine where
  line : Nat
  bytes : List Byte
  deriving DecidableEq, Repr, Inhabited

/-- A block-side cache entry or a fill in progress (R74): its number, the bytes once read, and where they lie. `live` is
false for a fill whose entry was dropped meanwhile: it serves the accesses that wait for it and is not kept. -/
structure BscEntry where
  id : Nat
  live : Bool
  /-- the REUSE of the side record (R127) -/
  reuse : Nat
  place : Nat
  slot : Nat
  block : Nat
  entry : Option (List Byte)
  ctx : Nat
  locs : List ByteLoc
  deriving DecidableEq, Repr, Inhabited

/-- A LAUNCH submitted by a lane and not yet answered (R204): the descriptor's address and the queue; `group` is the number
of its issue, which the lanes of one LAUNCH share. -/
structure LaunchReq where
  id : Nat
  group : Nat
  ctx : Nat
  stook : Nat
  sheaf : Nat
  lane : Nat
  issue : Nat
  dest : OpCode7
  queue : Word
  va : Nat
  deriving DecidableEq, Repr, Inhabited

/-- A core: what its stooks share (R3, R97, R111). -/
structure Core where
  num : Nat
  /-- L1 size in units of 64 KiB while stooks are resident (R111) -/
  l1 : Nat
  cycles : DWord
  /-- rotation position k mod 8 and steps taken (R114, R192) -/
  rotation : Nat
  steps : Nat
  /-- stores the core's sheaves see and the home has not performed, oldest first (R137) -/
  stores : List Req
  /-- stores that stooks now gone left in their sheaves' queues, each sheaf's in order: the core does not see them yet (R119) -/
  left : List Req
  /-- outstanding loads, atomics, reductions, oldest first -/
  reqs : List Req
  /-- copies of lines in L1, in re-reference order (R127, R143) -/
  cache : List CacheLine
  deltas : List Delta
  park : List Park
  replay : List Replay
  copies : List Copy
  bsc : List BscEntry
  tlb : List TlbEntry
  launches : List LaunchReq
  deriving DecidableEq, Repr, Inhabited

/-- A die: its L2 copies of lines and its paired base die's granary lines, in re-reference order (R124, R127, R143), the
update-only deltas its L2 holds (R145), and replicas by line, with the launch that made each (R128). -/
structure Die where
  num : Nat
  cache : List CacheLine
  granary : List Nat
  deltas : List Delta
  replicas : List (Nat × (Nat × Word))
  xsNext : Nat
  deriving DecidableEq, Repr, Inhabited

/-! ### Homes, NV tier, service -/

/-- A word lock (R277, R286): the word's physical address, the holder, whether a commit holds it, the holder's ticket. -/
structure WordLock where
  pa : Nat
  holder : LaneRef
  commit : Bool
  ticket : Nat
  deriving DecidableEq, Repr, Inhabited

/-- A completion record (R301). -/
structure Completion where
  seq : Nat
  launch : Word
  valid : Bool
  deriving DecidableEq, Repr, Inhabited

/-- A byte of an NV write that has not drained to the media (R290, R291), in its stack's staging buffer or still volatile: its
address, what stands there without it, and the unit whose words persist together (R292). A completion record on its way stands with its
context and the record that the media still hold (R300, R301). -/
structure Staged where
  pa : Nat
  media : List Byte
  unit : Nat
  record : Option (Nat × Completion)
  deriving DecidableEq, Repr, Inhabited

/-- A write of NV words that is visible and not yet durable (R290), one persist unit (R292): its number in `State.staging`, the
core that made it, its launch, the lanes it is a write of in persist order with their epochs (stook, sheaf, lane, epoch; none for
a write to its launch-atomic region, R340), and the number below which every unit must be durable before it (R293). -/
structure NvWrite where
  unit : Nat
  core : Nat
  ctx : Nat
  launch : Word
  who : List (Nat × Nat × Nat × Nat)
  after : Nat
  deriving DecidableEq, Repr, Inhabited

/-- A granule snapshot (R298, R380): granule base, its bytes that were not zero, the launch; `la` for a durable
launch-atomic one with the SEQ its launch's record will take; `durable` once it is; `used` once the launch has written or
transactionally logged a write to the granule; with the bytes go the keys of its lines and which of them are poisoned. The bytes stand in `old`. -/
structure Snapshot where
  granule : Nat
  old : Memory
  ctx : Nat
  launch : Word
  la : Bool
  seq : Nat
  durable : Bool
  used : Bool
  keys : List (Nat × List Byte)
  poison : List Nat
  /-- where a DRAM granule's copy lies in its partition's pool: the stack, and the frame from the top of it (R394) -/
  frame : Option (Nat × Nat)
  deriving DecidableEq, Repr, Inhabited

/-- An outstanding fault or stopped event (R367, R369, R371): its record's fields, whether a report was sent, and whether
it is a granule's replayable fault. -/
structure FaultRec where
  id : Word
  cause : Cause
  ctx : Nat
  launch : Word
  stookId : Word
  uid : Nat
  sheaf : Nat
  core : Nat
  slot : Nat
  pc : Word
  lanes : LaneMask
  va : Nat
  detail : Word
  kind : AccessKind
  cursor : Nat
  header : Bool
  reported : Bool
  resolved : Bool
  deriving DecidableEq, Repr, Inhabited

/-! ### Contexts and launches -/

/-- A context record and its queues (R349, R350). -/
structure Context where
  valid : Bool
  ptroot : Nat
  partition : Nat
  devlaunch : Bool
  debug : Bool
  qprio : BitVec 48
  spillVa : Nat
  spillBytes : Nat
  spillUsed : Nat
  /-- the end of the highest save image whose room is still reserved -/
  imageTop : Nat
  nextId : Nat
  seq : Word
  deriving DecidableEq, Repr, Inhabited

/-- The fields of a launch descriptor (R351, R352). -/
structure Desc where
  version : Nat
  flags : Nat
  watchdog : Nat
  codeVa : Nat
  codeWords : Nat
  entry : Nat
  seed : DWord
  fieldX : Nat
  fieldY : Nat
  fieldZ : Nat
  sheaves : Nat
  l1 : Nat
  txReads : Nat
  txWrites : Nat
  scratch : Nat
  quantum : Nat
  txlogOff : Nat
  roles : Nat
  paramBytes : Nat
  producer : DWord
  consumer : DWord
  recVa : Nat
  cbufVa : Nat
  recCount : Nat
  cbufCount : Nat
  eligFirst : Nat
  eligCount : Nat
  deps : List Word
  params : List Byte
  reserved : Bool
  deriving DecidableEq, Repr, Inhabited

/-- An entry of the record table (R60): the record with its base resolved, and its slot. -/
structure RecEntry where
  record : BitVec 256
  slot : Nat
  baseKind : Nat
  preg : Nat
  deriving DecidableEq, Repr, Inhabited

/-- A saved stook: its state, its core's state that goes with it, and where its image lies (R376). -/
structure Saved where
  /-- restored ahead of the unplaced stooks (R378), or behind them after a quantum (R112) -/
  first : Bool
  stook : Stook
  parks : List Park
  replays : List Replay
  copies : List Copy
  rotation : Nat
  core : Nat
  /-- the save it was part of: what was saved together from a core comes back together (R378) -/
  batch : Nat
  imageAt : Nat
  imageBytes : Nat
  deriving DecidableEq, Repr, Inhabited

/-- A launch (R351 to R356). `state` is the code of R356. -/
structure Launch where
  ctx : Nat
  id : Word
  queue : Nat
  desc : Desc
  records : List RecEntry
  cbufs : List (Nat × Nat × Nat × Nat)
  code : List Word
  /-- 64 KiB granules of the code segment that could not be read at placement: number, cause, level of the walk (R363) -/
  codeFaults : List (Nat × Cause × Nat)
  state : Nat
  /-- how many stooks have been placed: outside deterministic mode, the next STOOKID (R111) -/
  nextStook : Nat
  /-- in deterministic mode, the first STOOKID a core has not yet considered (R113) -/
  detNext : List (Nat × Nat)
  /-- saved stooks, in the order in which they are to be placed, and whether a PREEMPT keeps the launch from arbitration
  until its RESTORE (R374, R378) -/
  saved : List Saved
  held : Bool
  gone : Nat
  breakpoints : List Word
  eligible : List Nat
  seqLa : Option Nat
  attempts : Nat
  noSnap : Bool
  peerWritten : Bool
  images : Nat
  /-- of stooks that are gone: STOOKID, digest, stores, core -/
  digests : List (Word × DWord × Nat × Nat)
  /-- of second runs that are over: STOOKID, what they gave, their core (R385) -/
  verdicts : List (Word × SampleVerdict × Nat)
  checked : List Word
  /-- the record of the containment error that a replay or an end follows, sent once the snapshots are restored (R381) -/
  errorRec : Option FaultRec
  /-- cycles of the launch controller that count against the watchdog limit (R121) -/
  watched : Nat
  /-- clusters that a replay after a mismatch avoids (R387), and sampled stooks whose extra run is still to come -/
  avoid : List Nat
  rerun : List Word
  /-- how the launch is ending: the state code it will take once its stooks have stopped -/
  ending : Option Nat
  /-- its completion record is written, its snapshots not yet released (R300) -/
  recorded : Bool
  deriving DecidableEq, Repr, Inhabited

/-- A request whose response waits: a CANCEL for the end of its launch (R356), a PREEMPT for the images of its launches,
with the stooks saved so far (R374). -/
structure Pending where
  hdr : MsgHdr
  cancel : Bool
  launches : List Word
  count : Nat
  deriving DecidableEq, Repr, Inhabited

/-- A message the device has sent (R346): responses and device-to-node messages. Its header follows from it and from those sent
before it (`Post.flags`, `State.outSeq`). -/
inductive Post where
  | response (context : Nat) (tag : Word) (status detail : Word) (data : List Byte)
  | faultReport (rec : BitVec 512)
  | recoveryReport (entries : List (BitVec 256))
  | telemetry (entries : List DWord)
  | done (context : Nat) (launch : Word) (state : Nat)
  deriving DecidableEq, Repr, Inhabited

/-- A MEMREAD or MEMWRITE under way (R347): the request, the aligned words still to transfer with their data, the bytes read and
their number, and the cause that ends it behind its last word. -/
structure Transfer where
  hdr : MsgHdr
  req : Instr
  left : List (List (ByteLoc × Byte))
  got : List Byte
  done : Nat
  /-- the persist units of its words on non-volatile memory (R347) -/
  units : List Nat
  cause : Option Cause
  deriving DecidableEq, Repr, Inhabited

/-- A peer link (R358, R398, R402). -/
structure Link where
  num : Nat
  up : Bool
  retrains : Nat
  retransmits : Nat
  failures : Nat
  deriving DecidableEq, Repr, Inhabited

/-- A key slot (R388). -/
structure KeySlot where
  num : Nat
  ctx : Nat
  key : List Byte
  deriving DecidableEq, Repr, Inhabited

/-- The settings block (R393). -/
structure Settings where
  cap : Nat
  partLog : Nat
  telemMs : Nat
  snapPool : List Nat
  nvQuota : List Nat
  deriving DecidableEq, Repr, Inhabited

/-- Service-die state: power, clock, firmware, links, tables, counters (22, 23). -/
structure Service where
  settings : Settings
  clockMHz : Nat
  /-- the two demands on the clock, by power and by heat, and the windows in a row that have kept below each (R395) -/
  powerMHz : Nat
  heatMHz : Nat
  coolWindows : Nat
  mildWindows : Nat
  powerMw : Nat
  hottest : Nat
  /-- firmware banks (R389): the image written since delivery, if any -/
  banks : List (Option (List Byte))
  running : Nat
  pendingBank : Option Nat
  fusedSvn : Nat
  keys : List KeySlot
  links : List Link
  devid : Nat
  domain : Nat
  enable : Nat
  routes : List (Nat × Nat)
  poison : List Nat
  /-- bytes of poisoned lines that have been written since (R387) -/
  mended : List Nat
  /-- frames and blocks remapped, by number, one for each spare used (R387) -/
  remapped : List Nat
  quarantined : List Nat
  counters : Bank 64
  telemSeq : Nat
  /-- the service die's cycle count (R398) -/
  cycles : DWord
  /-- the control ports' mode, one bonded link or a working port with a standby, and the working port (R344) -/
  bonded : Bool
  workingPort : Nat
  portRetransmits : Nat
  holdupOk : Bool
  stagingShare : Bool
  thermalTrip : Bool
  /-- no bank holds an acceptable image: the device is held in reset (R389) -/
  heldReset : Bool
  wear : Nat
  deriving DecidableEq, Repr, Inhabited

/-- The path whose word issues next. -/
structure Focus where
  stook : Nat
  sheaf : Nat
  lanes : LaneMask
  deriving DecidableEq, Repr, Inhabited

/-- The state of the device. `agenda`, `focus`, `turn`, `scan`, `free`, `next` are the model's own (log entries 1, 4): which
agent's event comes next where the spec fixes no order, the path chosen to issue, the paths the same cycle or rotation
step issues after it, the choices made so far, the counter of free values, and the number the next operation takes. -/
structure State where
  powered : Bool
  mem : Memory
  staging : List Staged
  /-- NV writes not yet durable, oldest first -/
  volatile : List NvWrite
  /-- the number that the next NV write had when the last release at DURABLE scope was performed (R293) -/
  barrier : Nat
  snapshots : List Snapshot
  completions : List (Nat × Completion)
  /-- the key each 64 B line was last written under, as key bytes, none for slot 0; lines never written are not listed (R363, R386) -/
  lineKeys : List (Nat × List Byte)
  locks : List WordLock
  contexts : List (Nat × Context)
  launches : List Launch
  stooks : List Stook
  cores : List Core
  dies : List Die
  /-- the TLB of each cluster, newest entries first (R364) -/
  clusterTlbs : List (Nat × List TlbEntry)
  wuNext : List (Nat × Nat)
  faults : List FaultRec
  nextFault : Word
  nextTicket : Nat
  lastServed : Nat
  inbox : List (MsgHdr × Instr)
  transfers : List Transfer
  pending : List Pending
  /-- the messages the device has sent since power-up, oldest first -/
  sent : List Post
  svc : Service
  agenda : List Instr
  focus : Option Focus
  turn : List Focus
  scan : Nat
  free : Nat
  next : Nat
  deriving DecidableEq, Repr, Inhabited

/-- The stops of the model itself. Traps of the spec are no faults: they are next states. -/
inductive Fault where
  /-- Raised by the meaning of an instruction word executed while no path is in focus, or while the device has no power:
  nothing in the spec issues a word without a path. Safe: no word is given an effect. -/
  | noIssuingPath
  deriving DecidableEq, Repr

/-- Why the model gives an instruction no meaning. -/
inductive Refusal where
  /-- An instruction that the model does not give a meaning yet, by its mnemonic. Safe. -/
  | notModelled (mnemonic : String)
  deriving DecidableEq, Repr

/-- The settings block at power-up (R393). -/
def Settings.reset : Settings :=
  { cap := 6000, partLog := 0, telemMs := 1000, snapPool := [], nvQuota := [] }

/-- The service die at power-up (R388, R389, R392 to R398). -/
def Service.reset : Service :=
  { settings := Settings.reset, clockMHz := 600, powerMHz := 600, heatMHz := 600, coolWindows := 0, mildWindows := 0, powerMw := 0, hottest := 0, banks := [none, none],
    running := 0, pendingBank := none, fusedSvn := 0, keys := [], links := [], devid := 0, domain := 0, enable := 0,
    routes := [], poison := [], mended := [], remapped := [], quarantined := [], counters := [], telemSeq := 0, cycles := 0, bonded := false, workingPort := 0,
    portRetransmits := 0, holdupOk := true, stagingShare := false, thermalTrip := false, heldReset := false, wear := 0 }

/-- The device right after power-up: no context is VALID, every key slot is empty, no launch exists (R350, R392).
Values the spec does not give are those of log entries 2, 3 and 4. -/
def State.reset : State :=
  { powered := true, mem := [], staging := [], volatile := [], barrier := 0, snapshots := [], completions := [], lineKeys := [], locks := [], contexts := [],
    launches := [], stooks := [], cores := [], dies := [], clusterTlbs := [], wuNext := [], faults := [], nextFault := 1, nextTicket := 1,
    lastServed := 0, inbox := [], transfers := [], pending := [], sent := [], svc := Service.reset, agenda := [], focus := none, turn := [], scan := 0,
    free := 0, next := 1 }

end Sys2Proof.Machine
end

