-- ==== Sys2Proof/Machine/Bank.lean ====
section
/-! DEFINITION. Reading and writing banks: the one home of vector, scalar and mask registers, of scratchpads and of
memory. Writing zero removes the entry, so equal contents stay equal lists. -/

namespace Sys2Proof.Machine

/-- The value at a key. -/
def Bank.get {w : Nat} : Bank w → Nat → BitVec w
  | [], _ => 0#w
  | (k, v) :: t, n => if k = n then v else Bank.get t n

/-- The bank without a key. -/
def Bank.erase {w : Nat} : Bank w → Nat → Bank w
  | [], _ => []
  | (k, v) :: t, n => if k = n then Bank.erase t n else (k, v) :: Bank.erase t n

/-- The bank with the value at a key replaced; a zero is not listed. -/
def Bank.set {w : Nat} : Bank w → Nat → BitVec w → Bank w
  | [], n, x => if x = 0#w then [] else [(n, x)]
  | (k, v) :: t, n, x =>
    if k < n then (k, v) :: Bank.set t n x
    else if x = 0#w then Bank.erase ((k, v) :: t) n
    else (n, x) :: Bank.erase ((k, v) :: t) n

/-- The canonical form: keys strictly rising, no entry zero. -/
def Bank.wf {w : Nat} : Bank w → Bool
  | [] => true
  | [(_, v)] => v != 0
  | (k, v) :: (k', v') :: t => v != 0 && k < k' && Bank.wf ((k', v') :: t)

/-- The bank without the keys from `lo` up to but not including `hi`. -/
def Bank.clear {w : Nat} (b : Bank w) (lo hi : Nat) : Bank w := b.filter fun p => p.1 < lo || hi ≤ p.1

/-- `n` consecutive values from a key. -/
def Bank.slice {w : Nat} (b : Bank w) : Nat → Nat → List (BitVec w)
  | _, 0 => []
  | a, n + 1 => Bank.get b a :: Bank.slice b (a + 1) n

/-- The bank with consecutive values written from a key. -/
def Bank.splice {w : Nat} (b : Bank w) : Nat → List (BitVec w) → Bank w
  | _, [] => b
  | a, x :: xs => Bank.splice (Bank.set b a x) (a + 1) xs

/-- The canonical form of memory. -/
def Memory.wf (m : Memory) : Bool := Bank.wf m

/-- One byte of storage. -/
def Memory.byte (m : Memory) (a : Nat) : Byte := Bank.get m a

/-- Storage with one byte replaced. -/
def Memory.put (m : Memory) (a : Nat) (x : Byte) : Memory := Bank.set m a x

end Sys2Proof.Machine
end

