-- ==== Sys2Proof/Machine/Access.lean ====
section
/-! DEFINITION. Where each part of the state is found and how it is replaced: stooks by their number, sheaves and lanes
by index, cores, contexts, launches and barriers by key. -/

namespace Sys2Proof.Machine

open Sys2Proof

/-! ### Stooks, sheaves, lanes -/

def State.stook? (s : State) (u : Nat) : Option Stook := s.stooks.find? fun k => k.uid == u

def State.modStook (s : State) (u : Nat) (f : Stook → Stook) : State :=
  { s with stooks := s.stooks.map fun k => if k.uid == u then f k else k }

def Stook.sheaf (k : Stook) (i : Nat) : Sheaf := k.sheaves.getD i default

def Stook.modSheaf (k : Stook) (i : Nat) (f : Sheaf → Sheaf) : Stook := { k with sheaves := k.sheaves.modify i f }

def Sheaf.lane (h : Sheaf) (l : Nat) : Lane := h.lanes.getD l default

def Sheaf.modLane (h : Sheaf) (l : Nat) (f : Lane → Lane) : Sheaf := { h with lanes := h.lanes.modify l f }

/-- The sheaf with every lane of a mask changed, each by its own index. -/
def Sheaf.modLanes (h : Sheaf) (m : LaneMask) (f : Nat → Lane → Lane) : Sheaf :=
  { h with lanes := h.lanes.mapIdx fun l x => if m.getLsbD l then f l x else x }

def State.modSheaf (s : State) (u i : Nat) (f : Sheaf → Sheaf) : State := s.modStook u fun k => k.modSheaf i f

def State.modLane (s : State) (r : LaneRef) (f : Lane → Lane) : State :=
  s.modSheaf r.stook r.sheaf fun h => h.modLane r.lane f

def State.sheafAt (s : State) (u i : Nat) : Sheaf := ((s.stook? u).getD default).sheaf i

def State.laneAt (s : State) (r : LaneRef) : Lane := (s.sheafAt r.stook r.sheaf).lane r.lane

/-! ### Cores, dies, contexts, launches -/

def State.core (s : State) (n : Nat) : Core := (s.cores.find? fun c => c.num == n).getD { (default : Core) with num := n }

/-- A core's entry is made when it is first changed. -/
def State.modCore (s : State) (n : Nat) (f : Core → Core) : State :=
  if s.cores.any fun c => c.num == n then { s with cores := s.cores.map fun c => if c.num == n then f c else c }
  else { s with cores := s.cores ++ [f { (default : Core) with num := n }] }

def State.die (s : State) (n : Nat) : Die := (s.dies.find? fun d => d.num == n).getD { (default : Die) with num := n }

def State.modDie (s : State) (n : Nat) (f : Die → Die) : State :=
  if s.dies.any fun d => d.num == n then { s with dies := s.dies.map fun d => if d.num == n then f d else d }
  else { s with dies := s.dies ++ [f { (default : Die) with num := n }] }

/-- An entry of a list keyed by numbers. -/
def assoc {α : Type} [Inhabited α] (l : List (Nat × α)) (n : Nat) : α :=
  match l.find? fun p => p.1 == n with
  | some p => p.2
  | none => default

def assoc? {α : Type} (l : List (Nat × α)) (n : Nat) : Option α := (l.find? fun p => p.1 == n).map fun p => p.2

def assocSet {α : Type} (l : List (Nat × α)) (n : Nat) (x : α) : List (Nat × α) :=
  if l.any fun p => p.1 == n then l.map fun p => if p.1 == n then (n, x) else p else l ++ [(n, x)]

def State.ctx (s : State) (n : Nat) : Context := assoc s.contexts n

def State.modCtx (s : State) (n : Nat) (f : Context → Context) : State :=
  { s with contexts := assocSet s.contexts n (f (s.ctx n)) }

def State.launch? (s : State) (c : Nat) (id : Word) : Option Launch :=
  s.launches.find? fun l => l.ctx == c && l.id == id

def State.modLaunch (s : State) (c : Nat) (id : Word) (f : Launch → Launch) : State :=
  { s with launches := s.launches.map fun l => if l.ctx == c && l.id == id then f l else l }

def State.launchOf (s : State) (k : Stook) : Launch := (s.launch? k.ctx k.launch).getD default

/-- The FLAGS of a descriptor (R352). CONTAIN: 0 NONE, 1 REPLAY, 2 PAIRED; PLACE: 0 ORDERED, 1 COHORT, 2 QUANTUM. -/
def Desc.det (d : Desc) : Bool := d.flags.testBit 0
def Desc.place (d : Desc) : Nat := natField d.flags 1 2
def Desc.contain (d : Desc) : Nat := natField d.flags 3 2
def Desc.pure (d : Desc) : Bool := d.flags.testBit 5
def Desc.sample (d : Desc) : Nat := natField d.flags 6 5
def Desc.la (d : Desc) : Bool := d.flags.testBit 11
def Desc.depStrict (d : Desc) : Bool := d.flags.testBit 12
def Desc.notify (d : Desc) : Bool := d.flags.testBit 13

/-- The cores of a launch issue in rotation: deterministic mode, and both twins of a PAIRED launch (R114, R383). -/
def Desc.rotates (d : Desc) : Bool := d.det || d.contain = 2

/-- Die and cluster of a core (R198). -/
def dieOf (core : Nat) : Nat := core / Config.coresPerDie
def clusterOf (core : Nat) : Nat := core / Config.coresPerCluster

/-! ### Scalar registers, masks, barriers, buffers, records -/

def Sheaf.rs (h : Sheaf) (n : Nat) : Word := Bank.get h.s n
def Sheaf.ws (h : Sheaf) (n : Nat) (x : Word) : Sheaf := { h with s := Bank.set h.s n x }
def Sheaf.rm (h : Sheaf) (n : Nat) : LaneMask := Bank.get h.m n
def Sheaf.wm (h : Sheaf) (n : Nat) (x : LaneMask) : Sheaf := { h with m := Bank.set h.m n x }
/-- Vector register `r` of lane `l`; an unbound or released one reads zero (R109). -/
def Sheaf.rv (h : Sheaf) (r l : Nat) : Word := Bank.get h.v (32 * r + l)
def Sheaf.wv (h : Sheaf) (r l : Nat) (x : Word) : Sheaf := { h with v := Bank.set h.v (32 * r + l) x }

def Stook.barrier (k : Stook) (n : Nat) : Barrier := assoc k.barriers n
def Stook.setBarrier (k : Stook) (n : Nat) (b : Barrier) : Stook := { k with barriers := assocSet k.barriers n b }
def Stook.cbuf? (k : Stook) (n : Nat) : Option CBuf := assoc? k.cbufs n
def Stook.setCbuf (k : Stook) (n : Nat) (b : CBuf) : Stook := { k with cbufs := assocSet k.cbufs n b }

/-- The record of a slot: b0 is the fixed flat record (R78), an uninstalled slot has none (R75). -/
def Stook.record? (k : Stook) (n : Nat) : Option (BitVec 256) :=
  if n = 0 then some (BitVec.ofNat 256 (0x30 <<< 224)) else assoc? k.records n

/-- A number no operation has used yet. -/
def State.fresh (s : State) : Nat × State := (s.next, { s with next := s.next + 1 })

/-- The next free value of the model (log entry 4). -/
def State.freeBit (s : State) : Bool × State := (Config.freeChoice s.free, { s with free := s.free + 1 })

/-! ### Lanes of a path -/

/-- Whether a lane takes part in a path that can issue: not exited, not stopped, not held (R98, R99). -/
def Lane.running (x : Lane) : Bool := !x.exitIssued && !x.exited && x.stop.isNone && x.hold.isNone

/-- The lanes of a sheaf that have not issued EXIT: those that are awaited (R119). -/
def Sheaf.live (h : Sheaf) : LaneMask :=
  maskOf ((List.range h.lanes.length).filter fun l => let x := h.lane l; !x.exitIssued && !x.exited)

/-- The lanes of a sheaf that satisfy a test. -/
def Sheaf.lanesWhere (h : Sheaf) (p : Lane → Bool) : LaneMask :=
  maskOf ((List.range h.lanes.length).filter fun l => p (h.lane l))

end Sys2Proof.Machine
end

