-- ==== Sys2Proof/Machine/Operands.lean ====
section
/-! DEFINITION. Operand forms (01 R19 to R25, 09 R209): what each operand code reads, and how results reach registers
and latches. -/

namespace Sys2Proof.Machine

open Sys2Proof

/-- Low and high word of a 64-bit value, and the pair put together (R22: the low half in the even register). -/
def loW (x : DWord) : Word := x.extractLsb' 0 32
def hiW (x : DWord) : Word := x.extractLsb' 32 32
def pairW (lo hi : Word) : DWord := hi ++ lo

/-- A 32-bit vector-domain source of one lane (R19, R20, R23). -/
def Sheaf.src (h : Sheaf) (sreg : Nat) (c : OpCode7) (l : Nat) : Word :=
  if isVReg c then h.rv c.toNat l
  else if isLatch c then ((h.lane l).latches.getD (c.toNat - 112) none).getD 0
  else if c == cLANE then BitVec.ofNat 32 l
  else if c == cONES then BitVec.allOnes 32
  else if c == cSIGN then 0x80000000#32
  else if c == cBCAST then h.rs sreg
  else 0

/-- A 64-bit vector-domain source (R22, R209). -/
def Sheaf.src64 (h : Sheaf) (sreg : Nat) (c : OpCode7) (l : Nat) : DWord :=
  if isVReg c then pairW (h.rv c.toNat l) (h.rv (c.toNat + 1) l)
  else if c == cLANE then BitVec.ofNat 64 l
  else if c == cONES then BitVec.allOnes 64
  else if c == cSIGN then 0x8000000000000000#64
  else if c == cBCAST then pairW (h.rs sreg) (h.rs ((sreg + 1) % 64))
  else 0

/-- A source of either width, as 64 bits. -/
def Sheaf.srcW (h : Sheaf) (wide : Bool) (sreg : Nat) (c : OpCode7) (l : Nat) : DWord :=
  if wide then h.src64 sreg c l else (h.src sreg c l).setWidth 64

/-- A scalar-domain source (R21, R180). -/
def Sheaf.ssrc (h : Sheaf) (c : OpCode7) : Word :=
  if isSReg c then h.rs c.toNat
  else if c == cONES then BitVec.allOnes 32
  else if c == cSIGN then 0x80000000#32
  else 0

/-- A 64-bit scalar-domain source (R211). -/
def Sheaf.ssrc64 (h : Sheaf) (c : OpCode7) : DWord :=
  if isSReg c then pairW (h.rs c.toNat) (h.rs ((c.toNat + 1) % 64))
  else if c == cONES then BitVec.allOnes 64
  else if c == cSIGN then 0x8000000000000000#64
  else 0

def Sheaf.ssrcW (h : Sheaf) (wide : Bool) (c : OpCode7) : DWord :=
  if wide then h.ssrc64 c else (h.ssrc c).setWidth 64

/-- A scalar result (R21): one s-register, or an even pair. -/
def Sheaf.wsW (h : Sheaf) (wide : Bool) (n : Nat) (x : DWord) : Sheaf :=
  if wide then (h.ws n (loW x)).ws ((n + 1) % 64) (hiW x) else h.ws n (loW x)

/-- A vector result of one lane: a register, or an even pair (R22). -/
def Sheaf.wvW (h : Sheaf) (wide : Bool) (r l : Nat) (x : DWord) : Sheaf :=
  if wide then (h.wv r l (loW x)).wv (r + 1) l (hiW x) else h.wv r l (loW x)

/-- Results of the lanes of a mask, in ascending lane order. -/
def Sheaf.writeLanes (h : Sheaf) (m : LaneMask) (wide : Bool) (r : Nat) (f : Nat → DWord) : Sheaf :=
  (lanesOf m).foldl (fun g l => g.wvW wide r l (f l)) h

/-- Consecutive registers of one lane. -/
def Sheaf.writeGroup (h : Sheaf) (l : Nat) : Nat → List Word → Sheaf
  | _, [] => h
  | r, x :: xs => Sheaf.writeGroup (h.wv r l x) l (r + 1) xs

/-- Consecutive registers of one lane, read. -/
def Sheaf.readGroup (h : Sheaf) (r l n : Nat) : List Word := (List.range n).map fun k => h.rv (r + k) l

/-- A lane's place after leaving a clause or taking a transfer: at the header `t`, outside any clause (R25, R98). -/
def Lane.goto (x : Lane) (t : Word) : Lane :=
  { x with pc := t, hdr := t, fin := t, cls := 0, inside := false, pos := 0, latches := [], resumed := false, wrote := [], tag := 0, passed := false, refilled := false,
           credit := false }

/-- A lane past its word of `n` 32-bit words, with the result the word latches (R10, R23, R35). A lane being stepped is
due to park once the step is over (R122). -/
def Lane.next (x : Lane) (n : Nat) (q : Option Word) : Lane :=
  let pc := x.pc + BitVec.ofNat 32 n
  if pc == x.fin then x.goto pc
  else { x with pc := pc, pos := x.pos + 1, latches := if x.resumed then [] else (q :: x.latches).take 4,
                passed := false, credit := x.credit && x.cls == 0 }

/-- Lanes past their word, each with what it latches. -/
def Sheaf.nextLanes (h : Sheaf) (m : LaneMask) (n : Nat) (q : Nat → Option Word) : Sheaf :=
  h.modLanes m fun l x => x.next n (q l)

/-- One more issue that took effect (R116). -/
def Sheaf.count (h : Sheaf) : Sheaf := { h with retired := h.retired + 1 }

/-- FX with flags raised (R160). -/
def Sheaf.raise (h : Sheaf) (f : BitVec 5) : Sheaf := { h with fx := h.fx ||| f.setWidth 32 }

end Sys2Proof.Machine
end

