-- ==== Sys2Proof/Machine/Flags.lean ====
section
/-! DEFINITION. The five flags of FX (07 R159, 08 R200) and the rounding modes (07 R156, 08 R199). -/

namespace Sys2Proof.Machine

open Sys2Proof

/-- FX bits (R200). -/
abbrev FlagSet := BitVec 5

def flNone : FlagSet := 0
def flInexact : FlagSet := 1
def flUnderflow : FlagSet := 2
def flOverflow : FlagSet := 4
def flDivZero : FlagSet := 8
def flInvalid : FlagSet := 16

/-- A flag raised under a condition. -/
def flIf (b : Bool) (f : FlagSet) : FlagSet := if b then f else 0

/-- The rounding modes by RM code (R156). -/
def rmRNE : Nat := 0
def rmRTZ : Nat := 1
def rmRUP : Nat := 2
def rmRDN : Nat := 3
def rmRNA : Nat := 4

/-- The mode of an RM code: 7 is DYN and takes FRM as it stands (R156). -/
def Sheaf.mode (h : Sheaf) (rm : Nat) : Nat := if rm = 7 then (h.frm.extractLsb' 0 3).toNat else rm

/-- FRM.WRAPTRAP (R199). -/
def Sheaf.wrapTrap (h : Sheaf) : Bool := h.frm.getLsbD 8

end Sys2Proof.Machine
end

