-- ==== Sys2Proof/Machine/Float.lean ====
section
/-! DEFINITION. Exact arithmetic and its one rounding (03 R64 to R66, 07 R154 to R159). A finite value is a sign, a
natural mantissa and an exponent of two; sums and products are formed exactly, and `FFmt.round` is the only place a
result loses bits. -/

namespace Sys2Proof.Machine

open Sys2Proof

/-- A binary format by its exponent and fraction widths (R64). -/
structure FFmt where
  eb : Nat
  mb : Nat
  deriving DecidableEq, Repr

def fmtF16 : FFmt := ⟨5, 10⟩
def fmtBF16 : FFmt := ⟨8, 7⟩
def fmtF32 : FFmt := ⟨8, 23⟩
def fmtF64 : FFmt := ⟨11, 52⟩

/-- The element format of a float format code (R62): a packed code names its element's format. -/
def floatOf (code : Nat) : FFmt :=
  if code = 0x10 || code = 0x14 then fmtF16
  else if code = 0x11 || code = 0x15 then fmtBF16
  else if code = 0x13 then fmtF64
  else fmtF32

def FFmt.bits (f : FFmt) : Nat := 1 + f.eb + f.mb
def FFmt.bias (f : FFmt) : Nat := 2 ^ (f.eb - 1) - 1
/-- The exponent of the smallest normal value. -/
def FFmt.emin (f : FFmt) : Int := 1 - (f.bias : Int)

/-- A value read from a format. -/
inductive FVal where
  | nan (signalling : Bool)
  | inf (neg : Bool)
  | zero (neg : Bool)
  | fin (neg : Bool) (m : Nat) (e : Int)
  deriving DecidableEq, Repr, Inhabited

/-- The bits of a format taken apart (R64, R65). -/
def FFmt.unpack (f : FFmt) (x : Nat) : FVal :=
  let frac := x % 2 ^ f.mb
  let ex := (x >>> f.mb) % 2 ^ f.eb
  let neg := (x >>> (f.mb + f.eb)) % 2 = 1
  if ex = 2 ^ f.eb - 1 then (if frac = 0 then .inf neg else .nan (frac < 2 ^ (f.mb - 1)))
  else if ex = 0 then (if frac = 0 then .zero neg else .fin neg frac (f.emin - f.mb))
  else .fin neg (2 ^ f.mb + frac) ((ex : Int) - f.bias - f.mb)

def FFmt.signBit (f : FFmt) (neg : Bool) : Nat := if neg then 2 ^ (f.eb + f.mb) else 0
def FFmt.zeroBits (f : FFmt) (neg : Bool) : Nat := f.signBit neg
def FFmt.infBits (f : FFmt) (neg : Bool) : Nat := f.signBit neg + (2 ^ f.eb - 1) * 2 ^ f.mb
def FFmt.maxBits (f : FFmt) (neg : Bool) : Nat := f.infBits neg - 1
/-- The canonical NaN (R64). -/
def FFmt.canon (f : FFmt) : Nat := (2 ^ f.eb - 1) * 2 ^ f.mb + 2 ^ (f.mb - 1)

/-- `m` divided by `2^sh` and rounded to an integer under a mode; `sticky` says that the exact value exceeds `m` by less
than one. The quotient, and whether it differs from the exact value. A shift past every bit of `m` rounds as three places
past them do. -/
def roundShift (rm : Nat) (neg : Bool) (m sh : Nat) (sticky : Bool) : Nat × Bool :=
  let sh := min sh (Nat.log2 m + 3)
  let q := m >>> sh
  let r := m % 2 ^ sh
  let inexact := r != 0 || sticky
  let twice := 2 * r
  let gt := twice > 2 ^ sh || (twice = 2 ^ sh && sticky)
  let tie := twice = 2 ^ sh && !sticky
  let up :=
    if rm = 0 then gt || (tie && q % 2 = 1)
    else if rm = 2 then inexact && !neg
    else if rm = 3 then inexact && neg
    else if rm = 4 then gt || tie
    else false
  (if up then q + 1 else q, inexact)

/-- `m · 2^e` to a multiple of `2^t`: the multiple and whether it is inexact. -/
def roundAt (rm : Nat) (neg : Bool) (m : Nat) (e t : Int) (sticky : Bool) : Nat × Bool :=
  if t ≤ e then (m <<< (e - t).toNat, sticky) else roundShift rm neg m (t - e).toNat sticky

/-- What overflow delivers (R157). -/
def FFmt.overflow (f : FFmt) (rm : Nat) (neg : Bool) : Nat :=
  if rm = 1 || (rm = 2 && neg) || (rm = 3 && !neg) then f.maxBits neg else f.infBits neg

/-- round(fmt, rm, ±m · 2^e) for `m` nonzero, with its flags (R156, R157, R159). -/
def FFmt.round (f : FFmt) (rm : Nat) (neg : Bool) (m : Nat) (e : Int) (sticky : Bool := false) : Nat × FlagSet :=
  let top : Int := e + Nat.log2 m
  let free : Int := top - f.mb
  let grid : Int := max free (f.emin - f.mb)
  let (k, ix) := roundAt rm neg m e grid sticky
  let (ku, _) := roundAt rm neg m e free sticky
  let tiny := (Nat.log2 ku : Int) + free < f.emin
  if k = 0 then (f.zeroBits neg, flIf ix flInexact ||| flIf (ix && tiny) flUnderflow)
  else if (Nat.log2 k : Int) + grid > f.bias then (f.overflow rm neg, flOverflow ||| flInexact)
  else
    let bits :=
      if k < 2 ^ f.mb then k
      else
        let ex := ((Nat.log2 k : Int) + grid + f.bias).toNat
        let frac := (if k = 2 ^ (f.mb + 1) then 0 else k - 2 ^ f.mb)
        ex * 2 ^ f.mb + frac
    (f.signBit neg + bits, flIf ix flInexact ||| flIf (ix && tiny) flUnderflow)

/-- An exact integer multiple of `2^e` rounded; zero takes the sign given. -/
def FFmt.roundInt (f : FFmt) (rm : Nat) (n : Int) (e : Int) (zeroNeg : Bool) : Nat × FlagSet :=
  if n = 0 then (f.zeroBits zeroNeg, flNone) else f.round rm (n < 0) n.natAbs e

/-- The sign of an exact zero sum (R158): that of the terms when all are zeros of one sign, else by the mode. Where R325 says that its
tile's bits are the same under RDN, R158 gives −0 for the elements whose terms are zeros of both signs, and is followed (log entry 82). -/
def zeroSumSign (rm : Nat) (ts : List FVal) : Bool :=
  if ts.all (fun t => t == .zero true) && !ts.isEmpty then true
  else if ts.all (fun t => t == .zero false) then false
  else rm = 3

/-- The exact product of two values: a term of a sum. 0 × ∞ is an undefined operation, carried as a signalling NaN. -/
def FVal.mul : FVal → FVal → FVal
  | .nan s, .nan t => .nan (s || t)
  | .nan s, _ => .nan s
  | _, .nan t => .nan t
  | .inf s, .inf t => .inf (s != t)
  | .inf _, .zero _ => .nan true
  | .zero _, .inf _ => .nan true
  | .inf s, .fin t _ _ => .inf (s != t)
  | .fin s _ _, .inf t => .inf (s != t)
  | .zero s, .zero t => .zero (s != t)
  | .zero s, .fin t _ _ => .zero (s != t)
  | .fin s _ _, .zero t => .zero (s != t)
  | .fin s m e, .fin t n d => .fin (s != t) (m * n) (e + d)

def FVal.neg : FVal → FVal
  | .nan s => .nan s
  | .inf s => .inf (!s)
  | .zero s => .zero (!s)
  | .fin s m e => .fin (!s) m e

def FVal.isNan : FVal → Bool
  | .nan _ => true
  | _ => false

def FVal.isSNan : FVal → Bool
  | .nan s => s
  | _ => false

/-- A finite value as an integer multiple of `2^b`, for `b` at most its exponent. -/
def FVal.scaled (b : Int) : FVal → Int
  | .fin s m e => let x : Int := ((m <<< (e - b).toNat : Nat) : Int); if s then -x else x
  | _ => 0

/-- The least exponent of the finite terms. -/
def minExp (ts : List FVal) : Int :=
  ts.foldl (fun b t => match t with | .fin _ _ e => min b e | _ => b)
    (match ts.find? (fun t => match t with | .fin _ _ _ => true | _ => false) with | some (.fin _ _ e) => e | _ => 0)

/-- The exact sum of terms and one rounding, with special values (R158, R221, R222, R236). -/
def FFmt.sum (f : FFmt) (rm : Nat) (ts : List FVal) : Nat × FlagSet :=
  let pinf := ts.any fun t => t == .inf false
  let ninf := ts.any fun t => t == .inf true
  if ts.any FVal.isNan || (pinf && ninf) then (f.canon, flIf (ts.any FVal.isSNan || (pinf && ninf)) flInvalid)
  else if pinf || ninf then (f.infBits ninf, flNone)
  else
    let b := minExp ts
    f.roundInt rm (ts.foldl (fun a t => a + t.scaled b) 0) b (zeroSumSign rm ts)

/-- round of `m·2^e / (n·2^d)`. -/
def FFmt.roundRatio (f : FFmt) (rm : Nat) (neg : Bool) (m n : Nat) (e : Int) : Nat × FlagSet :=
  let sh := f.mb + 4 + Nat.log2 n
  let x := m <<< sh
  f.round rm neg (x / n) (e - sh) (x % n != 0)

/-- The integer square root by bits, from bit `i − 1` down. -/
def sqrtBits (n : Nat) : Nat → Nat → Nat
  | 0, r => r
  | i + 1, r => let r' := r + 2 ^ i; sqrtBits n i (if r' * r' ≤ n then r' else r)

def natSqrt (n : Nat) : Nat := sqrtBits n (Nat.log2 n / 2 + 1) 0

/-- round of √(m·2^e). -/
def FFmt.roundSqrt (f : FFmt) (rm : Nat) (m : Nat) (e : Int) : Nat × FlagSet :=
  let sh := 2 * (f.mb + 3)
  let sh := if (e - sh) % 2 = 0 then sh else sh + 1
  let x := m <<< sh
  let r := natSqrt x
  f.round rm false r ((e - sh) / 2) (r * r != x)

/-- FADD, FSUB, FMUL, FFMA, FDIV, FSQRT of one element (R221). -/
def fAdd (f : FFmt) (rm a b : Nat) : Nat × FlagSet := f.sum rm [f.unpack a, f.unpack b]
def fSub (f : FFmt) (rm a b : Nat) : Nat × FlagSet := f.sum rm [f.unpack a, (f.unpack b).neg]
def fMul (f : FFmt) (rm a b : Nat) : Nat × FlagSet := f.sum rm [(f.unpack a).mul (f.unpack b)]
def fFma (f : FFmt) (rm a b c : Nat) : Nat × FlagSet := f.sum rm [(f.unpack a).mul (f.unpack b), f.unpack c]

def fDiv (f : FFmt) (rm a b : Nat) : Nat × FlagSet :=
  match f.unpack a, f.unpack b with
  | .nan s, .nan t => (f.canon, flIf (s || t) flInvalid)
  | .nan s, _ => (f.canon, flIf s flInvalid)
  | _, .nan t => (f.canon, flIf t flInvalid)
  | .inf _, .inf _ => (f.canon, flInvalid)
  | .zero _, .zero _ => (f.canon, flInvalid)
  | .inf s, .zero t => (f.infBits (s != t), flNone)
  | .inf s, .fin t _ _ => (f.infBits (s != t), flNone)
  | .fin s _ _, .zero t => (f.infBits (s != t), flDivZero)
  | .zero s, .inf t => (f.zeroBits (s != t), flNone)
  | .zero s, .fin t _ _ => (f.zeroBits (s != t), flNone)
  | .fin s _ _, .inf t => (f.zeroBits (s != t), flNone)
  | .fin s m e, .fin t n d => f.roundRatio rm (s != t) m n (e - d)

def fSqrt (f : FFmt) (rm a : Nat) : Nat × FlagSet :=
  match f.unpack a with
  | .nan s => (f.canon, flIf s flInvalid)
  | .zero s => (f.zeroBits s, flNone)
  | .inf false => (f.infBits false, flNone)
  | .inf true => (f.canon, flInvalid)
  | .fin true _ _ => (f.canon, flInvalid)
  | .fin false m e => f.roundSqrt rm m e

/-- FDOT2: two products of 16-bit elements and an F32 addend, one rounding (R222). -/
def fDot2 (f : FFmt) (rm : Nat) (a0 a1 b0 b1 c : Nat) : Nat × FlagSet :=
  fmtF32.sum rm [(f.unpack a0).mul (f.unpack b0), (f.unpack a1).mul (f.unpack b1), fmtF32.unpack c]

/-- The order of two values that are not NaN: −1, 0, 1. The zeros are equal. -/
def FVal.cmp (a b : FVal) : Int :=
  match a, b with
  | .inf s, .inf t => if s = t then 0 else if s then -1 else 1
  | .inf s, _ => if s then -1 else 1
  | _, .inf t => if t then 1 else -1
  | _, _ =>
    let e := minExp [a, b]
    let x := a.scaled e
    let y := b.scaled e
    if x < y then -1 else if x = y then 0 else 1

/-- FMIN (`greater` false) and FMAX (R223): the selected bits unchanged. -/
def fMinMax (f : FFmt) (greater : Bool) (a b : Nat) : Nat × FlagSet :=
  let u := f.unpack a
  let v := f.unpack b
  let iv := flIf (u.isSNan || v.isSNan) flInvalid
  if u.isNan && v.isNan then (f.canon, iv)
  else if u.isNan then (b, iv)
  else if v.isNan then (a, iv)
  else
    let c := u.cmp v
    let less := if c = 0 then u == .zero true || u == v else c < 0
    (if less != greater then a else b, iv)

/-- FABS and FNEG (R223). -/
def fAbs (f : FFmt) (a : Nat) : Nat × FlagSet :=
  match f.unpack a with
  | .nan s => (f.canon, flIf s flInvalid)
  | _ => (a % 2 ^ (f.eb + f.mb), flNone)

def fNeg (f : FFmt) (a : Nat) : Nat × FlagSet :=
  match f.unpack a with
  | .nan s => (f.canon, flIf s flInvalid)
  | _ => ((a + 2 ^ (f.eb + f.mb)) % 2 ^ (f.eb + f.mb + 1), flNone)

/-- FSET's relation and flag for a CMP code (R224). -/
def fCompare (f : FFmt) (cmp a b : Nat) : Bool × FlagSet :=
  let u := f.unpack a
  let v := f.unpack b
  let un := u.isNan || v.isNan
  let sn := u.isSNan || v.isSNan
  let c := u.cmp v
  let rel :=
    if cmp = 6 then !un
    else if cmp = 7 then un
    else if cmp = 1 then un || c != 0
    else !un && (if cmp = 0 then c = 0 else if cmp = 2 then c < 0 else if cmp = 3 then c ≤ 0
                 else if cmp = 4 then c > 0 else c ≥ 0)
  (rel, flIf (sn || (un && 2 ≤ cmp && cmp ≤ 5)) flInvalid)

/-- FCLASS (R225). -/
def fClass (f : FFmt) (a : Nat) : Nat :=
  match f.unpack a with
  | .nan s => if s then 256 else 512
  | .inf s => if s then 1 else 128
  | .zero s => if s then 8 else 16
  | .fin s m _ =>
    if m < 2 ^ f.mb then (if s then 4 else 32) else (if s then 2 else 64)

/-- A finite value rounded to an integer under a mode, and whether it changed. -/
def roundIntegral (rm : Nat) (neg : Bool) (m : Nat) (e : Int) : Nat × Bool := roundAt rm neg m e 0 false

/-- FRND (R227). -/
def fRnd (f : FFmt) (rm a : Nat) : Nat × FlagSet :=
  match f.unpack a with
  | .nan s => (f.canon, flIf s flInvalid)
  | .fin s m e =>
    let (n, ix) := roundIntegral rm s m e
    if n = 0 then (f.zeroBits s, flIf ix flInexact) else ((f.round rm s n 0).1, flIf ix flInexact)
  | _ => (a, flNone)

/-- FSCALB (R228). -/
def fScalb (f : FFmt) (rm a : Nat) (n : Int) : Nat × FlagSet :=
  match f.unpack a with
  | .nan s => (f.canon, flIf s flInvalid)
  | .fin s m e => f.round rm s m (e + n)
  | _ => (a, flNone)

/-! ### Formats and conversion (R62, R63, R226) -/

/-- Storage width of one element (R62). -/
def fmtBits (c : Nat) : Nat :=
  if c ≤ 1 || c = 0x30 then 8
  else if c = 2 || c = 3 || c = 0x10 || c = 0x11 then 16
  else if c = 6 || c = 7 || c = 0x13 then 64
  else if c = 0x20 then 6
  else if c = 0x21 then 3
  else if c = 0x22 then 4
  else 32

/-- Alignment of a format in bytes (R62). -/
def fmtAlign (c : Nat) : Nat :=
  if c ≤ 1 || c = 0x30 then 1
  else if c = 2 || c = 3 || c = 0x10 || c = 0x11 then 2
  else if c = 6 || c = 7 || c = 0x13 then 8
  else 4

/-- The codes of R62 that are not reserved. -/
def fmtDefined (c : Nat) : Bool :=
  c < 8 || (0x10 ≤ c && c < 0x16) || (0x20 ≤ c && c < 0x23) || c = 0x30

def fmtIsInt (c : Nat) : Bool := c < 8
def fmtIsFloat (c : Nat) : Bool := 0x10 ≤ c && c < 0x14
def fmtIsPacked (c : Nat) : Bool := c = 0x14 || c = 0x15
/-- Signed integer formats have even codes (R62). -/
def fmtSigned (c : Nat) : Bool := c % 2 = 0

/-- An integer of an integer format, read from the low bits of a register (R63). -/
def intOf (c x : Nat) : Int := if fmtSigned c then signedOf (fmtBits c) x else ((x % 2 ^ fmtBits c : Nat) : Int)

def intMin (c : Nat) : Int := if fmtSigned c then -(2 ^ (fmtBits c - 1) : Nat) else 0
def intMax (c : Nat) : Int := if fmtSigned c then (2 ^ (fmtBits c - 1) : Nat) - 1 else (2 ^ fmtBits c : Nat) - 1

/-- An integer result as its register or pair holds it: extended to 32 bits when narrower (R63). -/
def intBits (c : Nat) (n : Int) : Nat := wrapInt (if fmtBits c = 64 then 64 else 32) n

/-- FCVT of one element from format `src` to format `dst` (R226). -/
def fCvt (dst src rm x : Nat) : Nat × FlagSet :=
  if fmtIsInt src then
    let n := intOf src x
    if fmtIsInt dst then
      if n < intMin dst then (intBits dst (intMin dst), flInvalid)
      else if n > intMax dst then (intBits dst (intMax dst), flInvalid)
      else (intBits dst n, flNone)
    else (floatOf dst).roundInt rm n 0 false
  else
    let v := (floatOf src).unpack x
    if fmtIsInt dst then
      match v with
      | .nan _ => (0, flInvalid)
      | .inf s => (intBits dst (if s then intMin dst else intMax dst), flInvalid)
      | .zero _ => (0, flNone)
      | .fin s m e =>
        let (k, ix) := roundIntegral rm s m e
        let n : Int := if s then -(k : Int) else k
        if n < intMin dst then (intBits dst (intMin dst), flInvalid)
        else if n > intMax dst then (intBits dst (intMax dst), flInvalid)
        else (intBits dst n, flIf ix flInexact)
    else
      let f := floatOf dst
      match v with
      | .nan s => (f.canon, flIf s flInvalid)
      | .inf s => (f.infBits s, flNone)
      | .zero s => (f.zeroBits s, flNone)
      | .fin s m e => f.round rm s m e

/-- The integer relation of an ISET CMP code (R219). -/
def iCompare (cmp : Nat) (a b : Int) : Bool :=
  if cmp = 0 then a = b else if cmp = 1 then a ≠ b else if cmp = 2 then a < b else if cmp = 3 then a ≤ b
  else if cmp = 4 then a > b else a ≥ b

end Sys2Proof.Machine
end

