-- ==== Sys2Proof/Machine/Forms.lean ====
section
/-! DEFINITION. What the encoding tables say of each A-format instruction (08, 09 R213, 10 R230, 14 R303): which operand
fields it uses, whether it rounds, its formats and options; and the registers each word reads and writes (R28, R29). -/

namespace Sys2Proof

open Sys2Proof.Machine

/-- The encoding of an A-format instruction. `fmts` empty: FMT is unused. `opt` is the mask of MOD.OPT bits in use. -/
structure AForm where
  ud : Bool := false
  ua : Bool := false
  ub : Bool := false
  uc : Bool := false
  rounds : Bool := false
  dfmt : Nat := 0
  fmts : List Nat := []
  opt : Nat := 0
  scalar : Bool := false
  tok : Bool := false
  xReq : Bool := false
  sreg : Bool := false
  deriving DecidableEq, Repr

def fmtsI : List Nat := [4, 5]
def fmtsF : List Nat := [0x10, 0x11, 0x12, 0x13, 0x14, 0x15]
def formI2 : AForm := { ud := true, ua := true, ub := true, dfmt := 4, fmts := fmtsI, scalar := true }
def formU1 : AForm := { ud := true, ua := true, dfmt := 5, fmts := fmtsI, scalar := true }
def formF2 : AForm := { ud := true, ua := true, ub := true, rounds := true, dfmt := 0x12, fmts := fmtsF }
def formF1 : AForm := { ud := true, ua := true, dfmt := 0x12, fmts := fmtsF }
def formX : AForm := { ud := true, ua := true, ub := true, opt := 0x3F, tok := true }
def formAsync : AForm := { opt := 0xF, xReq := true }

/-- The encoding of the A-format instruction in a slot (R193 to R196, R202, R204, R205, R213, R230, R303). -/
def aForm (op : Nat) : AForm :=
  match op with
  | 0x004 => { formI2 with uc := true, scalar := false }
  | 0x007 => { formI2 with ub := false, fmts := [4] }
  | 0x010 => { formI2 with dfmt := 5 }
  | 0x011 => { formI2 with uc := true, dfmt := 5, scalar := false }
  | 0x012 => formU1
  | 0x013 => formU1
  | 0x014 => formU1
  | 0x015 => formU1
  | 0x016 => { formI2 with opt := 0x3E }
  | 0x017 => { formI2 with uc := true, dfmt := 5, scalar := false }
  | 0x018 => formU1
  | 0x01b => { formI2 with dfmt := 6, fmts := [6, 7] }
  | 0x01c => { formI2 with uc := true, dfmt := 7, fmts := [6, 7], scalar := false }
  | 0x020 => formF2
  | 0x021 => formF2
  | 0x022 => formF2
  | 0x023 => { formF2 with uc := true }
  | 0x024 => { formF2 with rounds := false }
  | 0x025 => { formF2 with rounds := false }
  | 0x026 => formF1
  | 0x027 => formF1
  | 0x028 => { formF2 with rounds := false, opt := 0x3E }
  | 0x029 => formF1
  | 0x02a => { formF2 with opt := 0x3F }
  | 0x02b => { formF1 with rounds := true }
  | 0x02c => formF2
  | 0x02d => formF2
  | 0x02e => { formF1 with rounds := true }
  | 0x02f => { formF2 with uc := true, dfmt := 0x15, fmts := [0x14, 0x15] }
  | 0x040 => { formF1 with rounds := true, opt := 0xF, tok := true, xReq := true }
  | 0x041 => { formF1 with rounds := true, fmts := [0x10, 0x11, 0x12, 0x13], opt := 0xF, tok := true, xReq := true }
  | 0x080 => { formF2 with uc := true, fmts := [0x12, 0x10, 0x11, 0], tok := true, xReq := true }
  | 0x081 => { formF2 with uc := true, fmts := [0x20], tok := true, xReq := true, sreg := true }
  | 0x0e2 => { ud := true, tok := true, xReq := true }
  | 0x0e3 => { ua := true, xReq := true }
  | 0x0e4 => { tok := true, xReq := true }
  | 0x0e5 => { ud := true, opt := 1, xReq := true }
  | 0x108 => formAsync
  | 0x110 => { formAsync with ub := true, sreg := true }
  | 0x111 => { formAsync with ud := true, tok := true }
  | 0x112 => formAsync
  | 0x14d => { ud := true, ua := true, tok := true }
  | 0x150 => formX
  | 0x151 => { formX with ub := false }
  | 0x152 => { formX with ub := false }
  | 0x153 => { formX with ub := false, opt := 0x30 }
  | 0x154 => formX
  | 0x155 => formX
  | 0x156 => { formX with ua := false, ub := false }
  | 0x157 => { ua := true, ub := true, uc := true, opt := 0x3F, tok := true, xReq := true }
  | 0x15e => {}
  | 0x15f => {}
  | 0x182 => { ud := true, ua := true, tok := true }
  | 0x185 => { ud := true, ua := true, ub := true, tok := true }
  | 0x186 => { ud := true, opt := 0x3F }
  | _ => formI2

/-- The E word of an A word: its own, or the default of R17. -/
def AWord.e (w : AWord) (f : AForm) : Word :=
  w.ext.getD (cZERO ++ (if f.rounds then 7#3 else 0#3) ++ BitVec.ofNat 6 f.dfmt ++ 7#3 ++ 0#13)

def AWord.c (w : AWord) (f : AForm) : OpCode7 := eC (w.e f)
def AWord.fmt (w : AWord) (f : AForm) : Nat := (eFMT (w.e f)).toNat
def AWord.rm (w : AWord) (f : AForm) : Nat := (eRM (w.e f)).toNat
def AWord.tok (w : AWord) (f : AForm) : Nat := (eTOK (w.e f)).toNat
def AWord.opt (w : AWord) (f : AForm) : Nat := (eOPT (w.e f)).toNat
def AWord.sregN (w : AWord) (f : AForm) : Nat := (eSREG (w.e f)).toNat
def AWord.scal (w : AWord) (f : AForm) : Bool := eSCALAR (w.e f)
/-- CMP and TOMASK of a compare (R213: MOD.OPT [11:8] and [7]). -/
def AWord.cmp (w : AWord) (f : AForm) : Nat := w.opt f / 4
def AWord.toMask (w : AWord) (f : AForm) : Bool := w.opt f / 2 % 2 = 1
/-- SUBOP and MASK of a cross-lane word (R181). -/
def AWord.subop (w : AWord) (f : AForm) : Nat := w.opt f / 16
def AWord.mask (w : AWord) (f : AForm) : Nat := w.opt f % 16

/-- Which of a, b, c and d are 64-bit pairs in a VALU word (R22, R209, R215, R224 to R228). -/
def valuWide (op fmt opt : Nat) : Bool × Bool × Bool × Bool :=
  if op = 0x01b then (true, true, false, true)
  else if op = 0x01c then (false, false, true, true)
  else if op = 0x02a then (fmtBits opt = 64, false, false, fmtBits fmt = 64)
  else if 0x020 ≤ op && op < 0x02f && fmt = 0x13 then (true, op != 0x02c, true, op != 0x028 && op != 0x029)
  else (false, false, false, false)

/-- The words an instruction occupies (R10, R38). -/
def sizeA (w : AWord) : Nat := if w.ext.isSome then 2 else 1

/-! ### The memory word's fields -/

def MWord.scope (w : MWord) : Nat := (meSCOPE w.me).toNat
def MWord.order (w : MWord) : Nat := (meORDER w.me).toNat
def MWord.reuse (w : MWord) : Nat := (meREUSE w.me).toNat
def MWord.repl (w : MWord) : Bool := meREPL w.me
def MWord.tok (w : MWord) : Nat := (meTOK w.me).toNat
def MWord.sv (w : MWord) : Nat := (meSV w.me).toNat
def MWord.imm (w : MWord) : Int := meIMM w.me
/-- AF and the element count of VEC (R250). -/
def MWord.af (w : MWord) : Nat := w.sv / 4
def MWord.vec (w : MWord) : Nat := 2 ^ (w.sv % 4)
def MWord.acquires (w : MWord) : Bool := w.order % 2 = 1
def MWord.releases (w : MWord) : Bool := 2 ≤ w.order

/-- The record slot an M word names; `none` when S = 1 and the s-register has bits above 5 set (R14). -/
def MWord.slotIn (w : MWord) (h : Sheaf) : Option Nat :=
  if w.s then (let x := h.rs w.slot.toNat; if x.toNat < 64 then some x.toNat else none) else some w.slot.toNat

/-! ### The buffer record (R75) -/

abbrev Rec := BitVec 256

def recBase (r : Rec) : Nat := (r.extractLsb' 0 55).toNat
def recExt0 (r : Rec) : Nat := (r.extractLsb' 64 32).toNat
def recExt1 (r : Rec) : Nat := (r.extractLsb' 96 24).toNat
def recExt2 (r : Rec) : Nat := (r.extractLsb' 120 16).toNat
def recStride1 (r : Rec) : Nat := (r.extractLsb' 136 40).toNat
def recStride2 (r : Rec) : Nat := (r.extractLsb' 176 48).toNat
def recFmt (r : Rec) : Nat := (r.extractLsb' 224 6).toNat
def recBounds (r : Rec) : Nat := (r.extractLsb' 230 2).toNat
def recOverlap (r : Rec) : Bool := r.getLsbD 232
def recSide (r : Rec) : Nat := (r.extractLsb' 233 6).toNat
def recBlk (r : Rec) : Nat := (r.extractLsb' 239 4).toNat
def recReuse (r : Rec) : Nat := (r.extractLsb' 243 2).toNat
def recRO (r : Rec) : Bool := r.getLsbD 245
/-- Block length of a BLK field (R75). -/
def blkLen (b : Nat) : Nat := if b = 0 then 0 else 8 * 2 ^ b

/-! ### Registers read and written (R28, R29) -/

/-- The vector registers of a group starting at a code; none for a code that names no register. -/
def groupRegs (c : OpCode7) (n : Nat) : List Nat :=
  if isVReg c then ((List.range n).map fun k => c.toNat + k).filter fun r => r < 112 else []

def pairRegs (c : OpCode7) (wide : Bool) : List Nat := groupRegs c (if wide then 2 else 1)

/-- Registers per element of an access through a record (R253). -/
def regsPerElem (af fmt : Nat) : Nat :=
  if af = 4 || af = 6 then 2
  else if af = 0 && (fmt = 6 || fmt = 7 || fmt = 0x13) then 2
  else if af = 0 && fmt = 0x20 then 3
  else 1

/-- The format an M word's record has when the word is looked at; an unset slot counts as one register per element
(R29). -/
def MWord.fmtIn (w : MWord) (h : Sheaf) (k : Stook) : Nat :=
  match (w.slotIn h).bind k.record? with
  | some r => recFmt r
  | none => 0x04

/-- Whether the record slot of an M word is b0, the flat record (R78). -/
def MWord.flatIn (w : MWord) (h : Sheaf) : Bool := w.slotIn h == some 0

/-- Registers of an index operand: a pair through b0 (R252). -/
def MWord.indexRegs (w : MWord) (h : Sheaf) : List Nat := pairRegs w.a (w.flatIn h)

/-- Registers of a matrix fragment in a record's format (R245). -/
def fragRegs (kind fmt : Nat) : Nat := if fmt = 0x20 then 3 else if kind = 2 then 2 else 1

/-- The vector registers an instruction word reads and writes. -/
def footprint (i : Instr) (h : Sheaf) (k : Stook) : List Nat × List Nat :=
  let valu (op : Nat) (w : AWord) : List Nat × List Nat :=
    let f := aForm op
    if w.scal f then ([], [])
    else
      let (wa, wb, wc, wd) := valuWide op (w.fmt f) (w.opt f)
      ((if f.ua then pairRegs w.a wa else []) ++ (if f.ub then pairRegs w.b wb else [])
        ++ (if f.uc then pairRegs (w.c f) wc else []),
       if (op = 0x016 || op = 0x028) && w.toMask f then [] else pairRegs w.d wd)
  let sync (op : Nat) (w : AWord) (wideA : Bool) : List Nat × List Nat :=
    let f := aForm op
    (pairRegs w.a wideA ++ (if f.ub then pairRegs w.b false else []), pairRegs w.d false)
  match i with
  | .iadd w => valu 0x000 w | .isub w => valu 0x001 w | .imul w => valu 0x002 w | .imulh w => valu 0x003 w
  | .imad w => valu 0x004 w | .imin w => valu 0x005 w | .imax w => valu 0x006 w | .iabs w => valu 0x007 w
  | .and w => valu 0x008 w | .or w => valu 0x009 w | .xor w => valu 0x00a w | .andn w => valu 0x00b w
  | .shl w => valu 0x00c w | .shr w => valu 0x00d w | .sar w => valu 0x00e w | .rotl w => valu 0x00f w
  | .bfx w => valu 0x010 w | .bfi w => valu 0x011 w | .popc w => valu 0x012 w | .clz w => valu 0x013 w
  | .ctz w => valu 0x014 w | .brev w => valu 0x015 w | .iset w => valu 0x016 w | .sel w => valu 0x017 w
  | .mov w => valu 0x018 w | .iadd64 w => valu 0x01b w | .imad64 w => valu 0x01c w
  | .fadd w => valu 0x020 w | .fsub w => valu 0x021 w | .fmul w => valu 0x022 w | .ffma w => valu 0x023 w
  | .fmin w => valu 0x024 w | .fmax w => valu 0x025 w | .fabs w => valu 0x026 w | .fneg w => valu 0x027 w
  | .fset w => valu 0x028 w | .fclass w => valu 0x029 w | .fcvt w => valu 0x02a w | .frnd w => valu 0x02b w
  | .fscalb w => valu 0x02c w | .fdiv w => valu 0x02d w | .fsqrt w => valu 0x02e w | .fdot2 w => valu 0x02f w
  | .movi w => ([], pairRegs w.d false)
  | .movw w _ => ([], pairRegs w.d false)
  | .iaddImm w => (pairRegs w.a false, pairRegs w.d false)
  | .shlImm w => (pairRegs w.a false, pairRegs w.d false)
  | .shrImm w => (pairRegs w.a false, pairRegs w.d false)
  | .sarImm w => (pairRegs w.a false, pairRegs w.d false)
  | .rotlImm w => (pairRegs w.a false, pairRegs w.d false)
  | .andImm w => (pairRegs w.a false, pairRegs w.d false)
  | .brv w => (pairRegs w.a false, [])
  | .ret w => (pairRegs w.a false, [])
  | .jmpi w => (pairRegs w.a false, [])
  | .call w => ([], pairRegs w.a false)
  | .ffn w => let wide := w.fmt (aForm 0x040) = 0x13; (pairRegs w.a wide, pairRegs w.d wide)
  | .redl w => let wide := w.fmt (aForm 0x041) = 0x13; (pairRegs w.a wide, pairRegs w.d wide)
  | .mma w => (groupRegs w.a 1 ++ groupRegs w.b 1 ++ groupRegs (w.c (aForm 0x080)) 2, groupRegs w.d 2)
  | .mmal w => (groupRegs w.a 3 ++ groupRegs w.b 3 ++ groupRegs (w.c (aForm 0x081)) 2, groupRegs w.d 2)
  | .ldf w => (w.indexRegs h, groupRegs w.d (fragRegs (w.sv % 4) (w.fmtIn h k)))
  | .stf w => (w.indexRegs h ++ groupRegs w.d (fragRegs (w.sv % 4) (w.fmtIn h k)), [])
  | .ld w => (w.indexRegs h, groupRegs w.d (regsPerElem w.af (w.fmtIn h k) * w.vec))
  | .st w => (w.indexRegs h ++ groupRegs w.d (regsPerElem w.af (w.fmtIn h k) * w.vec), [])
  | .lds w => (pairRegs w.a false, groupRegs w.d (regsPerElem w.af 0x05 * w.vec))
  | .sts w => (pairRegs w.a false ++ groupRegs w.d (regsPerElem w.af 0x05 * w.vec), [])
  | .atom w =>
    let ix := if 16 ≤ w.sv then pairRegs w.a false else w.indexRegs h
    let d := groupRegs w.d (if w.sv / 8 % 2 = 1 then 2 else 1)
    (ix ++ d, d)
  | .cas w =>
    let ix := if 16 ≤ w.sv then pairRegs w.a false else w.indexRegs h
    let n := if w.sv / 8 % 2 = 1 then 2 else 1
    (ix ++ groupRegs w.d (2 * n), groupRegs w.d n)
  | .red w => (w.indexRegs h ++ groupRegs w.d (if w.sv / 8 % 2 = 1 then 2 else 1), [])
  | .xred w => (w.indexRegs h ++ groupRegs w.d 1, [])
  | .xrd w => (w.indexRegs h, groupRegs w.d 1)
  | .pref w => (w.indexRegs h, [])
  | .cctl w => (w.indexRegs h, [])
  | .mon w => (w.indexRegs h, [])
  | .tend w => ([], pairRegs w.d false)
  | .tabort w => (pairRegs w.a false, [])
  | .tstat w => ([], pairRegs w.d false)
  | .cbacq w => ([], pairRegs w.d false)
  | .mwait w => (pairRegs w.a false, pairRegs w.d false)
  | .shfl w => sync 0x150 w false
  | .vote w => sync 0x151 w false
  | .matchLanes w => sync 0x152 w (w.subop (aForm 0x152) = 1)
  | .uni w => (pairRegs w.a (w.subop (aForm 0x153) = 1), [])
  | .rdlane w => sync 0x154 w false
  | .wrlane w => sync 0x155 w false
  | .elect w => ([], pairRegs w.d false)
  | .regroup w =>
    let r := groupRegs w.b (w.opt (aForm 0x157) + 1)
    (pairRegs w.a false ++ r, r)
  | .rdsr w => ([], groupRegs w.d (if 0x09 ≤ w.imm.toNat && w.imm.toNat ≤ 0x0b then 2 else 1))
  | .wrsr w => (pairRegs w.a false, [])
  | .rand w => (pairRegs w.a true, pairRegs w.d true ++ pairRegs w.a true)
  | .launch w => (pairRegs w.a true ++ pairRegs w.b false, pairRegs w.d false)
  | .vfree w => ([], groupRegs w.d (w.opt (aForm 0x186) + 1))
  | _ => ([], [])

/-- The scalar registers an M word reads for its record slot (R14). -/
def MWord.slotRegs (w : MWord) : List Nat := if w.s then [w.slot.toNat] else []

/-- The scalar registers that a word of a class whose clauses are checked for hazards (R29) reads and writes: those that
name a record slot (R14), a record (R256), a broadcast (R20), the scales of MMAL (R242), a copy's descriptor (R305), a ring's geometry
(R313). -/
def scalarFootprint (i : Instr) : List Nat × List Nat :=
  let cast (op : Nat) (w : AWord) : List Nat :=
    let f := aForm op
    if w.a == cBCAST || w.b == cBCAST || w.c f == cBCAST then [w.sregN f] else []
  let group (c : OpCode7) (n : Nat) : List Nat := (List.range n).map fun j => c.toNat + j
  match i with
  | .brset w => (w.slotRegs ++ group w.d 8, [])
  | .brget w => (w.slotRegs, group w.d 8)
  | .brinv w => (w.slotRegs, [])
  | .ld w | .st w | .atom w | .cas w | .red w | .xred w | .xrd w | .pref w | .cctl w | .ldf w | .stf w => (w.slotRegs, [])
  | .cpy w | .cpyg w | .cpys w => (w.slotRegs ++ group w.d 5, [])
  | .ffn w => (cast 0x040 w, [])
  | .redl w => (cast 0x041 w, [])
  | .mmal w => (group (BitVec.ofNat 7 (w.sregN (aForm 0x081))) 3, [])
  | .tabort w => (cast 0x0e3 w, [])
  | .cbinit w => (cast 0x110 w, [])
  | _ => ([], [])

/-- The 32-bit words of an instruction word (R10, R38). -/
def Instr.size : Instr → Nat
  | .movw _ _ => 2
  | .movwScalar _ _ => 2
  | .unassignedSlotIssue w => if w.ext.isSome then 2 else 1
  | i => i.words

end Sys2Proof
end

