-- ==== Sys2Proof/Machine/Checks.lean ====
section
/-! DEFINITION. The issue checks of R31, made before any operand is fetched, in its order: ILLEGAL_OPCODE,
ILLEGAL_ENCODING, ILLEGAL_OPERAND, ILLEGAL_FORMAT, LATCH_INVALID. Checks that need a record are in the instruction's own
meaning (R254, R245, R308). -/

namespace Sys2Proof.Machine

open Sys2Proof

/-- The cause of the first check that does not hold. -/
def firstFail : List (Bool × Cause) → Option Cause
  | [] => none
  | (ok, c) :: t => if ok then firstFail t else some c

/-- A source code is permitted (R19, R20, R22): latches in VALU only, the broadcast only with an E word. -/
def srcOk (valu hasE wide : Bool) (sreg : Nat) (c : OpCode7) : Bool :=
  if isVReg c then !wide || (c.toNat % 2 = 0 && c.toNat + 1 < 112)
  else if isLatch c then valu && !wide
  else if c == cBCAST then hasE && (!wide || sreg % 2 = 0)
  else isConst c

/-- A source of an M word (R252). -/
def mSrcOk (wide : Bool) (c : OpCode7) : Bool := srcOk false false wide 0 c

/-- A destination of one register or an even pair (R19, R22). -/
def dstOk (wide : Bool) (c : OpCode7) : Bool := isVReg c && (!wide || (c.toNat % 2 = 0 && c.toNat + 1 < 112))

/-- A scalar-domain source (R21). -/
def sSrcOk (wide : Bool) (c : OpCode7) : Bool := (isSReg c && (!wide || c.toNat % 2 = 0)) || isScalarConst c

def sDstOk (wide : Bool) (c : OpCode7) : Bool := isSReg c && (!wide || c.toNat % 2 = 0)

/-- A register group of `n` registers ends at or below v111 and starts even where it must (R252). -/
def groupOk (even : Bool) (n : Nat) (c : OpCode7) : Bool :=
  isVReg c && (!even || c.toNat % 2 = 0) && c.toNat + n ≤ 112

/-- Every latch among the codes holds a result in every lane (R23). -/
def latchesOk (h : Sheaf) (E : LaneMask) (cs : List OpCode7) : Bool :=
  cs.all fun c => !isLatch c || (lanesOf E).all fun l => ((h.lane l).latches.getD (c.toNat - 112) none).isSome

/-- Fields of an E word that R15 and R18 judge alike for every A word. `ub` tells whether B is used. -/
def encA (f : AForm) (w : AWord) (ub : Bool) : Bool :=
  (w.ext.isSome || !f.xReq)
    && (if f.rounds then w.rm f != 5 && w.rm f != 6 else w.rm f = 0)
    && (if f.tok then w.tok f != 6 else w.tok f = 7)
    && (!f.fmts.isEmpty || w.fmt f = 0)
    && w.opt f &&& (63 - f.opt) = 0
    && (f.ud || w.d == cZERO) && (f.ua || w.a == cZERO) && (ub || w.b == cZERO) && (f.uc || w.c f == cZERO)
    && (f.sreg || w.sregN f = 0 || w.a == cBCAST || w.b == cBCAST || w.c f == cBCAST)

/-- A VALU A word (R207 to R213, R219, R224, R226). -/
def checkValu (op : Nat) (w : AWord) (h : Sheaf) (E : LaneMask) : Option Cause :=
  let f := aForm op
  let fmt := w.fmt f
  let scal := w.scal f
  let cvt := op = 0x02a
  let packed := fmtIsPacked fmt
  let pairRow := cvt && packed && w.opt f = 0x12
  let cmp := op = 0x016 || op = 0x028
  let toMask := cmp && w.toMask f
  let ub := if cvt then packed else f.ub
  let (wa, wb, wc, wd) := valuWide op fmt (w.opt f)
  let e := w.ext.isSome
  let sr := w.sregN f
  firstFail
    [(encA f w ub && (!scal || (f.scalar && w.c f == cZERO && !w.n)) && (!w.n || w.d == cZERO)
        && !(toMask && (w.n || scal)) && (!pairRow || w.b != cZERO)
        && (op != 0x016 || w.cmp f ≤ 5) && (op != 0x028 || w.cmp f ≤ 7), .illegalEncoding),
     (if scal then sDstOk wd w.d && sSrcOk wa w.a && (!ub || sSrcOk wb w.b)
      else (if toMask then w.d.toNat < 12 else w.n || dstOk wd w.d) && srcOk true e wa sr w.a
            && (!ub || srcOk true e wb sr w.b) && (!f.uc || srcOk true e wc sr (w.c f)), .illegalOperand),
     (if cvt then
        (let src := w.opt f
         ((fmtIsInt src || fmtIsFloat src) && (fmtIsInt fmt || fmtIsFloat fmt)) || (src = 0x12 && packed))
      else f.fmts.contains fmt && !(toMask && packed), .illegalFormat),
     (scal || latchesOk h E ([w.a] ++ (if ub then [w.b] else []) ++ (if f.uc then [w.c f] else [])), .latchInvalid)]

/-- The vector immediate forms (R41, R210). `a` tells whether A is used. -/
def checkImm (a : Bool) (w : IWord) (h : Sheaf) (E : LaneMask) : Option Cause :=
  firstFail
    [((!w.n || w.d == cZERO) && (a || w.a == cZERO), .illegalEncoding),
     ((w.n || dstOk false w.d) && (!a || srcOk true false false 0 w.a), .illegalOperand),
     (!a || latchesOk h E [w.a], .latchInvalid)]

/-- The scalar immediate forms (R41). -/
def checkScalarImm (a : Bool) (w : IWord) : Option Cause :=
  firstFail [(!w.n && (a || w.a == cZERO), .illegalEncoding),
             (sDstOk false w.d && (!a || sSrcOk false w.a), .illegalOperand)]

/-- A conditional transfer (R183). -/
def checkTransfer (w : JcWord) (h : Sheaf) (E : LaneMask) (offZero : Bool) (aOk : Bool) : Option Cause :=
  firstFail [(!offZero || w.off == 0, .illegalEncoding), (aOk, .illegalOperand), (latchesOk h E [w.a], .latchInvalid)]

/-- An I word of SYNC or SYS (R179): unused fields null, then the operand test. -/
def checkI (w : IWord) (ud ua : Bool) (operands : Bool) : Option Cause :=
  firstFail [(!w.n && (ud || w.d == cZERO) && (ua || w.a == cZERO), .illegalEncoding), (operands, .illegalOperand)]

/-- An A word outside VALU (R17, R18, R21, R24): its fields, an extra encoding test, the operand test, the format. -/
def checkA (op : Nat) (w : AWord) (enc operands : Bool) : Option Cause :=
  let f := aForm op
  firstFail [(encA f w f.ub && !w.n && !w.scal f && enc, .illegalEncoding), (operands, .illegalOperand),
             (f.fmts.isEmpty || f.fmts.contains (w.fmt f), .illegalFormat)]

/-- A cross-lane word of SYNC (R181, R193): reserved SUBOPs, the mask number, its operands. -/
def checkCross (op : Nat) (w : AWord) (subs : Nat) (operands : Bool) : Option Cause :=
  let f := aForm op
  checkA op w (w.subop f < subs) (dstOk false w.d && w.mask f < 12 && operands)

/-- A source outside VALU. -/
def xSrc (op : Nat) (w : AWord) (wide : Bool) (c : OpCode7) : Bool :=
  srcOk false w.ext.isSome wide (w.sregN (aForm op)) c

/-- What every M word must satisfy (R14, R16), with its permitted orders (R132, R247, R304). -/
def encM (w : MWord) (orders : List Nat) (tok : Bool) : Bool :=
  !w.n && w.x && w.scope != 7 && orders.contains w.order && (if tok then w.tok != 6 else w.tok = 7)

/-- SCOPE, REUSE, REPL and IMM16 all null (R251, R304). -/
def plainM (w : MWord) : Bool := w.scope = 0 && w.reuse = 0 && !w.repl && w.imm = 0

def noSlot (w : MWord) : Bool := w.slot == 0 && !w.s

/-- An M word through a record: the encoding test, then operand tests given whether the slot is b0. -/
def checkM (w : MWord) (h : Sheaf) (enc : Bool) (operands : Bool → Bool) (fmt : Bool := true) : Option Cause :=
  firstFail [(enc, .illegalEncoding),
             ((match w.slotIn h with | none => false | some n => operands (n = 0)), .illegalOperand),
             (fmt, .illegalFormat)]

/-- The index operand: an even pair or ZERO through b0, any permitted source otherwise (R252). -/
def indexOk (w : MWord) (flat : Bool) : Bool :=
  if flat then w.a == cZERO || dstOk true w.a else mSrcOk false w.a

/-- The data or destination group of LD, ST, LDS and STS where AF alone fixes its length (R252, R253). -/
def afGroupOk (w : MWord) (store : Bool) : Bool :=
  if store && !isVReg w.d then isConst w.d
  else if w.af = 0 then isVReg w.d
  else let per := regsPerElem w.af 0x05; groupOk (per = 2) (per * w.vec) w.d

/-- A barrier word (R179, R188): the count is ALL or stands in an s-register. -/
def checkBar (w : IWord) : Option Cause := checkI w false true (w.imm.toNat < 32 && (w.a == cZERO || isSReg w.a))

/-- Special-register numbers (R46): 64-bit ones, and all. -/
def isWideSR (n : Nat) : Bool := 0x09 ≤ n && n ≤ 0x0b
def isSR (n : Nat) : Bool := n ≤ 0x0c || (0x10 ≤ n && n ≤ 0x13)
def isRwSR (n : Nat) : Bool := n = 0x10 || n = 0x11

/-- A CBUF names a buffer that the stook declares (R304). -/
def declaresBuf (k : Stook) (n : Nat) : Bool := (k.cbuf? n).isSome

/-- The descriptor of a copy in its five s-registers (R305). -/
structure CopyDesc where
  ctl : Word
  shape : Word
  sorg : Nat
  dorg : Nat
  iorg : Nat
  deriving DecidableEq, Repr

def Sheaf.copyDesc (h : Sheaf) (w : MWord) : CopyDesc :=
  let n := w.d.toNat
  { ctl := h.rs n, shape := h.rs (n + 1), sorg := (h.rs (n + 2)).toNat, dorg := (h.rs (n + 3)).toNat, iorg := (h.rs (n + 4)).toNat }

/-- Fields of the control word (R305). -/
def ctlDfmt (c : Word) : Nat := (c.extractLsb' 24 6).toNat
def ctlRm (c : Word) : Nat := (c.extractLsb' 21 3).toNat
def ctlGroup (c : Word) : Nat := (c.extractLsb' 18 3).toNat
def ctlDcb (c : Word) : Bool := c.getLsbD 17
def ctlCbuf (c : Word) : Nat := (c.extractLsb' 12 4).toNat
def ctlIslot (c : Word) : Nat := (c.extractLsb' 6 6).toNat
def ctlDslot (c : Word) : Nat := (c.extractLsb' 0 6).toNat
def shapeRun (x : Word) : Nat := (x.extractLsb' 16 16).toNat + 1
def shapeCount (x : Word) : Nat := (x.extractLsb' 0 16).toNat + 1

/-- What R305 and R306 require of a descriptor; `kind` is 0 CPY, 1 CPYG, 2 CPYS. -/
def copyDescOk (kind : Nat) (k : Stook) (x : CopyDesc) : Bool :=
  let c := x.ctl
  c.extractLsb' 30 2 == 0 && !c.getLsbD 16 && ctlRm c != 5 && ctlRm c != 6
    && (if ctlDcb c then ctlDslot c = 0 && x.dorg = 0 && kind != 2 && declaresBuf k (ctlCbuf c)
        else ctlDfmt c = 0 && ctlCbuf c = 0 && ctlDslot c != 0)
    && (if kind = 0 then ctlIslot c = 0 && x.iorg = 0 else ctlIslot c != 0)

/-- A copy's word (R303, R304). -/
def checkCopy (w : MWord) (h : Sheaf) : Option Cause :=
  firstFail [(encM w [0, 2] true && w.sv = 0, .illegalEncoding),
             (isSReg w.d && w.d.toNat % 8 = 0 && w.a == cZERO && (w.slotIn h).isSome, .illegalOperand)]

/-- A copy's record slot and descriptor (R305, R306). -/
def copyOwn (kind : Nat) (w : MWord) (k : Stook) (h : Sheaf) : Bool :=
  (w.slotIn h).any (fun n => n != 0) && copyDescOk kind k (h.copyDesc w)

/-- What REGROUP requires of its range and set (R196): both inside their bounds, the issuing sheaf in the set, one role. -/
def regroupOwn (w : AWord) (k : Stook) (h : Sheaf) : Bool :=
  let f := aForm 0x157
  let set := if w.c f == cBCAST then h.rs (w.sregN f) else BitVec.allOnes 32
  let ids := (List.range k.sheaves.length).filter fun n => set.getLsbD n
  w.b.toNat + w.opt f + 1 ≤ 112 && (ids.any fun n => (k.sheaf n).slot == h.slot) && ids.all fun n => (k.sheaf n).role == h.role

/-- The operand tests that a word makes on its own, after the checks of R31 and after the refusals of a transaction (R403):
the count of a barrier, the set of a REGROUP, the descriptor of a copy, the buffer of a ring word (R188, R196, R304 to
R306, R313). -/
def ownOk (i : Instr) (k : Stook) (h : Sheaf) : Bool :=
  let count (a : OpCode7) : Bool := a == cZERO || (1 ≤ (h.rs a.toNat).toNat && (h.rs a.toNat).toNat ≤ 32)
  match i with
  | .bar w => count w.a
  | .bara w => count w.a
  | .regroup w => regroupOwn w k h
  | .cpy w => copyOwn 0 w k h
  | .cpyg w => copyOwn 1 w k h
  | .cpys w => copyOwn 2 w k h
  | .cbinit w => declaresBuf k (w.opt (aForm 0x110)) && (h.rs (w.sregN (aForm 0x110))).toNat < 2 ^ 29
  | .cbacq w => declaresBuf k (w.opt (aForm 0x111))
  | .cbrel w => declaresBuf k (w.opt (aForm 0x112))
  | _ => true

/-- The registers of an MMA or MMAL group (R240, R242). -/
def mmaGroups (w : AWord) (op n : Nat) : Bool :=
  let c := w.c (aForm op)
  groupOk true 2 w.d && groupOk true n w.a && groupOk true n w.b && (c == cZERO || groupOk true 2 c)

/-- The issue checks of an instruction word (R31) for the lanes of its path. An event has none. -/
def issueCheck (i : Instr) (_ : Stook) (h : Sheaf) (E : LaneMask) : Option Cause :=
  match i with
  | .iadd w => checkValu 0x000 w h E | .isub w => checkValu 0x001 w h E | .imul w => checkValu 0x002 w h E
  | .imulh w => checkValu 0x003 w h E | .imad w => checkValu 0x004 w h E | .imin w => checkValu 0x005 w h E
  | .imax w => checkValu 0x006 w h E | .iabs w => checkValu 0x007 w h E | .and w => checkValu 0x008 w h E
  | .or w => checkValu 0x009 w h E | .xor w => checkValu 0x00a w h E | .andn w => checkValu 0x00b w h E
  | .shl w => checkValu 0x00c w h E | .shr w => checkValu 0x00d w h E | .sar w => checkValu 0x00e w h E
  | .rotl w => checkValu 0x00f w h E | .bfx w => checkValu 0x010 w h E | .bfi w => checkValu 0x011 w h E
  | .popc w => checkValu 0x012 w h E | .clz w => checkValu 0x013 w h E | .ctz w => checkValu 0x014 w h E
  | .brev w => checkValu 0x015 w h E | .iset w => checkValu 0x016 w h E | .sel w => checkValu 0x017 w h E
  | .mov w => checkValu 0x018 w h E | .iadd64 w => checkValu 0x01b w h E | .imad64 w => checkValu 0x01c w h E
  | .fadd w => checkValu 0x020 w h E | .fsub w => checkValu 0x021 w h E | .fmul w => checkValu 0x022 w h E
  | .ffma w => checkValu 0x023 w h E | .fmin w => checkValu 0x024 w h E | .fmax w => checkValu 0x025 w h E
  | .fabs w => checkValu 0x026 w h E | .fneg w => checkValu 0x027 w h E | .fset w => checkValu 0x028 w h E
  | .fclass w => checkValu 0x029 w h E | .fcvt w => checkValu 0x02a w h E | .frnd w => checkValu 0x02b w h E
  | .fscalb w => checkValu 0x02c w h E | .fdiv w => checkValu 0x02d w h E | .fsqrt w => checkValu 0x02e w h E
  | .fdot2 w => checkValu 0x02f w h E
  | .movi w => checkImm false w h E
  | .movw w _ => (firstFail [(w.imm == 0, .illegalEncoding)]).or (checkImm false w h E)
  | .iaddImm w => checkImm true w h E | .shlImm w => checkImm true w h E | .shrImm w => checkImm true w h E
  | .sarImm w => checkImm true w h E | .rotlImm w => checkImm true w h E | .andImm w => checkImm true w h E
  | .moviScalar w => checkScalarImm false w
  | .movwScalar w _ => (firstFail [(w.imm == 0, .illegalEncoding)]).or (checkScalarImm false w)
  | .iaddScalarImm w => checkScalarImm true w
  | .bra _ => none
  | .brv w => checkTransfer w h E false (srcOk (w.cls == 0) false false 0 w.a)
  | .brs w => checkTransfer w h E false (isSReg w.a || w.a == cZERO || w.a == cONES)
  | .call w => checkTransfer w h E false (dstOk false w.a)
  | .ret w => checkTransfer w h E true (isVReg w.a || (isLatch w.a && w.cls == 0))
  | .jmpi w => checkTransfer w h E false (isVReg w.a || (isLatch w.a && w.cls == 0))
  | .exit w => firstFail [(w.off == 0, .illegalEncoding)]
  | .join w => checkI w false false (w.imm.toNat < 12)
  | .leave w => checkI w false false (w.imm.toNat < 12)
  | .waitm w => checkI w false false (w.imm.toNat < 12)
  | .mset w => checkI w false true (w.imm.toNat < 12 && (isSReg w.a || w.a == cZERO || w.a == cONES))
  | .mmov w => checkI w false false (w.imm.toNat % 16 < 12 && w.imm.toNat / 16 < 12)
  | .mget w => checkI w true false (w.imm.toNat < 12 && isSReg w.d)
  | .bar w => checkBar w
  | .bara w => checkBar w
  | .barw w => checkI w false false (w.imm.toNat < 32)
  | .mon w => checkM w h (encM w [0] true && w.scope = 0 && w.reuse = 0 && !w.repl && w.sv = 0 && w.d == cZERO)
      (indexOk w)
  | .mwait w => checkA 0x14d w true
      ((isVReg w.d || w.d == cZERO) && (isVReg w.a || isConst w.a))
  | .shfl w => checkCross 0x150 w 4 (xSrc 0x150 w false w.a && xSrc 0x150 w false w.b)
  | .vote w => checkCross 0x151 w 4 (xSrc 0x151 w false w.a)
  | .matchLanes w => checkCross 0x152 w 3 (xSrc 0x152 w (w.subop (aForm 0x152) = 1) w.a)
  | .uni w =>
    let f := aForm 0x153
    let wide := w.subop f = 1
    checkA 0x153 w (w.subop f < 2) (sDstOk wide w.d && xSrc 0x153 w wide w.a)
  | .rdlane w => checkCross 0x154 w 1 (xSrc 0x154 w false w.a && laneNumOk 0x154 w h)
  | .wrlane w => checkCross 0x155 w 1 (xSrc 0x155 w false w.a && laneNumOk 0x155 w h)
  | .elect w => checkCross 0x156 w 2 true
  | .regroup w =>
    let c := w.c (aForm 0x157)
    checkA 0x157 w true (xSrc 0x157 w false w.a && isVReg w.b && (c == cONES || c == cBCAST))
  | .yield w => checkA 0x15e w w.ext.isNone true
  | .nop w => checkA 0x15f w w.ext.isNone true
  | .rdsr w => checkI w true false (isSR w.imm.toNat && dstOk (isWideSR w.imm.toNat) w.d)
  | .wrsr w => checkI w false true
      (isRwSR w.imm.toNat && (isVReg w.a || w.a == cZERO || w.a == cONES || w.a == cSIGN))
  | .rand w => checkA 0x182 w (w.sregN (aForm 0x182) = 0) (dstOk true w.d && dstOk true w.a && w.d != w.a)
  | .trap w => checkI w false false true
  | .bkpt w => checkI w false false true
  | .launch w => checkA 0x185 w true (dstOk false w.d && dstOk true w.a && xSrc 0x185 w false w.b)
  | .vfree w => checkA 0x186 w true (isVReg w.d && w.d.toNat + w.opt (aForm 0x186) + 1 ≤ 112)
  | .ffn w =>
    let wide := w.fmt (aForm 0x040) = 0x13
    checkA 0x040 w true (dstOk wide w.d && xSrc 0x040 w wide w.a)
  | .redl w =>
    let wide := w.fmt (aForm 0x041) = 0x13
    checkA 0x041 w true (dstOk wide w.d && xSrc 0x041 w wide w.a && w.mask (aForm 0x041) < 12)
  | .mma w => checkA 0x080 w ((w.fmt (aForm 0x080) != 0 || w.rm (aForm 0x080) = 0) && w.sregN (aForm 0x080) = 0) (mmaGroups w 0x080 1)
  | .mmal w => checkA 0x081 w true
      (mmaGroups w 0x081 3 && w.sregN (aForm 0x081) % 2 = 0 && w.sregN (aForm 0x081) ≤ 60)
  | .ldf w => checkM w h (encM w [0, 1] true && w.sv < 3) fun _ => isVReg w.d && mSrcOk false w.a
  | .stf w => checkM w h (encM w [0, 2] true && w.sv < 3) fun _ => isVReg w.d && mSrcOk false w.a
  | .brset w => checkM w h (encM w [0] false && plainM w && w.sv = 0 && w.a == cZERO)
      fun flat => !flat && isSReg w.d && w.d.toNat % 8 = 0
  | .brget w => checkM w h (encM w [0] false && plainM w && w.sv = 0 && w.a == cZERO)
      fun _ => isSReg w.d && w.d.toNat % 8 = 0
  | .brinv w => checkM w h (encM w [0] false && plainM w && w.sv = 0 && w.a == cZERO && w.d == cZERO) fun flat => !flat
  | .ld w => checkM w h (encM w [0, 1] true) (fun flat => indexOk w flat && afGroupOk w false) (w.af != 7)
  | .st w => checkM w h (encM w [0, 2] true) (fun flat => indexOk w flat && afGroupOk w true) (w.af != 7)
  | .lds w => checkM w h (encM w [0, 1] true && noSlot w && w.reuse = 0)
      (fun _ => mSrcOk false w.a && afGroupOk w false) (1 ≤ w.af && w.af ≤ 4)
  | .sts w => checkM w h (encM w [0, 2] true && noSlot w && w.reuse = 0)
      (fun _ => mSrcOk false w.a && afGroupOk w true) (1 ≤ w.af && w.af ≤ 4)
  | .atom w =>
    let spad := 16 ≤ w.sv
    let wide := w.sv / 8 % 2 = 1
    checkM w h (encM w [0, 1, 2, 3] true && (!spad || (noSlot w && w.reuse = 0)))
      fun flat => dstOk wide w.d && (if spad then mSrcOk false w.a else indexOk w flat)
  | .cas w =>
    let spad := 16 ≤ w.sv
    let wide := w.sv / 8 % 2 = 1
    checkM w h (encM w [0, 1, 2, 3] true && w.sv % 8 = 0 && (!spad || (noSlot w && w.reuse = 0)))
      fun flat => groupOk true (if wide then 4 else 2) w.d && (if spad then mSrcOk false w.a else indexOk w flat)
  | .red w => checkM w h (encM w [0, 2] true && w.sv < 16) fun flat => indexOk w flat && mSrcOk (w.sv / 8 = 1) w.d
  | .xred w => checkM w h (encM w [0, 2] true && w.sv < 3) fun flat => indexOk w flat && mSrcOk false w.d
  | .xrd w => checkM w h (encM w (if 16 ≤ w.sv then [0, 1, 2, 3] else [0, 1]) true && w.sv % 16 != 15)
      fun flat => indexOk w flat && dstOk false w.d
  | .fence w => checkM w h (encM w [1, 2, 3] false && noSlot w && w.sv = 0 && w.reuse = 0 && !w.repl && w.imm = 0
        && w.d == cZERO && w.a == cZERO) fun _ => true
  | .pref w => checkM w h (encM w [0] false && w.scope = 0 && w.sv % 4 != 3 && w.d == cZERO) (indexOk w) (w.af != 7)
  | .cctl w => checkM w h (encM w [0] false && w.scope = 0 && w.reuse = 0 && w.sv % 4 < 2 && w.d == cZERO) (indexOk w) (w.af != 7)
  | .pbarOrd w => checkPbar w h
  | .pbarSync w => checkPbar w h
  | .tbegin w => checkBegin w h
  | .tbeginl w => checkBegin w h
  | .tend w => checkA 0x0e2 w true (isVReg w.d || w.d == cZERO)
  | .tabort w => checkA 0x0e3 w true (xSrc 0x0e3 w false w.a)
  | .tval w => checkA 0x0e4 w true true
  | .tstat w => checkA 0x0e5 w true (isVReg w.d)
  | .cpy w => checkCopy w h
  | .cpyg w => checkCopy w h
  | .cpys w => checkCopy w h
  | .cwait w => checkA 0x108 w true true
  | .cbinit w => checkA 0x110 w (w.b == cBCAST) true
  | .cbacq w => checkA 0x111 w true (isVReg w.d)
  | .cbrel w => checkA 0x112 w true true
  | .unassignedSlotIssue _ => some .illegalOpcode
  | _ => none
where
  /-- RDLANE and WRLANE: the lane number is ZERO or a broadcast of at most 31 (R193). -/
  laneNumOk (op : Nat) (w : AWord) (h : Sheaf) : Bool :=
    w.b == cZERO || (w.b == cBCAST && w.ext.isSome && (h.rs (w.sregN (aForm op))).toNat ≤ 31)
  /-- PBAR (R303, R304, R320). -/
  checkPbar (w : MWord) (h : Sheaf) : Option Cause :=
    checkM w h (encM w [0] true && w.scope = 6 && w.reuse = 0 && !w.repl && w.imm = 0 && w.sv < 2 && noSlot w
      && w.d == cZERO && w.a == cZERO) fun _ => true
  /-- TBEGIN and TBEGINL (R303, R304, R316). -/
  checkBegin (w : MWord) (h : Sheaf) : Option Cause :=
    checkM w h (encM w [0] false && w.scope = 0 && w.reuse = 0 && !w.repl && w.sv = 0 && noSlot w && w.d == cZERO
      && w.a == cZERO) fun _ => true

end Sys2Proof.Machine
end

