-- ==== Sys2Proof/Machine/Ops.lean ====
section
/-! DEFINITION. The operations every family shares: taking a trap and returning from one (01 R32, R35; 21 R366 to R371),
aborting a transaction (12 R280 to R283), binding registers (05 R110), wait tokens (01 R26), and the frame of every
instruction word: its checks in the order of R31 and R403, its effect, its count (05 R116). -/

namespace Sys2Proof.Machine

open Sys2Proof

/-! ### Causes (R366) -/

def Cause.code : Cause → Nat
  | .illegalHeader => 0x01 | .illegalOpcode => 0x02 | .illegalClass => 0x03 | .illegalOperand => 0x04
  | .illegalFormat => 0x05 | .latchInvalid => 0x06 | .illegalEncoding => 0x07 | .codeBounds => 0x08
  | .xlateMiss => 0x10 | .xlatePerm => 0x11 | .noMapping => 0x12 | .badPte => 0x13 | .keyEmpty => 0x14
  | .bounds => 0x18 | .misaligned => 0x19 | .recordInvalid => 0x1a | .recordUnset => 0x1b | .rangeLock => 0x1c
  | .roStore => 0x1d | .laBusy => 0x1e
  | .nonuniform => 0x30 | .maskMismatch => 0x31 | .syncMismatch => 0x32 | .rngWrap => 0x34
  | .watchdog => 0x40 | .preempt => 0x41 | .spillFull => 0x42
  | .copyFault => 0x50 | .cbState => 0x51
  | .eccUncorr => 0x60 | .integrity => 0x61 | .watermark => 0x62 | .sampleMismatch => 0x63 | .peerDown => 0x64
  | .breakpoint => 0x70 | .stepStop => 0x71 | .swTrap => 0x72

/-- Classes: 0 replayable, 1 program error, 2 debug, 3 containment. COPY_FAULT is 0 while the copy can resume and 1
once it has failed (R366): `failed` says which. -/
def Cause.cls (c : Cause) (failed : Bool := true) : Nat :=
  match c with
  | .xlateMiss => 0
  | .preempt => 0
  | .copyFault => if failed then 1 else 0
  | .eccUncorr => 3 | .integrity => 3 | .watermark => 3 | .sampleMismatch => 3 | .peerDown => 3
  | .breakpoint => 2 | .stepStop => 2
  | _ => 1

def AccessKind.code : AccessKind → Nat
  | .fetch => 0 | .read => 1 | .write => 2 | .rmw => 3 | .copySrc => 4 | .copyDst => 5 | .copyIdx => 6 | .none => 7

/-- A fault record's 64 bytes (R368). -/
def FaultRec.pack (f : FaultRec) : BitVec 512 :=
  let failed := !(f.cause == .copyFault) || f.kind == .none
  0#160 ++ BitVec.ofNat 32 f.cursor ++ 0#9 ++ BitVec.ofNat 55 f.va ++ f.detail ++ f.pc ++ f.lanes ++ f.stookId
    ++ f.launch ++ f.id ++ 0#20 ++ BitVec.ofNat 12 f.core ++ 0#2 ++ BitVec.ofNat 6 f.slot ++ 0#2
    ++ BitVec.ofNat 6 f.ctx ++ 0#3 ++ BitVec.ofNat 3 f.kind.code ++ BitVec.ofNat 2 (f.cause.cls failed) ++ 0#1
    ++ BitVec.ofNat 7 f.cause.code

def State.post (s : State) (p : Post) : State := { s with sent := s.sent ++ [p] }

/-- A new outstanding event and its FAULT_REPORT (R367, R368). FAULTIDs come from one device counter. -/
def State.report (s : State) (f : FaultRec) : State :=
  let r := { f with id := s.nextFault, reported := true }
  { s with faults := s.faults ++ [r], nextFault := s.nextFault + 1, sent := s.sent ++ [.faultReport r.pack] }

/-- The outstanding event with a FAULTID. -/
def State.fault? (s : State) (id : Word) : Option FaultRec := s.faults.find? fun f => f.id == id

def State.dropFault (s : State) (id : Word) : State := { s with faults := s.faults.filter fun f => f.id != id }

/-- What a trap tells beside its cause: DETAIL, the address, the access kind, the copy cursor (R368). -/
structure TrapInfo where
  detail : Word := 0
  va : Nat := 0
  kind : AccessKind := .none
  cursor : Nat := 0
  /-- the word named instead of the stopping one: that of the copy, for COPY_FAULT -/
  word : Option Word := none
  /-- the lanes named instead of those that stop: a copy's issuing lanes, for COPY_FAULT -/
  lanes : Option LaneMask := none
  deriving DecidableEq, Repr

/-! ### Ending a launch -/

/-- Mark a launch as ending in a state (R356); its stooks then stop at clause boundaries (R121, R356). The first mark
stands, but an end that is to be followed by a replay (code 8) gives way to one that is not. A launch whose completion record is
written completes (R300). -/
def State.endLaunch (s : State) (c : Nat) (id : Word) (code : Nat) : State :=
  s.modLaunch c id fun l =>
    if l.state ≤ 3 && !l.recorded && (l.ending.isNone || l.ending == some 8) then { l with ending := some code } else l

/-- A launch-wide event, WATCHDOG or SPILL_FULL: one report, whose record names no lane, and the end of the launch in a state
(R366 to R368). -/
def State.failLaunch (s : State) (c : Nat) (id : Word) (cause : Cause) (code : Nat) : State :=
  if (s.launch? c id).any fun l => l.state ≤ 3 && !l.recorded && (l.ending.isNone || l.ending == some 8) then
    (s.report { (default : FaultRec) with cause := cause, ctx := c, launch := id, kind := .none }).endLaunch c id code
  else s

/-! ### Wait tokens (R26) -/

/-- The count of a token: the sheaf's unfinished issues that name it. -/
def Sheaf.tokenCount (h : Sheaf) (t : Nat) : Nat := (h.issues.filter fun i => i.tok = t).length

/-- An issue that names a token begins: its number, or 0 when TOK is 7 or no lane is still to finish. -/
def State.beginIssue (s : State) (u i tok : Nat) (m : LaneMask) : Nat × State :=
  if tok = 7 || m = 0 then (0, s)
  else
    let n := s.next
    (n, State.modSheaf { s with next := n + 1 } u i fun h => { h with issues := h.issues ++ [{ id := n, tok := tok, lanes := m }] })

/-- Lanes of an issue are finished; the issue ends with its last lane. -/
def Sheaf.finishLanes (h : Sheaf) (id : Nat) (m : LaneMask) : Sheaf :=
  if id = 0 then h
  else { h with issues := (h.issues.map fun i => if i.id == id then { i with lanes := i.lanes &&& ~~~m } else i).filter
                  fun i => i.lanes != 0 }

/-- Lanes that park count as finished in every issue (R26). -/
def Sheaf.parkIssues (h : Sheaf) (m : LaneMask) : Sheaf :=
  { h with issues := (h.issues.map fun i => { i with lanes := i.lanes &&& ~~~m }).filter fun i => i.lanes != 0 }

/-- The lanes of a mask are finished with the instruction they hold for (R26): no hold, no token counts for them. -/
def Sheaf.finishHeld (h : Sheaf) (m : LaneMask) : Sheaf :=
  ((lanesOf m).foldl (fun g l => g.finishLanes (g.lane l).issue (maskOf [l])) h).modLanes m fun _ x =>
    let mine (q : Nat × Nat) : Bool := match x.hold with
      | some (.commit _ g _) => q.2 == g
      | some (.txwait r _) => q.2 == r.id
      | _ => false
    { x with hold := none, issue := 0, pending := x.pending.filter fun q => !mine q }

/-! ### Transactions: abort (R280, R281, R283) -/

/-- The statuses whose abort keeps the ticket (R281): CONFLICT, WOUNDED, PREEMPT. -/
def keepsTicket (code : Nat) : Bool := code = 0x01 || code = 0x08 || code = 0x09

/-- An aborted lane: no depth, empty logs, invalid latches, at TARGET as at a header; nothing else is restored. A lane
parked for its own access is released; one parked for a breakpoint or a trap stays parked, and goes on at TARGET. -/
def Lane.abort (x : Lane) (code : Nat) : Lane :=
  { x.goto x.tx.target with
    hold := none
    stop := match x.stop with
      | some t => if t.cause == .xlateMiss then none else some { t with resume := x.tx.target }
      | none => none
    tx := { (default : TxState) with ticket := if keepsTicket code then x.tx.ticket else 0 }
    txrec := false
    txcode := BitVec.ofNat 8 code }

/-- Locks of the lanes of a mask are given up. -/
def State.unlock (s : State) (u i : Nat) (m : LaneMask) : State :=
  { s with locks := s.locks.filter fun k => !(k.holder.stook == u && k.holder.sheaf == i && m.getLsbD k.holder.lane) }

/-- Registers awaiting the operations of a list are pending no more (R28). -/
def Sheaf.unpend (h : Sheaf) (m : LaneMask) (ids : List Nat) : Sheaf :=
  h.modLanes m fun _ x => { x with pending := x.pending.filter fun p => !ids.contains p.2 }

/-- The lanes of a mask abort with a status (R280): logs discarded, locks released, a parked transactional access not
yet replayed discarded. -/
def State.abortLanes (s : State) (u i : Nat) (m : LaneMask) (code : Nat) : State :=
  if m = 0 then s
  else
    let core := ((s.stook? u).getD default).core
    let gone (r : Replay) := r.req.stook == u && r.req.sheaf == i && m.getLsbD r.req.lane && r.req.tx
    let ids := ((s.core core).replay.filter gone).map fun r => r.req.id
    let s := s.unlock u i m
    let s := if ids.isEmpty then s else s.modCore core fun c => { c with replay := c.replay.filter fun r => !gone r }
    s.modSheaf u i fun h => ((h.unpend m ids).finishHeld m).modLanes m fun _ x => x.abort code

/-! ### Taking a trap, and returning from it -/

/-- The lanes of a path in an active transaction. -/
def Sheaf.inTx (h : Sheaf) (m : LaneMask) : LaneMask := maskFilter m fun l => 0 < (h.lane l).tx.depth

/-- Stop the lanes of a mask at their word or header with a cause, and report the event (R32, R35, R367). `n` is the
number of words of the stopping word, 0 for a header. Each lane forms a path of its own (R98) and will go on, if it is
resumed, after the word; one that parks for a breakpoint or a step is finished in its issues (R26). -/
def State.stopLanes (s : State) (p : Focus) (n : Nat) (c : Cause) (t : TrapInfo) : State :=
  if p.lanes = 0 then s
  else
    let k := (s.stook? p.stook).getD default
    let h := k.sheaf p.sheaf
    let pc := ((lanesOf p.lanes).head?.map fun l => (h.lane l).pc).getD 0
    let id := s.nextFault
    let s := s.report
      { (default : FaultRec) with cause := c, ctx := k.ctx, launch := k.launch, stookId := k.stookId, uid := k.uid,
                                  sheaf := p.sheaf, core := k.core, slot := h.slot, pc := t.word.getD pc, lanes := t.lanes.getD p.lanes,
                                  va := t.va, detail := t.detail, kind := t.kind, cursor := t.cursor, header := n = 0 }
    let parks := c == .breakpoint || c == .stepStop
    s.modSheaf p.stook p.sheaf fun h =>
      let h := h.finishHeld p.lanes
      (if parks then h.parkIssues p.lanes else h).modLanes p.lanes fun l x =>
        { x with tag := s.next + l, stop := some { cause := c, fault := id, resume := x.pc + BitVec.ofNat 32 n } }

/-- Taking a trap: the one operation by which a word or header raises a cause for lanes of its path. A program error in
a lane with an active transaction aborts it with FAULT and is not delivered (R282, R403); every other lane stops
precisely, and the event is reported (R32, R367). -/
def State.takeTrap (s : State) (p : Focus) (n : Nat) (c : Cause) (t : TrapInfo := {}) : State :=
  let h := s.sheafAt p.stook p.sheaf
  let tx := if c.cls = 1 then h.inTx p.lanes else 0
  let s := s.abortLanes p.stook p.sheaf tx 0x05
  let s := s.stopLanes { p with lanes := p.lanes &&& ~~~tx } n c t
  { s with next := s.next + 32 }

/-- The return from a stop (R35, R371 RESUME, R373 RELEASE): a lane stopped at a word goes on after it with invalid
latches; one stopped at a header goes on there. -/
def Lane.resume (x : Lane) : Lane :=
  match x.stop with
  | none => x
  | some t =>
    let y := { x with stop := none, age := 0, latches := [], credit := x.stepping }
    if t.resume == x.pc then { y with passed := true }
    else if t.resume == x.fin || !x.inside then { y.goto t.resume with credit := x.stepping }
    else { y with pc := t.resume, pos := x.pos + 1, resumed := true }

/-- The stopped lanes of an event return from it. -/
def State.resumeFault (s : State) (f : FaultRec) : State :=
  (s.dropFault f.id).modSheaf f.uid f.sheaf fun h => h.modLanes f.lanes fun _ x =>
    match x.stop with
    | some t => if t.fault == f.id then x.resume else x
    | none => x

/-! ### Outstanding misses (R369) -/

/-- The outstanding fault of a context for the 64 KiB granule of an address. -/
def State.granuleFault (s : State) (ctx va : Nat) : Option FaultRec :=
  s.faults.find? fun f => (f.cause == .xlateMiss || (f.cause == .copyFault && f.kind != .none)) && f.ctx == ctx
    && f.va / 65536 == va / 65536 && !f.resolved

/-- A miss joins the outstanding fault of its granule, or begins one with the record given (R369): its FAULTID. -/
def State.joinFault (s : State) (f : FaultRec) : Word × State :=
  match s.granuleFault f.ctx f.va with
  | some g => (g.id, s)
  | none =>
    let r := { f with id := s.nextFault, reported := false }
    (r.id, { s with faults := s.faults ++ [r], nextFault := s.nextFault + 1 })

/-- The fault record of a path's miss. -/
def State.missRec (_ : State) (k : Stook) (p : Focus) (va level : Nat) (kind : AccessKind) (header : Bool) : FaultRec :=
  let h := k.sheaf p.sheaf
  { (default : FaultRec) with
    cause := .xlateMiss, ctx := k.ctx, launch := k.launch, stookId := k.stookId, uid := k.uid, sheaf := p.sheaf,
    core := k.core, slot := h.slot, pc := ((lanesOf p.lanes).head?.map fun l => (h.lane l).pc).getD 0, lanes := p.lanes,
    va := va, detail := BitVec.ofNat 32 level, kind := kind, header := header }

/-! ### Vector registers of the pool (R109, R110) -/

/-- Physical registers a sheaf holds: at least 8 (R110). -/
def Sheaf.held (h : Sheaf) : Nat := max Config.minRegs h.bound.length

/-- Physical registers of a core not held by its resident sheaves. -/
def State.poolFree (s : State) (core : Nat) : Nat :=
  Config.physRegs - ((s.stooks.filter fun k => k.core == core).flatMap fun k => k.sheaves).foldl (fun n h => n + h.held) 0

/-- Room of a context's spill region that images asked for and not yet written keep (R374). -/
def State.reserved (s : State) (ctx : Nat) : Nat := (s.stooks.filter fun k => k.ctx == ctx).foldl (fun n k => n + k.reserve) 0

/-- Places of spilled registers in a context's spill region are free again. -/
def State.unspill (s : State) (ctx n : Nat) : State :=
  if n = 0 then s else s.modCtx ctx fun c => { c with spillUsed := c.spillUsed - 128 * n }

/-- Registers that every lane has released, or left by its exit, go back to the pool (R205). -/
def Sheaf.dropFreed (h : Sheaf) : Sheaf :=
  let gone (r : Nat) : Bool := (List.range h.lanes.length).all fun l => (Bank.get h.freed r).getLsbD l || (h.lane l).exited
  { h with bound := h.bound.filter fun r => !gone r, spilled := h.spilled.filter fun r => !gone r }

/-- Lanes of a sheaf have released registers or exited: the registers, and the room of spilled ones, are free again. -/
def State.dropFreed (s : State) (u i : Nat) : State :=
  let k := (s.stook? u).getD default
  let n := (k.sheaf i).spilled.length - (k.sheaf i).dropFreed.spilled.length
  (s.modSheaf u i Sheaf.dropFreed).unspill k.ctx n

/-- A register written by the lanes of a mask: it is bound, the least recently used one of the sheaf spilling when the budget or the pool is
used up. A spill that finds no room in the context's spill region ends the launch with SPILL_FULL (R366). -/
def State.bindReg (s : State) (u i r : Nat) (m : LaneMask) : State :=
  let s := s.modSheaf u i fun h => { h with freed := Bank.set h.freed r (Bank.get h.freed r &&& ~~~m) }
  let k := (s.stook? u).getD default
  let h := k.sheaf i
  if h.bound.contains r then
    s.modSheaf u i fun h => { h with bound := (h.bound.filter fun x => x != r) ++ [r] }
  else
    let room := h.bound.length < h.budget && (h.bound.length < Config.minRegs || 0 < s.poolFree k.core)
    let h' := if room then { h with bound := h.bound ++ [r], spilled := h.spilled.filter fun x => x != r }
      else { h with bound := h.bound.drop 1 ++ [r], spilled := (h.spilled.filter fun x => x != r) ++ h.bound.take 1 }
    let s := s.modSheaf u i fun h => { h with bound := h'.bound, spilled := h'.spilled }
    if h'.spilled.length < h.spilled.length then s.unspill k.ctx 1
    else if h'.spilled.length = h.spilled.length then s
    else
      let c := s.ctx k.ctx
      if c.spillUsed + s.reserved k.ctx + 128 ≤ c.spillBytes then s.modCtx k.ctx fun c => { c with spillUsed := c.spillUsed + 128 }
      else s.failLaunch k.ctx k.launch .spillFull 6

/-- The registers a word of some lanes reads become the most recently used; those it writes are bound. -/
def State.touchRegs (s : State) (u i : Nat) (m : LaneMask) (reads writes : List Nat) : State :=
  let s := s.modSheaf u i fun h =>
    { h with bound := (h.bound.filter fun r => !reads.contains r) ++ (h.bound.filter fun r => reads.contains r) }
  writes.foldl (fun s r => s.bindReg u i r m) s

/-! ### The words of a store (R133) -/

/-- The aligned words of a store, each an element of its bytes with their number. A store of a fragment (R247) is taken element by
element. -/
def Req.parts (r : Req) : List (Elem × Nat) :=
  let cells : List ((Nat × Nat × Option Nat) × Nat × ByteLoc × Byte) := ((r.elems.zip r.data).mapIdx fun j p =>
    if p.1.skip then []
    else (p.1.locs.zip (leBytes p.1.n p.2)).mapIdx fun x q =>
      ((if r.opcode = 0x089 then j else 0, q.1.pa / 8, q.1.peer), p.1.va + x, q.1, q.2)).flatten
  ((cells.map fun c => c.1).eraseDups).map fun key =>
    let mine := cells.filter fun c => c.1 == key
    let locs := (mine.map fun c => c.2.2.1).eraseDups
    let byte (b : ByteLoc) : Byte := ((mine.reverse.find? fun c => c.2.2.1 == b).map fun c => c.2.2.2).getD 0
    ({ (default : Elem) with va := (mine.head?.map fun c => c.2.1).getD 0, locs := locs, n := locs.length,
                             width := 8 * locs.length, known := List.replicate locs.length none }, leNat (locs.map byte))

/-! ### The frame of an instruction word -/

/-- The instructions a transaction refuses with UNSUPPORTED (R206, R294, R315). -/
def refusedInTx : Instr → Bool
  | .bar _ | .bara _ | .barw _ | .mwait _ | .launch _ | .regroup _ | .pbarOrd _ | .pbarSync _ | .cwait _ | .cbinit _
  | .cbacq _ | .cbrel _ | .cpy _ | .cpyg _ | .cpys _ => true
  | _ => false

/-- The registers a word binds at its issue, of those it writes (R109): all of them where every lane that issues writes at
once. A word some of whose lanes may stop, hold or await a result binds where the write is made; VFREE binds none (R205). -/
def bindsOf (i : Instr) (writes : List Nat) : List Nat :=
  match i with
  | .vfree _ | .rand _ | .launch _ | .mwait _ | .regroup _ | .ffn _ | .redl _ | .mma _ | .mmal _ => []
  | .shfl _ | .vote _ | .matchLanes _ | .rdlane _ | .wrlane _ | .elect _ | .cbacq _ | .tend _ => []
  | .ldf _ | .ld _ | .lds _ | .atom _ | .cas _ | .xrd _ => []
  | _ => writes

/-- The words that a second run is abandoned at (R385); with them an XRD that clears, which writes at its home (log entry 86). -/
def endsRerun : Instr → Bool
  | .atom _ | .cas _ | .red _ | .xred _ | .tbegin _ | .tbeginl _ | .launch _ | .cpy _ | .cpyg _ | .cpys _ => true
  | .xrd w => 16 ≤ w.sv
  | _ => false

/-- What a second run has given is noted, once (R385). -/
def State.noteVerdict (s : State) (k : Stook) (v : SampleVerdict) : State := s.modLaunch k.ctx k.launch fun l =>
  if l.verdicts.any fun x => x.1 == k.stookId then l else { l with verdicts := l.verdicts ++ [(k.stookId, v, k.core)] }

/-- An instruction word issued for the path in focus: the checks of R31, whose failure traps the whole path; then, in
lanes with an active transaction, BUDGET and the refusals, and the word's own operand test (R403); then the registers it
touches; then its effect on the lanes that remain. A word that a second run must not execute ends that run (R385). A word without a path is no event of the spec. -/
def issueWord (i : Instr) (s : State) (act : Focus → State → State) : Host.Outcome State Fault Refusal :=
  match s.focus with
  | none => .fault .noIssuingPath
  | some p =>
    match s.stook? p.stook with
    | none => .fault .noIssuingPath
    | some k =>
      let h := k.sheaf p.sheaf
      let s := { s with focus := none }
      match issueCheck i k h p.lanes with
      | some c => .next (s.takeTrap p i.size c)
      | none =>
        let tx := h.inTx p.lanes
        let spent := maskFilter tx fun l => Config.txBudget ≤ (h.lane l).tx.count
        let s := s.abortLanes p.stook p.sheaf spent 0x04
        let refused := if refusedInTx i then tx &&& ~~~spent else 0
        let s := s.abortLanes p.stook p.sheaf refused 0x06
        let goOn := p.lanes &&& ~~~spent &&& ~~~refused
        if goOn = 0 then .next s
        else if !ownOk i k h then .next (s.takeTrap { p with lanes := goOn } i.size .illegalOperand)
        else if k.rerun.isSome && endsRerun i then .next (s.noteVerdict k .abandoned)
        else
          let counted := tx &&& goOn
          let fp := footprint i h k
          let s := s.modSheaf p.stook p.sheaf fun h =>
            (h.modLanes counted fun _ x => { x with tx := { x.tx with count := x.tx.count + 1 } }).modLanes goOn
              fun _ x => { x with wrote := x.wrote ++ fp.2 }
          let s := s.touchRegs p.stook p.sheaf goOn fp.1 (bindsOf i fp.2)
          .next (act { p with lanes := goOn } s)

/-- An effect on the sheaf alone, after which every lane of the path goes on behind the word. -/
def sheafWord (i : Instr) (s : State) (eff : LaneMask → Sheaf → Sheaf) : Host.Outcome State Fault Refusal :=
  issueWord i s fun p s => s.modSheaf p.stook p.sheaf fun h => ((eff p.lanes h).nextLanes p.lanes i.size fun _ => none).count

/-- An event of the device: it happens while the device has power. -/
def event (s : State) (f : State → State) : Host.Outcome State Fault Refusal :=
  .next (if s.powered then f s else s)

end Sys2Proof.Machine
end

