-- ==== Sys2Proof/Machine/Translate.lean ====
section
/-! DEFINITION. What a home holds (06 R134, R145; 21 R362), page tables and translation (21 R359 to R365). -/

namespace Sys2Proof.Machine

open Sys2Proof

/-! ### The contents of a home -/

/-- DRAM and NV, the two regions of R362. -/
def inDram (pa : Nat) : Bool := pa < 2 ^ 40
def inNv (pa : Nat) : Bool := 2 ^ 41 ≤ pa && pa < 2 ^ 42
/-- The NV stack of an address (R362). -/
def nvStack (pa : Nat) : Nat := (pa >>> 39) % 4
/-- The 64 B line and the 64 KiB granule of an address. -/
def lineOf (pa : Nat) : Nat := pa / 64
def granuleOf (pa : Nat) : Nat := pa / 65536

/-- The 64 KiB frame of a DRAM byte, which lies on one stack, or the block of an NV byte (R362, R387): its number, that of a DRAM
frame being the stack's number times 2^20 and its place on the stack. -/
def frameOf (pa : Nat) : Nat := if inDram pa then pa / 4096 % 16 * 2 ^ 20 + pa / 2 ^ 20 else pa / 65536
/-- The DRAM stack of an address under the interleaved view. -/
def dramStack (pa : Nat) : Nat := pa / 4096 % 16

/-- The value an update-only delta leaves in its word (R146): add modulo the width, and, or, xor, minimum, maximum. -/
def foldWord (kind width old new : Nat) : Nat :=
  let w := width
  let s (x : Nat) := signedOf w x
  if kind = 0 then (old + new) % 2 ^ w
  else if kind = 1 then old &&& new
  else if kind = 2 then old ||| new
  else if kind = 3 then old ^^^ new
  else if kind = 4 then (if s old ≤ s new then old else new)
  else if kind = 5 then (if s old ≥ s new then old else new)
  else if kind = 6 then min old new
  else max old new

/-- An exact cell taken apart (R81): VALUE as an integer, NAN, PINF, NINF, OVF. -/
structure Cell512 where
  value : Int
  nan : Bool
  pinf : Bool
  ninf : Bool
  ovf : Bool
  deriving DecidableEq, Repr

def unpackCell (x : Nat) : Cell512 :=
  { value := signedOf 504 x, nan := x.testBit 504, pinf := x.testBit 505, ninf := x.testBit 506, ovf := x.testBit 507 }

def packCell (c : Cell512) : Nat :=
  wrapInt 504 c.value + (if c.nan then 2 ^ 504 else 0) + (if c.pinf then 2 ^ 505 else 0) + (if c.ninf then 2 ^ 506 else 0)
    + (if c.ovf then 2 ^ 507 else 0)

/-- An exact sum, with its sticky marks, added to a cell (R82, R175): a sum out of range sets OVF and wraps. -/
def Cell512.add (c : Cell512) (v : Int) (nan pinf ninf : Bool) : Cell512 :=
  let t := c.value + v
  { value := signedOf 504 (wrapInt 504 t), nan := c.nan || nan, pinf := c.pinf || pinf, ninf := c.ninf || ninf,
    ovf := c.ovf || t < -(2 ^ 503 : Nat) || t ≥ (2 ^ 503 : Nat) }

/-- The word a delta leaves, from the word it finds. -/
def Delta.apply (d : Delta) (old : Nat) : Nat :=
  if 8 ≤ d.kind then packCell ((unpackCell old).add d.value d.nan d.pinf d.ninf)
  else foldWord d.kind d.width old (wrapInt d.width d.value)

/-- Whether a delta's word holds a byte on this device. -/
def Delta.covers (d : Delta) (pa : Nat) : Bool := d.locs.any fun l => l.peer.isNone && l.pa == pa

/-- The deltas that cores and dies hold, and those of a byte (R145). -/
def State.deltas (s : State) : List Delta := s.cores.flatMap Core.deltas ++ s.dies.flatMap Die.deltas
def State.deltasAt (s : State) (pa : Nat) : List Delta := s.deltas.filter fun d => d.covers pa

/-- A byte as its home gives it to any access: the stored byte with every delta of its word combined (R145). -/
def State.homeByte (s : State) (pa : Nat) : Byte :=
  match s.deltasAt pa with
  | [] => s.mem.byte pa
  | d :: ds =>
    let base := (d.locs.head?.map ByteLoc.pa).getD 0
    let old := leNat ((d.locs.map ByteLoc.pa).map s.mem.byte)
    BitVec.ofNat 8 (((d :: ds).foldl (fun x d => d.apply x) old) >>> (8 * (pa - base)))

def State.homeBytes (s : State) (pas : List Nat) : List Byte := pas.map s.homeByte

/-- An aligned 8-byte word at a home. -/
def State.homeWord (s : State) (pa : Nat) : Nat := leNat (s.homeBytes ((List.range 8).map fun k => pa + k))

/-! ### The walk (R359 to R361) -/

/-- The end of a walk: a leaf with its level, or a cause with the level it was met at. -/
inductive Walk where
  | leaf (level : Nat) (e : DWord)
  | fail (c : Cause) (level : Nat)
  deriving DecidableEq, Repr

def pteV (e : DWord) : Bool := e.getLsbD 0
def pteT (e : DWord) : Bool := e.getLsbD 1
def pteRD (e : DWord) : Bool := e.getLsbD 2
def pteWR (e : DWord) : Bool := e.getLsbD 3
def pteEX (e : DWord) : Bool := e.getLsbD 4
def pteNV (e : DWord) : Bool := e.getLsbD 5
def pteLA (e : DWord) : Bool := e.getLsbD 6
def pteLOCAL (e : DWord) : Bool := e.getLsbD 7
def ptePEER (e : DWord) : Bool := e.getLsbD 8
def pteKEY (e : DWord) : Nat := (e.extractLsb' 9 7).toNat
def ptePA (e : DWord) : Nat := (e.extractLsb' 16 32).toNat * 65536
def ptePEERDEV (e : DWord) : Nat := (e.extractLsb' 56 7).toNat

/-- Offset bits of a leaf at a level (R359). -/
def leafBits (level : Nat) : Nat := 16 + 13 * (3 - level)

/-- An entry that ends a walk in BAD_PTE at a level (R361). -/
def badPte (level : Nat) (e : DWord) : Bool :=
  let pa := ptePA e
  let size := 2 ^ leafBits level
  (e.getLsbD 63 || e.extractLsb' 48 8 != 0)
    || (if pteT e then
          level = 3 || e.extractLsb' 2 14 != 0 || ptePEERDEV e != 0 || !inDram pa
        else
          pa % size != 0
            || (!ptePEER e && !((inDram pa && inDram (pa + size - 1)) || (inNv pa && inNv (pa + size - 1))))
            || (!ptePEER e && ptePEERDEV e != 0)
            || (pteLOCAL e && level = 1)
            || (!ptePEER e && pteNV e != inNv pa)
            || (pteLA e && !pteNV e)
            || (ptePEER e && (pteLOCAL e || pteLA e)))

/-- The NV range of a partition's quota (R394), by its first byte and length. -/
def Settings.nvRange (c : Settings) (p : Nat) : Nat × Nat :=
  (2 ^ 41 + ((c.nvQuota.take p).foldl (fun a b => a + b) 0) * 2 ^ 34, c.nvQuota.getD p 0 * 2 ^ 34)

/-- Dies and stacks of a partition (R394): the first and how many. -/
def Settings.dies (c : Settings) (p : Nat) : Nat × Nat := (16 / 2 ^ c.partLog * p, 16 / 2 ^ c.partLog)

/-- A leaf outside what its context's partition may map, with more than one partition (R394). -/
def State.outsidePartition (s : State) (ctx level : Nat) (e : DWord) : Bool :=
  let c := s.svc.settings
  let p := (s.ctx ctx).partition
  let pa := ptePA e
  let (first, count) := c.dies p
  let (lo, len) := c.nvRange p
  c.partLog != 0 && !ptePEER e
    && (if pteNV e then !(lo ≤ pa && pa + 2 ^ leafBits level ≤ lo + len)
        else !pteLOCAL e || !(first ≤ pa >>> 36 && pa >>> 36 < first + count))

/-- A walk from a table at a level; an entry whose line is poisoned cannot be read (R387). -/
def State.walkFrom (s : State) (ctx va : Nat) : Nat → Nat → Nat → Walk
  | 0, level, _ => .fail .badPte level
  | fuel + 1, level, table =>
    let at' := table + 8 * natField va (leafBits level) 13
    let e := BitVec.ofNat 64 (s.homeWord at')
    if s.svc.poison.contains (lineOf at') then .fail .eccUncorr level
    else if !pteV e then .fail .xlateMiss level
    else if badPte level e then .fail .badPte level
    else if pteT e then s.walkFrom ctx va fuel (level + 1) (ptePA e)
    else if s.outsidePartition ctx level e then .fail .badPte level
    else .leaf level e

/-- The walk of an address through a context's tables. -/
def State.walk (s : State) (ctx va : Nat) : Walk :=
  let root := (s.ctx ctx).ptroot
  if !inDram root then .fail .badPte 1 else s.walkFrom ctx va 3 1 root

/-! ### TLBs (R364, R365) -/

/-- The entries of a TLB for a page: while a mapping that changes is still held, the old one and the new (R365). -/
def tlbFind (l : List TlbEntry) (ctx va : Nat) : List TlbEntry := l.filter fun t => t.ctx == ctx && t.vpn == va >>> leafBits t.level

/-- A leaf enters a TLB of at most `cap` entries in front of the others, of which the last goes when it is full. -/
def tlbEnter (cap : Nat) (t : TlbEntry) (l : List TlbEntry) : List TlbEntry :=
  if l.contains t then l else (t :: l).take cap

/-- The TLB of a core's cluster. -/
def State.clusterTlb (s : State) (core : Nat) : List TlbEntry := (assoc? s.clusterTlbs (clusterOf core)).getD []

/-- A leaf enters a core's TLB and its cluster's. -/
def State.fillTlb (s : State) (core ctx va level : Nat) (e : DWord) : State :=
  let t : TlbEntry := { ctx := ctx, level := level, vpn := va >>> leafBits level, leaf := e }
  let s := if (s.core core).tlb.contains t then s else s.modCore core fun c => { c with tlb := tlbEnter Config.tlbEntries t c.tlb }
  if (s.clusterTlb core).contains t then s
  else { s with clusterTlbs := assocSet s.clusterTlbs (clusterOf core) (tlbEnter Config.clusterTlbEntries t (s.clusterTlb core)) }

/-- The entries of every TLB that meet a test go. -/
def State.dropEntries (s : State) (gone : TlbEntry → Bool) : State :=
  { s with cores := s.cores.map fun c => { c with tlb := c.tlb.filter fun t => !gone t }
           clusterTlbs := s.clusterTlbs.map fun p => (p.1, p.2.filter fun t => !gone t) }

/-- Every TLB drops a context's entries. -/
def State.dropTlb (s : State) (ctx : Nat) : State := s.dropEntries fun t => t.ctx == ctx

/-- The translation an access uses: that of an entry still held or of the walk, which of them being free where they
differ (R365). `k` numbers the access among those of its word. -/
def State.translate (s : State) (core ctx va k : Nat) : Walk :=
  match (tlbFind (s.core core).tlb ctx va ++ tlbFind (s.clusterTlb core) ctx va).find? fun t => Config.freeHit s.free (k * 2 ^ 64 + t.leaf.toNat) with
  | none => s.walk ctx va
  | some t => .leaf t.level t.leaf

/-! ### Permissions and storage (R362, R363) -/

/-- What an access needs of its page. -/
structure Need where
  rd : Bool := false
  wr : Bool := false
  ex : Bool := false
  deriving DecidableEq, Repr

/-- The physical address of a byte under a leaf, a DRAM byte of a local page under the interleaved view. -/
def leafPa (level : Nat) (e : DWord) (va : Nat) : Nat :=
  let pa := ptePA e + va % 2 ^ leafBits level
  if pteLOCAL e && !ptePEER e && inDram pa then
    let o := pa % 2 ^ 36
    ((o >>> 12) <<< 16) + ((pa >>> 36) <<< 12) + o % 4096
  else pa

/-- A slot holds a key bound to a context; slot 0 needs none (R388). -/
def State.keyLoaded (s : State) (ctx slot : Nat) : Bool :=
  slot = 0 || s.svc.keys.any fun k => k.num == slot && k.ctx == ctx

/-- The key bytes a slot stands for; none for slot 0. -/
def State.keyBytes (s : State) (slot : Nat) : List Byte :=
  if slot = 0 then [] else ((s.svc.keys.find? fun k => k.num == slot).map KeySlot.key).getD []

/-- The permission and key checks on a leaf, in the order of R363. -/
def State.permit (s : State) (ctx : Nat) (need : Need) (e : DWord) : Option Cause :=
  if (need.rd && !pteRD e) || (need.wr && !pteWR e) || (need.ex && !pteEX e) then some .xlatePerm
  else if !s.keyLoaded ctx (pteKEY e) then some .keyEmpty
  else none

/-- One byte of a context's memory, translated by a walk. -/
def State.nodeLocate (s : State) (ctx va : Nat) (need : Need) : Except Cause ByteLoc :=
  match s.walk ctx va with
  | .fail c _ => .error c
  | .leaf l e =>
    match s.permit ctx need e with
    | some c => .error c
    | none => .ok { pa := leafPa l e va, peer := if ptePEER e then some (ptePEERDEV e) else none, la := pteLA e, key := pteKEY e }

/-- The storage of one byte of an access, or the cause that stops it with the level of its walk. -/
def State.locate (s : State) (core ctx va k : Nat) (need : Need) : Except (Cause × Nat) ByteLoc :=
  match s.translate core ctx va k with
  | .fail c l => .error (c, l)
  | .leaf l e =>
    match s.permit ctx need e with
    | some c => .error (c, l)
    | none => .ok { pa := leafPa l e va, peer := if ptePEER e then some (ptePEERDEV e) else none, la := pteLA e,
                    key := pteKEY e }

/-- The storage of `n` consecutive bytes, at most 4 KiB, which may reach a second page, or on a local page a second block of the
interleaved view (R362). -/
def State.locateRange (s : State) (core ctx va n k : Nat) (need : Need) : Except (Cause × Nat × Nat) (List ByteLoc) :=
  let cut := 4096 - va % 4096
  let part (va n : Nat) : Except (Cause × Nat × Nat) (List ByteLoc) :=
    match s.locate core ctx va k need with
    | .error (c, l) => .error (c, l, va)
    | .ok b => .ok ((List.range n).map fun j => { b with pa := b.pa + j })
  if n ≤ cut then part va n
  else
    match part va cut with
    | .error x => .error x
    | .ok a =>
      match part (va + cut) (n - cut) with
      | .error x => .error x
      | .ok b => .ok (a ++ b)

/-- The leaf that an access of an address uses is entered in a core's TLB and its cluster's (R365). -/
def State.touchTlb (s : State) (core ctx va : Nat) : State :=
  match s.translate core ctx va va with
  | .leaf l e => s.fillTlb core ctx va l e
  | .fail _ _ => s

end Sys2Proof.Machine
end

