-- ==== Sys2Proof/Machine/Contain.lean ====
section
/-! DEFINITION. Containment errors and their fates by class (22 R379, R381, R387), and what a read of a sector meets
(22 R386, R387). -/

namespace Sys2Proof.Machine

open Sys2Proof

/-- A launch that is running: placed or placing, and not ended (R356). -/
def Launch.running (l : Launch) : Bool := l.state = 2 || l.state = 3

/-- A telemetry counter rises by one (R398). -/
def State.bump (s : State) (n : Nat) : State :=
  { s with svc := { s.svc with counters := Bank.set s.svc.counters n (Bank.get s.svc.counters n + 1) } }

/-- A telemetry counter rises by a number (R398). -/
def State.bumpBy (s : State) (n k : Nat) : State :=
  { s with svc := { s.svc with counters := Bank.set s.svc.counters n (Bank.get s.svc.counters n + BitVec.ofNat 64 k) } }

/-- Every launch of a context ends in a state, its queues emptied with them (R371, R379). -/
def State.endContext (s : State) (ctx code : Nat) : State :=
  (s.launches.filter fun l => l.ctx == ctx).foldl (fun s l => s.endLaunch ctx l.id code) s

/-- The ending that stands for a replay (R381): the launch is placed again once its stooks have stopped. -/
def replayCode : Nat := 8

/-- The number of attempts of a launch without every snapshot that a containment error has touched: it ends as under NONE (R380). -/
def asNone : Nat := 4

/-- A launch whose end undoes nothing (R380, R382). -/
def Launch.plain (l : Launch) : Bool := l.desc.contain = 0 || (l.noSnap && l.attempts = asNone)

/-- A containment error that touches a launch: its report, and its fate by class (R379, R380, R381). The context ends
whatever the class on INTEGRITY (R387). -/
def State.containError (s : State) (f : FaultRec) : State :=
  match s.launch? f.ctx f.launch with
  | none => s
  | some l =>
    if l.ending.isSome || !l.running then s
    else
    let mismatch := f.cause == .watermark || f.cause == .sampleMismatch
    let involved := clusterOf f.core :: (s.stooks.filter fun k => k.ctx == f.ctx && k.launch == f.launch
      && k.stookId == f.stookId).map fun k => clusterOf k.core
    let s := s.modLaunch f.ctx f.launch fun l => { l with avoid := if mismatch then (l.avoid ++ involved).eraseDups else l.avoid }
    if f.cause == .integrity || l.desc.contain = 0 || l.noSnap then
      let s := if l.noSnap then s.modLaunch f.ctx f.launch fun l => { l with attempts := asNone } else s
      ((s.report { f with detail := 0 }).endContext f.ctx 7).modCtx f.ctx fun c => { c with valid := false }
    else
      let n := l.attempts + 1
      let s := s.modLaunch f.ctx f.launch fun l => { l with attempts := n, errorRec := some { f with detail := BitVec.ofNat 32 (min n 3) } }
      if l.peerWritten || 3 ≤ n then s.endLaunch f.ctx f.launch 7
      else (s.endLaunch f.ctx f.launch replayCode).bump 16

/-! ### Reading a sector (R386, R387) -/

/-- A line was last written under another key than a page's (R363). -/
def State.keyClash (s : State) (b : ByteLoc) : Bool :=
  ((s.lineKeys.find? fun p => p.1 == lineOf b.pa).map fun p => p.2 != s.keyBytes b.key).getD false

/-- A link to a peer device is up and enabled (R358). -/
def State.peerUp (s : State) (dev : Nat) : Bool :=
  let mask := (assoc? s.svc.routes dev).getD 0
  s.svc.links.any fun l => l.up && mask.testBit l.num && s.svc.enable.testBit l.num

/-- An access of some bytes finds no link up to a peer it names (R358, R366). -/
def State.peerLost (s : State) (bs : List ByteLoc) : Bool := bs.any fun b => b.peer.any fun d => !s.peerUp d

/-- What a read of some lines delivers: data, or the cause of a lasting error. Poisoned lines read as ECC_UNCORR, lines
written under another key fail their tag; a peer is down when no link to it is up (R366, R402). -/
def State.sectorCause (s : State) (bs : List ByteLoc) (r : SectorRead) : Option Cause :=
  let here := bs.filter fun b => b.peer.isNone
  if bs.any (fun b => b.peer.isSome) then (if s.peerLost bs then some .peerDown else none)
  else if here.any (fun b => s.svc.poison.contains (lineOf b.pa)) then some .eccUncorr
  else if r == .eccLasting || r == .sramLasting then some .eccUncorr
  else if r == .integrityLasting then some .integrity
  else if here.any (s.keyClash ·) then some .integrity
  else none

/-- Spare frames left on a DRAM stack (R399). -/
def Service.spares (v : Service) (stack : Nat) : Nat :=
  Config.spareFrames stack - (v.remapped.filter fun f => f < 2 ^ 24 && f / 2 ^ 20 = stack).length

/-- The counts and the retirement that a read's errors leave (R387, R398, R399): transient ones are counted; a lasting DRAM or
NV error poisons the line and remaps its frame, where the stack has a spare left, a lasting on-die error quarantines the
cluster, a failed tag poisons the line and retires nothing. -/
def State.sectorCount (s : State) (core : Nat) (pa : Nat) (r : SectorRead) : State :=
  let line := lineOf pa
  let poison (s : State) : State :=
    { s with svc := { s.svc with poison := if s.svc.poison.contains line then s.svc.poison else s.svc.poison ++ [line]
                                 mended := s.svc.mended.filter fun b => lineOf b != line } }
  let remap (s : State) : State :=
    if inDram pa && s.svc.spares (dramStack pa) = 0 then s
    else State.bump { s with svc := { s.svc with remapped := s.svc.remapped ++ [frameOf pa] } } (if inNv pa then 12 else 11)
  match r with
  | .good => s
  | .corrected => s.bump 8
  | .eccTransient => s.bump 9
  | .sramTransient => s.bump 9
  | .eccLasting => remap ((poison s).bump 10)
  | .sramLasting =>
    let q := clusterOf core
    ({ s with svc := { s.svc with quarantined :=
        if s.svc.quarantined.contains q then s.svc.quarantined else s.svc.quarantined ++ [q] } } : State).bump 10
  | .integrityTransient => s.bump 13
  | .integrityLasting => (poison s).bump 13
  | .peerDownTransient => s
  | .peerDownLasting => s

/-- The links to the peers of some bytes have been trained again (R387, R402). -/
def State.retrainPeers (s : State) (bs : List ByteLoc) : State :=
  let used (n : Nat) : Bool := s.svc.enable.testBit n && bs.any fun b => b.peer.any fun d => ((assoc? s.svc.routes d).getD 0).testBit n
  { s with svc := { s.svc with links := s.svc.links.map fun l => if used l.num then { l with retrains := l.retrains + 1 } else l } }

/-- A read of some bytes by a core: the cause of a lasting error, if it meets one, and the state with what is counted and retired. A
line under another key counts as its tag's failure (R363, R387). -/
def State.readSectors (s : State) (core : Nat) (bs : List ByteLoc) (r : SectorRead) : Option Cause × State :=
  let cause := s.sectorCause bs r
  let first := (bs.head?.map ByteLoc.pa).getD 0
  let clash := ((bs.find? fun b => b.peer.isNone && s.keyClash b).map ByteLoc.pa).getD first
  (cause,
    if bs.isEmpty then s
    else if bs.any fun b => b.peer.isSome then (if r == .peerDownTransient then s.retrainPeers bs else s)
    else if cause == some .integrity && r != .integrityLasting then s.sectorCount core clash .integrityLasting
    else s.sectorCount core first r)

/-- A word or header raises a cause for lanes of its path: an error of class 3 ends or replays the launch, and the lanes stop where they
are (R379, R387); any other cause is a trap. -/
def State.takeFault (s : State) (p : Focus) (n : Nat) (c : Cause) (t : TrapInfo := {}) : State :=
  if c.cls != 3 then s.takeTrap p n c t
  else
    let k := (s.stook? p.stook).getD default
    let h := k.sheaf p.sheaf
    let f : FaultRec :=
      { (default : FaultRec) with cause := c, ctx := k.ctx, launch := k.launch, stookId := k.stookId, uid := k.uid, sheaf := p.sheaf, core := k.core,
                                  slot := h.slot, pc := ((lanesOf p.lanes).head?.map fun l => (h.lane l).pc).getD 0, lanes := p.lanes, va := t.va, kind := t.kind }
    (s.containError f).modSheaf p.stook p.sheaf fun h => h.modLanes p.lanes fun _ x =>
      { x with hold := none, stop := some { cause := c, fault := 0, resume := x.pc + BitVec.ofNat 32 n } }

end Sys2Proof.Machine
end

