-- ==== Sys2Proof/Machine/Control.lean ====
section
/-! DEFINITION. Fetching a clause (01 R7 to R10, R27 to R30), the control transfers (08 R183 to R185), EXIT and its
completion (05 R119, R120), YIELD and NOP (08 R186), and a word of an unassigned slot (02 R45). -/

namespace Sys2Proof.Machine

open Sys2Proof

/-! ### The clause walk (R30) -/

/-- The instruction words of a clause from index `i` to `last`, with the index each stands at, and the index after the
last one walked. -/
def walkClause (code : List Word) (last : Nat) : Nat → Nat → List (Nat × Word × Option Word) × Nat
  | 0, i => ([], i)
  | fuel + 1, i =>
    if last < i then ([], i)
    else
      let w := code.getD i 0
      let two := hasSecondWord w
      let r := walkClause code last fuel (i + if two then 2 else 1)
      ((i, w, if two then some (code.getD (i + 1) 0) else none) :: r.1, r.2)

/-- The instruction a word and its second word stand for. -/
def instrOf (w : Word) (e : Option Word) : Instr := (ofOp (opOf w) w e).getD (.unassignedSlotIssue ⟨w, e⟩)

/-- The instruction that stands at an index of a code segment: its word and, when it has one, the word after it (R10). -/
def instrAt (code : List Word) (pc : Nat) : Instr :=
  let w := code.getD pc 0
  instrOf w (if hasSecondWord w then some (code.getD (pc + 1) 0) else none)

/-- A word that accesses memory: held by a fence (R264) and by a PBAR.SYNC (R294). -/
def accessWord : Instr → Bool
  | .ldf _ | .stf _ | .mon _ | .launch _ => true
  | .ld _ | .st _ | .lds _ | .sts _ | .atom _ | .cas _ | .red _ | .xred _ | .xrd _ | .pref _ | .cctl _ => true
  | .tend _ | .tval _ | .cpy _ | .cpyg _ | .cpys _ => true
  | _ => false

/-- Header fields (R9). -/
def hdrMark (w : Word) : Nat := (w.extractLsb' 28 4).toNat
def hdrCount (w : Word) : Nat := (w.extractLsb' 24 4).toNat
def hdrClass (w : Word) : Nat := (w.extractLsb' 21 3).toNat
def hdrWaits (w : Word) (t : Nat) : Bool := w.getLsbD (15 + t)
def hdrYield (w : Word) : Bool := w.getLsbD 14

/-- Vector registers that the words of a clause read and write, and whether a word touches what an earlier one writes
(R29). -/
def clauseRegs (h : Sheaf) (k : Stook) (ws : List (Nat × Word × Option Word)) : List Nat × List Nat × Bool :=
  ws.foldl (fun acc w =>
    let fp := footprint (instrOf w.2.1 w.2.2) h k
    (acc.1 ++ fp.1, acc.2.1 ++ fp.2, acc.2.2 || (fp.1 ++ fp.2).any fun r => acc.2.1.contains r)) ([], [], false)

/-- Whether a word of a clause touches a scalar register that an earlier one writes (R29). -/
def scalarHazard (ws : List (Nat × Word × Option Word)) : Bool :=
  (ws.foldl (fun (acc : List Nat × Bool) w =>
    let fp := scalarFootprint (instrOf w.2.1 w.2.2)
    (acc.1 ++ fp.2, acc.2 || (fp.1 ++ fp.2).any fun r => acc.1.contains r)) ([], false)).2

/-- The clause checks in the order of R30: the first that fails, or the clause's words. -/
def fetchCheck (code : List Word) (k : Stook) (h : Sheaf) (pc : Nat) : Except Cause (List (Nat × Word × Option Word)) :=
  let hd := code.getD pc 0
  let last := pc + hdrCount hd
  let ws := walkClause code last 15 (pc + 1)
  let instrs := ws.1
  match firstFail
    [(pc < code.length, .codeBounds),
     (hdrMark hd = 12, .illegalHeader),
     (hdrCount hd != 0 && hdrClass hd != 7, .illegalHeader),
     (last < code.length, .codeBounds),
     ((hd.extractLsb' 0 14) == 0, .illegalEncoding),
     (instrs.all fun w => classOf w.2.1 = hdrClass hd, .illegalClass),
     (ws.2 ≤ last + 1 && instrs.all fun w => !(keyOf (opOf w.2.1) == .M) || w.2.1.getLsbD 0, .illegalEncoding),
     ((instrs.dropLast).all fun w => !isTransferOp (opOf w.2.1), .illegalEncoding),
     (!(1 ≤ hdrClass hd && hdrClass hd ≤ 4) || !((clauseRegs h k instrs).2.2 || scalarHazard instrs), .illegalEncoding)] with
  | some c => .error c
  | none => .ok instrs

/-- The granule of code that keeps a clause from being read: the cause, the level of the walk and the address (R363). A
header that stands outside the segment, or one that is no header, is judged first. -/
def Launch.codeStop (L : Launch) (pc : Nat) : Option (Cause × Nat × Nat) :=
  let at? (j : Nat) : Option (Cause × Nat × Nat) :=
    let va := L.desc.codeVa + 4 * j
    (L.codeFaults.find? fun f => f.1 == va / 65536).map fun f => (f.2.1, f.2.2, va)
  let hd := L.code.getD pc 0
  let last := pc + hdrCount hd
  if L.code.length ≤ pc then none
  else match at? pc with
    | some x => some x
    | none => if hdrMark hd = 12 && last < L.code.length then at? last else none

/-- A lane enters the clause at its PC, in the path that `tag` names (R98). -/
def Lane.enter (x : Lane) (hd : Word) (tag : Nat := 0) : Lane :=
  { x with hdr := x.pc, cls := hdrClass hd, fin := x.pc + 1 + BitVec.ofNat 32 (hdrCount hd), pc := x.pc + 1,
           inside := true, pos := 0, latches := [], wrote := [], refilled := false, yields := hdrYield hd, tag := tag }

/-- Lanes at a header ask for the refill of the spilled registers that their clause reads (R110). -/
def Sheaf.askRefill (h : Sheaf) (m : LaneMask) (reads : List Nat) : Sheaf :=
  let rs := (reads.filter fun r => h.spilled.contains r).eraseDups
  h.modLanes (maskFilter m fun l => !(h.lane l).refilled) fun _ x =>
    { x with pending := x.pending ++ ((rs.filter fun r => !x.pending.contains (r, 0)).map fun r => (r, 0)) }

/-- The words of a code segment that lie in a granule are read again, by a walk of their own (R361, R371). -/
def State.refetch (s : State) (ctx va : Nat) : State :=
  let g := va / 65536
  let need : Need := { ex := true }
  let fresh (l : Launch) : Launch :=
    if l.ctx != ctx || !(l.codeFaults.any fun f => f.1 == g) then l
    else
      let word (j : Nat) : Word :=
        match s.nodeLocate ctx (l.desc.codeVa + 4 * j) need with
        | .error _ => 0
        | .ok b => BitVec.ofNat 32 (leNat ((List.range 4).map fun x => s.homeByte (b.pa + x)))
      match s.walk ctx (max l.desc.codeVa (65536 * g)) with
      | .fail c lv => { l with codeFaults := l.codeFaults.map fun f => if f.1 == g then (g, c, lv) else f }
      | .leaf lv e => match s.permit ctx need e with
        | some c => { l with codeFaults := l.codeFaults.map fun f => if f.1 == g then (g, c, lv) else f }
        | none => { l with
            codeFaults := l.codeFaults.filter fun f => f.1 != g
            code := l.code.mapIdx fun j w => if (l.desc.codeVa + 4 * j) / 65536 = g then word j else w }
  { s with launches := s.launches.map fresh }

/-- CLAUSE_FETCH: a path at a header. A breakpoint or a stop-all parks lanes not yet released from it (R122, R123,
R373); a failed check traps the path at the header (R30); a token of WAIT that is not zero leaves the path waiting (R27);
lanes with a pending register of the clause stay at the header, a read of a spilled register among them (R28, R110); the
rest enter, as a path of its own where the scoreboard has held one of them (R98), and their first word is the next to
issue. -/
def fetchHere (p : PathRef) (s : State) : State :=
  match s.stook? p.stook with
  | none => s
  | some k =>
    let h := k.sheaf p.sheaf
    let E := maskFilter p.lanes fun l => (h.lane l).running && !(h.lane l).inside
    let L := s.launchOf k
    if E = 0 || (k.stopping != 0 && !L.desc.rotates) || L.ending.isSome then s
    else
      let pc := ((lanesOf E).head?.map fun l => (h.lane l).pc).getD 0
      let fresh := maskFilter E fun l => !(h.lane l).passed
      let here : Focus := { stook := p.stook, sheaf := p.sheaf, lanes := E }
      if fresh != 0 && (k.stopAll || L.breakpoints.contains pc) then
        { s.stopLanes { here with lanes := fresh } 0 .breakpoint { va := L.desc.codeVa + 4 * pc.toNat } with next := s.next + 32 }
      else
        match L.codeStop pc.toNat with
        | some (.xlateMiss, lv, va) => (s.joinFault (s.missRec k here va lv .fetch true)).2
        | some (c, lv, va) => s.takeFault here 0 c { detail := BitVec.ofNat 32 lv, va := va, kind := .fetch }
        | none =>
        match fetchCheck L.code k h pc.toNat with
        | .error c => s.takeTrap here 0 c { va := L.desc.codeVa + 4 * pc.toNat, kind := .fetch }
        | .ok ws =>
          let hd := L.code.getD pc.toNat 0
          if (List.range 6).any fun t => hdrWaits hd t && h.tokenCount t != 0 then s
          else
            let regs := clauseRegs h k ws
            let s := s.modSheaf p.stook p.sheaf fun h => h.askRefill E regs.1
            let h := s.sheafAt p.stook p.sheaf
            let goes := maskFilter E fun l => !(h.lane l).pending.any fun q => (regs.1 ++ regs.2.1).contains q.1
            let tag := if (lanesOf goes).any fun l => (h.lane l).tag != 0 then s.next else 0
            let s := s.modSheaf p.stook p.sheaf fun h => h.modLanes goes fun _ x => x.enter hd tag
            if goes = 0 then s else { s with focus := some { here with lanes := goes }, next := s.next + 1 }

/-- A path's fetch. Where a page of its code could not be read, it walks again (R361); a miss, unless its fault is outstanding (R369). -/
def fetchPath (p : PathRef) (s : State) : State :=
  let k := (s.stook? p.stook).getD default
  let pc := ((lanesOf p.lanes).head?.map fun l => ((k.sheaf p.sheaf).lane l).pc.toNat).getD 0
  match (s.launchOf k).codeStop pc with
  | none => fetchHere p s
  | some (c, _, va) => fetchHere p (if c == .xlateMiss && (s.granuleFault k.ctx va).isSome then s else s.refetch k.ctx va)

/-- CLAUSE_FETCH (R30) -/
def execClauseFetch (p : PathRef) (s : State) : Host.Outcome State Fault Refusal := event s (fetchPath p)

/-! ### Transfers (R184) -/

/-- A transfer: each executing lane to its own target header. -/
def transferWord (i : Instr) (s : State) (target : Sheaf → Nat → Word) (pre : LaneMask → Sheaf → Sheaf) :
    Host.Outcome State Fault Refusal :=
  issueWord i s fun p s => s.modSheaf p.stook p.sheaf fun h =>
    ((pre p.lanes h).modLanes p.lanes fun l x => x.goto (target h l)).count

def noWrite : LaneMask → Sheaf → Sheaf := fun _ h => h

/-- The header of the clause that holds the branch, plus the conditional offset (R13, R33). -/
def jcTarget (w : JcWord) (x : Lane) : Word := x.hdr + w.off.signExtend 32

/-- BRA (R184) -/
def execBra (w : JWord) (s : State) :=
  transferWord (.bra w) s (fun h l => (h.lane l).hdr + w.off.signExtend 32) noWrite
/-- BRV (R184) -/
def execBrv (w : JcWord) (s : State) :=
  transferWord (.brv w) s (fun h l => if h.src 0 w.a l != 0 then jcTarget w (h.lane l) else (h.lane l).fin) noWrite
/-- BRS (R184) -/
def execBrs (w : JcWord) (s : State) :=
  transferWord (.brs w) s (fun h l => if h.ssrc w.a != 0 then jcTarget w (h.lane l) else (h.lane l).fin) noWrite
/-- CALL (R184): the link register takes the index of the next clause's header. -/
def execCall (w : JcWord) (s : State) :=
  transferWord (.call w) s (fun h l => jcTarget w (h.lane l))
    fun E h => h.writeLanes E false w.a.toNat fun l => (h.lane l).fin.setWidth 64
/-- RET (R184) -/
def execRet (w : JcWord) (s : State) := transferWord (.ret w) s (fun h l => h.src 0 w.a l) noWrite
/-- JMPI (R184) -/
def execJmpi (w : JcWord) (s : State) :=
  transferWord (.jmpi w) s (fun h l => jcTarget w (h.lane l) + 2 * h.src 0 w.a l) noWrite

/-! ### EXIT (R119, R120, R185) -/

/-- A lane whose EXIT has issued: its transaction ends without its writes, its monitor is disarmed. -/
def Lane.exitIssue (x : Lane) : Lane :=
  { x with exitIssued := true, hold := none, monitor := none, fence := none, latches := [],
           tx := { (default : TxState) with ticket := 0 } }

/-- EXIT (R185): from its issue the lane counts as exited for the other lanes. -/
def execExit (w : JWord) (s : State) : Host.Outcome State Fault Refusal :=
  issueWord (.exit w) s fun p s =>
    (s.unlock p.stook p.sheaf p.lanes).modSheaf p.stook p.sheaf fun h =>
      (h.modLanes p.lanes fun _ x => x.exitIssue).count

/-- The copies of a core that a lane issued and whose end it has not been told (R312). -/
def State.copiesOf (s : State) (r : LaneRef) : List Copy :=
  let core := ((s.stook? r.stook).getD default).core
  (s.core core).copies.filter fun c => c.stook == r.stook && c.sheaf == r.sheaf && c.undelivered.getLsbD r.lane

/-- Failures of copies delivered to lanes of a sheaf at words of `n` words, an event for each word, path and copy
(R311, R367). -/
def State.failCopies (s : State) (u i n : Nat) (fs : List (Nat × Copy)) : State :=
  let h := s.sheafAt u i
  let key (f : Nat × Copy) : Word × Nat × Nat := ((h.lane f.1).pc, (h.lane f.1).tag, f.2.id)
  ((fs.map key).eraseDups).foldl (fun s q =>
    let mine := fs.filter fun f => key f == q
    match mine with
    | [] => s
    | (_, c) :: _ => s.takeTrap { stook := u, sheaf := i, lanes := maskOf (mine.map Prod.fst) } n .copyFault
        { detail := BitVec.ofNat 32 ((c.fcause.map Cause.code).getD 0), cursor := c.cursor, word := some c.pc, lanes := some c.lanes }) s

/-- The first failed copy of a lane that it has not been told of. -/
def State.failedCopy (s : State) (r : LaneRef) : Option Copy := (s.copiesOf r).find? fun c => c.state = 5

/-- Copies of a lane's sheaf are told to lanes of it. -/
def State.tellAll (s : State) (r : LaneRef) (m : LaneMask) : State :=
  s.modCore ((s.stook? r.stook).getD default).core fun c => { c with copies := c.copies.map fun x =>
    if x.stook == r.stook && x.sheaf == r.sheaf then { x with undelivered := x.undelivered &&& ~~~m } else x }

/-- Whether a lane's EXIT has nothing left to wait for (R119): no pending register, no replayed access, no copy in
flight. -/
def State.exitReady (s : State) (r : LaneRef) : Bool :=
  let x := s.laneAt r
  let core := ((s.stook? r.stook).getD default).core
  x.exitIssued && !x.exited && x.stop.isNone && x.pending.isEmpty
    && !((s.core core).replay.any fun e => e.req.stook == r.stook && e.req.sheaf == r.sheaf && e.req.lane == r.lane)
    && (s.copiesOf r).all fun c => c.state = 4 || c.state = 5

def Stook.allExited (k : Stook) : Bool := k.sheaves.all fun h => h.lanes.all fun x => x.exited

/-- Two copies of one context overlap where at least one writes (R150). -/
def Copy.conflicts (a b : Copy) : Bool :=
  a.ctx == b.ctx && a.ranges.any fun x => b.ranges.any fun y =>
    (x.2.2.2 || y.2.2.2) && x.1 == y.1 && x.2.1 < y.2.2.1 && y.2.1 < x.2.2.1

/-- Another copy of the core holds a lock that a copy must wait for: one that is under way, or an earlier one (R150). -/
def Core.lockedOut (c : Core) (x : Copy) : Bool :=
  c.copies.any fun y => y.id != x.id && (y.id < x.id || 2 ≤ y.state) && y.state ≤ 3 && y.conflicts x

/-- Copies that waited for locks and wait for none now run. -/
def Core.wake (c : Core) : Core :=
  { c with copies := c.copies.map fun x => if x.state = 1 && !c.lockedOut x then { x with state := 2 } else x }

/-- A stook leaves its core: its places, registers, scratchpad, records, buffers and barriers are freed, while the stores its
sheaves accepted stay, those still queued in their queues' order (R119, R120); those of a secondary twin or a second run are dropped (R384, R385). -/
def State.removeStook (s : State) (k : Stook) : State :=
  let held := if k.secondary then [] else k.heldStores
  let left := if k.secondary then [] else (k.sheaves.flatMap fun h => h.queue).filter fun q => !q.spad
  let s := s.modCore k.core fun c => Core.wake { c with
    stores := c.stores ++ held
    left := c.left ++ left
    bsc := c.bsc.filter fun e => e.place != k.place
    copies := c.copies.filter fun x => x.stook != k.uid }
  State.unspill { s with stooks := s.stooks.filter fun x => x.uid != k.uid } k.ctx
    ((k.sheaves.map fun h => h.spilled.length).foldl (fun a b => a + b) 0)

/-- A stook whose last lane has exited is gone. Its launch ends with its last stook. Twins go together, once their
watermarks agree (R384). A second run leaves its digest (R385). -/
def State.retireStook (s : State) (u : Nat) : State :=
  match s.stook? u with
  | none => s
  | some k =>
    let count (s : State) (p : Stook) : State := s.modLaunch p.ctx p.launch fun l =>
      { l with gone := l.gone + 1, digests := l.digests ++ [(p.stookId, p.digest, p.stores, p.core)] }
    if !k.allExited then s
    else
      match k.twin.bind s.stook? with
      | none => if k.rerun.isSome then (s.removeStook k).noteVerdict k (.ran k.digest k.stores) else count (s.removeStook k) k
      | some t =>
        let p := if k.secondary then t else k
        if !t.allExited then s
        else if (k.sheaves ++ t.sheaves).any fun h => h.queue.any fun q => !q.spad then s
        else if k.window == t.window && k.windowStores == t.windowStores then count ((s.removeStook k).removeStook t) p
        else s.containError { (default : FaultRec) with
          cause := .watermark, ctx := k.ctx, launch := k.launch, stookId := k.stookId, core := p.core, kind := .none }

/-- EXIT_COMPLETE (R119): the lane is gone; a copy of it that failed and was not delivered stops it at its EXIT with
COPY_FAULT instead, and with it the lanes of its path that the same event concerns (R311). -/
def completeExit (r : LaneRef) (s : State) : State :=
  if !s.exitReady r then s
  else
    match s.failedCopy r with
    | some c =>
      let h := s.sheafAt r.stook r.sheaf
      let at? (l : Nat) : LaneRef := { r with lane := l }
      let m := maskOf ((List.range h.lanes.length).filter fun l => s.exitReady (at? l) && (h.lane l).pc == (h.lane r.lane).pc
        && (h.lane l).tag == (h.lane r.lane).tag && ((s.failedCopy (at? l)).map Copy.id) == some c.id)
      (s.tellAll r m).failCopies r.stook r.sheaf 1 ((lanesOf m).map fun l => (l, c))
    | none =>
      (((s.tellAll r (maskOf [r.lane])).modLane r fun x => { x with exited := true }).dropFreed r.stook r.sheaf).retireStook r.stook

/-- EXIT_COMPLETE (R119) -/
def execExitComplete (l : LaneRef) (s : State) : Host.Outcome State Fault Refusal := event s (completeExit l)

/-! ### YIELD, NOP, unassigned slots -/

/-- YIELD (R186): a group switch (R25) that asks the port to prefer another sheaf. -/
def execYield (w : AWord) (s : State) := sheafWord (.yield w) s fun _ h => { h with yielded := true }
/-- NOP (R186) -/
def execNop (w : AWord) (s : State) := sheafWord (.nop w) s fun _ h => h

/-- UNASSIGNED_SLOT_ISSUE (R45): the path traps ILLEGAL_OPCODE, the first check of R31. -/
def execUnassignedSlotIssue (w : UWord) (s : State) := issueWord (.unassignedSlotIssue w) s fun _ s => s

end Sys2Proof.Machine
end

