-- ==== Sys2Proof/Machine/Elem.lean ====
section
/-! DEFINITION. The functions of FFN (07 R162 to R165, R170; 10 R232 to R234). A function is enclosed between two
integer multiples of a power of two, at a working precision that grows by 128 bits until the enclosure lies strictly
between two neighbouring points of a grid finer than the format: every point of it then rounds alike (R162). The exact
cases of R170 and the poles of R234 come first. -/

namespace Sys2Proof.Machine

open Sys2Proof

/-- An enclosure: a number between `lo` and `hi`, both counted in units the context fixes. -/
structure Ivl where
  lo : Int
  hi : Int
  deriving DecidableEq, Repr

namespace IvlOps

/-- Floor and ceiling of a quotient by a power of two. -/
def flr (x : Int) (n : Nat) : Int := x / (2 ^ n : Nat)
def cei (x : Int) (n : Nat) : Int := -((-x) / (2 ^ n : Nat))
/-- Ceiling of a quotient by a positive number. -/
def ceilDiv (x n : Int) : Int := -((-x) / n)

/-- `±m·2^e` in units of `2^-P`. -/
def ofDy (P : Nat) (neg : Bool) (m : Nat) (e : Int) : Ivl :=
  let x : Int := if neg then -(m : Int) else m
  let t := e + P
  if 0 ≤ t then ⟨x * (2 ^ t.toNat : Nat), x * (2 ^ t.toNat : Nat)⟩ else ⟨flr x (-t).toNat, cei x (-t).toNat⟩

def one (P : Nat) : Ivl := ⟨(2 ^ P : Nat), (2 ^ P : Nat)⟩
def add (a b : Ivl) : Ivl := ⟨a.lo + b.lo, a.hi + b.hi⟩
def neg (a : Ivl) : Ivl := ⟨-a.hi, -a.lo⟩
def sub (a b : Ivl) : Ivl := add a (neg b)
def scale (a : Ivl) (n : Nat) : Ivl := ⟨a.lo * n, a.hi * n⟩
def mulInt (a : Ivl) (n : Int) : Ivl := if 0 ≤ n then ⟨a.lo * n, a.hi * n⟩ else ⟨a.hi * n, a.lo * n⟩
def widen (a : Ivl) (n : Int) : Ivl := ⟨a.lo - n, a.hi + n⟩
def divNat (a : Ivl) (n : Nat) : Ivl := ⟨a.lo / (n : Int), ceilDiv a.hi n⟩

def mul (P : Nat) (a b : Ivl) : Ivl :=
  let p := a.lo * b.lo
  let q := a.lo * b.hi
  let r := a.hi * b.lo
  let t := a.hi * b.hi
  ⟨flr (min (min p q) (min r t)) P, cei (max (max p q) (max r t)) P⟩

/-- A quotient by an enclosure of a positive number. -/
def div (P : Nat) (a b : Ivl) : Ivl :=
  let s : Int := (2 ^ P : Nat)
  ⟨a.lo * s / (if 0 ≤ a.lo then b.hi else b.lo), ceilDiv (a.hi * s) (if 0 ≤ a.hi then b.lo else b.hi)⟩

/-- A square root of an enclosure of a number that is not negative. -/
def sqrt (P : Nat) (a : Ivl) : Ivl :=
  ⟨natSqrt (a.lo.toNat * 2 ^ P), natSqrt (a.hi.toNat * 2 ^ P) + 1⟩

/-- Σ over k below `n` of `1 / ((2k+1)·q^(2k+1))`, alternating in sign when `alt`: artanh(1/q) or arctan(1/q) in units of
`2^-P`, by partial quotients; the tail and the truncations are below `n + 2` units. -/
def recipSeries (alt : Bool) (q : Nat) : Nat → Nat → Nat → Int
  | 0, _, _ => 0
  | n + 1, k, t =>
    let term : Int := t / (2 * k + 1)
    (if alt && k % 2 = 1 then -term else term) + recipSeries alt q n (k + 1) (t / (q * q))

def recip (alt : Bool) (P q : Nat) : Ivl :=
  let n := P / (2 * Nat.log2 q) + 2
  widen ⟨recipSeries alt q n 0 (2 ^ P / q), recipSeries alt q n 0 (2 ^ P / q)⟩ (2 * n + 2)

/-- ln 2 = 18 artanh(1/26) − 2 artanh(1/4801) + 8 artanh(1/8749). -/
def ln2 (P : Nat) : Ivl :=
  add (sub (scale (recip false P 26) 18) (scale (recip false P 4801) 2)) (scale (recip false P 8749) 8)

/-- π = 16 arctan(1/5) − 4 arctan(1/239). -/
def pi (P : Nat) : Ivl := sub (scale (recip true P 5) 16) (scale (recip true P 239) 4)

/-- Horner's scheme: `1 + t·c₁·(1 + t·c₂·(1 + …))` where factor k divides by `d k`. -/
def horner (P : Nat) (t : Ivl) (d : Nat → Nat) : Nat → Ivl
  | n => go n n
where
  go (n : Nat) : Nat → Ivl
    | 0 => one P
    | j + 1 => add (one P) (divNat (mul P t (go n j)) (d (n - j)))

/-- e^t for |t| ≤ 1/2. -/
def expSmall (P : Nat) (t : Ivl) : Ivl := widen (horner P t (fun k => k) (P / 4 + 16)) 2
/-- (e^t − 1)/t for |t| ≤ 1/2. -/
def expm1Small (P : Nat) (t : Ivl) : Ivl := widen (horner P t (fun k => k + 1) (P / 4 + 16)) 2
/-- sin(r)/r from u = r², |u| ≤ 1. -/
def sinSeries (P : Nat) (u : Ivl) : Ivl := widen (horner P (neg u) (fun k => 2 * k * (2 * k + 1)) (P / 8 + 16)) 2
/-- cos(r) from u = r², |u| ≤ 1. -/
def cosSeries (P : Nat) (u : Ivl) : Ivl := widen (horner P (neg u) (fun k => (2 * k - 1) * (2 * k)) (P / 8 + 16)) 2

/-- Σ u^k/(2k+1), for |u| ≤ 1/32: artanh(z)/z at u = z², arctan(z)/z at u = −z². -/
def oddSeries (P : Nat) (u : Ivl) : Nat → Nat → Ivl
  | 0, _ => ⟨0, 0⟩
  | n + 1, k => add (divNat (one P) (2 * k + 1)) (mul P u (oddSeries P u n (k + 1)))

def arSeries (P : Nat) (u : Ivl) : Ivl := widen (oddSeries P u (P / 5 + 4) 0) 2

/-- e^x for an enclosure of x with |x| below 2^14: a mantissa enclosure in units of `2^-P` and its power of two. -/
def expWide (P : Nat) (x : Ivl) : Ivl × Int :=
  let L := ln2 P
  let k := (2 * x.lo + L.lo) / (2 * L.lo)
  (expSmall P (sub x (mulInt L k)), k)

/-- ln of a dyadic `m·2^e`: with y = m·2^(−t) between √½ and √2. -/
def lnDy (P : Nat) (m : Nat) (e : Int) : Ivl :=
  let n := Nat.log2 m
  -- m² against 2^(2n+1): whether m·2^(−n) is above √2
  let up := 2 ^ (2 * n + 1) < m * m
  let t := if up then n + 1 else n
  -- (y − 1)/(y + 1), exact as a quotient
  let num : Int := (m : Int) - (2 ^ t : Nat)
  let den : Int := (m : Int) + (2 ^ t : Nat)
  let s : Int := (2 ^ P : Nat)
  let z : Ivl := ⟨num * s / den, ceilDiv (num * s) den⟩
  let w := mul P z (arSeries P (mul P z z))
  add (scale w 2) (mulInt (ln2 P) (e + t))

end IvlOps

open IvlOps

/-- What a function evaluates to at a precision: sign, enclosure of the magnitude, exponent of its unit. -/
structure Encl where
  neg : Bool
  mag : Ivl
  e : Int
  deriving DecidableEq, Repr

/-- An enclosure with its sign taken out; an enclosure that holds zero decides nothing and is kept as it is. -/
def Encl.ofIvl (a : Ivl) (e : Int) : Encl := if a.hi ≤ 0 then ⟨true, IvlOps.neg a, e⟩ else ⟨false, a, e⟩

/-- `±m·2^e` times an enclosure in units of `2^-P`. -/
def Encl.times (neg : Bool) (m : Nat) (e : Int) (P : Nat) (g : Ivl) : Encl := ⟨neg, scale g m, e - P⟩

/-- sin and cos of `x = ±m·2^e`, reduced by a multiple of π/2 taken with as many bits as the argument needs. -/
def trig (cosine : Bool) (P : Nat) (neg : Bool) (m : Nat) (e : Int) : Encl :=
  let extra := (e + Nat.log2 m).toNat + 4
  let Q := P + extra
  let half := divNat (pi Q) 2
  let x := ofDy Q false m e
  let k := (2 * x.lo + half.lo) / (2 * half.lo)
  let r := sub x (mulInt half k)
  let r : Ivl := ⟨flr r.lo extra, cei r.hi extra⟩
  let u := mul P r r
  let q := (k + if cosine then 1 else 0) % 4
  let v := if q % 2 = 0 then mul P r (sinSeries P u) else cosSeries P u
  let v := if q = 2 || q = 3 then IvlOps.neg v else v
  let v := if neg && !cosine then IvlOps.neg v else v
  Encl.ofIvl v (-(P : Int))

/-- sin(πx) and cos(πx): the argument is reduced exactly (R233). -/
def trigPi (cosine : Bool) (P : Nat) (neg : Bool) (m : Nat) (e : Int) : Encl :=
  -- x = m·2^e with e < 0: in units of 2^e, half a turn is 2^(−e)
  let d := (-e).toNat
  let y := m % 2 ^ (d + 1)
  -- y/2^d in [0, 2): quarter q and rest in (−1/4, 1/4]
  let q := (4 * y + 2 ^ d) / (2 * 2 ^ d)
  let r : Int := (2 * (y : Int) - (q : Int) * (2 ^ d : Nat))
  -- r counts halves of 2^(−d): the rest is r·2^(−d−1)
  let p := pi P
  let a := ofDy P (r < 0) r.natAbs (-(d : Int) - 1)
  let t := mul P a p
  let u := mul P t t
  let qq := (q + if cosine then 1 else 0) % 4
  let flip := (qq = 2 || qq = 3) != (neg && !cosine)
  if qq % 2 = 0 then
    Encl.times ((r < 0) != flip) r.natAbs (-(d : Int) - 1) P (mul P p (sinSeries P u))
  else
    let v := cosSeries P u
    ⟨flip, v, -(P : Int)⟩

/-- arctan of `m·2^e`. -/
def atanEncl (P : Nat) (neg : Bool) (m : Nat) (e : Int) : Encl :=
  let top := e + Nat.log2 m
  if top < -3 then
    let x := ofDy P false m e
    Encl.times neg m e P (arSeries P (IvlOps.neg (mul P x x)))
  else
    -- the argument, or its reciprocal when it is 1 or more
    let inv := 0 ≤ top
    let s := (2 ^ P : Nat)
    let x : Ivl :=
      if inv then
        (let t := (P : Int) - e
         if t < 0 then ⟨0, 1⟩
         else (let n : Int := (2 ^ t.toNat : Nat); ⟨n / (m : Int), ceilDiv n m⟩))
      else ofDy P false m e
    let hv (x : Ivl) : Ivl := IvlOps.div P x (add ⟨s, s⟩ (IvlOps.sqrt P (add ⟨s, s⟩ (mul P x x))))
    let y := hv (hv (hv x))
    let a := scale (mul P y (arSeries P (IvlOps.neg (mul P y y)))) 8
    ⟨neg, if inv then sub (divNat (pi P) 2) a else a, -(P : Int)⟩

/-- Partial sums of erf's series Σ 2^n x^(2n)/(1·3·…·(2n+1)), from term `n` on: all terms are positive. -/
def erfSeries (P : Nat) (u2 : Ivl) : Nat → Nat → Ivl → Ivl
  | 0, _, t => ⟨t.lo, t.hi⟩
  | f + 1, n, t => add t (erfSeries P u2 f (n + 1) (divNat (mul P u2 t) (2 * n + 3)))

/-- erf of `m·2^e`: the series up to 8, and beyond it the bound erfc(8) < 2^−96. -/
def erfEncl (P : Nat) (neg : Bool) (m : Nat) (e : Int) : Encl :=
  if 3 ≤ e + Nat.log2 m then ⟨neg, ⟨(2 ^ P : Nat) - (2 ^ (P - 96) : Nat), (2 ^ P : Nat)⟩, -(P : Int)⟩
  else
    let x := ofDy P false m e
    let u := mul P x x
    let S := erfSeries P (scale u 2) (P + 400) 0 (one P)
    let S := widen S 2
    let (E, k) := expWide P (IvlOps.neg u)
    let c := IvlOps.div P (scale (mul P E S) 2) (IvlOps.sqrt P (pi P))
    ⟨neg, scale c m, e - P + k⟩

/-- Enclosure of the function of a selector at `±m·2^e`, outside the exact cases (R232). RCP, RSQRT and CBRT are decided
by exact integer arithmetic instead. -/
def ffnEncl (sel : Nat) (P : Nat) (neg : Bool) (m : Nat) (e : Int) : Encl :=
  let top := e + Nat.log2 m
  let huge : Encl := ⟨false, ⟨(2 ^ P : Nat), (2 ^ P : Nat) + 1⟩, 100000⟩
  let tiny : Encl := ⟨false, ⟨(2 ^ P : Nat), (2 ^ P : Nat) + 1⟩, -100000 - P⟩
  let pow (x : Ivl) : Encl := let (E, k) := expWide P x; ⟨false, E, k - P⟩
  if sel = 2 then (if 14 ≤ top then (if neg then tiny else huge) else pow (ofDy P neg m e))
  else if sel = 3 then
    (if 14 ≤ top then (if neg then tiny else huge)
     else
       let x := ofDy P neg m e
       let k := flr x.lo P
       let f := sub x ⟨k * (2 ^ P : Nat), k * (2 ^ P : Nat)⟩
       -- the fraction lies in [0, 1): its half keeps the series' bound
       let h := expSmall P (divNat (mul P f (ln2 P)) 2)
       ⟨false, mul P h h, k - P⟩)
  else if sel = 4 then
    (if top < -1 then Encl.times neg m e P (expm1Small P (ofDy P neg m e))
     else if 14 ≤ top then (if neg then ⟨true, ⟨(2 ^ P : Nat) - 1, (2 ^ P : Nat)⟩, -(P : Int)⟩ else huge)
     else
       let (E, k) := expWide P (ofDy P neg m e)
       if 0 ≤ k then Encl.ofIvl (sub E (ofDy P false 1 (-k))) (k - P)
       else Encl.ofIvl (sub ⟨flr E.lo (-k).toNat, cei E.hi (-k).toNat⟩ (one P)) (-(P : Int)))
  else if sel = 5 then Encl.ofIvl (lnDy P m e) (-(P : Int))
  else if sel = 6 then Encl.ofIvl (IvlOps.div P (lnDy P m e) (ln2 P)) (-(P : Int))
  else if sel = 7 then
    (if top < -2 then
       let x := ofDy P neg m e
       let q := add (scale (one P) 2) x
       let z := IvlOps.div P x q
       Encl.times neg m e P (mul P (IvlOps.div P (scale (one P) 2) q) (arSeries P (mul P z z)))
     else
       let d := min e 0
       let y : Int := (2 ^ (-d).toNat : Nat) + (if neg then -1 else 1) * ((m : Int) * (2 ^ (e - d).toNat : Nat))
       Encl.ofIvl (lnDy P y.toNat d) (-(P : Int)))
  else if sel = 8 then
    (if top < -1 then
       let x := ofDy P false m e
       Encl.times neg m e P (sinSeries P (mul P x x))
     else trig false P neg m e)
  else if sel = 9 then trig true P neg m e
  else if sel = 10 then trigPi false P neg m e
  else if sel = 11 then trigPi true P neg m e
  else if sel = 12 then
    (if top < -2 then
       let x := ofDy P false m e
       let G := expm1Small P (scale x 2)
       let d := add (one P) (mul P x G)
       Encl.times neg m e P (IvlOps.div P G d)
     else if 12 ≤ top then ⟨neg, ⟨(2 ^ P : Nat) - 1, (2 ^ P : Nat)⟩, -(P : Int)⟩
     else
       let (E, k) := expWide P (ofDy P false m (e + 1))
       -- 1 − 2/(e^2x + 1), with e^2x = E·2^k, k not negative
       let D := add E (ofDy P false 1 (-k))
       let q := IvlOps.div P (scale (one P) 2) D
       ⟨neg, sub (one P) ⟨flr q.lo k.toNat, cei q.hi k.toNat⟩, -(P : Int)⟩)
  else if sel = 13 then atanEncl P neg m e
  else erfEncl P neg m e

/-- Round when the enclosure lies strictly between two neighbours of a grid finer than the format by six bits. The value
is never on that grid, so an upper end that stands on it is not reached (R170). -/
def Encl.decide? (F : FFmt) (rm : Nat) (x : Encl) : Option (Nat × FlagSet) :=
  let lo := x.mag.lo.toNat
  let hi := (x.mag.hi - 1).toNat
  let n := Nat.log2 lo
  if x.mag.lo ≤ 0 || n < F.mb + 8 then none
  else
    let g := n - (F.mb + 6)
    if lo >>> g = hi >>> g then some (F.round rm x.neg (lo >>> g) (x.e + g) true) else none

/-- Refinement in steps of 128 bits (R165). -/
def ffnRefine (F : FFmt) (rm sel : Nat) (neg : Bool) (m : Nat) (e : Int) : Nat → Nat → Nat × FlagSet
  | 0, P => F.round rm (ffnEncl sel P neg m e).neg (ffnEncl sel P neg m e).mag.lo.toNat (ffnEncl sel P neg m e).e true
  | f + 1, P =>
    match (ffnEncl sel P neg m e).decide? F rm with
    | some r => r
    | none => ffnRefine F rm sel neg m e f (P + 128)

/-- The integer cube root by bits. -/
def cbrtBits (n : Nat) : Nat → Nat → Nat
  | 0, r => r
  | i + 1, r => let r' := r + 2 ^ i; cbrtBits n i (if r' * r' * r' ≤ n then r' else r)

/-- round of the real cube root of `m·2^e`. -/
def FFmt.roundCbrt (F : FFmt) (rm : Nat) (neg : Bool) (m : Nat) (e : Int) : Nat × FlagSet :=
  let sh := 3 * (F.mb + 3)
  let sh := sh + ((e - sh) % 3).toNat
  let x := m <<< sh
  let r := cbrtBits x (Nat.log2 x / 3 + 1) 0
  F.round rm neg r ((e - sh) / 3) (r * r * r != x)

/-- round of 1/√(m·2^e). -/
def FFmt.roundRsqrt (F : FFmt) (rm : Nat) (m : Nat) (e : Int) : Nat × FlagSet :=
  let t := 2 * (F.mb + 4) + Nat.log2 m
  let t := t + ((t + e) % 2).toNat
  let n := 2 ^ t / m
  let r := natSqrt n
  F.round rm false r (-((t + e) / 2)) (r * r * m != 2 ^ t)

/-- An integer value of `m·2^e`, when it has one. -/
def dyInt? (m : Nat) (e : Int) : Option Nat :=
  if 0 ≤ e then some (m <<< e.toNat) else if m % 2 ^ (-e).toNat = 0 then some (m >>> (-e).toNat) else none

/-- log2 of `m·2^e` when it is a power of two. -/
def dyPow? (m : Nat) (e : Int) : Option Int := if 2 ^ Nat.log2 m = m then some (e + Nat.log2 m) else none

/-- round(fmt, rm, ±π/2) (R234). -/
def roundHalfPi (F : FFmt) (rm : Nat) (neg : Bool) : Nat × FlagSet :=
  ((⟨neg, divNat (pi 192) 2, -192⟩ : Encl).decide? F rm).getD (F.canon, flInvalid)

/-- The parity of ⌊m·2^e⌋ and the fraction in halves, for SINPI and COSPI: `some (n mod 2, true)` for n + 1/2, `some (n
mod 2, false)` for an integer n. -/
def halfInt? (m : Nat) (e : Int) : Option (Nat × Bool) :=
  match dyInt? m e with
  | some n => some (n % 2, false)
  | none => match dyInt? m (e + 1) with
    | some n => some (n / 2 % 2, true)
    | none => none

/-- FFN of one element (R232 to R234, R170): its bits and flags. -/
def ffnElem (F : FFmt) (sel rm : Nat) (a : Nat) : Nat × FlagSet :=
  let z (neg : Bool) : Nat × FlagSet := (F.zeroBits neg, 0)
  let inf (neg : Bool) : Nat × FlagSet := (F.infBits neg, 0)
  let num (neg : Bool) (m : Nat) (e : Int) : Nat × FlagSet := F.round rm neg m e
  let bad : Nat × FlagSet := (F.canon, flInvalid)
  let pole (neg : Bool) : Nat × FlagSet := (F.infBits neg, flDivZero)
  match F.unpack a with
  | .nan s => (F.canon, flIf s flInvalid)
  | .inf s =>
    if sel = 0 then z s
    else if sel = 1 then (if s then bad else z false)
    else if sel = 2 || sel = 3 then (if s then z false else inf false)
    else if sel = 4 then (if s then num true 1 0 else inf false)
    else if sel ≤ 7 then (if s then bad else inf false)
    else if sel ≤ 11 then bad
    else if sel = 12 || sel = 14 then num s 1 0
    else if sel = 13 then roundHalfPi F rm s
    else inf s
  | .zero s =>
    if sel = 0 || sel = 1 then pole s
    else if sel = 2 || sel = 3 || sel = 9 || sel = 11 then num false 1 0
    else if sel = 5 || sel = 6 then pole true
    else if sel = 10 then z false
    else z s
  | .fin s m e =>
    let refine := ffnRefine F rm sel s m e 20 192
    -- every format overflows, or underflows, long before this
    let cap (n : Nat) : Int := (min n 100000 : Nat)
    if sel = 0 then F.roundRatio rm s 1 m (-e)
    else if sel = 1 then (if s then bad else F.roundRsqrt rm m e)
    else if sel = 3 then
      match dyInt? m e with
      | some n => num false 1 (if s then -cap n else cap n)
      | none => refine
    else if sel = 5 then (if s then bad else if dyInt? m e == some 1 then z false else refine)
    else if sel = 6 then
      (if s then bad
       else match dyPow? m e with
         | some k => F.roundInt rm k 0 false
         | none => refine)
    else if sel = 7 then
      (if s && dyInt? m e == some 1 then pole true else if s && 0 ≤ e + Nat.log2 m then bad else refine)
    else if sel = 10 then
      match halfInt? m e with
      | some (_, false) => z s
      | some (p, true) => num ((p = 1) != s) 1 0
      | none => refine
    else if sel = 11 then
      match halfInt? m e with
      | some (p, false) => num (p = 1) 1 0
      | some (_, true) => z false
      | none => refine
    else if sel = 15 then F.roundCbrt rm s m e
    else refine

end Sys2Proof.Machine
end

