-- ==== Sys2Proof/Machine/Integer.lean ====
section
/-! DEFINITION. The integer instructions of VALU (09 R207 to R220), over one shared form: read each lane's sources,
compute, write the register unless N = 1, raise the flags, leave the latch. -/

namespace Sys2Proof.Machine

open Sys2Proof

/-- What a VALU operation computes from the rounding mode and its three sources: a value and flags. -/
abbrev AluFn := Nat → DWord → DWord → DWord → DWord × FlagSet

/-- The result of one lane of a VALU A word. -/
def valuLane (op : Nat) (w : AWord) (f : AluFn) (h : Sheaf) (l : Nat) : DWord × FlagSet :=
  let F := aForm op
  let (wa, wb, wc, _) := valuWide op (w.fmt F) (w.opt F)
  let sr := w.sregN F
  f (h.mode (w.rm F)) (h.srcW wa sr w.a l) (h.srcW wb sr w.b l) (h.srcW wc sr (w.c F) l)

/-- The flags of the lanes of a mask together (R160, R212). -/
def flagsOf (m : LaneMask) (f : Nat → FlagSet) : FlagSet := (lanesOf m).foldl (fun a l => a ||| f l) 0

/-- Whether D of a VALU word is a pair. -/
def valuWideD (op : Nat) (w : AWord) : Bool := (valuWide op (w.fmt (aForm op)) (w.opt (aForm op))).2.2.2

/-- A VALU A word on the sheaf: in the vector domain for each executing lane (R23, R24), in the scalar domain once
(R21). -/
def valuEff (op : Nat) (w : AWord) (f : AluFn) (E : LaneMask) (h : Sheaf) : Sheaf :=
  let F := aForm op
  let wd := valuWideD op w
  if w.scal F then
    let (wa, wb, _, _) := valuWide op (w.fmt F) (w.opt F)
    let r := f (h.mode (w.rm F)) (h.ssrcW wa w.a) (h.ssrcW wb w.b) 0
    ((h.wsW wd w.d.toNat r.1).nextLanes E (sizeA w) fun _ => none).count
  else
    let g := valuLane op w f h
    let h1 := if w.n then h else h.writeLanes E wd w.d.toNat fun l => (g l).1
    ((h1.raise (flagsOf E fun l => (g l).2)).nextLanes E (sizeA w)
      fun l => if wd then none else some (loW (g l).1)).count

/-- A VALU A word issued. -/
def valuWord (op : Nat) (i : Instr) (w : AWord) (f : AluFn) (s : State) : Host.Outcome State Fault Refusal :=
  issueWord i s fun p s => s.modSheaf p.stook p.sheaf (valuEff op w f p.lanes)

/-- A 32-bit operation that raises no flag. -/
def alu32 (f : Word → Word → Word → Word) : AluFn := fun _ a b c => ((f (loW a) (loW b) (loW c)).setWidth 64, 0)

/-- A compare's outcome written into a mask (R219, R224): the bits of the executing lanes follow the relation. -/
def compareMask (E : LaneMask) (d : Nat) (rel : Nat → Bool) (h : Sheaf) : Sheaf :=
  h.wm d ((h.rm d &&& ~~~E) ||| maskFilter E rel)

/-- A compare with TOMASK = 1: no register, no latch. -/
def maskEff (op : Nat) (w : AWord) (f : AluFn) (E : LaneMask) (h : Sheaf) : Sheaf :=
  let g := valuLane op w f h
  (((compareMask E w.d.toNat (fun l => (g l).1 != 0) h).raise (flagsOf E fun l => (g l).2)).nextLanes E (sizeA w)
    fun _ => none).count

/-- A compare word issued: into a mask or into a register. -/
def compareWord (op : Nat) (i : Instr) (w : AWord) (f : AluFn) (s : State) : Host.Outcome State Fault Refusal :=
  issueWord i s fun p s => s.modSheaf p.stook p.sheaf
    (if w.toMask (aForm op) then maskEff op w f p.lanes else valuEff op w f p.lanes)

/-! ### The operations (R214 to R218) -/

/-- The signed or unsigned reading of a register: I32 and I64 are signed (R63). -/
def asInt (signed : Bool) (x : Word) : Int := if signed then x.toInt else (x.toNat : Int)

def opImulh (signed : Bool) (a b : Word) : Word := BitVec.ofInt 32 ((asInt signed a * asInt signed b) / 2 ^ 32)
def opImin (signed : Bool) (a b : Word) : Word := if asInt signed a ≤ asInt signed b then a else b
def opImax (signed : Bool) (a b : Word) : Word := if asInt signed a ≥ asInt signed b then a else b
def opIabs (a : Word) : Word := if a.msb then -a else a
def opShl (a : Word) (n : Nat) : Word := if n < 32 then a <<< n else 0
def opShr (a : Word) (n : Nat) : Word := if n < 32 then a >>> n else 0
def opSar (a : Word) (n : Nat) : Word := if n < 32 then a.sshiftRight n else if a.msb then BitVec.allOnes 32 else 0
def opRotl (a : Word) (n : Nat) : Word := a.rotateLeft (n % 32)

/-- The bit position, the width and the mask of a field operand (R217). -/
def fieldPos (b : Word) : Nat := (b.extractLsb' 0 5).toNat
def fieldWidth (b : Word) : Nat := min (b.extractLsb' 8 6).toNat (32 - fieldPos b)
def fieldMask (b : Word) : Word := BitVec.ofNat 32 (2 ^ fieldWidth b - 1)

def opBfx (signed : Bool) (a b : Word) : Word :=
  let f := (a >>> fieldPos b) &&& fieldMask b
  let w := fieldWidth b
  if signed && 0 < w && f.getLsbD (w - 1) then f ||| ~~~(fieldMask b) else f

def opBfi (a b c : Word) : Word :=
  let m := fieldMask b <<< fieldPos b
  (c &&& ~~~m) ||| ((a &&& fieldMask b) <<< fieldPos b)

def opPopc (a : Word) : Word := BitVec.ofNat 32 ((List.range 32).filter fun k => a.getLsbD k).length
/-- The number of leading positions of a list that satisfy a test. -/
def countWhile (p : Nat → Bool) (l : List Nat) : Nat := (l.takeWhile p).length
def opClz (a : Word) : Word := BitVec.ofNat 32 (countWhile (fun k => !a.getLsbD (31 - k)) (List.range 32))
def opCtz (a : Word) : Word := BitVec.ofNat 32 (countWhile (fun k => !a.getLsbD k) (List.range 32))
def opBrev (a : Word) : Word := a.reverse

/-- An ISET's outcome in a register (R219). -/
def opIset (cmp : Nat) (signed : Bool) (a b : Word) : Word :=
  if iCompare cmp (asInt signed a) (asInt signed b) then BitVec.allOnes 32 else 0

def signedFmt (op : Nat) (w : AWord) : Bool := fmtSigned (w.fmt (aForm op))

/-! ### The meanings -/

/-- IADD (R214) -/
def execIadd (w : AWord) := valuWord 0x000 (.iadd w) w (alu32 fun a b _ => a + b)
/-- ISUB (R214) -/
def execIsub (w : AWord) := valuWord 0x001 (.isub w) w (alu32 fun a b _ => a - b)
/-- IMUL (R214) -/
def execImul (w : AWord) := valuWord 0x002 (.imul w) w (alu32 fun a b _ => a * b)
/-- IMULH (R214) -/
def execImulh (w : AWord) := valuWord 0x003 (.imulh w) w (alu32 fun a b _ => opImulh (signedFmt 0x003 w) a b)
/-- IMAD (R214) -/
def execImad (w : AWord) := valuWord 0x004 (.imad w) w (alu32 fun a b c => a * b + c)
/-- IMIN (R214) -/
def execImin (w : AWord) := valuWord 0x005 (.imin w) w (alu32 fun a b _ => opImin (signedFmt 0x005 w) a b)
/-- IMAX (R214) -/
def execImax (w : AWord) := valuWord 0x006 (.imax w) w (alu32 fun a b _ => opImax (signedFmt 0x006 w) a b)
/-- IABS (R214) -/
def execIabs (w : AWord) := valuWord 0x007 (.iabs w) w (alu32 fun a _ _ => opIabs a)
/-- AND (R216) -/
def execAnd (w : AWord) := valuWord 0x008 (.and w) w (alu32 fun a b _ => a &&& b)
/-- OR (R216) -/
def execOr (w : AWord) := valuWord 0x009 (.or w) w (alu32 fun a b _ => a ||| b)
/-- XOR (R216) -/
def execXor (w : AWord) := valuWord 0x00a (.xor w) w (alu32 fun a b _ => a ^^^ b)
/-- ANDN (R216) -/
def execAndn (w : AWord) := valuWord 0x00b (.andn w) w (alu32 fun a b _ => a &&& ~~~b)
/-- SHL (R216) -/
def execShl (w : AWord) := valuWord 0x00c (.shl w) w (alu32 fun a b _ => opShl a b.toNat)
/-- SHR (R216) -/
def execShr (w : AWord) := valuWord 0x00d (.shr w) w (alu32 fun a b _ => opShr a b.toNat)
/-- SAR (R216) -/
def execSar (w : AWord) := valuWord 0x00e (.sar w) w (alu32 fun a b _ => opSar a b.toNat)
/-- ROTL (R216) -/
def execRotl (w : AWord) := valuWord 0x00f (.rotl w) w (alu32 fun a b _ => opRotl a b.toNat)
/-- BFX (R217) -/
def execBfx (w : AWord) := valuWord 0x010 (.bfx w) w (alu32 fun a b _ => opBfx (signedFmt 0x010 w) a b)
/-- BFI (R217) -/
def execBfi (w : AWord) := valuWord 0x011 (.bfi w) w (alu32 fun a b c => opBfi a b c)
/-- POPC (R218) -/
def execPopc (w : AWord) := valuWord 0x012 (.popc w) w (alu32 fun a _ _ => opPopc a)
/-- CLZ (R218) -/
def execClz (w : AWord) := valuWord 0x013 (.clz w) w (alu32 fun a _ _ => opClz a)
/-- CTZ (R218) -/
def execCtz (w : AWord) := valuWord 0x014 (.ctz w) w (alu32 fun a _ _ => opCtz a)
/-- BREV (R218) -/
def execBrev (w : AWord) := valuWord 0x015 (.brev w) w (alu32 fun a _ _ => opBrev a)
/-- ISET (R219) -/
def execIset (w : AWord) :=
  compareWord 0x016 (.iset w) w (alu32 fun a b _ => opIset (w.cmp (aForm 0x016)) (signedFmt 0x016 w) a b)
/-- SEL (R220) -/
def execSel (w : AWord) := valuWord 0x017 (.sel w) w (alu32 fun a b c => if c != 0 then a else b)
/-- MOV (R220) -/
def execMov (w : AWord) := valuWord 0x018 (.mov w) w (alu32 fun a _ _ => a)
/-- IADD64 (R215) -/
def execIadd64 (w : AWord) := valuWord 0x01b (.iadd64 w) w fun _ a b _ => (a + b, 0)
/-- IMAD64 (R215): a 32-bit product, signed for I64, plus a 64-bit addend. -/
def execImad64 (w : AWord) := valuWord 0x01c (.imad64 w) w fun _ a b c =>
  let sg := w.fmt (aForm 0x01c) = 6
  (BitVec.ofInt 64 (asInt sg (loW a) * asInt sg (loW b)) + c, 0)

/-! ### Immediate forms (R41, R220) -/

/-- A vector immediate form on the sheaf: one source and IMM8. -/
def immEff (w : IWord) (n : Nat) (f : Word → Word) (E : LaneMask) (h : Sheaf) : Sheaf :=
  let g l := f (h.src 0 w.a l)
  let h1 := if w.n then h else h.writeLanes E false w.d.toNat fun l => (g l).setWidth 64
  (h1.nextLanes E n fun l => some (g l)).count

def immWord (i : Instr) (w : IWord) (f : Word → Word) (s : State) : Host.Outcome State Fault Refusal :=
  issueWord i s fun p s => s.modSheaf p.stook p.sheaf (immEff w i.size f p.lanes)

/-- A scalar immediate form: once for the sheaf. -/
def scalarImmWord (i : Instr) (w : IWord) (f : Word → Word) (s : State) : Host.Outcome State Fault Refusal :=
  sheafWord i s fun _ h => h.ws w.d.toNat (f (h.ssrc w.a))

def imm32 (w : IWord) : Word := w.imm.signExtend 32

/-- IADD (imm) (R41, R214) -/
def execIaddImm (w : IWord) := immWord (.iaddImm w) w fun a => a + imm32 w
/-- SHL (imm) (R216) -/
def execShlImm (w : IWord) := immWord (.shlImm w) w fun a => opShl a w.imm.toNat
/-- SHR (imm) (R216) -/
def execShrImm (w : IWord) := immWord (.shrImm w) w fun a => opShr a w.imm.toNat
/-- SAR (imm) (R216) -/
def execSarImm (w : IWord) := immWord (.sarImm w) w fun a => opSar a w.imm.toNat
/-- ROTL (imm) (R216) -/
def execRotlImm (w : IWord) := immWord (.rotlImm w) w fun a => opRotl a w.imm.toNat
/-- AND (imm) (R41, R216) -/
def execAndImm (w : IWord) := immWord (.andImm w) w fun a => a &&& imm32 w
/-- MOVI (R220) -/
def execMovi (w : IWord) := immWord (.movi w) w fun _ => imm32 w
/-- MOVW (R220) -/
def execMovw (w : IWord) (lit : Word) := immWord (.movw w lit) w fun _ => lit
/-- MOVI (scalar) (R220) -/
def execMoviScalar (w : IWord) := scalarImmWord (.moviScalar w) w fun _ => imm32 w
/-- MOVW (scalar) (R220) -/
def execMovwScalar (w : IWord) (lit : Word) := scalarImmWord (.movwScalar w lit) w fun _ => lit
/-- IADD (scalar imm) (R220) -/
def execIaddScalarImm (w : IWord) := scalarImmWord (.iaddScalarImm w) w fun a => a + imm32 w

end Sys2Proof.Machine
end

