-- ==== Sys2Proof/Machine/FloatOps.lean ====
section
/-! DEFINITION. The floating-point instructions of VALU (09 R221 to R228). A packed format runs one operation on each
half; the flags of both are raised (R66, R212). -/

namespace Sys2Proof.Machine

open Sys2Proof

/-- The low and the high 16-bit element of a packed register (R66). -/
def half0 (x : DWord) : Nat := x.toNat % 65536
def half1 (x : DWord) : Nat := x.toNat / 65536 % 65536

/-- A single-element or packed operation of a format code (R66): `f` gives one element's bits and flags. -/
def perElem (fmt : Nat) (f : FFmt → Nat → Nat → Nat → Nat × FlagSet) (a b c : DWord) : DWord × FlagSet :=
  let F := floatOf fmt
  if fmtIsPacked fmt then
    let r0 := f F (half0 a) (half0 b) (half0 c)
    let r1 := f F (half1 a) (half1 b) (half1 c)
    (BitVec.ofNat 64 (r0.1 + 65536 * r1.1), r0.2 ||| r1.2)
  else
    let r := f F (a.toNat % 2 ^ F.bits) (b.toNat % 2 ^ F.bits) (c.toNat % 2 ^ F.bits)
    (BitVec.ofNat 64 r.1, r.2)

/-- A floating operation of an instruction in its format. -/
def fltFn (op : Nat) (w : AWord) (f : FFmt → Nat → Nat → Nat → Nat → Nat × FlagSet) : AluFn := fun rm a b c =>
  perElem (w.fmt (aForm op)) (fun F x y z => f F rm x y z) a b c

/-- FADD (R221) -/
def execFadd (w : AWord) := valuWord 0x020 (.fadd w) w (fltFn 0x020 w fun F rm a b _ => fAdd F rm a b)
/-- FSUB (R221) -/
def execFsub (w : AWord) := valuWord 0x021 (.fsub w) w (fltFn 0x021 w fun F rm a b _ => fSub F rm a b)
/-- FMUL (R221) -/
def execFmul (w : AWord) := valuWord 0x022 (.fmul w) w (fltFn 0x022 w fun F rm a b _ => fMul F rm a b)
/-- FFMA (R221) -/
def execFfma (w : AWord) := valuWord 0x023 (.ffma w) w (fltFn 0x023 w fun F rm a b c => fFma F rm a b c)
/-- FMIN (R223) -/
def execFmin (w : AWord) := valuWord 0x024 (.fmin w) w (fltFn 0x024 w fun F _ a b _ => fMinMax F false a b)
/-- FMAX (R223) -/
def execFmax (w : AWord) := valuWord 0x025 (.fmax w) w (fltFn 0x025 w fun F _ a b _ => fMinMax F true a b)
/-- FABS (R223) -/
def execFabs (w : AWord) := valuWord 0x026 (.fabs w) w (fltFn 0x026 w fun F _ a _ _ => fAbs F a)
/-- FNEG (R223) -/
def execFneg (w : AWord) := valuWord 0x027 (.fneg w) w (fltFn 0x027 w fun F _ a _ _ => fNeg F a)

/-- FSET's outcome: all ones or zero, per half in a packed format (R224). -/
def fsetFn (w : AWord) : AluFn := fun _ a b _ =>
  let fmt := w.fmt (aForm 0x028)
  let cmp := w.cmp (aForm 0x028)
  let F := floatOf fmt
  if fmtIsPacked fmt then
    let r0 := fCompare F cmp (half0 a) (half0 b)
    let r1 := fCompare F cmp (half1 a) (half1 b)
    (BitVec.ofNat 64 ((if r0.1 then 65535 else 0) + 65536 * (if r1.1 then 65535 else 0)), r0.2 ||| r1.2)
  else
    let r := fCompare F cmp (a.toNat % 2 ^ F.bits) (b.toNat % 2 ^ F.bits)
    (if r.1 then 0xFFFFFFFF#64 else 0, r.2)

/-- FSET (R224) -/
def execFset (w : AWord) := compareWord 0x028 (.fset w) w (fsetFn w)
/-- FCLASS (R225) -/
def execFclass (w : AWord) := valuWord 0x029 (.fclass w) w (fltFn 0x029 w fun F _ a _ _ => (fClass F a, 0))

/-- FCVT (R226): one element, or two F32 sources into a packed destination. -/
def fcvtFn (w : AWord) : AluFn := fun rm a b _ =>
  let dst := w.fmt (aForm 0x02a)
  let src := w.opt (aForm 0x02a)
  if fmtIsPacked dst then
    let r0 := fCvt dst src rm (loW a).toNat
    let r1 := fCvt dst src rm (loW b).toNat
    (BitVec.ofNat 64 (r0.1 + 65536 * r1.1), r0.2 ||| r1.2)
  else
    let r := fCvt dst src rm a.toNat
    (BitVec.ofNat 64 r.1, r.2)

def execFcvt (w : AWord) := valuWord 0x02a (.fcvt w) w (fcvtFn w)
/-- FRND (R227) -/
def execFrnd (w : AWord) := valuWord 0x02b (.frnd w) w (fltFn 0x02b w fun F rm a _ _ => fRnd F rm a)

/-- FSCALB (R228): the exponent is I32, or an I16 half for each packed element. -/
def fscalbFn (w : AWord) : AluFn := fun rm a b c =>
  let fmt := w.fmt (aForm 0x02c)
  if fmtIsPacked fmt then perElem fmt (fun F x y _ => fScalb F rm x (signedOf 16 y)) a b c
  else
    let F := floatOf fmt
    let r := fScalb F rm (a.toNat % 2 ^ F.bits) (signedOf 32 b.toNat)
    (BitVec.ofNat 64 r.1, r.2)

def execFscalb (w : AWord) := valuWord 0x02c (.fscalb w) w (fscalbFn w)
/-- FDIV (R221) -/
def execFdiv (w : AWord) := valuWord 0x02d (.fdiv w) w (fltFn 0x02d w fun F rm a b _ => fDiv F rm a b)
/-- FSQRT (R221) -/
def execFsqrt (w : AWord) := valuWord 0x02e (.fsqrt w) w (fltFn 0x02e w fun F rm a _ _ => fSqrt F rm a)
/-- FDOT2 (R222) -/
def execFdot2 (w : AWord) := valuWord 0x02f (.fdot2 w) w fun rm a b c =>
  let r := fDot2 (floatOf (w.fmt (aForm 0x02f))) rm (half0 a) (half1 a) (half0 b) (half1 b) (loW c).toNat
  (BitVec.ofNat 64 r.1, r.2)

end Sys2Proof.Machine
end

