-- ==== Sys2Proof/Machine/Home.lean ====
section
/-! DEFINITION. Writing at a home: snapshots of launch-atomic and contained launches (13 R298, R299; 22 R380), the NV
staging buffers (13 R290, R291), keys and poison of lines (21 R363, 22 R387), monitors (06 R153), replicas and cached
copies (06 R128, R143), and the combining of update-only deltas (06 R145, R146). -/

namespace Sys2Proof.Machine

open Sys2Proof

/-! ### Snapshots -/

/-- A granule that a write of a launch-atomic launch is to join, its snapshot not yet durable (R298, R302). -/
def Snapshot.claim (x : Snapshot) : Bool := x.la && !x.durable

/-- The granules of some bytes belong to what their launch has written: their snapshots stay (R298). -/
def State.useSnaps (s : State) (ctx : Nat) (launch : Word) (bs : List ByteLoc) : State :=
  let mine (x : Snapshot) : Bool := x.ctx == ctx && x.launch == launch && bs.any fun b => b.peer.isNone && granuleOf b.pa == x.granule
  if s.snapshots.any mine then { s with snapshots := s.snapshots.map fun x => if mine x then { x with used := true } else x } else s

/-- Whether a snapshot of a granule is held for a launch. -/
def State.hasSnap (s : State) (ctx : Nat) (launch : Word) (g : Nat) : Bool :=
  s.snapshots.any fun x => !x.claim && x.granule == g && x.ctx == ctx && x.launch == launch

/-- The snapshot a launch's write to a byte still needs: `some true` a launch-atomic one (R298), `some false` one for
replay (R380), `none` none. -/
def State.needsSnap (s : State) (ctx : Nat) (launch : Word) (b : ByteLoc) : Option Bool :=
  match s.launch? ctx launch with
  | none => none
  | some l =>
    if b.peer.isSome || s.hasSnap ctx launch (granuleOf b.pa) then none
    else if b.la && l.desc.la then some true
    else if l.desc.contain != 0 && !l.noSnap then some false
    else none

/-- The granule belongs to the region of another running launch (R299). -/
def State.laBusy (s : State) (ctx : Nat) (launch : Word) (b : ByteLoc) : Bool :=
  let own := ((s.launch? ctx launch).map fun l => l.desc.la).getD false
  own && b.la && b.peer.isNone && s.snapshots.any fun x =>
    x.la && x.granule == granuleOf b.pa && !(x.ctx == ctx && x.launch == launch)

/-- The frames of a partition's snapshot pool that hold a snapshot on a stack. -/
def State.poolUsed (s : State) (stack : Nat) : List Nat :=
  s.snapshots.filterMap fun x => x.frame.bind fun f => if f.1 = stack then some f.2 else none

/-- The next free frame of a partition's snapshot pool, which is taken from the top of each of its stacks in equal shares (R393: units
of 1 GiB; R394): on the stack that holds fewest, the first of them. -/
def State.poolFrame (s : State) (ctx : Nat) : Option (Nat × Nat) :=
  let p := (s.ctx ctx).partition
  let (first, n) := s.svc.settings.dies p
  let share := s.svc.settings.snapPool.getD p 0 * 16384 / max 1 n
  let offers := (List.range n).map fun j => (first + j, (s.poolUsed (first + j)).length)
  let best := offers.foldl (fun (b : Option (Nat × Nat)) x => if x.2 < share && b.all fun y => x.2 < y.2 then some x else b) none
  best.bind fun x => ((List.range (x.2 + 1)).find? fun f => !(s.poolUsed x.1).contains f).map fun f => (x.1, f)

/-- A partition's snapshot pool has a frame left. -/
def State.snapRoom (s : State) (ctx : Nat) : Bool := (s.poolFrame ctx).isSome

/-- Bytes of memory in a granule, those that are not zero. -/
def State.granuleBytes (s : State) (g : Nat) : Memory := s.mem.filter fun c => c.1 / 65536 == g

/-- A copier takes a snapshot of a granule on a launch's first write to it. With the pool exhausted the launch runs on
without (R380). -/
def State.takeSnap (s : State) (ctx : Nat) (launch : Word) (g : Nat) (la : Bool) : State :=
  if s.hasSnap ctx launch g then s
  else if !la && inDram (g * 65536) && !s.snapRoom ctx then s.modLaunch ctx launch fun l => { l with noSnap := true }
  else
    let seq := (((s.launch? ctx launch).bind fun l => l.seqLa).getD 0)
    { s with snapshots := (s.snapshots.filter fun x => !(x.claim && x.granule == g && x.ctx == ctx && x.launch == launch)) ++
      [{ granule := g, old := s.granuleBytes g, ctx := ctx, launch := launch, la := la, seq := seq, durable := la, used := false,
         keys := s.lineKeys.filter fun p => granuleOf (64 * p.1) == g, poison := s.svc.poison.filter (fun l => granuleOf (64 * l) == g)
         frame := if !la && inDram (g * 65536) then s.poolFrame ctx else none }] }

/-- A write of a launch-atomic launch is accepted: its granules are the launch's own from then on (R299), their snapshots
still to be taken. -/
def State.claimSnaps (s : State) (ctx : Nat) (launch : Word) (bs : List ByteLoc) : State :=
  bs.foldl (fun s b =>
    let g := granuleOf b.pa
    let held := s.snapshots.any fun x => x.la && x.granule == g && x.ctx == ctx && x.launch == launch
    if s.needsSnap ctx launch b == some true && !held then
      { s with snapshots := s.snapshots ++ [{ granule := g, old := [], ctx := ctx, launch := launch, la := true, seq := 0, durable := false, used := false, keys := [], poison := [], frame := none }] }
    else s) s

/-- Every snapshot that writing some bytes needs is taken, the write waiting meanwhile. -/
def State.ensureSnaps (s : State) (ctx : Nat) (launch : Word) (bs : List ByteLoc) : State :=
  bs.foldl (fun s b => match s.needsSnap ctx launch b with
    | some la => s.takeSnap ctx launch (granuleOf b.pa) la
    | none => s) s

/-- A granule put back as its snapshot holds it, with the metadata of its sectors (R380): nothing that was written to it is to become durable any more. -/
def State.restoreSnap (s : State) (x : Snapshot) : State :=
  let staging := s.staging.filter fun t => t.record.isSome || granuleOf t.pa != x.granule
  let inside (l : Nat) : Bool := granuleOf (64 * l) == x.granule
  { s with staging := staging
           volatile := s.volatile.filter fun v => staging.any fun t => t.unit == v.unit
           lineKeys := (s.lineKeys.filter fun p => !inside p.1) ++ x.keys
           mem := x.old.foldl (fun m c => Memory.put m c.1 c.2) (Bank.clear s.mem (x.granule * 65536) ((x.granule + 1) * 65536))
           svc := { s.svc with poison := (s.svc.poison.filter fun l => !inside l) ++ x.poison
                               mended := s.svc.mended.filter fun pa => granuleOf pa != x.granule }
           cores := s.cores.map fun c => { c with cache := c.cache.filter fun b => granuleOf (64 * b.line) != x.granule }
           dies := s.dies.map fun d => { d with cache := d.cache.filter fun b => granuleOf (64 * b.line) != x.granule } }

/-! ### Writes -/

/-- Bytes are written: a poisoned line all of whose bytes have been written since is poisoned no more (R387). -/
def Service.mend (v : Service) (pas : List Nat) : Service :=
  let written := (v.mended ++ pas.filter fun pa => v.poison.contains (lineOf pa)).eraseDups
  let whole (l : Nat) : Bool := (List.range 64).all fun k => written.contains (64 * l + k)
  { v with poison := v.poison.filter fun l => !whole l, mended := written.filter fun pa => !whole (lineOf pa) }

/-- The armed monitors of a stook on some lines are reached by a write (R153). -/
def Stook.fireMonitors (k : Stook) (lines : List Nat) : Stook :=
  { k with sheaves := k.sheaves.map fun h => { h with lanes := h.lanes.map fun x =>
      match x.monitor with
      | some (v, l, f) => { x with monitor := some (v, l, f || lines.contains l) }
      | none => x } }

/-- Every armed monitor of a line is reached by a write to it (R153). -/
def State.fireMonitors (s : State) (lines : List Nat) : State :=
  let hit (x : Lane) : Bool := match x.monitor with | some (_, l, _) => lines.contains l | none => false
  if s.stooks.any fun k => k.sheaves.any fun h => h.lanes.any hit then { s with stooks := s.stooks.map fun k => k.fireMonitors lines }
  else s

/-- The byte a cache holds for an address. -/
def cacheByte (c : List CacheLine) (pa : Nat) : Option Byte := (c.find? fun x => x.line == lineOf pa).map fun x => x.bytes.getD (pa % 64) 0

/-- A cache with one byte replaced in the line it holds. -/
def cacheUpdate (c : List CacheLine) (pa : Nat) (b : Byte) : List CacheLine :=
  c.map fun x => if x.line == lineOf pa then { x with bytes := x.bytes.set (pa % 64) b } else x

/-- A key enters a re-reference order of at most `cap` at one of its four positions: 0 the most likely to be re-referenced.
What stands behind the last place is gone (R127). -/
def enterOrder {α : Type} (cap pos : Nat) (x : α) (l : List α) : List α :=
  (l.take (pos * cap / 4) ++ x :: l.drop (pos * cap / 4)).take cap

/-- Whose write it is: the core (none for the control node and the service die), the launch, the lanes in persist order with their
epochs, and the number below which every write must be durable before it (R293). -/
structure Author where
  core : Option Nat
  ctx : Nat
  launch : Word
  who : List (Nat × Nat × Nat × Nat)
  after : Nat
  deriving DecidableEq, Repr, Inhabited

/-- The control node's, and the service cores'. -/
def Author.node : Author := { core := none, ctx := 64, launch := 0, who := [], after := 0 }

/-- The greatest of the numbers that the acquires at DURABLE scope of some lanes have set; of a lane that is no longer resident,
that of the last release (R293). -/
def State.afterOf (s : State) (who : List (Nat × Nat × Nat × Nat)) : Nat :=
  (who.map fun w => match s.stook? w.1 with
    | some k => ((k.sheaf w.2.1).lane w.2.2.1).after
    | none => s.barrier).foldl max 0

/-- Bytes performed at their homes, in order. Bytes on a peer leave the device; what is written to NV words is visible, and not
yet durable (R290). -/
def State.homeWrite (s : State) (a : Author) (ws : List (ByteLoc × Byte)) : State :=
  let core := a.core
  let unit := s.next
  let here := ws.filter fun w => w.1.peer.isNone
  let pas := here.map fun w => w.1.pa
  let lines := (pas.map lineOf).eraseDups
  let staged := (here.filter fun w => inNv w.1.pa).map fun w =>
    ({ pa := w.1.pa, media := [s.mem.byte w.1.pa], unit := unit, record := none } : Staged)
  let mem := here.foldl (fun m w => Memory.put m w.1.pa w.2) s.mem
  let keyOf (l : Nat) : List Byte := ((here.find? fun w => lineOf w.1.pa == l).map fun w => s.keyBytes w.1.key).getD []
  let keys := (s.lineKeys.filter fun p => !lines.contains p.1) ++ lines.map fun l => (l, keyOf l)
  let upd (c : List CacheLine) : List CacheLine := here.foldl (fun c w => cacheUpdate c w.1.pa w.2) c
  let own : Bool := ((s.launch? a.ctx a.launch).any fun l => l.desc.la) && here.all fun w => w.1.la
  let volatile : List NvWrite := if staged.isEmpty then [] else
    [{ unit := unit, core := core.getD 0, ctx := a.ctx, launch := a.launch, who := if own then [] else a.who,
       after := if own then 0 else max a.after (s.afterOf a.who) }]
  let s : State := { s with
    next := unit + 1
    mem := mem
    staging := s.staging ++ staged
    volatile := s.volatile ++ volatile
    lineKeys := keys
    svc := s.svc.mend pas
    dies := s.dies.map fun d => { d with
      replicas := d.replicas.filter fun r => !lines.contains r.1
      cache := if core.map dieOf == some d.num then upd d.cache else d.cache }
    cores := s.cores.map fun c => if core == some c.num then { c with cache := upd c.cache } else c }
  s.fireMonitors lines

/-- A write that finds no link up to the peer it names, outside any lane's read: a containment error (R358, R366). -/
def State.peerError (s : State) (core ctx : Nat) (launch : Word) (va : Nat) : State :=
  s.containError { (default : FaultRec) with cause := .peerDown, ctx := ctx, launch := launch, core := core, va := va, kind := .rmw }

/-- One delta reaches its word's home, where it is combined in one event (R145, R146); a peer's word takes it at the peer. -/
def State.applyDelta (s : State) (core : Nat) (d : Delta) : State :=
  if s.peerLost d.locs then s.peerError core d.ctx d.launch d.va
  else if d.locs.any fun b => b.peer.isSome then s.modLaunch d.ctx d.launch fun l => { l with peerWritten := true }
  else
    let (cause, s) := s.readSectors core d.locs .good
    match cause with
    | some c => s.containError { (default : FaultRec) with cause := c, ctx := d.ctx, launch := d.launch, core := core, va := d.va, kind := .rmw }
    | none =>
      let s := (s.ensureSnaps d.ctx d.launch d.locs).useSnaps d.ctx d.launch d.locs
      let new := d.apply (leNat (d.locs.map fun l => s.mem.byte l.pa))
      s.homeWrite { core := some core, ctx := d.ctx, launch := d.launch, who := d.who, after := 0 } (d.locs.zip (leBytes d.locs.length new))

/-- The deltas that meet a test are combined, and are gone. -/
def State.combineIf (s : State) (hit : Delta → Bool) : State :=
  let ds := (s.cores.flatMap fun c => (c.deltas.filter hit).map fun d => (c.num, d))
    ++ s.dies.flatMap fun e => (e.deltas.filter hit).map fun d => (e.num * Config.coresPerDie, d)
  if ds.isEmpty then s
  else
    let s := { s with cores := s.cores.map fun c => { c with deltas := c.deltas.filter fun d => !hit d }
                      dies := s.dies.map fun e => { e with deltas := e.deltas.filter fun d => !hit d } }
    ds.foldl (fun s d => s.applyDelta d.1 d.2) s

/-- The deltas of the words that hold some bytes are combined (R145). -/
def State.combine (s : State) (pas : List Nat) : State := s.combineIf fun d => pas.any fun pa => d.covers pa

/-- The deltas of the aligned words that hold some bytes, a peer's among them, are combined (R129, R145). -/
def State.combineLocs (s : State) (bs : List ByteLoc) : State :=
  s.combineIf fun d => d.locs.any fun l => bs.any fun b => b.pa / 8 == l.pa / 8 && b.peer == l.peer

/-- A delta of an NV word, and one that holds an earlier contribution of a lane (R293, R295). -/
def Delta.nv (d : Delta) : Bool := d.locs.any fun b => b.peer.isNone && inNv b.pa
def Delta.earlier (d : Delta) (u i l epoch : Nat) : Bool := d.nv && d.who.any fun w => w.1 == u && w.2.1 == i && w.2.2.1 == l && w.2.2.2 < epoch

/-- A delta holds a contribution that a write of some lanes follows in persist order (R295). -/
def Delta.precedes (d : Delta) (who : List (Nat × Nat × Nat × Nat)) : Bool := who.any fun w => d.earlier w.1 w.2.1 w.2.2.1 w.2.2.2

/-- A write at the homes that follows the combining of the deltas it meets, and to NV words of those it follows in persist order. -/
def State.storeAt (s : State) (a : Author) (ws : List (ByteLoc × Byte)) : State :=
  let nv := ws.any fun w => w.1.peer.isNone && inNv w.1.pa
  let s := s.combineIf fun d => (d.locs.any fun l => ws.any fun w => w.1.pa == l.pa && w.1.peer == l.peer) || (nv && d.precedes a.who)
  let bs := ws.map fun w => w.1
  let s := (s.ensureSnaps a.ctx a.launch bs).useSnaps a.ctx a.launch bs
  let s := if ws.any fun w => w.1.peer.isSome then s.modLaunch a.ctx a.launch fun l => { l with peerWritten := true } else s
  s.homeWrite a ws

/-- The stack a staged write lies on; the record of a context is on the stack numbered context mod 4 (R300). -/
def Staged.stack (t : Staged) : Nat := match t.record with | some r => r.1 % 4 | none => nvStack t.pa

/-- Bytes of a completion record (R301). -/
def recordBytes : Nat := 16

/-- A unit whose bytes stand in no staging buffer yet. -/
def State.isVolatile (s : State) (unit : Nat) : Bool := s.volatile.any fun v => v.unit == unit

/-- Bytes that a stack's staging buffer holds (R290), and the room it may use (R400). -/
def State.stagedOn (s : State) (stack : Nat) : Nat :=
  (s.staging.filter fun t => t.stack == stack && !s.isVolatile t.unit).foldl (fun n t => n + if t.record.isSome then recordBytes else 1) 0
def State.stagingRoom (s : State) (stack n : Nat) : Bool :=
  s.stagedOn stack + n ≤ (if s.svc.stagingShare then min Config.drainable Config.stagingBytes else Config.stagingBytes)

/-- Every stack's staging buffer has room for the bytes of some addresses that lie on it (R291). -/
def State.roomFor (s : State) (pas : List Nat) : Bool :=
  (List.range 4).all fun n =>
    let k := (pas.filter fun pa => inNv pa && nvStack pa == n).length
    k = 0 || s.stagingRoom n k

/-! ### What was never durable -/

/-- A later write of what another writes: of its bytes, or of its context's record. -/
def Staged.follows (x t : Staged) : Bool := x.record.map Prod.fst == t.record.map Prod.fst && x.pa == t.pa && t.unit < x.unit

/-- A byte of a write, or a record, is taken back: what stood there before stands there again, below any later write of it that stays. -/
def State.undoByte (s : State) (t : Staged) : State :=
  let rest := s.staging.filter fun x => x != t
  match rest.find? fun x => x.follows t, t.record with
  | some y, _ => { s with staging := rest.map fun x => if x.follows t && x.unit == y.unit then { x with media := t.media, record := t.record } else x }
  | none, some r => { s with staging := rest, completions := assocSet s.completions r.1 r.2 }
  | none, none =>
    { s with staging := rest
             mem := (t.media.mapIdx fun j b => (t.pa + j, b)).foldl (fun m x => Memory.put m x.1 x.2) s.mem }

/-- The units that meet a test, none of them on the media, are taken back, the newest first. -/
def State.undoUnits (s : State) (hit : Nat → Bool) : State :=
  let ts := s.staging.filter fun t => hit t.unit
  let lines := ((ts.filter fun t => t.record.isNone).map fun t => lineOf t.pa).eraseDups
  let keep (c : List CacheLine) := if lines.isEmpty then c else c.filter fun x => !lines.contains x.line
  let s := (ts.reverse).foldl State.undoByte s
  { s with
    staging := s.staging.filter fun t => !hit t.unit
    volatile := s.volatile.filter fun v => !hit v.unit
    cores := s.cores.map fun c => { c with cache := keep c.cache }
    dies := s.dies.map fun d => { d with cache := keep d.cache } }

/-- The addresses of a delta's bytes on this device. -/
def Delta.pas (d : Delta) : List Nat := (d.locs.filter fun b => b.peer.isNone).map ByteLoc.pa

end Sys2Proof.Machine
end

