-- ==== Sys2Proof/Machine/Records.lean ====
section
/-! DEFINITION. Buffer records: validation (03 R79), element addressing (03 R76 to R78, 11 R254), block numbers and side
entries (03 R72, R73), and the legal pairs of access format and record format (11 R253, R260, R262, R263; 10 R245). -/

namespace Sys2Proof.Machine

open Sys2Proof

/-- The first failing check of R79 for a record and its target slot. -/
def recordRefusal (r : Rec) (slot : Nat) : Option Nat :=
  let f := recFmt r
  let bits := fmtBits f
  let e0 := recExt0 r
  let e1 := recExt1 r
  let e2 := recExt2 r
  let rowbytes := e0 * bits / 8
  let b := blkLen (recBlk r)
  let blocked := f = 0x20 || f = 0x21 || f = 0x22
  let codebook := f = 0x21 || f = 0x22
  let fails (c : Bool) (n : Nat) : Option Nat := if c then some n else none
  [fails (e0 = 0 || e1 = 0 || e2 = 0) 1,
   fails (r.extractLsb' 55 9 != 0 || r.extractLsb' 246 10 != 0) 2,
   fails (recBounds r = 3 || 6 ≤ recBlk r) 3,
   fails (!fmtDefined f) 4,
   fails ((recBlk r != 0) != blocked || (codebook && b != 128) || (blocked && e0 % b != 0)) 5,
   fails ((recSide r = 0 && recBlk r != 0) || (recSide r != 0 && recBlk r = 0) || (recSide r != 0 && recSide r = slot)) 6,
   fails (recBase r % fmtAlign f != 0) 7,
   fails (recStride1 r % fmtAlign f != 0 || recStride2 r % fmtAlign f != 0) 8,
   fails (!recOverlap r && recStride1 r < rowbytes) 9,
   fails (!recOverlap r && 1 < e2 && recStride2 r < recStride1 r * e1) 10,
   fails (recBase r + (e2 - 1) * recStride2 r + (e1 - 1) * recStride1 r + rowbytes - 1 ≥ 2 ^ 55) 11].findSome? id

/-- The number of elements of a record. -/
def recCount (r : Rec) : Nat := recExt0 r * recExt1 r * recExt2 r

/-- The first bit of the element at an index, counted from bit 0 of byte 0 of the address space (R76). -/
def recBitpos (r : Rec) (i : Int) : Int :=
  let e0 : Int := recExt0 r
  let e1 : Int := recExt1 r
  let col := i % e0
  let row := (i / e0) % e1
  let plane := i / (e0 * e1)
  8 * (recBase r + plane * recStride2 r + row * recStride1 r) + col * fmtBits (recFmt r)

/-- The block an index of a record lies in (R72). -/
def recBlock (r : Rec) (i : Nat) : Nat :=
  let b := blkLen (recBlk r)
  let col := i % recExt0 r
  let row := (i / recExt0 r) % recExt1 r
  let plane := i / (recExt0 r * recExt1 r)
  (plane * recExt1 r + row) * (recExt0 r / b) + col / b

/-- Bytes of a side-table entry (R72). -/
def sideBytes (fmt : Nat) : Nat := if fmt = 0x21 then 16 else if fmt = 0x22 then 32 else 1

/-- The record and format through which a word accesses memory: through b0 none. -/
structure Via where
  slot : Nat
  record : Rec
  flat : Bool
  deriving DecidableEq, Repr

/-- The shape of an access: its memory format, the width of an element in bits, the index step between elements, the
alignment of its address in bytes, whether the index counts bytes unscaled (R254, R263). -/
structure Shape where
  fmt : Nat
  bits : Nat
  step : Nat
  align : Nat
  count : Nat
  raw : Bool
  cell : Bool
  deriving DecidableEq, Repr

/-- Memory width of an access format (R253) through a record. -/
def afBits (af fmt : Nat) : Nat := if 1 ≤ af && af ≤ 4 then 4 * 2 ^ af else fmtBits fmt

/-- A load or store's formats are legal (R253): `load` tells which; CB3 and CB4 on the writing side are left to RO_STORE. -/
def afLegal (load flat : Bool) (af fmt vec : Nat) : Bool :=
  let cb := fmt = 0x21 || fmt = 0x22
  if !load && cb then true
  else if af = 0 then !(fmt = 0x20 && vec != 1)
  else if af ≤ 4 then fmt = 0x30 || fmtBits fmt = 4 * 2 ^ af
  else if af = 5 then !flat && (fmt = 0x10 || fmt = 0x11 || fmt = 0x12 || (load && cb))
  else if af = 6 then !flat && (0x10 ≤ fmt && fmt ≤ 0x13)
  else false

/-- ATOM and CAS (R260): the record's format against W64 and the operation. `swap` is XCHG or CAS. -/
def atomLegal (fmt : Nat) (w64 swap : Bool) : Bool :=
  let w := if w64 then 64 else 32
  fmt = 0x30 || ((4 ≤ fmt && fmt ≤ 7) && fmtBits fmt = w) || (swap && (fmt = 0x12 || fmt = 0x13) && fmtBits fmt = w)

/-- RED (R262). -/
def redLegal (fmt rop : Nat) (w64 : Bool) : Bool :=
  let w := if w64 then 64 else 32
  fmt = 0x30 || ((4 ≤ fmt && fmt ≤ 7) && fmtBits fmt = w)
    || ((0x10 ≤ fmt && fmt ≤ 0x13) && (rop = 0 || rop = 4 || rop = 5)
        && (if fmt = 0x13 then w64 else !w64))

/-- Formats LDF and STF accept for a fragment kind (R245): 0 FA, 1 FB, 2 FC. -/
def fragLegal (load : Bool) (kind fmt : Nat) : Bool :=
  if kind = 2 then fmt = 0x12 || fmt = 0x04 || (!load && (fmt = 0x21 || fmt = 0x22))
  else fmt = 0x12 || fmt = 0x10 || fmt = 0x11 || fmt = 0x00 || fmt = 0x20 || fmt = 0x21 || fmt = 0x22

/-- Elements per lane of a fragment (R245). -/
def fragElems (kind fmt : Nat) : Nat :=
  if kind = 2 then 2 else if fmt = 0x12 then 1 else if fmt = 0x00 then 4 else if fmt = 0x20 then 1 else 2

/-! ### Addresses -/

/-- An element's place before translation: skipped, or the first byte, the bytes spanned, the bit offset, and the block
of its side entry. -/
structure Place where
  va : Nat
  n : Nat
  shift : Nat
  block : Nat
  skip : Bool
  deriving DecidableEq, Repr

/-- A byte place of `n` bytes. -/
def Place.at (va n : Nat) : Place := { va := va, n := n, shift := 0, block := 0, skip := false }

/-- Check 5 of R254 for a record index, and the cause when it fails. -/
def indexAligned (v : Via) (sh : Shape) (i : Int) : Bool :=
  if sh.fmt = 0x20 then i % 16 = 0
  else if sh.raw then (recBitpos v.record i / 8) % sh.align = 0
  else true

/-- Check 6 of R254 and R76 for a record index: the element's place, or BOUNDS. -/
def indexPlace (v : Via) (sh : Shape) (i : Int) : Except Cause Place :=
  let r := v.record
  let total : Int := recCount r
  let n := sh.bits / 8
  let mode := recBounds r
  let skip : Except Cause Place := .ok { va := 0, n := 0, shift := 0, block := 0, skip := true }
  let here (i : Int) : Except Cause Place :=
    let b := (recBitpos r i).toNat
    let w := if sh.fmt = 0x20 then 96 else sh.bits
    .ok { va := b / 8, n := (b % 8 + w + 7) / 8, shift := b % 8,
          block := if recBlk r = 0 then 0 else recBlock r i.toNat, skip := false }
  if sh.raw && 1 < n then
    let whole := 0 ≤ i && i < total && (i % recExt0 r) + n ≤ recExt0 r
    if whole then here i else if mode = 1 then skip else .error .bounds
  else if 0 ≤ i && i < total then here i
  else if mode = 0 || mode = 3 then .error .bounds
  else if mode = 1 then skip
  else here (if i < 0 then 0 else if sh.fmt = 0x20 then total - 16 else total - 1)

/-- The indices or byte addresses of a lane's elements: exact (R76, R78, R254). -/
def elemIndex (base imm : Int) (sh : Shape) (scale : Nat) (k : Nat) : Int := base + imm * scale + k * sh.step

/-- The cause of the first element that fails a test. -/
def firstError {α : Type} : List (Except Cause α) → Except Cause (List α)
  | [] => .ok []
  | .error c :: _ => .error c
  | .ok a :: t => match firstError t with
    | .error c => .error c
    | .ok l => .ok (a :: l)

/-- The places of a lane's elements, checks 5 then 6 over all of them (R254). `base` is the index or byte address. -/
def lanePlaces (v : Via) (sh : Shape) (idx : List Int) : Except Cause (List Place) :=
  if v.flat then
    if !idx.all fun a => a % sh.align = 0 then .error .misaligned
    else if !idx.all fun a => 0 ≤ a && a < 2 ^ 55 then .error .bounds
    else .ok (idx.map fun a => Place.at a.toNat (sh.bits / 8))
  else if !idx.all fun i => indexAligned v sh i then .error .misaligned
  else firstError (idx.map fun i => indexPlace v sh i)

/-- The scratchpad bytes a program can address: the allotment without the transaction logs (R125, R271), as the bounds
of the log area. -/
def Desc.logRange (d : Desc) : Nat × Nat :=
  (d.txlogOff * 128, d.txlogOff * 128 + 32 * d.sheaves * (d.txReads + d.txWrites) * 16)

def spadInside (k : Stook) (d : Desc) (a n : Int) : Bool :=
  let (lo, hi) := d.logRange
  0 ≤ a && a + n ≤ k.scratchBytes && (hi ≤ lo || a + n ≤ lo || (hi : Int) ≤ a)

/-- Places in the scratchpad (R254): alignment, then the allotment. -/
def spadPlaces (k : Stook) (d : Desc) (sh : Shape) (idx : List Int) : Except Cause (List Place) :=
  if !idx.all fun a => a % sh.align = 0 then .error .misaligned
  else if !idx.all fun a => spadInside k d a (sh.bits / 8) then .error .bounds
  else .ok (idx.map fun a => Place.at a.toNat (sh.bits / 8))

/-! ### Side entries (R72, R73) -/

/-- The side entry of a block through a record and its side record: the addresses of its bytes, or the cause of R73. -/
def sideEntryIn (r t : Rec) (block : Nat) : Except Cause (List Nat) :=
  if recFmt t != 0x30 then .error .illegalFormat
  else
    let n := sideBytes (recFmt r)
    if recCount t < (block + 1) * n then .error .bounds
    else .ok ((List.range n).map fun j => (recBitpos t ((block * n + j : Nat) : Int) / 8).toNat)

/-- The side entry of a block by the records a stook has installed. -/
def sideEntry (k : Stook) (r : Rec) (block : Nat) : Except Cause (List Nat) :=
  match k.record? (recSide r) with
  | none => .error .recordUnset
  | some t => sideEntryIn r t block

/-- Addresses of a block's entry are those that the slot's record and its side record give now. -/
def sideCurrent (k : Stook) (slot block : Nat) (vas : List Nat) : Bool :=
  (k.record? slot).any fun r => match sideEntry k r block with
    | .ok v => v == vas
    | .error _ => false

end Sys2Proof.Machine
end

