-- ==== Sys2Proof/Machine/Memory.lean ====
section
/-! DEFINITION. Requests to memory: what an access takes from the stores and copies in front of it (06 R136, R137, R143),
when it may be performed at its home (06 R134, R135, R138 to R140, R148; 13 R293 to R295), performing it (06 R144 to
R147; 11 R257 to R263), and the delivery of results (01 R28, 11 R253). -/

namespace Sys2Proof.Machine

open Sys2Proof

/-! ### Requests and their words -/

/-- The byte a store writes at a place, if it writes it. -/
def Req.storeByte (r : Req) (b : ByteLoc) : Option Byte :=
  (r.elems.zip r.data).reverse.findSome? fun p =>
    if p.1.skip then none
    else ((p.1.locs.zip (leBytes p.1.n p.2)).find? fun q => q.1.pa == b.pa && q.1.peer == b.peer).map fun q => q.2

/-- The newest store of a list that writes a place, by its number, and the byte. -/
def newestByte (rs : List Req) (b : ByteLoc) : Option (Nat × Byte) :=
  rs.foldl (fun acc r => match r.storeByte b with
    | some x => if acc.any fun a => r.id < a.1 then acc else some (r.id, x)
    | none => acc) none

/-- The aligned 8-byte words an access touches, with the peer they lie on (R133). -/
def Req.words (r : Req) : List (Nat × Option Nat) :=
  (r.elems.flatMap fun e => if e.skip then [] else e.locs.map fun b => (b.pa / 8, b.peer)).eraseDups

/-- Two accesses of global memory, or of one scratchpad, share a word. -/
def Req.meets (a b : Req) : Bool :=
  a.spad == b.spad && (!a.spad || a.stook == b.stook) && a.words.any fun w => b.words.contains w

/-- A request of an earlier number that has not been performed. -/
def Req.before (a b : Req) : Bool := a.id < b.id && !a.performed

def Req.sameLane (a b : Req) : Bool := a.stook == b.stook && a.sheaf == b.sheaf && a.lane == b.lane
def Req.sameSheaf (a b : Req) : Bool := a.stook == b.stook && a.sheaf == b.sheaf
def Req.acquires (r : Req) : Bool := r.order % 2 = 1
def Req.releases (r : Req) : Bool := 2 ≤ r.order
/-- A request that writes no register: an integer, floating or exact reduction. -/
def Req.silent (r : Req) : Bool := match r.op with | .red _ _ _ => true | .xred _ => true | .store => true | _ => false

/-- Whether a request writes: its bytes need snapshots, staging room and persist order. -/
def Req.writes (r : Req) : Bool :=
  match r.op with
  | .load => false
  | .xrd clr _ => clr
  | _ => true

def Req.locs (r : Req) : List ByteLoc := r.elems.flatMap fun e => if e.skip then [] else e.locs

/-- The addresses of an access's bytes on this device. -/
def Req.pas (r : Req) : List Nat := (r.locs.filter fun b => b.peer.isNone).map ByteLoc.pa

/-- Whether an access writes a word of the non-volatile tier on this device. -/
def Req.nvWrite (r : Req) : Bool := !r.spad && r.writes && r.locs.any fun b => b.peer.isNone && inNv b.pa

/-- Whether an access goes through update-only state (R145, R262): a plain integer RED, a plain XRED. -/
def Req.updateOnly (r : Req) : Bool :=
  !r.releases && match r.op with | .red _ flt _ => !flt | .xred _ => true | _ => false

/-! ### What a core sees (R136, R137, R143) -/

/-- The stores that a stook's sheaves see and no home has performed: those of its core on their way, and its own that are held
for its twin (R384). Their numbers give the core's order. -/
def State.seenStores (s : State) (k : Stook) : List Req := (s.core k.core).stores ++ k.heldStores

/-- Those of them that a home is to perform: a second run's own never are (R385). -/
def State.comingStores (s : State) (k : Stook) : List Req := (s.core k.core).stores ++ if k.rerun.isSome then [] else k.heldStores

/-- The stores that a sheaf has issued and that its core does not see yet, oldest first; those of a stook that is gone wait at the
core (R119, R136). -/
def State.queued (s : State) (core u i : Nat) : List Req :=
  match s.stook? u with
  | some k => (k.sheaf i).queue
  | none => (s.core core).left.filter fun q => q.stook == u && q.sheaf == i

/-- The byte that stands in front of a load: of the newest store before it in its sheaf's queue, then of its core, or of the
scratchpad. -/
def State.front (s : State) (k : Stook) (r : Req) (b : ByteLoc) : Option Byte :=
  match newestByte ((k.sheaf r.sheaf).queue.filter fun q => q.spad == r.spad && q.id < r.id) b with
  | some x => some x.2
  | none =>
    if r.spad then some (Bank.get k.scratch b.pa) else (newestByte (s.seenStores k) b).map Prod.snd

/-- The copy of a byte that a load may use: the core's L1 at SHEAF or CORE scope, or where the load asked for the line when it
issued; the die's L2 up to DIE scope. A wider load reads the home, so that it meets a store whose scope reaches it (R142). -/
def State.copyByte (s : State) (core : Nat) (r : Req) (pa : Nat) : Option Byte :=
  let l1 := if r.scope ≤ 1 || r.early then cacheByte (s.core core).cache pa else none
  l1.orElse fun _ => if r.scope ≤ 2 then cacheByte (s.die (dieOf core)).cache pa else none

/-- Whether a load's reading of a word takes the copy; whether the copy is still held is free. -/
def State.takesCopy (s : State) (core : Nat) (r : Req) (w : Nat × Option Nat) : Bool :=
  w.2.isNone && Config.freeHit s.free w.1 && (s.copyByte core r (8 * w.1)).isSome

/-- The event in which a load reads a byte: one for each aligned word, and for each element of a fragment (R133, R247). -/
def Req.eventOf (r : Req) (j : Nat) (b : ByteLoc) : Nat × Nat × Option Nat := (if r.opcode = 0x088 then j else 0, b.pa / 8, b.peer)

/-- The events of a load still to come. -/
def Req.eventsLeft (r : Req) : List (Nat × Nat × Option Nat) :=
  (r.elems.mapIdx fun j e => if e.skip then []
    else ((e.locs.zip e.known).filter fun p => p.2.isNone).map fun p => r.eventOf j p.1).flatten.eraseDups

/-- Words locked by a commit or a locked transaction of another lane (R148, R287). -/
def State.wordLocked (s : State) (r : Req) (w : Nat × Option Nat) : Bool :=
  w.2.isNone && s.locks.any fun k => k.pa / 8 == w.1 && !(k.holder.stook == r.stook && k.holder.sheaf == r.sheaf && k.holder.lane == r.lane)
def State.lockedFor (s : State) (r : Req) : Bool := r.words.any (s.wordLocked r)

/-- The bytes of a load's event that its home gives: nothing stands in front of them, and no copy is taken. -/
def State.fromHome (s : State) (k : Stook) (r : Req) (q : Nat × Nat × Option Nat) : List ByteLoc :=
  if r.spad || s.takesCopy k.core r q.2 then []
  else ((r.elems.mapIdx fun j e => if e.skip then [] else e.locs.filter fun b => r.eventOf j b == q).flatten).filter fun b => (s.front k r b).isNone

/-- The events of a load that can happen now: what needs a locked word's home waits, and what follows it in a fragment, whose
elements are read in ascending order (R247). -/
def State.loadEvents (s : State) (k : Stook) (r : Req) : List (Nat × Nat × Option Nat) :=
  let can (q : Nat × Nat × Option Nat) : Bool := r.spad || !s.wordLocked r q.2 || (s.fromHome k r q).isEmpty
  if r.opcode = 0x088 then r.eventsLeft.takeWhile can else r.eventsLeft.filter can

/-- Every byte of every element is known and no table entry is missing: the load's value is fixed. -/
def Req.complete (r : Req) : Bool :=
  r.elems.all fun e => (e.skip || e.known.all Option.isSome) && (e.side.all fun t => t.entry.isSome)

/-! ### When a request may be performed at its home -/

/-! ### Deltas and persist order -/

/-- The exact value of an XRED operand in units of 2^-149, with its marks (R175). -/
def xredValue (xfmt d : Nat) : Int × Bool × Bool × Bool :=
  let f := if xfmt = 0 then fmtF32 else if xfmt = 1 then fmtF16 else fmtBF16
  match f.unpack (d % 2 ^ f.bits) with
  | .nan _ => (0, true, false, false)
  | .inf s => (0, false, !s, s)
  | .zero _ => (0, false, false, false)
  | .fin s m e => ((FVal.fin s m e).scaled (-149), false, false, false)

/-- The delta of a plain integer RED or XRED (R145): its kind is the operation together with its format. -/
def Req.delta (r : Req) (e : Elem) (d : Nat) : Delta :=
  let (kind, value, nan, pinf, ninf) : Nat × Int × Bool × Bool × Bool :=
    match r.op with
    | .red rop _ _ => (rop, d, false, false, false)
    | .xred x => (8 + x, xredValue x d)
    | _ => (0, d, false, false, false)
  { locs := e.locs, va := e.va, width := e.width, kind := kind, fmt := e.fmt, value := value, nan := nan, pinf := pinf,
    ninf := ninf, ctx := r.ctx, launch := r.launch, id := r.id, who := [(r.stook, r.sheaf, r.lane, r.epoch)] }

/-- Two contributions of one kind to one word, folded (R145, R146). -/
def Delta.fold (a b : Delta) : Delta :=
  let a := { a with who := (a.who ++ b.who).eraseDups }
  if 8 ≤ a.kind then { a with value := a.value + b.value, nan := a.nan || b.nan, pinf := a.pinf || b.pinf, ninf := a.ninf || b.ninf }
  else { a with value := (foldWord a.kind a.width (wrapInt a.width a.value) (wrapInt a.width b.value) : Nat) }

def Delta.sameKind (a b : Delta) : Bool := a.kind == b.kind && a.fmt == b.fmt && a.width == b.width && a.locs == b.locs
def Delta.joins (a b : Delta) : Bool := a.sameKind b && a.ctx == b.ctx && a.launch == b.launch

/-- A release at DURABLE scope: what happened before it precedes in persist order what acquires from it (R293). -/
def Req.persists (r : Req) : Bool := r.releases && r.scope = 6

/-- The delta that an update-only request folds into. -/
def Req.foldsInto (r : Req) (d : Delta) : Bool := r.updateOnly && (r.elems.zip r.data).any fun p => (r.delta p.1 p.2).sameKind d

/-- The deltas that performing a request combines: those of the aligned words it meets at their homes, but for the one it folds into;
before a release at DURABLE scope, every one of an NV word (R145, R293, R295). -/
def Req.combines (r : Req) (d : Delta) : Bool :=
  (!r.spad && !r.foldsInto d && d.locs.any fun l => r.locs.any fun b => b.pa / 8 == l.pa / 8 && b.peer == l.peer) || (r.persists && d.nv)

/-- The lanes a write is of in persist order, with their epochs: a copy's are its issuing lanes (R151, R293). -/
def Req.who (r : Req) : List (Nat × Nat × Nat × Nat) :=
  if r.also.isEmpty then [(r.stook, r.sheaf, r.lane, r.epoch)] else r.also.map fun x => (r.stook, r.sheaf, x.1, x.2)

/-- A write of an earlier epoch of a lane. -/
def earlierOf (who : List (Nat × Nat × Nat × Nat)) (u i l epoch : Nat) : Bool :=
  who.any fun w => w.1 == u && w.2.1 == i && w.2.2.1 == l && w.2.2.2 < epoch

/-- Whether a write has its place in persist order: one of a launch-atomic launch to its region has none (R296, R340). -/
def State.ordered (s : State) (r : Req) : Bool :=
  r.nvWrite && !(((s.launch? r.ctx r.launch).any fun l => l.desc.la) && r.locs.all fun b => b.la)

/-- A write of a lane to an NV word, of an earlier epoch, is not yet performed: it waits in a queue, at its core or its home, or a
copy is still to make it (R293, R295). -/
def State.persistsBefore (s : State) (core u i l epoch : Nat) : Bool :=
  let c := s.core core
  let older (q : Req) : Bool := s.ordered q && earlierOf q.who u i l epoch
  c.stores.any older || ((s.stook? u).any fun k => k.rerun.isNone && k.heldStores.any older) || (c.reqs.any fun q => !q.performed && older q)
    || (s.queued core u i).any older
    || c.copies.any fun x => x.stook == u && x.sheaf == i && (x.epochs.any fun e => e.1 == l && e.2 < epoch) && x.state ≤ 3

/-- Writes of some lanes to NV words can be performed: those they follow in persist order have been (R295). -/
def State.persistGoes (s : State) (core : Nat) (who : List (Nat × Nat × Nat × Nat)) : Bool :=
  who.all fun w => !s.persistsBefore core w.1 w.2.1 w.2.2.1 w.2.2.2

/-- The number a home gives for an element. -/
def State.homeValue (s : State) (e : Elem) : Nat := if e.skip then 0 else leNat (s.homeBytes (e.locs.map ByteLoc.pa))

/-- A request writes at its home: a CAS whose comparison fails does not (R260, R297, R298). -/
def State.willWrite (s : State) (r : Req) : Bool :=
  r.writes && match r.op with
    | .cas => r.elems.any fun e => s.homeValue e == r.data.headD 0
    | _ => true

/-- Whether a request can be performed now, apart from what its read meets. A store follows the stores before it in its core's
order that meet it (R134); what is no store is performed in its sheaf's issue order (R136, R137), behind the sheaf's own queued
stores unless it is a load, and behind the stores its core has seen of its words; a release at DIE scope or wider, behind every
store its core has seen (R138, R139). A write to an NV word follows those it follows in persist order (R295). A load that acquires at DURABLE scope follows the releases at that scope of its words (R293). -/
def State.homeReady (s : State) (core : Nat) (r : Req) : Bool :=
  let c := s.core core
  let k := (s.stook? r.stook).getD { (default : Stook) with core := core }
  let isStore := r.op == .store
  let seen := if isStore then c.stores.filter fun q => q.id < r.id else s.comingStores k
  !r.performed && (r.elems.all fun e => e.side.all fun t => t.entry.isSome)
    && (if isStore then !(seen.any fun q => q.meets r)
        else !(c.reqs.any fun q => q.sameSheaf r && q.before r)
          && (r.op == .load || (!((s.queued core r.stook r.sheaf).any fun q => q.id < r.id) && !(seen.any fun q => q.meets r)))
          && !(r.op == .load && r.acquires && r.scope = 6
            && (seen ++ s.queued core r.stook r.sheaf).any fun q => q.persists && q.born < r.born && q.meets r))
    && !(r.releases && 2 ≤ r.scope && seen.any fun q => !(q.born == r.born && q.sameLane r))
    && (r.spad || (if r.op == .load then r.eventsLeft.isEmpty || !(s.loadEvents k r).isEmpty else !s.lockedFor r))
    && (r.spad || !s.willWrite r || (r.locs.all fun b => (s.needsSnap r.ctx r.launch b).isNone))
    && (!s.ordered r || s.persistGoes core r.who)

/-! ### Release conditions (R138 to R140, R264) -/

/-- Every access that a release with number `n` of a lane orders at a scope is performed: the lane's requests and its sheaf's
queued stores before it; at DIE scope or wider, every store its core has seen, so that what its lane has observed on the core
goes before it too (R139). -/
def State.released (s : State) (r : LaneRef) (scope n : Nat) : Bool :=
  match s.stook? r.stook with
  | none => true
  | some k =>
    let c := s.core k.core
    let mine (q : Req) : Bool := q.stook == r.stook && q.sheaf == r.sheaf && q.lane == r.lane
    !(c.reqs.any fun q => mine q && !q.performed && q.born < n)
      && !((k.sheaf r.sheaf).queue.any fun q => q.born < n)
      && (scope < 2 || (s.comingStores k).isEmpty)

/-! ### Copies of lines -/

/-- Copies of the lines of some bytes leave a core's L1 and its die's L2. -/
def State.dropCopies (s : State) (core : Nat) (pas : List Nat) : State :=
  let keep (c : List CacheLine) := c.filter fun x => !pas.any fun pa => lineOf pa == x.line
  { s with cores := s.cores.map fun c => if c.num == core then { c with cache := keep c.cache } else c
           dies := s.dies.map fun d => if d.num == dieOf core then { d with cache := keep d.cache } else d }

/-- The granary that is home to a DRAM line takes it at a position of its re-reference order (R126, R127). -/
def State.touchGranary (s : State) (pa reuse : Nat) : State :=
  if !inDram pa then s
  else s.modDie ((pa >>> 12) % 16) fun d =>
    if d.granary.contains (lineOf pa) then d else { d with granary := enterOrder Config.granaryLines reuse (lineOf pa) d.granary }

/-- A line as its home gives it. -/
def State.homeLine (s : State) (pa : Nat) : CacheLine :=
  { line := lineOf pa, bytes := s.homeBytes ((List.range 64).map fun k => 64 * lineOf pa + k) }

/-- A cache takes a line: at a position of the re-reference order, or, streaming, only where the line already stands (R127). -/
def cacheFill (cap reuse : Nat) (x : CacheLine) (c : List CacheLine) : List CacheLine :=
  if reuse = 3 then c.map fun y => if y.line == x.line then x else y
  else enterOrder cap reuse x (c.filter fun y => y.line != x.line)

/-- The line of a byte comes from its home to a core's L1 and its die's L2 (R124, R127). -/
def State.fillLine (s : State) (core pa reuse : Nat) (l1 : Bool) : State :=
  let x := s.homeLine pa
  let s := s.touchGranary pa reuse
  let s := s.modDie (dieOf core) fun d => { d with cache := cacheFill Config.l2Lines reuse x d.cache }
  if l1 then s.modCore core fun c => { c with cache := cacheFill (c.l1 * Config.l1LinesPerUnit) reuse x c.cache } else s

def State.addReplica (s : State) (core ctx : Nat) (launch : Word) (pa : Nat) : State :=
  s.modDie (dieOf core) fun d =>
    if d.replicas.any fun r => r.1 == lineOf pa then d else { d with replicas := d.replicas ++ [(lineOf pa, (ctx, launch))] }

/-- An acquire at a scope discards copies (R143): at DIE or wider the core's L1, at DEVICE or wider the die's L2 too. -/
def State.discardFor (s : State) (core scope : Nat) : State :=
  let s := if 2 ≤ scope then s.modCore core fun c => { c with cache := [] } else s
  if 3 ≤ scope then s.modDie (dieOf core) fun d => { d with cache := [] } else s

/-- Lanes acquire at a scope (R143); at DURABLE scope their later NV writes follow in persist order what the releases performed so far
follow (R293). -/
def State.acquireAt (s : State) (core u i : Nat) (m : LaneMask) (scope : Nat) : State :=
  let s := s.discardFor core scope
  if scope = 6 then s.modSheaf u i fun h => h.modLanes m fun _ x => { x with after := max x.after s.barrier } else s

/-- A release at DURABLE scope: contributions to NV words that wait in deltas are combined, and what is visible now precedes what
will acquire from it (R293). -/
def State.releaseDurable (s : State) : State :=
  let s := s.combineIf Delta.nv
  { s with barrier := s.next }

/-! ### Durability (R290 to R295) -/

/-- The addresses of a unit's bytes. -/
def State.unitPas (s : State) (unit : Nat) : List Nat := (s.staging.filter fun t => t.unit == unit && t.record.isNone).map Staged.pa

/-- One write precedes another in persist order, both visible (R293): an earlier one of a word, one before the release that the other's
lane has acquired from, or an earlier epoch's of a lane. -/
def State.persistsFirst (s : State) (a b : NvWrite) : Bool :=
  a.unit < b.unit && (a.unit < b.after || (b.who.any fun w => earlierOf a.who w.1 w.2.1 w.2.2.1 w.2.2.2)
    || (s.unitPas a.unit).any fun pa => (s.unitPas b.unit).any fun q => pa / 8 == q / 8)

/-- A write that is visible can become durable: its stack has room for it, and what precedes it is durable (R291, R295). -/
def State.durableReady (s : State) (v : NvWrite) : Bool := s.roomFor (s.unitPas v.unit) && !s.volatile.any fun x => s.persistsFirst x v

/-- The visible writes that stay when those of a launch are lost: the others', and those of its own that one of the others' follows in
persist order, so that what persists is closed under it (R296, R297). -/
def State.keptWrites (s : State) (mine : NvWrite → Bool) : List NvWrite :=
  s.volatile.foldr (fun v kept => if !mine v || kept.any (s.persistsFirst v ·) then v :: kept else kept) []

/-- The writes of a launch that are not yet durable are lost (R297). -/
def State.loseVolatile (s : State) (mine : NvWrite → Bool) : State :=
  if s.volatile.any mine then
    let kept := (s.keptWrites mine).map NvWrite.unit
    s.undoUnits fun n => s.isVolatile n && !kept.contains n
  else s

/-- A write reaches its stack's staging buffer, and is durable (R290), where it can. -/
def State.persist (s : State) (v : NvWrite) : State :=
  if s.durableReady v then { s with volatile := s.volatile.filter fun x => x.unit != v.unit } else s

/-! ### Values -/

/-- The new word of ATOM by its AOP (R250, R260). -/
def atomNew (aop w old d : Nat) : Nat :=
  if aop = 3 then d else foldWord aop w old d

/-- A floating RED of one word (R262). -/
def redFloat (fmt rop rm old d : Nat) : Nat :=
  let f := floatOf fmt
  if rop = 0 then (fAdd f rm old d).1 else (fMinMax f (rop = 5) old d).1

/-- XRD's result and flags for a cell, RSEL giving format and mode (R82, R250). -/
def xrdResult (rsel cell : Nat) : Nat × FlagSet :=
  let f := if rsel / 5 = 0 then fmtF32 else if rsel / 5 = 1 then fmtF16 else fmtBF16
  let c := unpackCell cell
  if c.nan || (c.pinf && c.ninf) then (f.canon, flInvalid)
  else if c.pinf then (f.infBits false, flNone)
  else if c.ninf then (f.infBits true, flNone)
  else if c.ovf then (f.canon, flInvalid)
  else f.roundInt (rsel % 5) c.value (-149) false

/-- A delta enters a list of deltas, folded into the one of its word and kind. -/
def addDelta (d : Delta) (ds : List Delta) : List Delta :=
  if ds.any fun x => x.joins d then ds.map fun x => if x.joins d then x.fold d else x else ds ++ [d]

/-- A contribution enters its core's delta of its word, or its die's for a peer's word; deltas of another kind are combined
first (R129, R145). The core's own copies of the word go, so that its later loads see the contribution. -/
def State.addDelta (s : State) (core : Nat) (d : Delta) : State :=
  let shares (x : Delta) : Bool := x.locs.any fun l => d.locs.any fun b => b.pa / 8 == l.pa / 8 && b.peer == l.peer
  let s := s.combineIf fun x => (shares x && !x.sameKind d) || (d.nv && x.precedes d.who)
  if d.locs.any fun b => b.peer.isSome then s.modDie (dieOf core) fun e => { e with deltas := Machine.addDelta d e.deltas }
  else (s.modCore core fun c => { c with deltas := Machine.addDelta d c.deltas }).dropCopies core d.pas

/-! ### Performing -/

/-- The byte at a place of this device, or a free byte of a peer (R129). -/
def State.byteAt (s : State) (j : Nat) (b : ByteLoc) : Byte :=
  if b.peer.isSome then Config.freeByte (s.free + j) b.pa else s.homeByte b.pa

/-- The number an element's bytes stand for at their homes. -/
def State.elemValue (s : State) (e : Elem) : Nat := if e.skip then 0 else leNat (e.locs.mapIdx fun j b => s.byteAt j b)

/-- The number of the bytes that a load has read for an element. -/
def Elem.read (e : Elem) : Nat := if e.skip then 0 else leNat (e.known.map fun b => b.getD 0)

/-- The bytes an element writes. -/
def Elem.write (e : Elem) (v : Nat) : List (ByteLoc × Byte) := if e.skip then [] else e.locs.zip (leBytes e.locs.length v)

/-- The writes and results of a request on its elements one by one: the state, the results and the flags. -/
def State.performElems (s : State) (core : Nat) (r : Req) : List Elem → List Nat → State × List Nat × FlagSet
  | [], _ => (s, [], 0)
  | e :: es, ds =>
    let d := ds.headD 0
    let put (s : State) (ws : List (ByteLoc × Byte)) : State :=
      if r.spad then s.modStook r.stook fun k =>
        { k with scratch := ws.foldl (fun b w => Bank.set b w.1.pa w.2) k.scratch }
      else s.storeAt { core := some core, ctx := r.ctx, launch := r.launch, who := r.who,
                       after := if r.persists then s.barrier else 0 } ws
    let old : Nat :=
      if r.spad then leNat (e.locs.map fun b => Bank.get ((s.stook? r.stook).getD default).scratch b.pa) else s.elemValue e
    let (s1, v, f) : State × Nat × FlagSet :=
      if e.skip then (s, 0, 0)
      else
        match r.op with
        | .load => (s, e.read, 0)
        | .store => (put s (e.write d), 0, 0)
        | .atom aop => (put s (e.write (atomNew aop e.width old d)), old, 0)
        | .cas => (if old = d then put s (e.write ((r.data.getD 1 0))) else s, old, 0)
        | .red rop flt rm =>
          if r.updateOnly then (s.addDelta core (r.delta e d), 0, 0)
          else (put s (e.write (if flt then redFloat e.fmt rop rm old d else foldWord rop e.width old d)), 0, 0)
        | .xred x =>
          if r.updateOnly then (s.addDelta core (r.delta e d), 0, 0)
          else
            let (v, nan, pinf, ninf) := xredValue x d
            (put s (e.write (packCell ((unpackCell old).add v nan pinf ninf))), 0, 0)
        | .xrd clr rsel =>
          let res := xrdResult rsel old
          (if clr then put s (e.write 0) else s, res.1, res.2)
    let rest := s1.performElems core r es (ds.drop 1)
    (rest.1, v :: rest.2.1, f ||| rest.2.2)

/-- A line read through L2 comes to the core's L1 as L2 has it (R134). -/
def State.fillFromL2 (s : State) (core pa reuse : Nat) : State :=
  match (s.die (dieOf core)).cache.find? fun x => x.line == lineOf pa with
  | some x => s.modCore core fun c => { c with cache := cacheFill (c.l1 * Config.l1LinesPerUnit) reuse x c.cache }
  | none => s

/-- Some events of a load happen (R133): each takes its word's bytes as they stand in front of the load, in the copy it uses,
or at the home, whose line then comes to L1 and L2 (R127). -/
def State.loadStep (s : State) (k : Stook) (r : Req) (qs : List (Nat × Nat × Option Nat)) : State × Req :=
  let home := qs.flatMap fun q => s.fromHome k r q
  let byte (b : ByteLoc) : Byte :=
    match s.front k r b with
    | some x => x
    | none => if home.contains b then s.byteAt 0 b else (s.copyByte k.core r b.pa).getD 0
  let read (j : Nat) (e : Elem) : Elem :=
    if e.skip then e
    else { e with known := (e.locs.zip e.known).map fun p =>
             if p.2.isNone && qs.contains (r.eventOf j p.1) then some (byte p.1) else p.2 }
  let lines := ((home.filter fun b => b.peer.isNone).map fun b => 64 * lineOf b.pa).eraseDups
  let copied := ((qs.filter fun q => !r.spad && s.takesCopy k.core r q.2
    && !((r.scope ≤ 1 || r.early) && (cacheByte (s.core k.core).cache (8 * q.2.1)).isSome)).map fun q => 64 * lineOf (8 * q.2.1)).eraseDups
  let r' := { r with elems := r.elems.mapIdx read }
  let s := copied.foldl (fun s pa => s.fillFromL2 k.core pa r.reuse) s
  (lines.foldl (fun s pa => s.fillLine k.core pa r.reuse true) s, r')

/-- After a request is performed: an acquire discards copies; a load or a plain XRD makes the replica it asks for; an access at
the home drops its core's copies of the line, and its granary takes the line (R127, R128, R143, R144). -/
def State.afterPerform (s : State) (core : Nat) (r : Req) : State :=
  if r.spad then s
  else
    let s := if r.acquires then s.acquireAt core r.stook r.sheaf (maskOf [r.lane]) r.scope else s
    let lines := (r.pas.map fun pa => 64 * lineOf pa).eraseDups
    let replicate (s : State) : State := if r.repl then lines.foldl (fun s pa => s.addReplica core r.ctx r.launch pa) s else s
    match r.op with
    | .load => replicate s
    | .store => lines.foldl (fun s pa => s.touchGranary pa r.reuse) s
    | .xrd false _ => replicate (lines.foldl (fun s pa => s.touchGranary pa r.reuse) (s.dropCopies core lines))
    | _ => lines.foldl (fun s pa => s.touchGranary pa r.reuse) (s.dropCopies core lines)

/-- The event of a containment error met by a request. -/
def State.reqFault (s : State) (core : Nat) (r : Req) (c : Cause) : FaultRec :=
  let k := (s.stook? r.stook).getD default
  let h := k.sheaf r.sheaf
  { (default : FaultRec) with
    cause := c, ctx := r.ctx, launch := r.launch, stookId := k.stookId, uid := r.stook, sheaf := r.sheaf, core := core,
    slot := h.slot, pc := (h.lane r.lane).pc, lanes := maskOf [r.lane], va := (r.elems.head?.map Elem.va).getD 0,
    kind := if r.op == .load then .read else if r.op == .store then (if r.opcode / 8 = 0x20 then .copyDst else .write) else .rmw }

def State.setReq (s : State) (core : Nat) (r : Req) : State :=
  s.modCore core fun c => { c with reqs := c.reqs.map fun q => if q.id == r.id then r else q }

def State.dropReq (s : State) (core id : Nat) : State :=
  s.modCore core fun c => { c with reqs := c.reqs.filter fun q => q.id != id, stores := c.stores.filter fun q => q.id != id }

/-- The bytes that performing a request reads at their homes now. -/
def State.readsAt (s : State) (k : Stook) (r : Req) (qs : List (Nat × Nat × Option Nat)) : List ByteLoc :=
  if r.spad || r.op == .store || r.updateOnly then []
  else if r.op == .load then qs.flatMap fun q => s.fromHome k r q
  else r.locs

/-- The events of a load that happen together: the first that can, and which others is free, in a fragment how many. -/
def State.pickEvents (s : State) (k : Stook) (r : Req) : List (Nat × Nat × Option Nat) :=
  let qs := if r.op == .load then s.loadEvents k r else []
  let also (q : Nat × Nat × Option Nat) : Bool := Config.freeHit (s.free + 1) (q.1 * 2 ^ 48 + q.2.1)
  qs.take 1 ++ if r.opcode = 0x088 then (qs.drop 1).takeWhile also else (qs.drop 1).filter also

/-- Claims and snapshots of granules that a request did not write, that its launch has not written and that no other write of it under
way keeps, are given up: only a granule that the launch writes belongs to its region (R298). -/
def State.dropClaims (s : State) (r : Req) : State :=
  let mine (g : Nat) (q : Req) : Bool := q.id != r.id && q.ctx == r.ctx && q.launch == r.launch && !q.performed && !q.spad
    && q.writes && q.locs.any fun b => granuleOf b.pa == g
  let delta (g : Nat) (d : Delta) : Bool := d.ctx == r.ctx && d.launch == r.launch && d.locs.any fun b => granuleOf b.pa == g
  let kept (g : Nat) : Bool :=
    (s.cores.any fun c => c.reqs.any (mine g) || c.stores.any (mine g) || c.left.any (mine g) || c.deltas.any (delta g)
      || c.copies.any fun x => x.writes.any (mine g))
    || (s.dies.any fun d => d.deltas.any (delta g))
    || s.stooks.any fun k => k.rerun.isNone && (k.heldStores.any (mine g) || k.sheaves.any fun h => h.queue.any (mine g))
  { s with snapshots := s.snapshots.filter fun x => !((x.claim || (x.la && !x.used)) && x.ctx == r.ctx && x.launch == r.launch
      && (r.locs.any fun b => granuleOf b.pa == x.granule) && !kept x.granule) }

/-- A request is performed at its home (R134, R144): its writes take their place in coherence order, its result is fixed; a
load goes on until all its events have happened. The deltas it meets are combined first. A lasting read error, or a peer to
which no link is up, is delivered instead, and no lane receives data (R255, R358, R387). -/
def State.perform (s : State) (core : Nat) (r : Req) (sector : SectorRead) : State :=
  let k := (s.stook? r.stook).getD { (default : Stook) with core := core }
  let qs := s.pickEvents k r
  let reads := s.readsAt k r qs
  let lost := if !r.spad && (r.op == .store || r.updateOnly) && s.peerLost r.locs then some Cause.peerDown else none
  let (cause, s) := if reads.isEmpty then (lost, s) else s.readSectors core reads sector
  match cause with
  | some c => (s.dropReq core r.id).containError (s.reqFault core r c)
  | none =>
    let s := s.combineIf fun d => r.combines d && (r.op != .load || d.locs.any fun l => reads.any fun b => b.pa / 8 == l.pa / 8 && b.peer == l.peer)
    let s := if r.persists then s.releaseDurable else s
    let (s, r) := if r.op == .load then s.loadStep k r qs else (s, r)
    let s : State := { s with free := s.free + 8 }
    if r.op == .load && !r.eventsLeft.isEmpty then s.setReq core r
    else
      let (s, vs, f) := s.performElems core r r.elems r.data
      let s := if r.op == .cas && vs.head? != r.data.head? then s.dropClaims r else s
      let s := s.afterPerform core r
      if r.silent then s.dropReq core r.id
      else s.setReq core { r with performed := true, result := vs, flags := f }

/-! ### Delivery -/

/-- The table entry a codebook index selects, NaNs canonical (R71). -/
def cbExpand (fmt : Nat) (raw shift : Nat) (entry : List Byte) : Nat :=
  let k := natField raw shift (fmtBits fmt)
  let v := leNat [entry.getD (2 * k) 0, entry.getD (2 * k + 1) 0]
  if (fmtBF16.unpack v).isNan then fmtBF16.canon else v

/-- The registers an element becomes under an access format, with the flags of its conversion (R253). DESIGN CHOICE (log entry 59):
under AF 5 from F32 and AF 6 from F64 a quiet NaN with a payload becomes the canonical one (R65), though R253 calls the load
exact. -/
def elemRegs (af fmt : Nat) (v : Nat) : List Word × FlagSet :=
  let w (n : Nat) : Word := BitVec.ofNat 32 n
  if af = 5 then let r := fCvt 0x12 fmt 0 v; ([w r.1], r.2)
  else if af = 6 then let r := fCvt 0x13 fmt 0 v; ([w r.1, w (r.1 >>> 32)], r.2)
  else if af = 4 then ([w v, w (v >>> 32)], 0)
  else if 1 ≤ af then ([w v], 0)
  else if fmt = 0x20 then ([w v, w (v >>> 32), w (v >>> 64)], 0)
  else if fmtBits fmt = 64 then ([w v, w (v >>> 32)], 0)
  else if fmt = 0 || fmt = 2 then ([BitVec.ofInt 32 (signedOf (fmtBits fmt) v)], 0)
  else ([w v], 0)

/-- The registers a performed load's elements become. -/
def Req.loadRegs (r : Req) : List Word × FlagSet :=
  (r.elems.zip r.result).foldl (fun acc p =>
    let e := p.1
    let per := regsPerElem r.af e.fmt
    if e.skip then (acc.1 ++ List.replicate per 0, acc.2)
    else
      let cb := e.fmt = 0x21 || e.fmt = 0x22
      let v := if cb then cbExpand e.fmt p.2 e.shift ((e.side.bind SideRef.entry).getD []) else p.2
      let x := elemRegs r.af (if cb then 0x11 else e.fmt) v
      (acc.1 ++ x.1, acc.2 ||| x.2)) ([], 0)

/-- A matrix fragment's registers (R246): 16-bit elements and I8 bytes packed, 32-bit ones and LG6 words in order. -/
def Req.fragWords (r : Req) : List Word :=
  let vals := (r.elems.zip r.result).map fun p =>
    if p.1.skip then 0
    else if p.1.fmt = 0x21 || p.1.fmt = 0x22 then cbExpand p.1.fmt p.2 p.1.shift ((p.1.side.bind SideRef.entry).getD [])
    else p.2
  let fmt := (r.elems.head?.map Elem.fmt).getD 0
  let w := if fmt = 0x21 || fmt = 0x22 then 16 else if fmt = 0x20 then 96 else fmtBits fmt
  let total := vals.foldr (fun v acc => v % 2 ^ w + 2 ^ w * acc) 0
  (List.range ((w * vals.length + 31) / 32)).map fun j => BitVec.ofNat 32 (total >>> (32 * j))

/-- The registers and flags a performed request writes. -/
def Req.regs (r : Req) : List Word × FlagSet :=
  match r.op with
  | .load => if r.opcode = 0x088 then (r.fragWords, 0) else r.loadRegs
  | _ =>
    let e := (r.elems.head?).getD default
    let v := r.result.headD 0
    (if e.width = 64 then [BitVec.ofNat 32 v, BitVec.ofNat 32 (v >>> 32)] else [BitVec.ofNat 32 v], r.flags)

/-- Registers written by a result that arrives for a lane: it writes them, raises its flags, clears their marks and
finishes the lane's part of its issue, in one event; for a lane that has exited it is discarded (R26, R28, R119, R160). -/
def State.deliver (s : State) (u i l id issue : Nat) (dest : OpCode7) (ws : List Word) (f : FlagSet) : State :=
  let exited := (s.stook? u).isNone || ((s.sheafAt u i).lane l).exitIssued
  let regs := (List.range ws.length).map fun j => dest.toNat + j
  let s := if exited then s else regs.foldl (fun s r => s.bindReg u i r (maskOf [l])) s
  s.modSheaf u i fun h =>
    let h := if exited then h else (h.writeGroup l dest.toNat ws).raise f
    (h.unpend (maskOf [l]) [id]).finishLanes issue (maskOf [l])

end Sys2Proof.Machine
end

