-- ==== Sys2Proof/Machine/Tx.lean ====
section
/-! DEFINITION. Transactional accesses (12 R270 to R276, R286, R289; 11 R258, R261 to R263): reads and writes of a lane's
logs, word locks of locked transactions. -/

namespace Sys2Proof.Machine

open Sys2Proof

/-- What a step of a transactional access came to: it goes on, the lane waits, or the lane has aborted. -/
inductive TxRes (α : Type) where
  | ok (s : State) (a : α)
  | wait (s : State)
  | aborted (s : State)

def State.abortLane (s : State) (r : LaneRef) (code : Nat) : State := s.abortLanes r.stook r.sheaf (maskOf [r.lane]) code

/-- The lane's transaction state. -/
def State.tx (s : State) (r : LaneRef) : TxState := (s.laneAt r).tx
def State.modTx (s : State) (r : LaneRef) (f : TxState → TxState) : State := s.modLane r fun x => { x with tx := f x.tx }

/-- The descriptor of a lane's launch. -/
def State.descOf (s : State) (r : LaneRef) : Desc := (((s.stook? r.stook).map fun k => s.launchOf k).getD default).desc

/-- Accesses of a word that a lane's sheaf has issued, or stores that its core has seen, are still to be performed: a
transactional access of the word follows them (R134, R136). -/
def State.wordBusy (s : State) (r : LaneRef) (w : Nat) : Bool :=
  let k := (s.stook? r.stook).getD default
  let touches (q : Req) : Bool := !q.spad && !q.performed && q.words.contains (w, none)
  ((s.core k.core).reqs.any fun q => q.stook == r.stook && q.sheaf == r.sheaf && touches q) || (s.seenStores k).any touches
    || (k.sheaf r.sheaf).queue.any touches

/-- The lanes of an issue of TEND or TVAL that are still at it; with `done` given, those in that state. -/
def Sheaf.committers (h : Sheaf) (group : Nat) (done : Option Bool) : LaneMask :=
  h.lanesWhere fun x => match x.hold with
    | some (.commit _ g d) => g = group && (done.all fun q => q == d)
    | _ => false

/-- A locked lane at its outermost TEND is writing: it is its turn among the lanes of the issue, and what its commit must follow is
performed (R277, R278, R286). -/
def State.writingTx (s : State) (r : LaneRef) : Bool :=
  let x := s.laneAt r
  match x.hold with
  | some (.commit (.tend _) g false) =>
    x.tx.depth = 1 && (lanesOf ((s.sheafAt r.stook r.sheaf).committers g (some false))).head? == some r.lane && s.released r 3 g
  | _ => false

/-- The lane of the other twin that stands for the same transaction (R384). -/
def State.twinLane (s : State) (r : LaneRef) : Option LaneRef :=
  (((s.stook? r.stook).bind Stook.twin).filter fun t => (s.stook? t).isSome).map fun t => { r with stook := t }

/-- A lane aborts, and with it the same lane of its twin. -/
def State.abortTwins (s : State) (r : LaneRef) (code : Nat) : State :=
  let twin := (s.twinLane r).filter fun t => 0 < (s.laneAt t).tx.depth
  let s := s.abortLane r code
  match twin with
  | some t => s.abortLane t code
  | none => s

/-- A locked transaction's request for a word's lock (R286): a younger holder is wounded wherever it is held (R283), unless it is
writing at its TEND. Two twins hold a lock together (R384). -/
def State.takeLock (s : State) (r : LaneRef) (pa : Nat) : TxRes Unit :=
  let mine : WordLock := { pa := pa, holder := r, commit := false, ticket := (s.tx r).ticket }
  match s.locks.find? fun k => k.pa == pa with
  | none => .ok { s with locks := s.locks ++ [mine] } ()
  | some k =>
    if k.holder == r || s.twinLane r == some k.holder then .ok s ()
    else if k.commit || s.writingTx k.holder then .wait s
    else if (s.tx r).ticket < k.ticket then
      let s := s.abortTwins k.holder 0x08
      .ok { s with locks := s.locks ++ [mine] } ()
    else .wait s

/-- A word of a log by its virtual address. -/
def logFind (l : List LogEntry) (va : Nat) : Option LogEntry := l.find? fun e => e.va == va

/-- A byte of a value, and a value with one byte replaced. -/
def byteOf (x : DWord) (k : Nat) : Byte := x.extractLsb' (8 * k) 8
def setByte (x : DWord) (k : Nat) (b : Byte) : DWord :=
  (x &&& ~~~(0xFF#64 <<< (8 * k))) ||| (b.setWidth 64 <<< (8 * k))

/-- A transactional read of an aligned word (R274): the lane's own view of its eight bytes. `va` and `pa` are the word's
addresses. A lasting error of its sector stops the lane (R387). -/
def State.txReadWord (s : State) (r : LaneRef) (va pa key reuse : Nat) : TxRes DWord :=
  let x := s.tx r
  let we := logFind x.writes va
  let view (base : DWord) : DWord :=
    match we with
    | none => base
    | some e => (List.range 8).foldl (fun v k => if e.bytes.getLsbD k then setByte v k (byteOf e.value k) else v) base
  match we with
  | some e => if e.bytes == BitVec.allOnes 8 then .ok s e.value else rest s x view
  | none => rest s x view
where
  rest (s : State) (x : TxState) (view : DWord → DWord) : TxRes DWord :=
    match logFind x.reads va with
    | some e => .ok s (view e.value)
    | none =>
      if s.wordBusy r (pa / 8) then .wait s
      else if s.locks.any fun k => k.pa == pa && k.commit && !(k.holder == r) then .wait s
      else if (s.descOf r).txReads ≤ x.reads.length then .aborted (s.abortLane r 0x02)
      else
        match (if x.locked then s.takeLock r pa else .ok s ()) with
        | .wait s => .wait s
        | .aborted s => .aborted s
        | .ok s _ =>
          let pas := (List.range 8).map fun k => pa + k
          let locs : List ByteLoc := pas.map fun a => { pa := a, peer := none, la := false, key := key }
          let core := ((s.stook? r.stook).getD default).core
          match s.readSectors core locs .good with
          | (some c, s) => .aborted (s.takeFault { stook := r.stook, sheaf := r.sheaf, lanes := maskOf [r.lane] } 0 c { va := va, kind := .read })
          | (none, s) =>
            let s := ((s.combine pas).dropCopies core pas).touchGranary pa reuse
            let v := BitVec.ofNat 64 (s.homeWord pa)
            let e : LogEntry := { value := v, bytes := BitVec.allOnes 8, lock := x.locked, va := va, pa := pa, key := key, reuse := reuse }
            .ok (s.modTx r fun x => { x with reads := x.reads ++ [e] }) (view v)

/-- A transactional write of some bytes of an aligned word (R275, R289, R299). DESIGN CHOICE: a write to a second NV stack that
also finds the write log full aborts with NV_SPAN (log entry 55). -/
def State.txWriteWord (s : State) (r : LaneRef) (va pa : Nat) (la : Bool) (key reuse : Nat) (bytes : List (Nat × Byte)) : TxRes Unit :=
  let x := s.tx r
  let merge (e : LogEntry) : LogEntry := bytes.foldl (fun e b =>
    { e with value := setByte e.value b.1 b.2, bytes := e.bytes ||| (1#8 <<< b.1) }) e
  let stack := nvStack pa + 1
  if inNv pa && x.nvstack != 0 && x.nvstack != stack then .aborted (s.abortLane r 0x07)
  else
    match logFind x.writes va with
    | some _ => .ok (s.modTx r fun x => { x with writes := x.writes.map fun e => if e.va == va then merge e else e }) ()
    | none =>
      if (s.descOf r).txWrites ≤ x.writes.length then .aborted (s.abortLane r 0x03)
      else
        match (if x.locked then s.takeLock r pa else .ok s ()) with
        | .wait s => .wait s
        | .aborted s => .aborted s
        | .ok s _ =>
          let k := (s.stook? r.stook).getD default
          let b : ByteLoc := { pa := pa, peer := none, la := la, key := 0 }
          if s.laBusy k.ctx k.launch b then .aborted (s.abortLane r 0x05)
          else
          let s := (if s.needsSnap k.ctx k.launch b == some true then s.takeSnap k.ctx k.launch (granuleOf pa) true else s).useSnaps
            k.ctx k.launch [b]
          let e : LogEntry := merge { value := 0, bytes := 0, lock := x.locked, va := va, pa := pa, key := key, reuse := reuse }
          .ok (s.modTx r fun x => { x with writes := x.writes ++ [e], nvstack := if inNv pa && x.nvstack = 0 then stack else x.nvstack }) ()

/-- The aligned words an element touches: word addresses (virtual, physical), page attributes, and the element's bytes in
each, as (byte of the element, byte of the word). -/
def Elem.txWords (e : Elem) : List (Nat × ByteLoc × List (Nat × Nat)) :=
  let vs := ((List.range e.locs.length).map fun j => (e.va + j) / 8).eraseDups
  vs.map fun w =>
    let js := (List.range e.locs.length).filter fun j => (e.va + j) / 8 == w
    let l := e.locs.getD (js.headD 0) default
    (8 * w, { l with pa := l.pa / 8 * 8 }, js.map fun j => (j, (e.va + j) % 8))

/-- The bytes of an element as the lane's own view has them: by byte of the element. -/
def State.txRead (s : State) (r : LaneRef) (reuse : Nat) : List (Nat × ByteLoc × List (Nat × Nat)) → TxRes (List (Nat × Byte))
  | [] => .ok s []
  | (va, l, js) :: rest =>
    match s.txReadWord r va l.pa l.key reuse with
    | .wait s => .wait s
    | .aborted s => .aborted s
    | .ok s v =>
      match s.txRead r reuse rest with
      | .wait s => .wait s
      | .aborted s => .aborted s
      | .ok s bs => .ok s ((js.map fun j => (j.1, byteOf v j.2)) ++ bs)

def State.txWrite (s : State) (r : LaneRef) (reuse v : Nat) : List (Nat × ByteLoc × List (Nat × Nat)) → TxRes Unit
  | [] => .ok s ()
  | (va, l, js) :: rest =>
    match s.txWriteWord r va l.pa l.la l.key reuse (js.map fun j => (j.2, BitVec.ofNat 8 (v >>> (8 * j.1)))) with
    | .wait s => .wait s
    | .aborted s => .aborted s
    | .ok s _ => s.txWrite r reuse v rest

/-- The number a list of numbered bytes stands for. -/
def bytesValue (bs : List (Nat × Byte)) : Nat := bs.foldl (fun a b => a + b.2.toNat * 256 ^ b.1) 0

/-- A transactional access of one element (R270, R275): its result and flags. -/
def State.txElem (s : State) (r : LaneRef) (q : Req) (e : Elem) (d : Nat) : TxRes (Nat × FlagSet) :=
  if e.skip then .ok s (0, 0)
  else
    let ws := e.txWords
    let withOld (f : Nat → Option Nat) (res : Nat → Nat × FlagSet) : TxRes (Nat × FlagSet) :=
      match s.txRead r q.reuse ws with
      | .wait s => .wait s
      | .aborted s => .aborted s
      | .ok s bs =>
        let o := bytesValue bs
        match f o with
        | none => .ok s (res o)
        | some n => match s.txWrite r q.reuse n ws with
          | .wait s => .wait s
          | .aborted s => .aborted s
          | .ok s _ => .ok s (res o)
    match q.op with
    | .load => withOld (fun _ => none) fun o => (o, 0)
    | .store => match s.txWrite r q.reuse d ws with
      | .wait s => .wait s
      | .aborted s => .aborted s
      | .ok s _ => .ok s (0, 0)
    | .atom aop => withOld (fun o => some (atomNew aop e.width o d)) fun o => (o, 0)
    | .cas => withOld (fun o => if o = d then some (q.data.getD 1 0) else none) fun o => (o, 0)
    | .red rop flt rm =>
      withOld (fun o => some (if flt then redFloat e.fmt rop rm o d else foldWord rop e.width o d)) fun _ => (0, 0)
    | .xred x =>
      let (v, nan, pinf, ninf) := xredValue x d
      withOld (fun o => some (packCell ((unpackCell o).add v nan pinf ninf))) fun _ => (0, 0)
    | .xrd clr rsel => withOld (fun _ => if clr then some 0 else none) (xrdResult rsel)

/-- A lane's transactional access: every element in turn; the results and flags. -/
def State.txElems (s : State) (r : LaneRef) (q : Req) : List Elem → List Nat → TxRes (List Nat × FlagSet)
  | [], _ => .ok s ([], 0)
  | e :: es, ds =>
    match s.txElem r q e (ds.headD 0) with
    | .wait s => .wait s
    | .aborted s => .aborted s
    | .ok s v =>
      match s.txElems r q es (ds.drop 1) with
      | .wait s => .wait s
      | .aborted s => .aborted s
      | .ok s vs => .ok s (v.1 :: vs.1, v.2 ||| vs.2)

end Sys2Proof.Machine
end

