-- ==== Sys2Proof/Machine/Zmix.lean ====
section
/-! DEFINITION. ZMIX (07 R176, R177). -/

namespace Sys2Proof.Machine

open Sys2Proof

/-- ZMIX of a key, a stream and a counter (R176). -/
def zmix (k s c : DWord) : DWord :=
  let h := (k ^^^ s.rotateLeft 23) * 0x3A71C8E40D96B25F#64
  let h := h ^^^ (h >>> 29)
  let x := c + h
  let x := x ^^^ (x >>> 31)
  let x := x * 0x8F4D2A6BE317C5A9#64
  let x := x + s * 0xE5B42F0791AC6D33#64
  let x := x ^^^ (x >>> 27)
  let x := x * 0xD1A57B3946EC0F83#64
  let x := x ^^^ (x >>> 33)
  x ^^^ k

/-- The streams of R177: deterministic placement, sampled checks, PAIRED secondaries. -/
def streamPlace : DWord := 0x8000000000000000
def streamSample : DWord := 0x8000000000000001
def streamPaired : DWord := 0x8000000000000003

/-- The watermark term of an aligned word stored: its address, the mask of bytes written, its value with unwritten bytes
zero (R177, R384). -/
def watermarkTerm (seed : DWord) (addr mask : Nat) (v : DWord) : DWord :=
  zmix seed (BitVec.ofNat 64 (2 ^ 63 + mask * 2 ^ 55 + addr)) v

end Sys2Proof.Machine
end

