-- ==== Sys2Proof/Machine/MemWord.lean ====
section
/-! DEFINITION. A memory word issued for a path: the per-lane checks of R254 in order, parking on a translation miss
(11 R255; 21 R369, R370), the requests of the lanes that go on, in ascending lane order (06 R136). -/

namespace Sys2Proof.Machine

open Sys2Proof

/-- What a memory word asks of each lane. `via` is none for the scratchpad; `regs` counts the registers a result will
write, `idx` and `data` give the lane's indices and its data. -/
structure Access where
  opcode : Nat
  op : ReqOp
  af : Nat
  dest : OpCode7
  regs : Nat
  via : Option Via
  shape : Shape
  idx : Nat → List Int
  data : Nat → List Nat
  need : Need
  kind : AccessKind
  scope : Nat
  order : Nat
  reuse : Nat
  repl : Bool
  sv : Nat
  rm : Nat
  tok : Nat
  /-- flags that converting the data of an element raises at issue (R253), by lane and element -/
  flags : Nat → List FlagSet

/-- What stops a lane before its access. -/
inductive LaneStop where
  | trap (c : Cause) (va : Nat) (level : Nat)
  | miss (va : Nat) (level : Nat) (elems : List Elem)
  | unsupported
  deriving Repr, Inhabited

/-- A byte of an interval a copy of the core has locked (R149): scratchpad offsets of the stook, or addresses of the
context. -/
def State.rangeLocked (s : State) (k : Stook) (spad : Bool) (lo n : Nat) : Bool :=
  (s.core k.core).copies.any fun c => c.state ≤ 3
    && (if spad then c.stook == k.uid else c.ctx == k.ctx)
    && c.ranges.any fun r => r.1 == spad && lo < r.2.2.1 && r.2.1 < lo + n

/-- The block-side entry of a block when the core holds it and the access finds it (R74), which is free; it is that of the
addresses given. -/
def State.bscFind (s : State) (k : Stook) (slot block : Nat) (vas : List Nat) : Option (List Byte) :=
  if sideCurrent k slot block vas && Config.freeHit s.free block then
    ((s.core k.core).bsc.find? fun e => e.live && e.place == k.place && e.slot == slot && e.block == block).bind BscEntry.entry
  else none

/-- The side reference of an element whose entry's bytes have some addresses, or what stops its lane (R72 to R74). -/
def State.sideRefAt (s : State) (k : Stook) (slot block : Nat) (vas : List Nat) : Except LaneStop (SideRef × List ByteLoc) :=
  let r := vas.foldl (fun acc va => match acc with
    | .error x => .error x
    | .ok ls => match s.locate k.core k.ctx va va { rd := true } with
      | .error (.xlateMiss, l) => .error (.miss va l [])
      | .error (c, l) => .error (.trap c va l)
      | .ok b => .ok (ls ++ [b])) (Except.ok [] : Except LaneStop (List ByteLoc))
  match r with
  | .error x => .error x
  | .ok ls =>
    if vas.isEmpty then .error (.trap .bounds 0 0)
    else .ok ({ place := k.place, slot := slot, block := block, vas := vas, fill := 0, entry := s.bscFind k slot block vas }, ls)

/-- The side reference of a codebook element by the records installed. -/
def State.sideRef (s : State) (k : Stook) (v : Via) (block : Nat) : Except LaneStop (SideRef × List ByteLoc) :=
  match sideEntry k v.record block with
  | .error c => .error (.trap c 0 0)
  | .ok vas => s.sideRefAt k v.slot block vas

/-- An element at a place, translated (check 8 of R254). DESIGN CHOICE (log entry 74): a data element that fails its translation stops
the lane before its side entry is judged, whose failures R254 gives no place among the checks. -/
def State.placeElem (s : State) (k : Stook) (a : Access) (p : Place) : Except LaneStop (Elem × List ByteLoc) :=
  let w := if a.shape.fmt = 0x20 then 96 else a.shape.bits
  let e (ls : List ByteLoc) (side : Option SideRef) : Elem :=
    { va := p.va, locs := ls, n := p.n, shift := p.shift, width := w, fmt := a.shape.fmt, side := side,
      known := List.replicate p.n none, skip := p.skip }
  match a.via with
  | none => .ok (e ((List.range p.n).map fun j => { pa := p.va + j, peer := none, la := false, key := 0 }) none, [])
  | some v =>
    if p.skip then .ok (e [] none, [])
    else
      match s.locateRange k.core k.ctx p.va p.n p.va a.need with
      | .error (.xlateMiss, l, va) => .error (.miss va l [])
      | .error (c, l, va) => .error (.trap c va l)
      | .ok ls =>
        if a.need.rd && (a.shape.fmt = 0x21 || a.shape.fmt = 0x22) then
          match s.sideRef k v p.block with
          | .error x => .error x
          | .ok (r, bs) => .ok (e ls (some r), bs)
        else .ok (e ls none, [])

/-- The elements of a list of places, translated in order. -/
def State.placeElems (s : State) (k : Stook) (a : Access) : List Place → Except LaneStop (List (Elem × List ByteLoc))
  | [] => .ok []
  | p :: ps =>
    match s.placeElem k a p with
    | .error x => .error x
    | .ok e => match s.placeElems k a ps with
      | .error x => .error x
      | .ok es => .ok (e :: es)

/-- An element before translation, as a replay entry holds it; its side entry's addresses are those of its issue (R80). -/
def Place.elem (p : Place) (k : Stook) (a : Access) : Elem :=
  let vas (v : Via) : List Nat := match sideEntry k v.record p.block with | .ok l => l | .error _ => []
  { va := p.va, locs := [], n := p.n, shift := p.shift, width := if a.shape.fmt = 0x20 then 96 else a.shape.bits,
    fmt := a.shape.fmt, known := [], skip := p.skip,
    side := if a.need.rd && (a.shape.fmt = 0x21 || a.shape.fmt = 0x22) && !p.skip then
        some { place := k.place, slot := (a.via.map Via.slot).getD 0, block := p.block, vas := (a.via.map vas).getD [], fill := 0, entry := none }
      else none }

/-- Whether the first byte an index names, if it names one, lies on a page of a peer (check 4 of R254); a record that clamps names
its first or last element by what lies outside it (R76). -/
def State.peerIndex (s : State) (k : Stook) (v : Via) (sh : Shape) (i : Int) : Bool :=
  let va : Option Nat :=
    if v.flat then (if 0 ≤ i && i < 2 ^ 55 then some i.toNat else none)
    else if 0 ≤ i && i < (recCount v.record : Int) then some (recBitpos v.record i / 8).toNat
    else match indexPlace v sh i with
      | .ok p => if p.skip then none else some p.va
      | .error _ => none
  match va with
  | none => false
  | some va => match s.translate k.core k.ctx va va with
    | .leaf _ e => ptePEER e
    | .fail _ _ => false

/-- The address that the first element failing check 5 or 6 names (R368). DESIGN CHOICE: of an index outside its record, the address
that R76 computes from the index as it stands (log entry 52). -/
def Access.faultVa (a : Access) (k : Stook) (d : Desc) (l : Nat) (c : Cause) : Nat :=
  let sh := a.shape
  let outside (i : Int) : Bool := match a.via with
    | none => !spadInside k d i (sh.bits / 8)
    | some v => if v.flat then !(0 ≤ i && i < 2 ^ 55) else match indexPlace v sh i with | .error _ => true | .ok _ => false
  let skewed (i : Int) : Bool := match a.via with
    | some v => if v.flat then i % sh.align != 0 else !indexAligned v sh i
    | none => i % sh.align != 0
  match (a.idx l).find? (if c == .misaligned then skewed else outside) with
  | none => 0
  | some i => ((match a.via with | some v => if v.flat then i else recBitpos v.record i / 8 | none => i) % 2 ^ 55).toNat

/-- Checks 4 to 8 of R254 for one lane, `locks` telling whether range locks count, and LA_BUSY (R299). -/
def State.laneElems (s : State) (k : Stook) (a : Access) (tx locks : Bool) (l : Nat) : Except LaneStop (List (Elem × List ByteLoc)) :=
  let places := match a.via with
    | none => spadPlaces k (s.launchOf k).desc a.shape (a.idx l)
    | some v => lanePlaces v a.shape (a.idx l)
  if tx && (a.via.all fun v => (a.idx l).any fun i => s.peerIndex k v a.shape i) && a.via.isSome then .error .unsupported
  else match places with
  | .error c => .error (.trap c (a.faultVa k (s.launchOf k).desc l c) 0)
  | .ok ps =>
    if locks && ps.any fun p => !p.skip && s.rangeLocked k a.via.isNone p.va p.n then
      .error (.trap .rangeLock ((ps.head?.map Place.va).getD 0) 0)
    else
      match s.placeElems k a ps with
      | .error (.miss va level _) => .error (.miss va level (ps.map fun p => p.elem k a))
      | .error x => .error x
      | .ok es =>
        let locs := es.flatMap fun e => e.1.locs
        if a.need.wr && a.via.isSome && locs.any fun b => s.laBusy k.ctx k.launch b then
          .error (.trap .laBusy ((ps.head?.map Place.va).getD 0) 0)
        else .ok es

/-! ### Parking (R255, R369, R370) -/

/-- A lane parks at its word with XLATE_MISS; it goes on `n` words further once its fault is acknowledged (R35, R255). -/
def Sheaf.parkLane (h : Sheaf) (l n tag : Nat) (fault : Word) : Sheaf :=
  ((h.finishHeld (maskOf [l])).parkIssues (maskOf [l])).modLane l fun x =>
    { x with tag := tag, stop := some { cause := .xlateMiss, fault := fault, resume := x.pc + BitVec.ofNat 32 n } }

/-! ### Watermarks of stores (R384, R385) -/

/-- The term of an aligned word that a store writes, given as its bytes with their number; a byte's place in its word is that of its
address. -/
def wordTerm (seed : DWord) (e : Elem) (v : Nat) : DWord :=
  let bytes := (e.locs.map fun b => b.pa % 8).zip (leBytes e.locs.length v)
  watermarkTerm seed (e.va / 8 * 8) (bytes.foldl (fun m b => m ||| 2 ^ b.1) 0)
    (BitVec.ofNat 64 (bytes.foldl (fun x b => x + b.2.toNat * 256 ^ b.1) 0))

/-- The sum of a store's terms, one for each aligned word it writes (R384), and its elements. -/
def Req.term (r : Req) (seed : DWord) : DWord := (r.parts.map fun p => wordTerm seed p.1 p.2).foldl (fun a b => a + b) 0
def Req.stored (r : Req) : Nat := (r.elems.filter fun e => !e.skip).length

/-- The digest of a stook of a PURE launch takes in a store (R385). -/
def State.sumStore (s : State) (r : Req) : State :=
  match s.stook? r.stook with
  | none => s
  | some k =>
    let d := (s.launchOf k).desc
    if r.spad || !d.pure then s
    else s.modStook r.stook fun k => { k with digest := k.digest + r.term d.seed, stores := k.stores + r.stored }

/-- The window of a twin takes in a store (R384). -/
def Stook.sumWindow (k : Stook) (seed : DWord) (r : Req) : Stook :=
  { k with window := k.window + r.term seed, windowStores := k.windowStores + r.stored }

/-! ### The requests of the lanes -/

/-- The request of a lane. -/
def Access.req (a : Access) (k : Stook) (p : Focus) (l id issue : Nat) (tx : Bool) (epoch : Nat) (es : List Elem) : Req :=
  { id := id, born := id, ctx := k.ctx, launch := k.launch, stook := k.uid, sheaf := p.sheaf, lane := l, issue := issue,
    opcode := a.opcode, op := a.op, af := a.af, dest := a.dest, elems := es, data := a.data l,
    scope := if a.via.isNone then min a.scope 1 else a.scope, order := a.order, reuse := a.reuse, repl := a.repl, sv := a.sv,
    rm := a.rm, tx := tx, spad := a.via.isNone, epoch := epoch, also := [], early := false, performed := false, result := [], flags := 0,
    mirror := k.secondary && k.rerun.isNone && a.via.isSome && !(a.op == .load) }

/-- A missing block-side entry is asked for (R74): the number of its fill. An entry by records that are installed no more is not
kept. -/
def State.askSide (s : State) (k : Stook) (t : SideRef) (locs : List ByteLoc) : Nat × State :=
  let live := sideCurrent k t.slot t.block t.vas
  let reuse := (((k.record? t.slot).bind fun r => k.record? (recSide r)).map recReuse).getD 0
  let same (b : BscEntry) : Bool := b.live && b.place == t.place && b.slot == t.slot && b.block == t.block
  match (s.core k.core).bsc.find? fun b => live && same b && b.entry.isNone with
  | some b => (b.id, s)
  | none =>
    let fill : BscEntry :=
      { id := s.next, live := live, reuse := reuse, place := t.place, slot := t.slot, block := t.block, entry := none, ctx := k.ctx, locs := locs }
    (s.next, State.modCore { s with next := s.next + 1 } k.core fun c =>
      { c with bsc := (c.bsc.filter fun b => !(live && same b)) ++ [fill] })

/-- The elements of a lane, those whose table entry is missing waiting for its fill. -/
def State.askSides (s : State) (k : Stook) (es : List (Elem × List ByteLoc)) : List Elem × State :=
  es.foldl (fun acc e => match e.1.side with
    | some t =>
      if t.entry.isSome then (acc.1 ++ [e.1], acc.2)
      else
        let (n, s) := acc.2.askSide k t e.2
        (acc.1 ++ [{ e.1 with side := some { t with fill := n } }], s)
    | none => (acc.1 ++ [e.1], acc.2)) ([], s)

/-- The registers a request will write are marked pending for its lane (R28). -/
def Sheaf.mark (h : Sheaf) (l : Nat) (dest : OpCode7) (n id : Nat) : Sheaf :=
  h.modLane l fun x => { x with pending := x.pending ++ (List.range n).map fun j => (dest.toNat + j, id) }

/-- A request enters the memory system: a store its sheaf's queue, a load or atomic the core's requests. A load may have its
lines brought to L1 at once, ahead of what must be performed before it; whether it does is free (R138). -/
def State.enqueue (s : State) (core : Nat) (r : Req) : State :=
  if r.op == .store then (s.sumStore r).modSheaf r.stook r.sheaf fun h => { h with queue := h.queue ++ [r] }
  else
    let early := r.op == .load && !r.spad && r.reuse != 3 && Config.freeHit s.free r.id
    let s := if early then ((r.pas.map fun pa => 64 * lineOf pa).eraseDups).foldl (fun s pa => s.fillLine core pa r.reuse true) s else s
    s.modCore core fun c => { c with reqs := c.reqs ++ [{ r with early := early }] }

/-- A fence that held a lane's access has its condition met: one that releases at DURABLE scope has released (R293), and with one that
acquires the copies that the lane could read go once more (R140, R143). -/
def State.passFence (s : State) (core : Nat) (r : LaneRef) : State :=
  match (s.laneAt r).fence with
  | some (scope, order, _) =>
    let s := if 2 ≤ order && scope = 6 then s.releaseDurable else s
    (if order % 2 = 1 then s.acquireAt core r.stook r.sheaf (maskOf [r.lane]) scope else s).modLane r fun x => { x with fence := none }
  | none => s

/-- Whether a request's address lies in NV: its lane then has an NV store since its last PBAR.SYNC (R294). -/
def Access.nvStore (a : Access) (es : List Elem) : Bool :=
  a.via.isSome && a.need.wr && es.any fun e => e.locs.any fun b => b.peer.isNone && inNv b.pa

/-- One lane's access enters the memory system, outside a transaction: what writes no register counts on no token (R26, R251). -/
def State.issueLane (s : State) (a : Access) (k : Stook) (p : Focus) (issue : Nat) (l : Nat) (es : List (Elem × List ByteLoc)) : State :=
  let id := s.next
  let x := (s.sheafAt p.stook p.sheaf).lane l
  let s := State.passFence { s with next := id + 1 } k.core { stook := p.stook, sheaf := p.sheaf, lane := l }
  let (els, s) := s.askSides k es
  let r := a.req k p l id issue false x.epoch els
  let s := es.foldl (fun s e => s.touchTlb k.core k.ctx e.1.va) s
  let s := if a.need.wr && !r.spad && k.rerun.isNone then s.claimSnaps k.ctx k.launch r.locs else s
  let s := s.modSheaf p.stook p.sheaf fun h =>
    (h.mark l a.dest a.regs id).modLane l fun x => { x with nvSince := x.nvSince || a.nvStore r.elems }
  s.enqueue k.core r

/-- A transactional access of a word of `n` 32-bit words: performed at once against the lane's logs, or the lane waits at
its word, or it has aborted, an access of a peer's page with UNSUPPORTED (R258). -/
def State.txGo (s : State) (ref : LaneRef) (r : Req) (n : Nat) : State :=
  let hold (s : State) : State := s.modLane ref fun x => { x with hold := some (.txwait r n), issue := r.issue }
  let one : LaneMask := maskOf [ref.lane]
  if r.locs.any fun b => b.peer.isSome then
    (s.abortLane ref 0x06).modSheaf ref.stook ref.sheaf fun h => (h.unpend one [r.id]).finishLanes r.issue one
  else if r.elems.any fun e => e.side.any fun t => t.entry.isNone then hold s
  else
    match s.txElems ref r r.elems r.data with
    | .wait s => hold s
    | .aborted s => s.modSheaf ref.stook ref.sheaf fun h => (h.unpend one [r.id]).finishLanes r.issue one
    | .ok s v =>
      let r := { r with performed := true, result := v.1, flags := v.2 }
      let s := s.modSheaf ref.stook ref.sheaf fun h =>
        (h.modLanes one fun _ x => { x with hold := none, issue := 0 }).nextLanes one n fun _ => none
      if r.silent then s.modSheaf ref.stook ref.sheaf fun h => h.finishLanes r.issue one
      else s.deliver ref.stook ref.sheaf ref.lane r.id r.issue r.dest r.regs.1 r.regs.2

/-- One lane's transactional access at its issue. -/
def State.txLane (s : State) (a : Access) (i : Instr) (k : Stook) (p : Focus) (issue : Nat) (l : Nat) (es : List (Elem × List ByteLoc)) : State :=
  let ref : LaneRef := { stook := p.stook, sheaf := p.sheaf, lane := l }
  let id := s.next
  let (els, s) := State.askSides { s with next := id + 1 } k es
  s.txGo ref (a.req k p l id issue true 0 els) i.size

/-- The flags of the conversions of a store's elements that are not dropped (R253). -/
def Access.raised (a : Access) (l : Nat) (es : List Elem) : FlagSet :=
  (es.zip (a.flags l)).foldl (fun f p => if p.1.skip then f else f ||| p.2) 0

/-- The traps of a list of lanes, one event for each cause (R367). -/
def State.trapLanes (s : State) (p : Focus) (n : Nat) (kind : AccessKind) (ts : List (Nat × Cause × Nat × Nat)) : State :=
  ((ts.map fun t => t.2.1).eraseDups).foldl (fun s c =>
    let mine := ts.filter fun t => t.2.1 == c
    let first := mine.headD (0, c, 0, 0)
    s.takeFault { p with lanes := maskOf (mine.map fun t => t.1) } n c
      { detail := BitVec.ofNat 32 first.2.2.2, va := first.2.2.1, kind := kind }) s

/-- Lanes that miss park, each with its access in the replay buffer (R255, R370). -/
def State.parkMisses (s : State) (a : Access) (i : Instr) (k : Stook) (p : Focus) (tx : LaneMask) (ms : List (Nat × Nat × Nat × List Elem)) : State :=
  ms.foldl (fun s m =>
    let (l, va, level, es) := m
    let id := s.next
    let lanes := maskOf ((ms.filter fun q => q.2.1 / 65536 == va / 65536).map fun q => q.1)
    let (f, s) := s.joinFault (s.missRec k { p with lanes := lanes } va level a.kind false)
    let x := (s.sheafAt p.stook p.sheaf).lane l
    let r := a.req k p l id 0 (tx.getLsbD l) x.epoch es
    let s := State.modCore { s with next := id + 2 } k.core fun c =>
      { c with replay := c.replay ++ [{ fault := f, req := r, kind := a.kind }] }
    s.modSheaf p.stook p.sheaf fun h => (h.mark l a.dest a.regs id).parkLane l i.size (id + 1) f) s

/-- A memory word for the lanes of a path, after its uniform checks. `locks` tells whether range locks are checked. -/
def memAccess (i : Instr) (a : Access) (p : Focus) (s : State) : State :=
  match s.stook? p.stook with
  | none => s
  | some k =>
    let s : State := { s with free := s.free + 1 }
    let h := k.sheaf p.sheaf
    let tx := if a.via.isNone then 0 else h.inTx p.lanes
    let fates := (lanesOf p.lanes).map fun l => (l, s.laneElems k a (tx.getLsbD l) true l)
    let traps := fates.filterMap fun f => match f.2 with | .error (.trap c va lv) => some (f.1, c, va, lv) | _ => none
    let misses := fates.filterMap fun f => match f.2 with | .error (.miss va lv es) => some (f.1, va, lv, es) | _ => none
    let unsup := maskOf (fates.filterMap fun f => match f.2 with | .error .unsupported => some f.1 | _ => none)
    let goes := fates.filterMap fun f => match f.2 with | .ok es => some (f.1, es) | _ => none
    let goMask := maskOf (goes.map fun g => g.1)
    let s := s.trapLanes p i.size a.kind traps
    let s := s.abortLanes p.stook p.sheaf unsup 0x06
    let s := s.parkMisses a i k p tx misses
    let f := (goes.map fun g => a.raised g.1 (g.2.map fun e => e.1)) ++ misses.map fun m => a.raised m.1 m.2.2.2
    let s := s.modSheaf p.stook p.sheaf fun h => h.raise (f.foldl (fun a b => a ||| b) 0)
    let (issue, s) := s.beginIssue p.stook p.sheaf a.tok (if a.regs != 0 then goMask else goMask &&& tx)
    let plain := goMask &&& ~~~tx
    let s := s.modSheaf p.stook p.sheaf fun h => h.nextLanes plain i.size fun _ => none
    let gone (s : State) (l : Nat) : Bool := ((s.sheafAt p.stook p.sheaf).lane l).tx.depth = 0
    let s := goes.foldl (fun s g =>
      if !tx.getLsbD g.1 then s.issueLane a k p issue g.1 g.2
      else if gone s g.1 then s.modSheaf p.stook p.sheaf fun h => h.finishLanes issue (maskOf [g.1])
      else s.txLane a i k p issue g.1 g.2) s
    if goes.isEmpty && misses.isEmpty then s else s.modSheaf p.stook p.sheaf Sheaf.count

end Sys2Proof.Machine
end

