-- ==== Sys2Proof/Machine/Park.lean ====
section
/-! DEFINITION. Escalation (07 R161 to R174): the rounding test of the alignment window, LG6 sums in the α basis, the park
queue of a core, the wide unit of a cluster and the exact stage of a die. -/

namespace Sys2Proof.Machine

open Sys2Proof

/-! ### The alignment window (R166) -/

/-- Ceiling of log2. -/
def clog2 (n : Nat) : Nat := if n ≤ 1 then 0 else Nat.log2 (n - 1) + 1

/-- Whether an open interval between two multiples of a unit holds no element of fmt⁺ (R162): both ends on one side of
zero, and the next element above the lesser magnitude not below the greater. -/
def plusFree (mb : Nat) (lo hi : Int) : Bool :=
  let (a, b) : Nat × Nat := if 0 ≤ lo then (lo.toNat, hi.toNat) else ((-hi).toNat, (-lo).toNat)
  if lo < 0 && 0 < hi then false
  else if a = 0 then false
  else
    let n := Nat.log2 a
    if n < mb + 1 then false
    else
      let g := n - mb - 1
      b ≤ ((a >>> g) + 1) <<< g

/-- A term as an integer multiple of `2^k`, truncated toward zero, and whether bits were discarded. -/
def truncTerm (k : Int) : FVal → Int × Bool
  | .fin s m e =>
    let (q, r) : Nat × Bool := if k ≤ e then (m <<< (e - k).toNat, false)
      else (m >>> (k - e).toNat, m % 2 ^ (k - e).toNat != 0)
    (if s then -(q : Int) else q, r)
  | _ => (0, false)

/-- The exponent of a term. -/
def FVal.top : FVal → Option Int
  | .fin _ m e => some (e + Nat.log2 m)
  | _ => none

/-- The window test on `n` terms with a window of `w` bits (R166): sums with a NaN, an infinity or no nonzero term are
decided without it. -/
def windowPasses (F : FFmt) (w n : Nat) (ts : List FVal) : Bool :=
  let tops := ts.filterMap FVal.top
  if ts.any fun t => match t with | .nan _ => true | .inf _ => true | _ => false then true
  else
    match tops with
    | [] => true
    | t :: rest =>
      let E := rest.foldl max t
      let k : Int := E + (clog2 n + 1 : Nat) - (w - 1 : Nat)
      let xs := ts.map (truncTerm k)
      let S := xs.foldl (fun a x => a + x.1) 0
      let cut (neg : Bool) : Int := ((ts.zip xs).filter fun p => p.2.2 && (match p.1 with | .fin s _ _ => s == neg | _ => false)).length
      let npos := cut false
      let nneg := cut true
      (npos = 0 && nneg = 0) || plusFree F.mb (S - nneg) (S + npos)

/-! ### LG6 sums (R168, R169) -/

/-- An LG6 element: zero, NaN, or a sign and a number of quarter octaves (R67). -/
inductive Lg where
  | zero
  | nan
  | val (neg : Bool) (lc : Int)
  deriving DecidableEq, Repr

def lgOf (x : Nat) : Lg :=
  let l := signedOf 5 x
  let s := x.testBit 5
  if l = -16 then (if s then .nan else .zero) else .val s l

/-- The four buckets of a sum, in units of 2^-149, the signs of its zero terms, and whether a term is not zero. -/
structure LgSum where
  b : List Int
  zeros : List Bool
  nonzero : Bool
  nan : Bool
  deriving DecidableEq, Repr

/-- A product of two scaled elements enters its bucket (R168). -/
def LgSum.add (t : LgSum) (x y : Lg) (ex ey : Int) : LgSum :=
  match x, y with
  | .nan, _ => { t with nan := true }
  | _, .nan => { t with nan := true }
  | .val s a, .val r c =>
    let n := a + ex + c + ey
    let m := n / 4
    let v : Int := (2 ^ (m + 149).toNat : Nat)
    let f := (n % 4).toNat
    { t with b := t.b.modify f fun z => z + (if s != r then -v else v), nonzero := true }
  | .val s _, .zero => { t with zeros := t.zeros ++ [s] }
  | .zero, .val s _ => { t with zeros := t.zeros ++ [s] }
  | .zero, .zero => { t with zeros := t.zeros ++ [false] }

/-- `⌊2^P · 2^(f/4)⌋`. -/
def alphaPow (P f : Nat) : Nat := natSqrt (natSqrt (2 ^ (4 * P + f)))

/-- An enclosure of a bucket sum in units of `2^(-149-P)`. -/
def lgEncl (P : Nat) (b : List Int) : Encl :=
  let part (f : Nat) : Ivl :=
    let x := b.getD f 0
    if f = 0 then ⟨x * (2 ^ P : Nat), x * (2 ^ P : Nat)⟩
    else
      let a : Int := alphaPow P f
      if 0 ≤ x then ⟨x * a, x * (a + 1)⟩ else ⟨x * (a + 1), x * a⟩
  Encl.ofIvl (IvlOps.add (IvlOps.add (part 0) (part 1)) (IvlOps.add (part 2) (part 3))) (-149 - (P : Int))

/-- The exact stage refines the value until its rounding is certain (R169). -/
def lgRefine (rm : Nat) (b : List Int) : Nat → Nat → Nat × FlagSet
  | 0, P => fmtF32.round rm (lgEncl P b).neg (lgEncl P b).mag.lo.toNat (lgEncl P b).e true
  | f + 1, P =>
    match (lgEncl P b).decide? fmtF32 rm with
    | some r => r
    | none => lgRefine rm b f (P + 128)

/-- round(F32, rm, c + Σ a·b) of LG6 elements with their scales: its bits, flags, and whether it is a case that no stage
has to approximate. -/
def lgElem (rm c : Nat) (as bs : List Nat) (sa sb : List Int) : (Nat × FlagSet) × Bool :=
  let ts := (List.range 64).foldl (fun t j =>
    LgSum.add t (lgOf (as.getD j 16)) (lgOf (bs.getD j 16)) (sa.getD (j / 16) 0) (sb.getD (j / 16) 0))
    ({ b := [0, 0, 0, 0], zeros := [], nonzero := false, nan := false } : LgSum)
  match fmtF32.unpack c with
  | .nan s => ((fmtF32.canon, flIf s flInvalid), true)
  | cv =>
    if ts.nan then ((fmtF32.canon, 0), true)
    else
      match cv with
      | .inf s => ((fmtF32.infBits s, 0), true)
      | cv =>
        let b := match cv with
          | .fin _ _ _ => ts.b.modify 0 fun z => z + cv.scaled (-149)
          | _ => ts.b
        let zeros := match cv with | .zero s => ts.zeros ++ [s] | _ => ts.zeros
        let some' := ts.nonzero || (match cv with | .fin _ _ _ => true | _ => false)
        if (b.drop 1).all fun z => z = 0 then
          let sign := if some' then rm = 3 else zeroSumSign rm (zeros.map FVal.zero)
          ((fmtF32.roundInt rm (b.getD 0 0) (-149) sign), true)
        else (lgRefine rm b 20 192, false)

/-! ### The park queue (R171 to R174) -/

/-- What a parked request comes to: the same at every stage that decides it (R154, R163). -/
def Park.result (p : Park) : Nat × FlagSet :=
  let F := floatOf p.fmt
  if p.op = 0x040 then ffnElem F p.sel p.rm (p.operands.headD 0)
  else if p.op = 0x041 then F.sum p.rm (p.operands.map F.unpack)
  else if p.op = 0x080 then
    let n := (p.operands.length - 1) / 2
    fmtF32.sum p.rm ((List.range n).map (fun j =>
        (F.unpack (p.operands.getD j 0)).mul (F.unpack (p.operands.getD (n + j) 0)))
      ++ [fmtF32.unpack (p.operands.getD (2 * n) 0)])
  else (lgElem p.rm (p.operands.getD 128 0) (p.operands.take 64) ((p.operands.drop 64).take 64) (p.scales.take 4)
          (p.scales.drop 4)).1

/-- Registers a request's result fills. -/
def Park.regs (p : Park) (v : Nat) : List Word :=
  if (p.op = 0x040 || p.op = 0x041) && p.fmt = 0x13 then [BitVec.ofNat 32 v, BitVec.ofNat 32 (v >>> 32)]
  else [BitVec.ofNat 32 v]

/-- The register that takes a request's result: of a tile's pair, the one of its element's column (R172, R245). -/
def Park.target (p : Park) : OpCode7 := if p.op = 0x080 || p.op = 0x081 then p.dest + BitVec.ofNat 7 (p.elem % 2) else p.dest

/-- The same request of a core's queue. -/
def Park.is (p q : Park) : Bool := p.id == q.id && p.elem == q.elem && p.lanes == q.lanes

/-- Entries in use. -/
def Core.parkUsed (c : Core) : Nat := (c.park.filter fun p => p.state != 0).foldl (fun n p => n + p.nparts) 0

/-- An element of the core waits for an entry (R171). -/
def Core.parkStaged (c : Core) : Bool := c.park.any fun p => p.state = 0

/-- A request parks: it takes its entries, or waits in staging while too few are free. -/
def State.addPark (s : State) (core : Nat) (p : Park) : State :=
  s.modCore core fun c =>
    { c with park := c.park ++ [{ p with state := if c.parkUsed + p.nparts ≤ Config.parkEntries then 1 else 0 }] }

/-- Lanes of issues are finished unless an element of theirs waits in staging (R26). -/
def State.settleIssues (s : State) (u i : Nat) (ls : List (Nat × Nat)) : State :=
  let core := ((s.stook? u).getD default).core
  let waits (q : Nat × Nat) : Bool :=
    (s.core core).park.any fun p => p.state = 0 && p.stook == u && p.sheaf == i && p.issues.contains q
  s.modSheaf u i fun h => (ls.filter fun q => !waits q).foldl (fun h q => h.finishLanes q.2 (maskOf [q.1])) h

/-- The `k`-th element in staging receives its entries. -/
def parkGrant (core k : Nat) (s : State) : State :=
  let c := s.core core
  match (c.park.filter fun p => p.state = 0)[k]? with
  | none => s
  | some p =>
    if Config.parkEntries < c.parkUsed + p.nparts then s
    else
      let grant (q : Park) : Park := if q.is p then { q with state := 1 } else q
      (s.modCore core fun c => { c with park := c.park.map grant }).settleIssues p.stook p.sheaf p.issues

/-- PARK_ENTRY_GRANT (R171) -/
def execParkEntryGrant (core k : Nat) (s : State) : Host.Outcome State Fault Refusal := event s (parkGrant core k)

/-- A core's oldest request that waits for a unit: the WU, or the XS. -/
def Core.oldestPark (c : Core) (xs : Bool) : Option Park :=
  (c.park.filter fun p => p.state = 1 && p.toXs == xs).foldl (fun b p => match b with
    | some q => if p.id < q.id then some p else b
    | none => some p) none

def State.setPark (s : State) (core : Nat) (p : Park) (state : Nat) (xs : Bool) : State :=
  s.modCore core fun c => { c with park := c.park.map fun q => if q.is p then { q with state := state, toXs := xs } else q }

/-- The cores of a cluster from the next of its round robin on. -/
def State.wuOrder (s : State) (cluster : Nat) : List Nat :=
  let n := (assoc? s.wuNext cluster).getD 0
  (List.range Config.coresPerCluster).map fun j => cluster * Config.coresPerCluster + (n + j) % Config.coresPerCluster

/-- Requests a set of cores has at a unit. -/
def State.unitLoad (s : State) (state : Nat) (here : Nat → Bool) : Nat :=
  ((s.cores.filter fun c => here c.num).flatMap fun c => c.park.filter fun p => p.state = state).length

/-- A cluster's WU accepts the oldest request of the next core that has one (R174). -/
def wuTake (cluster : Nat) (s : State) : State :=
  if Config.wuCapacity ≤ s.unitLoad 2 fun c => clusterOf c == cluster then s
  else
    match (s.wuOrder cluster).findSome? fun c => ((s.core c).oldestPark false).map fun p => (c, p) with
    | none => s
    | some (c, p) =>
      State.setPark { s with wuNext := assocSet s.wuNext cluster ((c + 1) % Config.coresPerCluster) } c p 2 false

/-- WU_ACCEPT (R174) -/
def execWuAccept (cluster : Nat) (s : State) : Host.Outcome State Fault Refusal := event s (wuTake cluster)

/-- A decided request delivers to each of its lanes in one event and frees its entries (R173). -/
def State.deliverPark (s : State) (core : Nat) (p : Park) : State :=
  let s := s.modCore core fun c => { c with park := c.park.filter fun q => !q.is p }
  let r := p.result
  (lanesOf p.lanes).foldl (fun s l => s.deliver p.stook p.sheaf l p.id 0 p.target (p.regs r.1) r.2) s

/-- Whether the WU decides a request (R161, R164, R167, R169): every F32, F16 and BF16 case; an F64 sum by its window of
640 bits; otherwise by the error bound of its own evaluation, which is free. -/
def Park.wuDecides (p : Park) (free : Bool) : Bool :=
  if p.op = 0x081 then free
  else if p.fmt != 0x13 then true
  else if p.op = 0x041 then windowPasses fmtF64 640 p.operands.length (p.operands.map fmtF64.unpack)
  else free

/-- The `k`-th request a core has at the WU is decided, or goes on to the XS (R163). -/
def wuDecide (core k : Nat) (s : State) : State :=
  match ((s.core core).park.filter fun p => p.state = 2)[k]? with
  | none => s
  | some p =>
    let (b, s) := s.freeBit
    if p.wuDecides b then (s.deliverPark core p).bumpBy 18 p.nparts else s.setPark core p 1 true

/-- WU_DECIDE (R163) -/
def execWuDecide (core k : Nat) (s : State) : Host.Outcome State Fault Refusal := event s (wuDecide core k)

/-- The oldest request for the XS among a cluster's cores. -/
def State.oldestXs (s : State) (cluster : Nat) : Option (Nat × Park) :=
  (((List.range Config.coresPerCluster).map fun j => cluster * Config.coresPerCluster + j).filterMap fun c =>
    ((s.core c).oldestPark true).map fun p => (c, p)).foldl (fun b p => match b with
      | some q => if p.2.id < q.2.id then some p else b
      | none => some p) none

/-- A die's XS accepts the oldest request of the next of its nine clusters that has one (R174). -/
def xsTake (die : Nat) (s : State) : State :=
  if Config.xsCapacity ≤ s.unitLoad 3 fun c => dieOf c == die then s
  else
    let n := (s.die die).xsNext
    match ((List.range 9).map fun j => (n + j) % 9).findSome? fun j => (s.oldestXs (die * 9 + j)).map fun p => (j, p) with
    | none => s
    | some (j, c, p) => (s.modDie die fun d => { d with xsNext := (j + 1) % 9 }).setPark c p 3 true

/-- XS_ACCEPT (R174) -/
def execXsAccept (die : Nat) (s : State) : Host.Outcome State Fault Refusal := event s (xsTake die)

/-- The `k`-th request a core has at the XS is decided (R165). -/
def xsDecide (core k : Nat) (s : State) : State :=
  match ((s.core core).park.filter fun p => p.state = 3)[k]? with
  | none => s
  | some p => (s.deliverPark core p).bumpBy 19 p.nparts

/-- XS_DECIDE (R165) -/
def execXsDecide (core k : Nat) (s : State) : Host.Outcome State Fault Refusal := event s (xsDecide core k)

/-! ### FFN (R233, R235) -/

/-- FFN of the lanes of a path: a lane whose fast result stands writes it; one whose rounding the fast path cannot decide,
which is free among inexact results of F32 and F64 (R161, R235), parks. -/
def ffnAct (w : AWord) (p : Focus) (s : State) : State :=
  let f := aForm 0x040
  let fmt := w.fmt f
  let wide := fmt = 0x13
  let core := ((s.stook? p.stook).getD default).core
  let free := s.free
  let id := s.next
  let (issue, s) := State.beginIssue { s with free := free + 1, next := id + 1 } p.stook p.sheaf (w.tok f) p.lanes
  let h := s.sheafAt p.stook p.sheaf
  let rm := h.mode (w.rm f)
  let arg (l : Nat) : DWord := h.srcW wide (w.sregN f) w.a l
  let res (l : Nat) : DWord × FlagSet := perElem fmt (fun F x _ _ => ffnElem F (w.opt f) rm x) (arg l) 0 0
  let finite (l : Nat) : Bool := match (floatOf fmt).unpack ((arg l).toNat % 2 ^ (floatOf fmt).bits) with | .fin _ _ _ => true | _ => false
  let parked := maskFilter p.lanes fun l =>
    (fmt = 0x12 || fmt = 0x13) && finite l && (res l).2.getLsbD 0 && Config.freeHit free l
  let fast := p.lanes &&& ~~~parked
  let s := s.touchRegs p.stook p.sheaf fast [] (if fast = 0 then [] else pairRegs w.d wide)
  let s := s.modSheaf p.stook p.sheaf fun h =>
    (((h.writeLanes fast wide w.d.toNat fun l => (res l).1).raise (flagsOf fast fun l => (res l).2)).nextLanes p.lanes
      (sizeA w) fun _ => none).count
  let s := (lanesOf parked).foldl (fun s l =>
    let s := s.modSheaf p.stook p.sheaf fun h => h.mark l w.d (if wide then 2 else 1) id
    s.addPark core
      { operands := [(arg l).toNat % 2 ^ (floatOf fmt).bits], scales := [], lanes := maskOf [l], stook := p.stook, sheaf := p.sheaf,
        dest := w.d, nparts := 1, elem := 0, fmt := fmt, rm := rm, op := 0x040, sel := w.opt f, state := 0, toXs := false,
        id := id, issues := [(l, issue)] }) s
  s.settleIssues p.stook p.sheaf ((lanesOf p.lanes).map fun l => (l, issue))

/-- FFN (R233) -/
def execFfn (w : AWord) (s : State) : Host.Outcome State Fault Refusal := issueWord (.ffn w) s (ffnAct w)

end Sys2Proof.Machine
end

