-- ==== Sys2Proof/Machine/Matrix.lean ====
section
/-! DEFINITION. MMA and MMAL (10 R238 to R244, 03 R83): the elements of a tile in the lanes' registers, the scales of LG6
operands, and the tile itself, issued once for all lanes of the sheaf. -/

namespace Sys2Proof.Machine

open Sys2Proof

/-! ### Holds -/

/-- The instruction whose word a lane is held at takes this many words. -/
def Hold.size : Hold → Nat
  | .waitm _ => 1
  | .cross _ i => i.size
  | .bar _ _ _ _ => 1
  | .barw _ => 1
  | .mwait i _ _ => i.size
  | .regroup _ _ _ _ => 2
  | .tile i => i.size
  | .cwait _ => 2
  | .cbacq i _ => i.size
  | .cbinit i _ _ => i.size
  | .copy _ => 2
  | .txwait _ n => n
  | .commit i _ _ => i.size

/-- Held lanes of a sheaf trap at their words, an event for each word and path (R32, R367). -/
def State.trapHeld (s : State) (u i : Nat) (m : LaneMask) (c : Cause) : State :=
  let h := s.sheafAt u i
  (((lanesOf m).map fun l => ((h.lane l).pc, (h.lane l).tag)).eraseDups).foldl (fun s q =>
    let here := maskFilter m fun l => (h.lane l).pc == q.1 && (h.lane l).tag == q.2
    let n := ((lanesOf here).head?.bind fun l => (h.lane l).hold).elim 1 Hold.size
    s.takeTrap { stook := u, sheaf := i, lanes := here } n c) s

/-- Held lanes go on behind their word of `n` words; their issues are still to be finished. -/
def Sheaf.releaseHeld (h : Sheaf) (m : LaneMask) (n : Nat) : Sheaf :=
  (h.modLanes m fun _ x => { x with hold := none, issue := 0 }).nextLanes m n fun _ => none

/-- A held lane goes on behind the word it is held at; where it stands stopped there, it stays stopped, behind the word. -/
def Lane.passHold (x : Lane) : Lane :=
  let y := x.next ((x.hold.map Hold.size).getD 1) none
  { y with stop := x.stop.map fun t => { t with resume := y.pc } }

/-- Held lanes go on behind their words, each by its own word's length; they are finished with it. -/
def Sheaf.passHeld (h : Sheaf) (m : LaneMask) : Sheaf := (h.modLanes m fun _ x => x.passHold).finishHeld m

/-- The issues that lanes of a mask count on. -/
def Sheaf.issuesOf (h : Sheaf) (m : LaneMask) : List (Nat × Nat) := (lanesOf m).map fun l => (l, (h.lane l).issue)

/-! ### The elements of a tile (R83) -/

/-- Bits of an element, elements of a lane and registers of a lane by format. -/
def tileShape (fmt : Nat) : Nat × Nat × Nat :=
  if fmt = 0x12 then (32, 1, 1) else if fmt = 0x00 then (8, 4, 1) else if fmt = 0x20 then (6, 16, 3) else (16, 2, 1)

/-- A row of A, or a column of B: lanes 4q to 4q + 3. A lane that has exited contributes zeros (R238). -/
def Sheaf.tileRow (h : Sheaf) (live : LaneMask) (reg fmt q : Nat) : List Nat :=
  let (w, n, r) := tileShape fmt
  (List.range 4).flatMap fun i =>
    let l := 4 * q + i
    let g : Nat := leNat ((h.readGroup reg l r).flatMap fun x => leBytes 4 x.toNat)
    (List.range n).map fun j => if live.getLsbD l then natField g (w * j) w else if fmt = 0x20 then 0x10 else 0

/-- C[q][j]. -/
def Sheaf.tileC (h : Sheaf) (live : LaneMask) (c : OpCode7) (q j : Nat) : Nat :=
  if isVReg c && live.getLsbD (4 * q + j / 2) then (h.rv (c.toNat + j % 2) (4 * q + j / 2)).toNat else 0

/-- One element of a tile: its lane and register offset, its value and flags, and the request it makes when the fast path
cannot decide it. -/
structure TileElem where
  q : Nat
  j : Nat
  value : Nat
  flags : FlagSet
  park : Option (List Nat × List Int)

def TileElem.lane (e : TileElem) : Nat := 4 * e.q + e.j / 2

/-- The elements of lanes that have not exited. -/
def tileCells (live : LaneMask) : List (Nat × Nat) :=
  (List.range 64).filterMap fun n => if live.getLsbD (4 * (n / 8) + n % 8 / 2) then some (n / 8, n % 8) else none

/-- The elements of an MMA (R240, R241). -/
def mmaElems (w : AWord) (h : Sheaf) (live : LaneMask) : List TileElem :=
  let f := aForm 0x080
  let fmt := w.fmt f
  let rm := h.mode (w.rm f)
  let F := floatOf fmt
  (tileCells live).map fun (q, j) =>
    let a := h.tileRow live w.a.toNat fmt q
    let b := h.tileRow live w.b.toNat fmt j
    let c := h.tileC live (w.c f) q j
    if fmt = 0 then
      let v := ((a.zip b).map fun p => signedOf 8 p.1 * signedOf 8 p.2).foldl (fun x y => x + y) (c : Int)
      { q := q, j := j, value := wrapInt 32 v, flags := 0, park := none }
    else
      let ts := (a.zip b).map (fun p => (F.unpack p.1).mul (F.unpack p.2)) ++ [fmtF32.unpack c]
      let r := fmtF32.sum rm ts
      { q := q, j := j, value := r.1, flags := r.2
        park := if windowPasses fmtF32 80 ts.length ts then none else some (a ++ b ++ [c], []) }

/-- The elements of an MMAL with the scales of its rows and columns (R244). Which elements the fast path leaves undecided,
among those it approximates, is free (R169). -/
def mmalElems (w : AWord) (h : Sheaf) (live : LaneMask) (sa sb : List Int) (free : Nat) : List TileElem :=
  let f := aForm 0x081
  let rm := h.mode (w.rm f)
  (tileCells live).map fun (q, j) =>
    let a := h.tileRow live w.a.toNat 0x20 q
    let b := h.tileRow live w.b.toNat 0x20 j
    let c := h.tileC live (w.c f) q j
    let xa := (sa.drop (4 * q)).take 4
    let xb := (sb.drop (4 * j)).take 4
    let r := lgElem rm c a b xa xb
    { q := q, j := j, value := r.1.1, flags := r.1.2
      park := if r.2 || !Config.freeHit free (8 * q + j) then none else some (a ++ b ++ [c], xa ++ xb) }

/-- A tile issues for the lanes held at it, on its wait token: elements decided at once are written, the others park (R241). -/
def State.runTile (s : State) (u i : Nat) (live : LaneMask) (ins : Instr) (d : OpCode7) (op fmt rm tok : Nat) (es : List TileElem) : State :=
  let core := ((s.stook? u).getD default).core
  let (issue, s) := s.beginIssue u i tok live
  let id := s.next
  let issues := (lanesOf live).map fun l => (l, issue)
  let fast := es.filter fun e => e.park.isNone
  let s : State := { s with next := id + 2, free := s.free + 1 }
  let s := s.touchRegs u i live [] ((groupRegs d 2).filter fun r => fast.any fun e => d.toNat + e.j % 2 = r)
  let s := s.modSheaf u i fun h =>
    let h := fast.foldl (fun h e => h.wv (d.toNat + e.j % 2) e.lane (BitVec.ofNat 32 e.value)) h
    ((h.raise (fast.foldl (fun a e => a ||| e.flags) 0)).releaseHeld live ins.size).count
  let s := es.foldl (fun s e => match e.park with
    | none => s
    | some (ops, scales) =>
      let dest := d + BitVec.ofNat 7 (e.j % 2)
      (s.modSheaf u i fun h => h.mark e.lane dest 1 (id + e.j % 2)).addPark core
        { operands := ops, scales := scales, lanes := maskOf [e.lane], stook := u, sheaf := i, dest := d, nparts := 1,
          elem := 8 * e.q + e.j, fmt := fmt, rm := rm, op := op, sel := 0, state := 0, toXs := false, id := id + e.j % 2,
          issues := issues.filter fun p => p.1 == e.lane }) s
  s.settleIssues u i issues

/-! ### Scales (R242, R243) -/

/-- What a look at the scales of an MMAL comes to. -/
inductive TileFate where
  | go (sa sb : List Int)
  | wait (s : State)
  | trap (c : Cause) (va level : Nat)
  | miss (va level : Nat)

/-- The records and origins of an MMAL's descriptor, after the checks of R243 that need no address: slot, record, origin of
A and of B. -/
def mmalDesc (w : AWord) (k : Stook) (h : Sheaf) : Except Cause (List (Nat × Rec × Nat)) :=
  let n := w.sregN (aForm 0x081)
  let d := h.rs n
  let slots := [(d.extractLsb' 0 6).toNat, (d.extractLsb' 8 6).toNat]
  let orgs := [(h.rs (n + 1)).toNat, (h.rs (n + 2)).toNat]
  if d.extractLsb' 6 2 != 0 || d.extractLsb' 14 18 != 0 || slots.contains 0 then .error .illegalOperand
  else
    match k.record? (slots.getD 0 0), k.record? (slots.getD 1 0) with
    | some ra, some rb =>
      match k.record? (recSide ra), k.record? (recSide rb) with
      | some ta, some tb =>
        if recFmt ra != 0x20 || recFmt rb != 0x20 || recFmt ta != 0x30 || recFmt tb != 0x30 then .error .illegalFormat
        else if !orgs.all fun o => o % 16 = 0 then .error .misaligned
        else .ok [(slots.getD 0 0, ra, orgs.getD 0 0), (slots.getD 1 0, rb, orgs.getD 1 0)]
      | _, _ => .error .recordUnset
    | _, _ => .error .recordUnset

/-- The scale byte of one lane's elements: held in the block-side cache, asked for, or stopped. -/
def State.scaleOf (s : State) (k : Stook) (x : Nat × Rec × Nat) (l : Nat) : Except (Cause × Nat × Nat) (Option Int × State) :=
  let (slot, r, org) := x
  let idx := org + l / 4 * recExt0 r + 16 * (l % 4)
  let block := recBlock r idx
  match (s.core k.core).bsc.find? fun e => e.live && e.place == k.place && e.slot == slot && e.block == block with
  | some e => match e.entry with
    | some bs => .ok (some (signedOf 8 (leNat bs)), s)
    | none => .ok (none, s)
  | none =>
    match sideEntry k r block with
    | .error c => .error (c, 0, 0)
    | .ok vas =>
      let va := vas.headD 0
      match s.locate k.core k.ctx va va { rd := true } with
      | .error (c, lv) => .error (c, va, lv)
      | .ok b =>
        let fill : BscEntry :=
          { id := s.next, live := true, reuse := recReuse ((k.record? (recSide r)).getD 0), place := k.place, slot := slot, block := block,
            entry := none, ctx := k.ctx, locs := [b] }
        .ok (none, State.modCore { s with next := s.next + 1 } k.core fun c => { c with bsc := c.bsc ++ [fill] })

/-- The scales of the lanes of a list, in order; the entries not held are asked for. -/
def State.scalesOf (s : State) (k : Stook) (x : Nat × Rec × Nat) : List Nat → Except (Cause × Nat × Nat) (Option (List Int) × State)
  | [] => .ok (some [], s)
  | l :: ls =>
    match s.scaleOf k x l with
    | .error e => .error e
    | .ok (v, s) =>
      match s.scalesOf k x ls with
      | .error e => .error e
      | .ok (vs, s) => .ok (v.bind fun a => vs.map fun b => a :: b, s)

/-- The checks of R243 and the scales of an MMAL. -/
def State.mmalFate (s : State) (k : Stook) (h : Sheaf) (w : AWord) : TileFate :=
  match mmalDesc w k h with
  | .error c => .trap c 0 0
  | .ok xs =>
    let inside (x : Nat × Rec × Nat) : Bool :=
      (List.range 32).all fun l => x.2.2 + l / 4 * recExt0 x.2.1 + 16 * (l % 4) + 15 < recCount x.2.1
    let a := xs.getD 0 default
    let b := xs.getD 1 default
    if !(inside a && inside b) then .trap .bounds 0 0
    else
      let side (x : Nat × Rec × Nat) (l : Nat) : Bool :=
        match sideEntry k x.2.1 (recBlock x.2.1 (x.2.2 + l / 4 * recExt0 x.2.1 + 16 * (l % 4))) with
        | .ok _ => true
        | .error _ => false
      if !(List.range 32).all fun l => side a l && side b l then .trap .bounds 0 0
      else
        match s.scalesOf k a (List.range 32) with
        | .error (c, va, lv) => if c == .xlateMiss then .miss va lv else .trap c va lv
        | .ok (sa, s) =>
          match s.scalesOf k b (List.range 32) with
          | .error (c, va, lv) => if c == .xlateMiss then .miss va lv else .trap c va lv
          | .ok (sb, s) => match sa, sb with
            | some x, some y => .go x y
            | _, _ => .wait s

/-- Lanes park at a tile with XLATE_MISS and stay held there (R243). -/
def State.parkTile (s : State) (k : Stook) (u i : Nat) (live : LaneMask) (va level : Nat) : State :=
  let (f, s) := s.joinFault (s.missRec k { stook := u, sheaf := i, lanes := live } va level .read false)
  s.modSheaf u i fun h =>
    (h.parkIssues live).modLanes live fun _ x => { x with stop := some { cause := .xlateMiss, fault := f, resume := x.pc } }

/-- Whether a tile is kept from issuing: by an element in staging (R171), or by its token's count of 63 (R26). -/
def tileBlocked (c : Core) (h : Sheaf) (parks : Bool) (tok : Nat) : Bool :=
  (parks && c.parkStaged) || (tok ≤ 5 && 63 ≤ h.tokenCount tok)

/-- A lane that is neither stopped nor gone is held at a sheaf-wide word; on a mask. -/
def Lane.atTile (x : Lane) : Bool :=
  x.stop.isNone && !x.exitIssued && !x.exited && (match x.hold with | some (.tile _) => true | _ => false)
def Lane.onMask (x : Lane) : Bool :=
  x.stop.isNone && !x.exitIssued && !x.exited && (match x.hold with | some (.waitm _) => true | some (.cross _ _) => true | _ => false)

/-- A sheaf's lanes at sheaf-wide words are looked at (R238, R239): the tile issues when every lane not exited is held at
the one word; lanes held elsewhere on masks make it a mismatch. DESIGN CHOICE (log entry 57): lanes that have all come to a REDL
which park staging keeps from executing (R171) are still held at a cross-lane instruction. -/
def State.settleTile (s : State) (u i : Nat) : State :=
  match s.stook? u with
  | none => s
  | some k =>
    let h := k.sheaf i
    let T := h.lanesWhere Lane.atTile
    let W := h.lanesWhere Lane.onMask
    let first := (lanesOf T).head?.map h.lane
    match first with
    | none => s
    | some x =>
      if h.live &&& ~~~(T ||| W) != 0 then s
      else if h.live &&& ~~~T != 0 || (lanesOf T).any fun l => (h.lane l).pc != x.pc then s.trapHeld u i T .syncMismatch
      else
        match x.hold with
        | some (.tile (.mma w)) =>
          if tileBlocked (s.core k.core) h (w.fmt (aForm 0x080) != 0) (w.tok (aForm 0x080)) then s
          else s.runTile u i T (.mma w) w.d 0x080 (w.fmt (aForm 0x080)) (h.mode (w.rm (aForm 0x080)))
            (w.tok (aForm 0x080)) (mmaElems w h T)
        | some (.tile (.mmal w)) =>
          if tileBlocked (s.core k.core) h true (w.tok (aForm 0x081)) then s
          else
            match s.mmalFate k h w with
            | .trap c va lv => s.takeTrap { stook := u, sheaf := i, lanes := T } (sizeA w) c
                { detail := BitVec.ofNat 32 lv, va := va, kind := if va = 0 then .none else .read }
            | .miss va lv => s.parkTile k u i T va lv
            | .wait s => s
            | .go sa sb => s.runTile u i T (.mmal w) w.d 0x081 0x20 (h.mode (w.rm (aForm 0x081)))
                (w.tok (aForm 0x081)) (mmalElems w h T sa sb s.free)
        | _ => s

end Sys2Proof.Machine
end

