-- ==== Sys2Proof/Machine/Cross.lean ====
section
/-! DEFINITION. Masks (08 R187), WAITM (05 R104), the cross-lane instructions (08 R193 to R195; 10 R236, R237), their
meeting (05 R105, R106) and the sheaf-wide words held with them. -/

namespace Sys2Proof.Machine

open Sys2Proof

/-! ### Effects over the members of a mask (R193, R194) -/

/-- What SHFL gives lane `l` (R194): `a` and `b` are the sources by lane. -/
def shflLane (sub : Nat) (M : LaneMask) (a b : Nat → Word) (l : Nat) : Word :=
  let ms := lanesOf M
  let r := (ms.takeWhile fun k => k != l).length
  let x := b l
  if sub = 0 then
    let src := x.toNat % 32
    if M.getLsbD src then a src else a l
  else if sub = 1 then a (ms.getD ((r + x.toNat) % ms.length) l)
  else if sub = 2 then
    let i := (r : Int) - x.toInt
    if 0 ≤ i && i < ms.length then a (ms.getD i.toNat l) else 0
  else
    let src := 4 * (l / 4) + natField x.toNat (2 * (l % 4)) 2
    if M.getLsbD src then a src else a l

/-- What VOTE gives every member. -/
def voteValue (sub : Nat) (M : LaneMask) (a : Nat → Word) : Word :=
  let ms := lanesOf M
  let bit (b : Bool) : Word := if b then 1 else 0
  if sub = 0 then bit (ms.any fun k => a k != 0)
  else if sub = 1 then bit (ms.all fun k => a k != 0)
  else if sub = 2 then maskFilter M fun k => a k != 0
  else bit (ms.all fun k => a k == a (ms.headD 0))

/-- What MATCH gives lane `l`. -/
def matchLane (sub : Nat) (M : LaneMask) (a : Nat → DWord) (l : Nat) : Word :=
  if sub = 2 then BitVec.ofNat 32 (((lanesOf M).find? fun k => a k == a l).getD l) else maskFilter M fun k => a k == a l

/-- The least member of a mask. -/
def minLane (M : LaneMask) : Nat := (lanesOf M).headD 0

/-- The lane number an RDLANE or WRLANE names. -/
def laneNum (op : Nat) (w : AWord) (h : Sheaf) : Nat := if w.b == cZERO then 0 else (h.rs (w.sregN (aForm op))).toNat

/-- The destinations of a cross-lane instruction other than REDL after its members have executed it together: every source
is read before any destination is written. -/
def crossEffect (i : Instr) (M : LaneMask) (h : Sheaf) : Sheaf :=
  let src (op : Nat) (w : AWord) (c : OpCode7) (l : Nat) : Word := h.src (w.sregN (aForm op)) c l
  let put (w : AWord) (f : Nat → Word) : Sheaf := h.writeLanes M false w.d.toNat fun l => (f l).setWidth 64
  match i with
  | .shfl w => put w (shflLane (w.subop (aForm 0x150)) M (src 0x150 w w.a) (src 0x150 w w.b))
  | .vote w => put w fun _ => voteValue (w.subop (aForm 0x151)) M (src 0x151 w w.a)
  | .matchLanes w =>
    let f := aForm 0x152
    put w (matchLane (w.subop f) M fun l => h.srcW (w.subop f = 1) (w.sregN f) w.a l)
  | .rdlane w => put w fun _ => let n := laneNum 0x154 w h; if M.getLsbD n then src 0x154 w w.a n else 0
  | .wrlane w =>
    let n := laneNum 0x155 w h
    if M.getLsbD n then h.wv w.d.toNat n (src 0x155 w w.a (minLane M)) else h
  | .elect w => put w fun l =>
      if w.subop (aForm 0x156) = 1 then BitVec.ofNat 32 (minLane M) else if l = minLane M then 1 else 0
  | _ => h

/-- The registers a cross-lane instruction other than REDL writes together, and in which lanes. -/
def crossWrites (i : Instr) (M : LaneMask) (h : Sheaf) (k : Stook) : LaneMask × List Nat :=
  match i with
  | .wrlane w => let n := laneNum 0x155 w h; if M.getLsbD n then (maskOf [n], (footprint i h k).2) else (0, [])
  | .redl _ => (0, [])
  | _ => (M, (footprint i h k).2)

/-- REDL over its members (R236, R237): one decision for the whole sum. -/
def State.runRedl (s : State) (u i : Nat) (w : AWord) (M : LaneMask) (issues : List (Nat × Nat)) : State :=
  let f := aForm 0x041
  let fmt := w.fmt f
  let wide := fmt = 0x13
  let F := floatOf fmt
  let h := s.sheafAt u i
  let rm := h.mode (w.rm f)
  let vals := (lanesOf M).map fun l => (h.srcW wide (w.sregN f) w.a l).toNat % 2 ^ F.bits
  let ts := vals.map F.unpack
  if M = 0 then s
  else if windowPasses F (if wide then 160 else 80) ts.length ts then
    let r := F.sum rm ts
    (s.touchRegs u i M [] (pairRegs w.d wide)).modSheaf u i fun h => (h.writeLanes M wide w.d.toNat fun _ => BitVec.ofNat 64 r.1).raise r.2
  else
    let id := s.next
    let s := State.modSheaf { s with next := id + 1 } u i fun h =>
      (lanesOf M).foldl (fun h l => h.mark l w.d (if wide then 2 else 1) id) h
    s.addPark ((s.stook? u).getD default).core
      { operands := vals, scales := [], lanes := M, stook := u, sheaf := i, dest := w.d,
        nparts := if wide then 3 else if fmt = 0x12 then 2 else 1, elem := 0, fmt := fmt, rm := rm, op := 0x041, sel := 0,
        state := 0, toXs := false, id := id, issues := issues }

/-! ### Meeting on a mask (R104 to R106) -/

/-- Lanes of a sheaf held at WAITM, or at cross-lane words, on a mask. -/
def Sheaf.waiters (h : Sheaf) (m : Nat) : LaneMask :=
  h.lanesWhere fun x => x.stop.isNone && (match x.hold with | some (.waitm n) => n == m | _ => false)

def Sheaf.crossers (h : Sheaf) (m : Nat) : LaneMask :=
  h.lanesWhere fun x => x.stop.isNone && (match x.hold with | some (.cross n _) => n == m | _ => false)

/-- Every member of a mask stands at one cross-lane word, and the lanes held there execute it and go on. -/
def State.runCross (s : State) (u i : Nat) (M here : LaneMask) (ins : Instr) : State :=
  let core := ((s.stook? u).getD default).core
  let redl := match ins with | .redl _ => true | _ => false
  if redl && (s.core core).parkStaged then s
  else
    let issues := (s.sheafAt u i).issuesOf here
    let binds := crossWrites ins M (s.sheafAt u i) ((s.stook? u).getD default)
    let s := s.touchRegs u i binds.1 [] binds.2
    let s := match ins with
      | .redl w => s.runRedl u i w M issues
      | _ => s.modSheaf u i (crossEffect ins M)
    (s.modSheaf u i fun h => (h.releaseHeld here ins.size).count).settleIssues u i issues

/-- A mask is looked at: waiters go on when every member waits (R104); members all at one cross-lane word execute it
(R105); members met at different words trap, with every lane held on the mask (R106). -/
def State.settleMask (s : State) (u i m : Nat) : State :=
  let h := s.sheafAt u i
  let M := h.rm m
  let W := h.waiters m
  let C := h.crossers m
  if W ||| C = 0 || M &&& ~~~(W ||| C) != 0 then s
  else if M &&& C = 0 then
    s.modSheaf u i fun h => h.passHeld (if M = 0 then W ||| C else W)
  else
    let x := h.lane (minLane (M &&& C))
    let here := maskFilter C fun l => (h.lane l).pc == x.pc
    if M &&& ~~~here != 0 then s.trapHeld u i (W ||| C) .maskMismatch
    else
      match x.hold with
      | some (.cross _ ins) => s.runCross u i M here ins
      | _ => s

/-- Masks in turn, then the sheaf-wide words. -/
def State.settleSheaf (s : State) (u i : Nat) : State :=
  ((List.range 12).foldl (fun s m => s.settleMask u i m) s).settleTile u i

/-! ### The words -/

/-- A mask written at issue (R187). -/
def maskWord (i : Instr) (s : State) (f : LaneMask → Sheaf → Sheaf) : Host.Outcome State Fault Refusal :=
  sheafWord i s f

/-- JOIN (R187) -/
def execJoin (w : IWord) (s : State) := maskWord (.join w) s fun E h => h.wm w.imm.toNat (h.rm w.imm.toNat ||| E)
/-- LEAVE (R187) -/
def execLeave (w : IWord) (s : State) := maskWord (.leave w) s fun E h => h.wm w.imm.toNat (h.rm w.imm.toNat &&& ~~~E)
/-- MSET (R187) -/
def execMset (w : IWord) (s : State) := maskWord (.mset w) s fun _ h => h.wm w.imm.toNat (h.ssrc w.a)
/-- MMOV (R187) -/
def execMmov (w : IWord) (s : State) :=
  maskWord (.mmov w) s fun _ h => h.wm (w.imm.toNat % 16) (h.rm (w.imm.toNat / 16))
/-- MGET (R187) -/
def execMget (w : IWord) (s : State) := sheafWord (.mget w) s fun _ h => h.ws w.d.toNat (h.rm w.imm.toNat)

/-- Lanes come to a hold point at their word. -/
def Sheaf.holdLanes (h : Sheaf) (m : LaneMask) (issue : Nat) (x : Hold) : Sheaf :=
  h.modLanes m fun _ y => { y with hold := some x, issue := issue }

/-- WAITM (R104): the lanes are held, and go on as soon as the members of the mask all wait. -/
def execWaitm (w : IWord) (s : State) : Host.Outcome State Fault Refusal :=
  issueWord (.waitm w) s fun p s =>
    (s.modSheaf p.stook p.sheaf fun h => (h.holdLanes p.lanes 0 (.waitm w.imm.toNat)).count).settleSheaf p.stook p.sheaf

/-- Lanes outside the mask trap MASK_MISMATCH at issue; members are held until all have come (R105). -/
def crossAct (i : Instr) (m tok : Nat) (p : Focus) (s : State) : State :=
  let M := (s.sheafAt p.stook p.sheaf).rm m
  let s := s.takeTrap { p with lanes := p.lanes &&& ~~~M } i.size .maskMismatch
  let E := p.lanes &&& M
  if E = 0 then s
  else
    let (issue, s) := s.beginIssue p.stook p.sheaf tok E
    (s.modSheaf p.stook p.sheaf fun h => h.holdLanes E issue (.cross m i)).settleSheaf p.stook p.sheaf

def crossWord (op : Nat) (i : Instr) (w : AWord) (s : State) : Host.Outcome State Fault Refusal :=
  issueWord i s (crossAct i (w.mask (aForm op)) (w.tok (aForm op)))

/-- SHFL (R194) -/
def execShfl (w : AWord) (s : State) := crossWord 0x150 (.shfl w) w s
/-- VOTE (R193) -/
def execVote (w : AWord) (s : State) := crossWord 0x151 (.vote w) w s
/-- MATCH (R193) -/
def execMatchLanes (w : AWord) (s : State) := crossWord 0x152 (.matchLanes w) w s
/-- RDLANE (R193) -/
def execRdlane (w : AWord) (s : State) := crossWord 0x154 (.rdlane w) w s
/-- WRLANE (R193) -/
def execWrlane (w : AWord) (s : State) := crossWord 0x155 (.wrlane w) w s
/-- ELECT (R193) -/
def execElect (w : AWord) (s : State) := crossWord 0x156 (.elect w) w s
/-- REDL (R236) -/
def execRedl (w : AWord) (s : State) := crossWord 0x041 (.redl w) w s

/-- UNI (R195): a value that is one for every executing lane goes to an s-register; otherwise the path traps NONUNIFORM. -/
def execUni (w : AWord) (s : State) : Host.Outcome State Fault Refusal :=
  issueWord (.uni w) s fun p s =>
    let f := aForm 0x153
    let wide := w.subop f = 1
    let h := s.sheafAt p.stook p.sheaf
    let v (l : Nat) : DWord := h.srcW wide (w.sregN f) w.a l
    let x := v (minLane p.lanes)
    if (lanesOf p.lanes).all fun l => v l == x then
      let (issue, s) := s.beginIssue p.stook p.sheaf (w.tok f) p.lanes
      s.modSheaf p.stook p.sheaf fun h =>
        (((h.wsW wide w.d.toNat x).nextLanes p.lanes (sizeA w) fun _ => none).count).finishLanes issue p.lanes
    else s.takeTrap p (sizeA w) .nonuniform

/-! ### Sheaf-wide words -/

/-- Entries of a core's block-side cache may go; which is free (R74). -/
def State.evictSides (s : State) (core : Nat) : State :=
  State.modCore { s with free := s.free + 1 } core fun c =>
    { c with bsc := c.bsc.filter fun e => e.entry.isNone || Config.freeHit s.free e.block }

/-- Lanes reach a sheaf-wide word and are held there (R238); its token counts from the tile's issue (15 R324). -/
def tileWord (i : Instr) (s : State) : Host.Outcome State Fault Refusal :=
  issueWord i s fun p s =>
    let s := (s.modSheaf p.stook p.sheaf fun h => h.holdLanes p.lanes 0 (.tile i)).settleSheaf p.stook p.sheaf
    s.evictSides ((s.stook? p.stook).getD default).core

/-- MMA (R240) -/
def execMma (w : AWord) (s : State) := tileWord (.mma w) s
/-- MMAL (R243) -/
def execMmal (w : AWord) (s : State) := tileWord (.mmal w) s

end Sys2Proof.Machine
end

