-- ==== Sys2Proof/Machine/MemOps.lean ====
section
/-! DEFINITION. The memory instructions (11 R250 to R268): records, loads and stores through records and in the
scratchpad, matrix fragments (10 R245 to R248), atomics, reductions, exact cells, fences, prefetches, cleans, monitors
(08 R191). -/

namespace Sys2Proof.Machine

open Sys2Proof

/-! ### The uniform checks (rows 1 to 3 of R254; R245) -/

/-- The record an M word goes through, once its slot is installed. -/
def mwVia (w : MWord) (h : Sheaf) (k : Stook) : Option Via :=
  (w.slotIn h).bind fun n => (k.record? n).map fun r => { slot := n, record := r, flat := n = 0 }

/-- The registers that earlier words of the clause wrote, for the lanes of the path in focus (R29). -/
def State.wroteBefore (s : State) : List Nat :=
  match s.focus with
  | some p => (lanesOf p.lanes).flatMap fun l => ((s.sheafAt p.stook p.sheaf).lane l).wrote
  | none => []

/-- Rows 1 to 3 in their order, then the recheck of R29: `side` says that a codebook record needs its table, `legal` and
`group` judge the format, `wr` that the word writes, `regs` are the registers its record fixes. -/
def viaCheck (k : Stook) (v : Option Via) (side : Bool) (legal : Via → Bool) (group : Via → Bool) (wr : Bool)
    (wrote : List Nat) (regs : Via → List Nat) : Except Cause Via :=
  match v with
  | none => .error .recordUnset
  | some v =>
    let f := recFmt v.record
    let cb := f = 0x21 || f = 0x22
    let t := k.record? (recSide v.record)
    match firstFail
      [(!(side && cb) || t.isSome, .recordUnset),
       (legal v, .illegalFormat),
       (group v, .illegalOperand),
       (!wr || !(cb || recRO v.record || recOverlap v.record), .roStore),
       (!(regs v).any fun r => wrote.contains r, .illegalEncoding)] with
    | some c => .error c
    | none => .ok v

/-- A memory word through a record: its uniform checks, whose failure traps the path; then its access, or another use of
the record. -/
def viaWord (i : Instr) (s : State) (chk : Stook → Sheaf → List Nat → Except Cause Via)
    (act : Stook → Sheaf → Via → Focus → State → State) : Host.Outcome State Fault Refusal :=
  let wrote := s.wroteBefore
  issueWord i s fun p s =>
    match s.stook? p.stook with
    | none => s
    | some k =>
      let h := k.sheaf p.sheaf
      match chk k h wrote with
      | .error c => s.takeTrap p i.size c
      | .ok v => act k h v p s

/-- A memory word in the scratchpad. -/
def spadWord (i : Instr) (s : State) (acc : Sheaf → Access) : Host.Outcome State Fault Refusal :=
  issueWord i s fun p s => memAccess i (acc (s.sheafAt p.stook p.sheaf)) p s

/-! ### Operands -/

/-- The index operand of a lane: a 64-bit byte address through b0, an unsigned 32-bit value otherwise (R252). -/
def mwIndex (w : MWord) (h : Sheaf) (flat : Bool) (l : Nat) : Int :=
  if flat then ((h.src64 0 w.a l).toNat : Int) else ((h.src 0 w.a l).toNat : Int)

/-- A datum of `per` registers from a group's register, or a constant of that width (R209, R252). DESIGN CHOICE (log entry 58): as
the 96 bits of an LG6 group a constant is its 64-bit reading with its 32-bit reading above. -/
def mwDatum (w : MWord) (h : Sheaf) (per k l : Nat) : Nat :=
  if isVReg w.d then
    leNat (((List.range per).map fun j => h.rv (w.d.toNat + per * k + j) l).flatMap fun x => leBytes 4 x.toNat)
  else if per = 2 then (h.src64 0 w.d l).toNat
  else if per = 3 then (h.src64 0 w.d l).toNat + (h.src 0 w.d l).toNat * 2 ^ 64
  else (h.src 0 w.d l).toNat

/-- The access a word makes, its ME fields in their places; what differs by instruction is given after. -/
def mwAccess (w : MWord) (opcode : Nat) (op : ReqOp) (via : Option Via) (sh : Shape) (h : Sheaf) (scale : Nat)
    (need : Need) (kind : AccessKind) : Access :=
  { opcode := opcode, op := op, af := 0, dest := w.d, regs := 0, via := via, shape := sh, need := need, kind := kind,
    scope := w.scope, order := w.order, reuse := w.reuse, repl := w.repl && (via.isSome), sv := w.sv, rm := 0,
    tok := w.tok, data := fun _ => [], flags := fun _ => [],
    idx := fun l => (List.range sh.count).map fun k =>
      elemIndex (mwIndex w h (via.any Via.flat) l) w.imm sh scale k }

/-- The shape of the elements of LD, ST, PREF and CCTL through a record (R253, R254). -/
def ldShape (w : MWord) (v : Via) (count : Nat) : Shape :=
  let f := recFmt v.record
  let bits := afBits w.af f
  let raw := f = 0x30 && !v.flat
  { fmt := f, bits := bits, step := if v.flat || raw then bits / 8 else 1, align := bits / 8, count := count, raw := raw,
    cell := false }

/-- The unit of IMM16 (R254): the width through b0, one index through another record. -/
def immUnit (v : Via) (bits : Nat) : Nat := if v.flat then bits / 8 else 1

/-- The shape of the elements of the scratchpad at an access format. -/
def spadShape (af count : Nat) : Shape :=
  { fmt := 0x30, bits := 4 * 2 ^ af, step := 4 * 2 ^ af / 8, align := 4 * 2 ^ af / 8, count := count, raw := true, cell := false }

/-! ### LD, ST, LDS, STS -/

/-- The group whose length the record fixes, at AF 0 (R252, R253). DESIGN CHOICE (log entry 56): a group of three registers for one
LG6 element may start at an odd register; R22 asks an even start of operands wider than 64 bits, R252 of groups whose elements
are 64 bits wide only. -/
def afGroup (w : MWord) (v : Via) : Bool :=
  let per := regsPerElem w.af (recFmt v.record)
  w.af != 0 || !isVReg w.d || groupOk (per = 2) (per * w.vec) w.d

def ldCheck (load : Bool) (w : MWord) (k : Stook) (h : Sheaf) (wrote : List Nat) : Except Cause Via :=
  viaCheck k (mwVia w h k) load (fun v => afLegal load v.flat w.af (recFmt v.record) w.vec) (afGroup w) (!load) wrote
    fun v => if w.af = 0 then groupRegs w.d (regsPerElem 0 (recFmt v.record) * w.vec) else []

def ldAccess (w : MWord) (h : Sheaf) (v : Via) : Access :=
  let sh := ldShape w v w.vec
  { mwAccess w 0x0c8 .load (some v) sh h (immUnit v sh.bits) { rd := true } .read with
    af := w.af, regs := regsPerElem w.af sh.fmt * w.vec }

/-- LD (R257) -/
def execLd (w : MWord) (s : State) : Host.Outcome State Fault Refusal :=
  viaWord (.ld w) s (ldCheck true w) fun _ h v p s => memAccess (.ld w) (ldAccess w h v) p s

/-- A store's datum in memory form, with the flags of its conversion (R253). -/
def storeConv (af fmt rm v : Nat) : Nat × FlagSet :=
  if af = 5 then fCvt fmt 0x12 rm v else if af = 6 then fCvt fmt 0x13 rm v else (v, 0)

def stAccess (w : MWord) (h : Sheaf) (v : Via) : Access :=
  let sh := ldShape w v w.vec
  let per := regsPerElem w.af sh.fmt
  let conv (l k : Nat) := storeConv w.af sh.fmt (h.mode 7) (mwDatum w h per k l)
  { mwAccess w 0x0c9 .store (some v) sh h (immUnit v sh.bits) { wr := true } .write with
    af := w.af, rm := h.mode 7
    data := fun l => (List.range w.vec).map fun k => (conv l k).1
    flags := fun l => (List.range w.vec).map fun k => (conv l k).2 }

/-- ST (R257) -/
def execSt (w : MWord) (s : State) : Host.Outcome State Fault Refusal :=
  viaWord (.st w) s (ldCheck false w) fun _ h v p s => memAccess (.st w) (stAccess w h v) p s

def ldsAccess (w : MWord) (h : Sheaf) : Access :=
  let sh := spadShape w.af w.vec
  { mwAccess w 0x0ca .load none sh h (sh.bits / 8) { rd := true } .read with
    af := w.af, regs := regsPerElem w.af 0x05 * w.vec }

/-- LDS (R259) -/
def execLds (w : MWord) (s : State) : Host.Outcome State Fault Refusal := spadWord (.lds w) s (ldsAccess w)

def stsAccess (w : MWord) (h : Sheaf) : Access :=
  let sh := spadShape w.af w.vec
  { mwAccess w 0x0cb .store none sh h (sh.bits / 8) { wr := true } .write with
    af := w.af, data := fun l => (List.range w.vec).map fun k => mwDatum w h (regsPerElem w.af 0x05) k l }

/-- STS (R259) -/
def execSts (w : MWord) (s : State) : Host.Outcome State Fault Refusal := spadWord (.sts w) s (stsAccess w)

/-! ### Matrix fragments (R245 to R248) -/

def fragCheck (load : Bool) (w : MWord) (k : Stook) (h : Sheaf) (wrote : List Nat) : Except Cause Via :=
  viaCheck k (mwVia w h k) load (fun v => !v.flat && fragLegal load w.sv (recFmt v.record))
    (fun v => groupOk true (fragRegs w.sv (recFmt v.record)) w.d) (!load) wrote
    fun v => groupRegs w.d (fragRegs w.sv (recFmt v.record))

/-- The access of a fragment word: lane 4q + i takes its portion at the indices of R246. -/
def mwFrag (w : MWord) (opcode : Nat) (op : ReqOp) (v : Via) (h : Sheaf) (need : Need) (kind : AccessKind) : Access :=
  let f := recFmt v.record
  let p := fragElems w.sv f
  let per := if w.sv = 2 then 2 else if f = 0x20 then 16 else p
  let sh : Shape := { fmt := f, bits := fmtBits f, step := 1, align := 1, count := p, raw := false, cell := false }
  { mwAccess w opcode op (some v) sh h 1 need kind with
    idx := fun l =>
      let o := mwIndex w h false l + w.imm + ((l / 4 * recExt0 v.record + per * (l % 4) : Nat) : Int)
      (List.range p).map fun (j : Nat) => o + (j : Int) }

def ldfAccess (w : MWord) (h : Sheaf) (v : Via) : Access :=
  { mwFrag w 0x088 .load v h { rd := true } .read with regs := fragRegs w.sv (recFmt v.record) }

/-- LDF (R246, R247) -/
def execLdf (w : MWord) (s : State) : Host.Outcome State Fault Refusal :=
  viaWord (.ldf w) s (fragCheck true w) fun _ h v p s => memAccess (.ldf w) (ldfAccess w h v) p s

def stfAccess (w : MWord) (h : Sheaf) (v : Via) : Access :=
  let f := recFmt v.record
  let bits := if f = 0x20 then 96 else fmtBits f
  let group (l : Nat) : Nat := leNat ((h.readGroup w.d.toNat l (fragRegs w.sv f)).flatMap fun x => leBytes 4 x.toNat)
  { mwFrag w 0x089 .store v h { wr := true } .write with
    data := fun l => (List.range (fragElems w.sv f)).map fun j => natField (group l) (bits * j) bits }

/-- STF (R246, R247) -/
def execStf (w : MWord) (s : State) : Host.Outcome State Fault Refusal :=
  viaWord (.stf w) s (fragCheck false w) fun _ h v p s => memAccess (.stf w) (stfAccess w h v) p s

/-! ### ATOM, CAS, RED, XRED, XRD -/

/-- The shape of a word of 32 or 64 bits: of the scratchpad, through b0, or through a record. -/
def wordShape (v : Option Via) (w64 : Bool) : Shape :=
  let bits := if w64 then 64 else 32
  let f := (v.map fun v => recFmt v.record).getD 0x30
  { fmt := f, bits := bits, step := bits / 8, align := bits / 8, count := 1, raw := f = 0x30 && v.all fun v => !v.flat,
    cell := false }

def mwW64 (w : MWord) : Bool := w.sv / 8 % 2 = 1
def mwUnit (w : MWord) (v : Option Via) : Nat :=
  match v with | some v => immUnit v (if (mwW64 w) then 64 else 32) | none => if (mwW64 w) then 8 else 4

def atomCheck (swap : Bool) (w : MWord) (k : Stook) (h : Sheaf) (_ : List Nat) : Except Cause Via :=
  viaCheck k (mwVia w h k) false (fun v => let f := recFmt v.record; f = 0x21 || f = 0x22 || atomLegal f (mwW64 w) swap)
    (fun _ => true) true [] fun _ => []

/-- The access of ATOM or CAS: in the scratchpad, or through a record. -/
def atomicAccess (w : MWord) (opcode : Nat) (op : ReqOp) (data : Nat → List Nat) (h : Sheaf) (v : Option Via) : Access :=
  { mwAccess w opcode op v (wordShape v (mwW64 w)) h (mwUnit w v) { rd := true, wr := true } .rmw with
    regs := if (mwW64 w) then 2 else 1, data := data }

def atomAccess (w : MWord) (h : Sheaf) (v : Option Via) : Access :=
  atomicAccess w 0x0d0 (.atom (w.sv % 8)) (fun l => [mwDatum w h (if (mwW64 w) then 2 else 1) 0 l]) h v

def casAccess (w : MWord) (h : Sheaf) (v : Option Via) : Access :=
  atomicAccess w 0x0d1 .cas (fun l => (List.range 2).map fun k => mwDatum w h (if (mwW64 w) then 2 else 1) k l) h v

/-- An ATOM or CAS by its SPAD bit. -/
def atomWord (i : Instr) (w : MWord) (swap : Bool) (acc : Sheaf → Option Via → Access) (s : State) :
    Host.Outcome State Fault Refusal :=
  if 16 ≤ w.sv then spadWord i s fun h => acc h none
  else viaWord i s (atomCheck swap w) fun _ h v p s => memAccess i (acc h (some v)) p s

/-- ATOM (R260) -/
def execAtom (w : MWord) (s : State) : Host.Outcome State Fault Refusal :=
  atomWord (.atom w) w (w.sv % 8 = 3) (atomAccess w) s

/-- CAS (R260) -/
def execCas (w : MWord) (s : State) : Host.Outcome State Fault Refusal := atomWord (.cas w) w true (casAccess w) s

def redCheck (w : MWord) (k : Stook) (h : Sheaf) (_ : List Nat) : Except Cause Via :=
  viaCheck k (mwVia w h k) false
    (fun v => let f := recFmt v.record; f = 0x21 || f = 0x22 || redLegal f (w.sv % 8) (mwW64 w)) (fun _ => true) true [] fun _ => []

def redAccess (w : MWord) (h : Sheaf) (v : Via) : Access :=
  let f := recFmt v.record
  let bits := if fmtIsFloat f then fmtBits f else if mwW64 w then 64 else 32
  { mwAccess w 0x0d2 (.red (w.sv % 8) (fmtIsFloat f) (h.mode 7)) (some v) (wordShape (some v) (mwW64 w || f = 0x13)) h
      (mwUnit w (some v)) { rd := true, wr := true } .rmw with
    shape := { wordShape (some v) (mwW64 w) with bits := bits }
    rm := h.mode 7
    data := fun l => [mwDatum w h (if mwW64 w then 2 else 1) 0 l % 2 ^ (if fmtIsFloat f then fmtBits f else 64)] }

/-- RED (R262) -/
def execRed (w : MWord) (s : State) : Host.Outcome State Fault Refusal :=
  viaWord (.red w) s (redCheck w) fun _ h v p s => memAccess (.red w) (redAccess w h v) p s

/-- The shape of an exact cell (R81, R263). -/
def cellShape (v : Via) : Shape :=
  { fmt := 0x30, bits := 512, step := 64, align := 64, count := 1, raw := !v.flat, cell := true }

def cellCheck (wr : Bool) (w : MWord) (k : Stook) (h : Sheaf) (_ : List Nat) : Except Cause Via :=
  viaCheck k (mwVia w h k) false (fun v => let f := recFmt v.record; f = 0x30 || (wr && (f = 0x21 || f = 0x22)))
    (fun _ => true) wr [] fun _ => []

def xredAccess (w : MWord) (h : Sheaf) (v : Via) : Access :=
  { mwAccess w 0x0d3 (.xred w.sv) (some v) (cellShape v) h 1 { rd := true, wr := true } .rmw with
    data := fun l => [mwDatum w h 1 0 l] }

/-- XRED (R263) -/
def execXred (w : MWord) (s : State) : Host.Outcome State Fault Refusal :=
  viaWord (.xred w) s (cellCheck true w) fun _ h v p s => memAccess (.xred w) (xredAccess w h v) p s

def xrdAccess (w : MWord) (h : Sheaf) (v : Via) : Access :=
  let clr := decide (16 ≤ w.sv)
  { mwAccess w 0x0d4 (.xrd clr (w.sv % 16)) (some v) (cellShape v) h 1 { rd := true, wr := clr }
      (if clr then .rmw else .read) with
    regs := 1 }

/-- XRD (R263) -/
def execXrd (w : MWord) (s : State) : Host.Outcome State Fault Refusal :=
  viaWord (.xrd w) s (cellCheck (decide (16 ≤ w.sv)) w) fun _ h v p s => memAccess (.xrd w) (xrdAccess w h v) p s

/-! ### Records (R256) -/

/-- The block-side entries of a slot of a stook place, and of the slots whose side slot it is, are dropped (R74); a fill on its
way serves the accesses that wait for it alone (R80). -/
def State.dropSides (s : State) (k : Stook) (slot : Nat) : State :=
  let mine (n : Nat) : Bool := n == slot || (k.records.any fun r => r.1 == n && recSide r.2 == slot)
  s.modCore k.core fun c => { c with
    bsc := (c.bsc.filter fun e => !(e.place == k.place && e.entry.isSome && mine e.slot)).map fun e =>
      if e.place == k.place && mine e.slot then { e with live := false } else e }

/-- The record in eight s-registers. -/
def Sheaf.recordIn (h : Sheaf) (d : Nat) : BitVec 256 :=
  BitVec.ofNat 256 (leNat (((List.range 8).map fun j => h.rs (d + j)).flatMap fun x => leBytes 4 x.toNat))

/-- BRSET (R79, R256) -/
def execBrset (w : MWord) (s : State) : Host.Outcome State Fault Refusal :=
  issueWord (.brset w) s fun p s =>
    match s.stook? p.stook with
    | none => s
    | some k =>
      let h := k.sheaf p.sheaf
      let slot := (w.slotIn h).getD 0
      let rec' := h.recordIn w.d.toNat
      match recordRefusal rec' slot with
      | some c =>
        let plain := p.lanes &&& ~~~h.inTx p.lanes
        (s.modSheaf p.stook p.sheaf fun h => h.modLanes plain fun _ x => { x with txrec := true, txcode := BitVec.ofNat 8 c }).takeTrap
          p 2 .recordInvalid { detail := BitVec.ofNat 32 c }
      | none =>
        ((s.dropSides k slot).modStook p.stook fun k => { k with records := assocSet k.records slot rec' }).modSheaf p.stook p.sheaf
          fun h => (h.nextLanes p.lanes 2 fun _ => none).count

/-- BRGET (R256) -/
def execBrget (w : MWord) (s : State) : Host.Outcome State Fault Refusal :=
  viaWord (.brget w) s (fun k h _ => match mwVia w h k with | some v => .ok v | none => .error .recordUnset) fun _ _ v p s =>
    s.modSheaf p.stook p.sheaf fun h =>
      (((List.range 8).foldl (fun g j => g.ws (w.d.toNat + j) (v.record.extractLsb' (32 * j) 32)) h).nextLanes p.lanes 2 fun _ => none).count

/-- BRINV (R256) -/
def execBrinv (w : MWord) (s : State) : Host.Outcome State Fault Refusal :=
  issueWord (.brinv w) s fun p s =>
    match s.stook? p.stook with
    | none => s
    | some k =>
      let slot := (w.slotIn (k.sheaf p.sheaf)).getD 0
      ((s.dropSides k slot).modStook p.stook fun k => { k with records := k.records.filter fun r => r.1 != slot }).modSheaf p.stook
        p.sheaf fun h => (h.nextLanes p.lanes 2 fun _ => none).count

/-! ### FENCE, PREF, CCTL, MON -/

/-- FENCE (R140, R264): an acquire takes effect on the lane's outstanding loads and discards copies; a release holds the
lane's next memory instruction. At DURABLE scope it orders persists (R293); an acquire there then also waits for the releases at that
scope that its core has seen and no home has performed. -/
def execFence (w : MWord) (s : State) : Host.Outcome State Fault Refusal :=
  issueWord (.fence w) s fun p s =>
    let core := ((s.stook? p.stook).getD default).core
    let mine (q : Req) : Bool := q.stook == p.stook && q.sheaf == p.sheaf && p.lanes.getLsbD q.lane
    let acq (q : Req) : Req :=
      if mine q && !q.silent then { q with order := q.order ||| 1, scope := max q.scope w.scope } else q
    let k := (s.stook? p.stook).getD default
    let unseen := (s.seenStores k ++ (k.sheaf p.sheaf).queue).any Req.persists
    let s : State :=
      if w.acquires then (s.modCore core fun c => { c with reqs := c.reqs.map acq }).acquireAt core p.stook p.sheaf p.lanes w.scope else s
    let n := s.next
    let held (x : Lane) : Option (Nat × Nat × Nat) :=
      let old := x.fence.getD (0, 0, 0)
      if w.releases || (w.acquires && w.scope = 6 && unseen) then some (max w.scope old.1, w.order ||| old.2.1, n) else x.fence
    State.modSheaf { s with next := n + 1 } p.stook p.sheaf fun h =>
      ((h.modLanes p.lanes fun _ x => { x with
          fence := held x
          epoch := if w.releases && w.scope = 6 then x.epoch + 1 else x.epoch }).nextLanes p.lanes 2 fun _ => none).count

/-- The element a word that reads no value names, for one lane: alignment, bounds, translation and permission (checks 5,
6 and 8 of R254). A skipped element has no place. -/
def State.namedElem (s : State) (k : Stook) (v : Via) (sh : Shape) (need : Need) (idx : List Int) : Except LaneStop Elem :=
  match lanePlaces v sh idx with
  | .error c => .error (.trap c 0 0)
  | .ok [] => .ok default
  | .ok (q :: _) =>
    let e : Elem := { va := q.va, locs := [], n := q.n, shift := q.shift, width := sh.bits, fmt := sh.fmt, side := none,
                      known := [], skip := q.skip }
    if q.skip then .ok e
    else match s.locateRange k.core k.ctx q.va q.n q.va need with
      | .error (.xlateMiss, lv, va) => .error (.miss va lv [e])
      | .error (c, lv, va) => .error (.trap c va lv)
      | .ok ls => .ok { e with locs := ls }

/-- The first byte of each lane's element, for the lanes whose access would pass every check but range locks (R265,
R266). -/
def hintBytes (w : MWord) (k : Stook) (h : Sheaf) (v : Via) (p : Focus) (s : State) : List Nat :=
  let sh := ldShape w v 1
  let a := mwAccess w 0x0d9 .load (some v) sh h (immUnit v sh.bits) { rd := true } .read
  (lanesOf p.lanes).filterMap fun l =>
    match s.namedElem k v sh { rd := true } (a.idx l) with
    | .ok e => (e.locs.head?.filter fun b => b.peer.isNone).map ByteLoc.pa
    | .error _ => none

/-- Check 2 of R254 for a word that moves no data. DESIGN CHOICE (log entry 60): of a CB3 or CB4 record PREF and CCTL take AF 0 and
5 as a load does, where the table of R253 says `for loads only`. -/
def hintCheck (w : MWord) (k : Stook) (h : Sheaf) (_ : List Nat) : Except Cause Via :=
  match mwVia w h k with
  | none => .ok { slot := 64, record := 0, flat := false }
  | some v => if afLegal true v.flat w.af (recFmt v.record) 1 then .ok v else .error .illegalFormat

/-- A hint issued, which writes no register and never traps after its checks. -/
def hintWord (i : Instr) (w : MWord) (act : Stook → Nat → State → State) (s : State) : Host.Outcome State Fault Refusal :=
  viaWord i s (hintCheck w) fun k h v p s =>
    let lines := if v.slot = 64 then [] else hintBytes w k h v p { s with free := s.free + 1 }
    let s : State := { s with free := s.free + 1 }
    (lines.foldl (fun s pa => act k pa s) s).modSheaf p.stook p.sheaf fun h => (h.nextLanes p.lanes 2 fun _ => none).count

/-- PREF (R265): LEVEL 0 brings the line to L1 and L2, 1 to L2, 2 to the granary, in the place its REUSE gives it (R127). -/
def execPref (w : MWord) (s : State) : Host.Outcome State Fault Refusal :=
  hintWord (.pref w) w (fun k pa s =>
    let s := if w.sv % 4 = 2 then s.touchGranary pa w.reuse else s.fillLine k.core pa w.reuse (w.sv % 4 = 0)
    if w.repl then s.addReplica k.core k.ctx k.launch pa else s) s

/-- The bytes of a 64 B line. -/
def linePas (pa : Nat) : List Nat := (List.range 64).map fun j => 64 * lineOf pa + j

/-- The stores of a core that lie on some bytes go to the home where nothing older holds them (R266): the oldest first. -/
def State.cleanStores (s : State) (core : Nat) (pas : List Nat) : State :=
  ((s.core core).stores.filter fun q => q.pas.any pas.contains).foldl (fun s q =>
    if s.homeReady core q then s.perform core q .good else s) s

/-- The deltas of some bytes are combined, and what lies on them becomes durable where it can (R266, R295). -/
def State.cleanDeltas (s : State) (pas : List Nat) : State :=
  let s := s.combine pas
  (s.volatile.filter fun v => (s.unitPas v.unit).any pas.contains).foldl State.persist s

/-- CCTL (R266): CLEAN writes dirty words and deltas of the line home; DISCARD then drops its copies and the replica. -/
def execCctl (w : MWord) (s : State) : Host.Outcome State Fault Refusal :=
  hintWord (.cctl w) w (fun k pa s =>
    let pas := linePas pa
    let s := (s.cleanStores k.core pas).cleanDeltas pas
    if w.sv % 4 = 1 then
      (s.dropCopies k.core pas).modDie (dieOf k.core) fun d => { d with replicas := d.replicas.filter fun r => r.1 != lineOf pa }
    else s) s

/-- A lane's monitor armed on the line of an element (R153, R191); a peer page or a skipped element leaves none. -/
def Lane.arm (x : Lane) (e : Elem) : Lane :=
  match e.locs.head? with
  | some b => { x with monitor := if b.peer.isSome then none else some (lineOf e.va, lineOf b.pa, false), wake := none }
  | none => { x with monitor := none, wake := none }

/-- MON (R191): the address of a single-element load; the element itself is not read. -/
def execMon (w : MWord) (s : State) : Host.Outcome State Fault Refusal :=
  viaWord (.mon w) s (fun k h _ => viaCheck k (mwVia w h k) false (fun _ => true) (fun _ => true) false [] fun _ => [])
    fun k h v p s =>
      let sh := { ldShape w v 1 with bits := fmtBits (recFmt v.record), align := fmtBits (recFmt v.record) / 8 }
      let a : Access := mwAccess w 0x14c .load (some v) sh h (immUnit v sh.bits) { rd := true } .read
      let s : State := { s with free := s.free + 1 }
      let fates := (lanesOf p.lanes).map fun l => (l, s.namedElem k v sh { rd := true } (a.idx l))
      let traps := fates.filterMap fun f => match f.2 with | .error (.trap c va lv) => some (f.1, c, va, lv) | _ => none
      let misses := fates.filterMap fun f => match f.2 with | .error (.miss va lv es) => some (f.1, va, lv, es) | _ => none
      let goes := fates.filterMap fun f => match f.2 with | .ok e => some (f.1, e) | _ => none
      let s := s.trapLanes p 2 .read traps
      let s := s.parkMisses a (.mon w) k p 0 misses
      s.modSheaf p.stook p.sheaf fun h =>
        let h := (goes.foldl (fun h g => h.modLane g.1 fun x => x.arm g.2) h).nextLanes (maskOf (goes.map fun g => g.1)) 2 fun _ => none
        if goes.isEmpty && misses.isEmpty then h else h.count

end Sys2Proof.Machine
end

