-- ==== Sys2Proof/Machine/MemEvents.lean ====
section
/-! DEFINITION. The events of the memory system: a store leaves its sheaf's queue (06 R137, R142), a request is performed
at its home (06 R134), a result arrives (11 R257), a table entry arrives (03 R74). -/

namespace Sys2Proof.Machine

open Sys2Proof

/-! ### Stores leave their queue -/

/-- The core that holds a sheaf's queued stores: its stook's, or the one that the stook left them at. -/
def State.queueCore (s : State) (u : Nat) : Nat :=
  match s.stook? u with
  | some k => k.core
  | none => ((s.cores.find? fun c => c.left.any fun q => q.stook == u).map Core.num).getD 0

/-- A store without its first `n` elements, or with those alone. -/
def Req.firstPart (r : Req) (n : Nat) : Req := { r with elems := r.elems.take n, data := r.data.take n }
def Req.lastPart (r : Req) (n : Nat) : Req := { r with elems := r.elems.drop n, data := r.data.drop n }

/-- How many of a store's elements, `n` at most, can go ahead of the rest, so that no aligned word is written in two events. -/
def Req.cut (r : Req) (n : Nat) : Nat :=
  ((List.range (r.elems.length + 1)).filter fun j => (r.firstPart j).stored ≤ n && !(r.firstPart j).meets (r.lastPart j)).foldl max 0

/-- How many elements of a store a stook takes into its window: at most 256 stand between two compare points of a twin (R384). -/
def Stook.takes (k : Stook) (q : Req) : Nat :=
  if k.twin.isNone || q.early || q.spad then q.elems.length else q.cut (256 - k.windowStores)

/-- The oldest store that a stook's sheaves queue. -/
def Stook.oldest (k : Stook) : Option Req :=
  (k.sheaves.filterMap fun h => h.queue.head?).foldl (fun a q => if a.any fun b => b.id < q.id then a else some q) none

/-- A twin has stored as much as it may between two compare points, and its next store waits for one. -/
def Stook.full (k : Stook) : Bool := k.oldest.any fun q => !q.elems.isEmpty && k.takes q = 0

/-- Whether the oldest store of a sheaf's queue can leave it: every earlier access of the sheaf has been performed
(R136, R138); of a twin, every store that its stook issued before it (R384). -/
def State.drainable (s : State) (u i : Nat) : Bool :=
  match s.queued (s.queueCore u) u i with
  | [] => false
  | q :: _ => !((s.stook? u).any fun k => k.full || (k.twin.isSome && !((k.oldest.map Req.id) == some q.id)))
    && !((s.core (s.queueCore u)).reqs.any fun r => r.stook == u && r.sheaf == i && !r.performed && r.id < q.id)

/-- A sheaf's queued stores change. -/
def State.setQueue (s : State) (u i : Nat) (qs : List Req) : State :=
  if (s.stook? u).isSome then s.modSheaf u i fun h => { h with queue := qs }
  else s.modCore (s.queueCore u) fun c => { c with left := qs ++ c.left.filter fun q => !(q.stook == u && q.sheaf == i) }

/-- The first word of the oldest store of a sheaf's queue becomes visible to its core (R133): in the scratchpad it is performed,
a twin's is held until its watermark agrees (R384) and a second run's for good (R385), any other waits at the core for its home, with a number of the core's order. -/
def drainStore (u i : Nat) (s : State) : State :=
  let core := s.queueCore u
  match s.queued core u i with
  | [] => s
  | q :: rest =>
    if !s.drainable u i then s
    else
      let n := ((s.stook? u).map fun k => k.takes q).getD q.elems.length
      let rest := if n < q.elems.length then q.lastPart n :: rest else rest
      let q := q.firstPart n
      let parts := q.parts
      let left := parts.drop 1
      let early := q.early || !left.isEmpty
      let after := if left.isEmpty then rest else { q with early := early, elems := left.map Prod.fst, data := left.map Prod.snd } :: rest
      let first := parts.take 1
      let q' := { q with id := s.next, early := early, elems := first.map Prod.fst, data := first.map Prod.snd }
      let twin := (s.stook? u).any fun k => k.twin.isSome
      let seed := ((s.launch? q.ctx q.launch).map fun l => l.desc.seed).getD 0
      let s := State.setQueue { s with next := s.next + 1 } u i after
      let s := if twin && !q.early && !q.spad then s.modStook u fun k => k.sumWindow seed q else s
      if first.isEmpty then s
      else if q.spad then
        let ws := first.flatMap fun p => p.1.write p.2
        s.modStook u fun k => { k with scratch := ws.foldl (fun b w => Bank.set b w.1.pa w.2) k.scratch }
      else if twin then s.modStook u fun k => { k with heldStores := k.heldStores ++ [q'] }
      else if (s.stook? u).any fun k => k.rerun.isSome then
        s.modStook u fun k => { k.fireMonitors (q'.pas.map lineOf) with heldStores := k.heldStores ++ [q'] }
      else s.modCore core fun c => { c with stores := c.stores ++ [q'] }

/-- STORE_QUEUE_DRAIN (R142) -/
def execStoreQueueDrain (u i : Nat) (s : State) : Host.Outcome State Fault Refusal := event s (drainStore u i)

/-! ### Requests reach their homes -/

/-- The requests of a core that a home can perform, by number: the outstanding ones, then its stores. -/
def Core.homeList (c : Core) : List Req := c.reqs ++ c.stores

/-- The secondary twin's request that matches a primary's, which is performed once for both (R384). -/
def State.mirrorOf (s : State) (r : Req) : Option (Nat × Req) :=
  match (s.stook? r.stook).bind fun k => k.twin with
  | none => none
  | some t =>
    match s.stook? t with
    | none => none
    | some kt => ((s.core kt.core).reqs.find? fun q => q.mirror && !q.performed && q.stook == t && q.sheaf == r.sheaf
        && q.lane == r.lane && q.opcode == r.opcode).map fun q => (kt.core, q)

/-- Whether a request of a PAIRED launch's stook waits for its twin: one that acts at a home does (R384). -/
def State.needsTwin (s : State) (r : Req) : Bool :=
  !r.spad && r.op != .load && r.op != .store
    && (((s.stook? r.stook).bind fun k => k.twin).any fun t => (s.stook? t).isSome)

/-- Whether a request of a core can be performed at its home now. -/
def State.requestReady (s : State) (core : Nat) (r : Req) : Bool :=
  !r.mirror && s.homeReady core r && (!s.needsTwin r || (s.mirrorOf r).isSome)

/-- Two twins' requests agree bit for bit (R384). -/
def Req.agrees (a b : Req) : Bool :=
  a.op == b.op && a.data == b.data && (a.elems.map fun e => (e.va, e.width, e.skip)) == b.elems.map fun e => (e.va, e.width, e.skip)

/-- The NV writes that a core has made and that are not yet durable, oldest first; with those of core 0, the control node's. -/
def State.volatileOf (s : State) (core : Nat) : List NvWrite := s.volatile.filter fun v => v.core == core

/-- A request reaches its home; behind the requests of a core stand its NV writes, which reach their staging buffers (R290). -/
def homeRequest (core k : Nat) (sector : SectorRead) (s : State) : State :=
  match (s.core core).homeList[k]? with
  | none => match (s.volatileOf core)[k - (s.core core).homeList.length]? with
    | some v => s.persist v
    | none => s
  | some r =>
    if !s.requestReady core r then s
    else if !s.needsTwin r then s.perform core r sector
    else
      match s.mirrorOf r with
      | none => s
      | some (tc, q) =>
        if !r.agrees q then s.containError (s.reqFault core r .watermark)
        else
          let s := s.perform core r sector
          match (s.core core).reqs.find? fun x => x.id == r.id with
          | some d => s.setReq tc { q with performed := true, result := d.result, flags := d.flags }
          | none => s.dropReq tc q.id

/-- HOME_REQUEST (R134, R144) -/
def execHomeRequest (core k : Nat) (sector : SectorRead) (s : State) : Host.Outcome State Fault Refusal :=
  event s (homeRequest core k sector)

/-- The data of a performed request arrives at its lane. -/
def loadResponse (core k : Nat) (s : State) : State :=
  match (s.core core).reqs[k]? with
  | none => s
  | some r =>
    if !r.performed then s
    else (s.dropReq core r.id).deliver r.stook r.sheaf r.lane r.id r.issue r.dest r.regs.1 r.regs.2

/-- LOAD_RESPONSE (R257) -/
def execLoadResponse (core k : Nat) (s : State) : Host.Outcome State Fault Refusal := event s (loadResponse core k)

/-! ### Table entries -/

/-- A side reference that waits for a block's entry takes it. -/
def SideRef.take (t : SideRef) (b : BscEntry) (bytes : List Byte) : SideRef :=
  if t.fill = b.id && t.entry.isNone then { t with entry := some bytes } else t

def Req.fillSides (r : Req) (b : BscEntry) (bytes : List Byte) : Req :=
  { r with elems := r.elems.map fun e => { e with side := e.side.map fun t => t.take b bytes } }

def Lane.fillSides (x : Lane) (b : BscEntry) (bytes : List Byte) : Lane :=
  match x.hold with
  | some (.txwait r n) => { x with hold := some (.txwait (r.fillSides b bytes) n) }
  | _ => x

/-- A store, a copy or a MEMWRITE has written some of its words and is still to write one that holds a byte of some places: an entry there is
neither its old value nor its new one (R74). -/
def State.halfWritten (s : State) (locs : List ByteLoc) : Bool :=
  let hits (bs : List ByteLoc) : Bool := bs.any fun b => locs.any fun x => x.pa == b.pa && x.peer == b.peer
  let half (q : Req) : Bool := q.early && q.op == .store && !q.spad && hits q.locs
  (s.transfers.any fun x => x.done != 0 && (match x.req with | .memwrite _ _ _ => true | _ => false)
      && x.left.any fun w => hits (w.map Prod.fst))
    || (s.cores.any fun c => c.stores.any half || c.left.any half || c.copies.any fun x => x.writes.any fun q => hits q.locs)
    || s.stooks.any fun k => k.heldStores.any half || k.sheaves.any fun h => h.queue.any half

/-- A fill waits for the stores that its stook's sheaves issued before it and still queue, as a load through the side record does
(R74, R136), and for an entry that is half written. -/
def State.fillWaits (s : State) (core : Nat) (b : BscEntry) : Bool :=
  s.halfWritten b.locs || s.stooks.any fun k => k.core == core && k.place == b.place && k.sheaves.any fun h => h.queue.any fun q =>
    !q.spad && q.id < b.id && q.locs.any fun l => b.locs.any fun x => x.pa == l.pa && x.peer == l.peer

/-- The `k`-th missing side-table entry of a core arrives, whole (R74): the accesses that wait for it take it, and the core keeps
it unless it was dropped meanwhile. Its lines take the places that the side record's REUSE gives (R127). A lasting error of its
sector is delivered to the launch instead (R387). -/
def bscFill (core k : Nat) (s : State) : State :=
  match ((s.core core).bsc.filter fun b => b.entry.isNone)[k]? with
  | none => s
  | some b =>
    let same (e : BscEntry) : Bool := e.id == b.id
    if s.fillWaits core b then s
    else
    let ks := s.stooks.find? fun x => x.core == core && x.place == b.place
    match s.readSectors core b.locs .good with
    | (some c, s) =>
      (s.modCore core fun x => { x with bsc := x.bsc.filter fun e => !same e }).containError
        { (default : FaultRec) with cause := c, ctx := b.ctx, launch := (ks.map Stook.launch).getD 0,
                                    stookId := (ks.map Stook.stookId).getD 0, core := core, kind := .read }
    | (none, s) =>
      let seen := s.seenStores (ks.getD { (default : Stook) with core := core })
      let bytes := b.locs.mapIdx fun j l => ((newestByte seen l).map Prod.snd).getD (s.byteAt j l)
      let s : State := { s with free := s.free + b.locs.length }
      let s := (((b.locs.filter fun l => l.peer.isNone).map fun l => 64 * lineOf l.pa).eraseDups).foldl (fun s pa => s.fillLine core pa b.reuse false) s
      let s := s.modCore core fun x => { x with
        bsc := (x.bsc.map fun e => if same e then { e with entry := some bytes } else e).filter fun e => e.live || !same e
        reqs := x.reqs.map fun r => r.fillSides b bytes }
      { s with stooks := s.stooks.map fun ks =>
          if ks.core == core then
            { ks with sheaves := ks.sheaves.map fun h => { h with lanes := h.lanes.map fun x => x.fillSides b bytes } }
          else ks }

/-- BSC_FILL (R74) -/
def execBscFill (core k : Nat) (s : State) : Host.Outcome State Fault Refusal := event s (bscFill core k)

end Sys2Proof.Machine
end

