-- ==== Sys2Proof/Machine/Sync.lean ====
section
/-! DEFINITION. Named barriers (08 R188 to R190), MWAIT (06 R153; 08 R192) and REGROUP (05 R107; 08 R196). -/

namespace Sys2Proof.Machine

open Sys2Proof

/-! ### Barriers (R189) -/

/-- Lanes of a sheaf held at BAR or BARA on a barrier, by the phase they are counted for. A lane that a debugger stopped
there has not come to an arrival, but stays counted in one that it has been counted in (R122, R123). -/
def Sheaf.atBar (h : Sheaf) (n : Nat) (p : Option Nat → Bool → Nat → Bool) : LaneMask :=
  h.lanesWhere fun x => match x.hold with | some (.bar m c w k) => m == n && (x.stop.isNone || k = 1) && p c w k | _ => false

/-- The arrival of a lane's sheaf is a release at CORE scope (R190): what the lanes issued before is performed there. -/
def State.barReleased (s : State) (u i : Nat) (m : LaneMask) : Bool :=
  (lanesOf m).all fun l => s.released { stook := u, sheaf := i, lane := l } 1 s.next

/-- A sheaf arrives at a barrier if all its lanes not exited stand there uncounted: counted for the current phase, or for
the following one; held on a third arrival; SYNC_MISMATCH on differing counts (R189). -/
def State.arrive (s : State) (u n i : Nat) : State :=
  match s.stook? u with
  | none => s
  | some k =>
    let h := k.sheaf i
    let here := h.atBar n fun _ _ c => c = 0
    let counts := ((lanesOf here).filterMap fun l => match (h.lane l).hold with | some (.bar _ c _ _) => some c | _ => none).eraseDups
    if here = 0 || h.live &&& ~~~here != 0 || !s.barReleased u i here then s
    else
      let b := k.barrier n
      let cnt := counts.headD none
      let which := if !b.arrived.getLsbD i then 1 else if !b.next.getLsbD i then 2 else 0
      let fixed := if which = 1 then b.phase else b.nextPhase
      if counts.length != 1 then s.trapHeld u i here .syncMismatch
      else if which = 0 then s
      else if fixed.any fun c => c != cnt then s.trapHeld u i here .syncMismatch
      else
        let waits := h.atBar n fun _ w c => w && c = 0
        let goes := h.atBar n fun _ w c => !w && c = 0
        let bit : Word := 1#32 <<< i
        let b : Barrier := if which = 1 then { b with phase := some cnt, arrived := b.arrived ||| bit }
          else { b with nextPhase := some cnt, next := b.next ||| bit }
        let b : Barrier := if goes = 0 then b else { b with record := Bank.set b.record i (BitVec.ofNat 2 which) }
        let mark (x : Lane) : Lane := { x with hold := some (.bar n cnt true which) }
        s.modStook u fun k => (k.setBarrier n b).modSheaf i fun h =>
          ((h.modLanes waits fun _ x => mark x).finishHeld goes).nextLanes goes 1 fun _ => none

/-- Whether a barrier's current phase has its arrivals: their number is the count, or every sheaf with a lane not exited
has arrived. -/
def Stook.phaseDone (k : Stook) (b : Barrier) : Bool :=
  match b.phase with
  | none => false
  | some (some c) => population b.arrived = c
  | some none => (List.range k.sheaves.length).all fun i => (k.sheaf i).live = 0 || b.arrived.getLsbD i

/-- A phase completes: its waiting lanes go on, the following phase becomes the current one. -/
def State.completePhase (s : State) (u n : Nat) : State :=
  match s.stook? u with
  | none => s
  | some k =>
    let b := k.barrier n
    if !k.phaseDone b then s
    else
      let rec' : Bank 2 := (List.range 32).foldl (fun r i =>
        Bank.set r i (if Bank.get b.record i = 2 then 1 else 0)) b.record
      let nb : Barrier := { phase := b.nextPhase, nextPhase := none, arrived := b.next, next := 0, record := rec' }
      let shift (x : Lane) : Lane := match x.hold with
        | some (.bar m c w 2) => if m = n then { x with hold := some (.bar m c w 1) } else x
        | _ => x
      let pass (h : Sheaf) : Sheaf :=
        let h := h.passHeld (h.atBar n fun _ _ c => c = 1)
        { h with lanes := h.lanes.map shift }
      s.modStook u fun k => { k.setBarrier n nb with sheaves := k.sheaves.map pass }

/-- Lanes at BARW whose sheaf has no recorded phase left go on. -/
def State.passBarw (s : State) (u n : Nat) : State :=
  s.modStook u fun k =>
    let pass (i : Nat) (h : Sheaf) : Sheaf :=
      h.passHeld (if Bank.get (k.barrier n).record i = 0 then h.lanesWhere fun x => x.hold == some (.barw n) else 0)
    { k with sheaves := k.sheaves.mapIdx pass }

/-- A barrier is looked at: its phase, then arrivals in ascending sheaf order, each with the phase it may complete and the lanes at
BARW that go on with it. -/
def State.settleBarrier (s : State) (u n : Nat) : State :=
  let sheaves := List.range (((s.stook? u).map fun k => k.sheaves.length).getD 0)
  let pass (s : State) : State := (s.completePhase u n).passBarw u n
  (List.range 4).foldl (fun s _ => sheaves.foldl (fun s i => pass (s.arrive u n i)) (pass s)) s

/-- A barrier word: its lanes are held at it. -/
def barWord (i : Instr) (w : IWord) (x : Sheaf → Hold) (s : State) : Host.Outcome State Fault Refusal :=
  issueWord i s fun p s =>
    (s.modSheaf p.stook p.sheaf fun h => (h.holdLanes p.lanes 0 (x h)).count).settleBarrier p.stook w.imm.toNat

/-- The count a BAR or BARA names (R188). -/
def barCount (w : IWord) (h : Sheaf) : Option Nat := if w.a == cZERO then none else some (h.rs w.a.toNat).toNat

/-- BAR (R189) -/
def execBar (w : IWord) (s : State) := barWord (.bar w) w (fun h => .bar w.imm.toNat (barCount w h) true 0) s
/-- BARA (R189) -/
def execBara (w : IWord) (s : State) := barWord (.bara w) w (fun h => .bar w.imm.toNat (barCount w h) false 0) s
/-- BARW (R189) -/
def execBarw (w : IWord) (s : State) := barWord (.barw w) w (fun _ => .barw w.imm.toNat) s

/-! ### MWAIT (R153, R192) -/

/-- The count that a timeout is measured in: cycles of the core, or steps it takes in deterministic mode. -/
def State.waitCount (s : State) (k : Stook) : Nat :=
  let c := s.core k.core
  if (s.launchOf k).desc.rotates then c.steps else c.cycles.toNat

/-- A lane wakes from its MWAIT with a reason; its monitor is disarmed. -/
def State.wakeLane (s : State) (r : LaneRef) (reason : Nat) : State :=
  match (s.laneAt r).hold with
  | some (.mwait (.mwait w) _ _) =>
    let m : LaneMask := maskOf [r.lane]
    let s := if isVReg w.d then s.bindReg r.stook r.sheaf w.d.toNat m else s
    s.modSheaf r.stook r.sheaf fun h =>
      let h := if isVReg w.d then h.wv w.d.toNat r.lane (BitVec.ofNat 32 reason) else h
      ((h.finishHeld m).nextLanes m (sizeA w) fun _ => none).modLane r.lane fun x => { x with monitor := none, wake := none }
  | _ => s

/-- What wakes a lane at once: a pre-emption or restore, no armed monitor, a write that reached the line (R153). -/
def Lane.wakeReason (x : Lane) : Option Nat :=
  match x.wake with
  | some r => some r
  | none => match x.monitor with
    | none => some 3
    | some (_, _, true) => some 0
    | some (_, _, false) => none

/-- A lane's MWAIT has lasted its timeout. -/
def State.timeoutDue (s : State) (r : LaneRef) : Bool :=
  match s.stook? r.stook, (s.laneAt r).hold with
  | some k, some (.mwait _ t since) => (s.laneAt r).stop.isNone && t != 0 && since + t ≤ s.waitCount k
  | _, _ => false

/-- The lanes of a sheaf at MWAIT that something wakes go on; on a core in rotation, those too whose steps are over, before
the core takes another (R192). -/
def State.settleMwait (s : State) (u i : Nat) : State :=
  let h := s.sheafAt u i
  let at' := h.lanesWhere fun x => x.stop.isNone && (match x.hold with | some (.mwait _ _ _) => true | _ => false)
  (lanesOf at').foldl (fun s l => match (h.lane l).wakeReason with
    | some r => s.wakeLane { stook := u, sheaf := i, lane := l } r
    | none =>
      let r : LaneRef := { stook := u, sheaf := i, lane := l }
      if (s.stook? u).any (fun k => (s.launchOf k).desc.rotates) && s.timeoutDue r then s.wakeLane r 1 else s) s

/-- MWAIT (R192) -/
def execMwait (w : AWord) (s : State) : Host.Outcome State Fault Refusal :=
  issueWord (.mwait w) s fun p s =>
    let f := aForm 0x14d
    let k := (s.stook? p.stook).getD default
    let since := s.waitCount k
    let h := s.sheafAt p.stook p.sheaf
    let (issue, s) := s.beginIssue p.stook p.sheaf (w.tok f) p.lanes
    (s.modSheaf p.stook p.sheaf fun g => (g.modLanes p.lanes fun l x =>
      { x with hold := some (.mwait (.mwait w) (h.src (w.sregN f) w.a l).toNat since), issue := issue }).count).settleMwait p.stook p.sheaf

/-- MWAIT_TIMEOUT (R192) -/
def execMwaitTimeout (l : LaneRef) (s : State) : Host.Outcome State Fault Refusal :=
  event s fun s => if s.timeoutDue l then s.wakeLane l 1 else s

/-- MWAIT_SPURIOUS_WAKE (R153) -/
def execMwaitSpuriousWake (l : LaneRef) (s : State) : Host.Outcome State Fault Refusal :=
  event s fun s => if (s.laneAt l).stop.isNone then s.wakeLane l 3 else s

/-! ### REGROUP (R107, R196) -/

/-- A lane at a REGROUP has nothing outstanding. -/
def State.regroupFree (s : State) (r : LaneRef) : Bool :=
  let core := ((s.stook? r.stook).getD default).core
  (s.laneAt r).pending.isEmpty
    && !((s.core core).replay.any fun e => e.req.stook == r.stook && e.req.sheaf == r.sheaf && e.req.lane == r.lane)
    && (s.copiesOf r).all fun c => c.state = 4 || c.state = 5

/-- The key, range and set of a lane held at a REGROUP. -/
def Lane.regroupAt (x : Lane) : Option (Word × Nat × Nat × Word) :=
  if x.stop.isSome then none else match x.hold with | some (.regroup k f c t) => some (k, f, c, t) | _ => none

/-- Lanes of a sheaf at a REGROUP with a copy that failed trap COPY_FAULT there (R196, R311). -/
def State.regroupFault (s : State) (u i : Nat) : State :=
  let ref (l : Nat) : LaneRef := { stook := u, sheaf := i, lane := l }
  let fs := (lanesOf ((s.sheafAt u i).lanesWhere fun x => x.regroupAt.isSome)).filterMap fun l =>
    if s.regroupFree (ref l) then (s.failedCopy (ref l)).map fun c => (l, c) else none
  (fs.foldl (fun s f => s.tellAll (ref f.1) (maskOf [f.1])) s).failCopies u i 2 fs

/-- Lanes in the order of a REGROUP: by key, then sheaf, then lane. -/
def insertKey (x : Nat × Nat × Nat) : List (Nat × Nat × Nat) → List (Nat × Nat × Nat)
  | [] => [x]
  | y :: t => if x.1 < y.1 || (x.1 = y.1 && (x.2.1 < y.2.1 || (x.2.1 = y.2.1 && x.2.2 < y.2.2))) then x :: y :: t else y :: insertKey x t

/-- The lane that comes to a position: its PC, with its place in its clause, moves; all else of a lane stays with the
position (R107): its path's age, its transaction status, its persist barriers and fence, its stepping. -/
def Lane.movedTo (x y : Lane) : Lane :=
  { y with
    pc := x.pc, hdr := x.hdr, cls := x.cls, fin := x.fin, inside := x.inside, pos := x.pos, latches := [], resumed := x.resumed
    wrote := x.wrote, tag := x.tag, hold := x.hold, yields := x.yields, passed := false, refilled := false, issue := 0
    withdrawn := 7, pending := [], exitIssued := false, exited := false, stop := none, monitor := none, wake := none }

/-- The move of R107 among the sheaves of a list. -/
def Stook.regroup (k : Stook) (ids : List Nat) (first count : Nat) : Stook :=
  let keys := ids.flatMap fun i => (lanesOf (k.sheaf i).live).map fun l =>
    ((((k.sheaf i).lane l).regroupAt.map fun r => r.1.toNat).getD 0, i, l)
  let order := keys.foldl (fun t x => insertKey x t) []
  ids.foldl (fun k' i =>
    let base := 32 * (ids.takeWhile fun j => j != i).length
    k'.modSheaf i fun h =>
      let from' (l : Nat) : Option (Nat × Nat × Nat) := order[base + l]?
      let lanes := h.lanes.mapIdx fun l x =>
        match from' l with
        | some (_, si, sl) => ((k.sheaf si).lane sl).movedTo x
        | none => { x with exitIssued := true, exited := true, hold := none, stop := none, monitor := none }
      let v := (List.range 32).foldl (fun b l => match from' l with
        | some (_, si, sl) => (List.range count).foldl (fun b j =>
            Bank.set b (32 * (first + j) + l) ((k.sheaf si).rv (first + j) sl)) b
        | none => b) ([] : Bank 32)
      let inside (r : Nat) : Bool := first ≤ r && r < first + count
      { h with lanes := lanes, v := v, bound := h.bound.filter inside, spilled := h.spilled.filter inside }) k

/-- The participating sheaves a lane at REGROUP names are looked at. -/
def State.tryRegroup (s : State) (u i l : Nat) : State :=
  match s.stook? u with
  | none => s
  | some k =>
    match ((k.sheaf i).lane l).regroupAt with
    | none => s
    | some (_, first, count, set) =>
      let ids := (List.range k.sheaves.length).filter fun n => set.getLsbD n
      let live := ids.flatMap fun n => (lanesOf (k.sheaf n).live).map fun j => (n, j)
      let here (p : Nat × Nat) : Bool := ((k.sheaf p.1).lane p.2).regroupAt.isSome
        && s.regroupFree { stook := u, sheaf := p.1, lane := p.2 }
      let same (p : Nat × Nat) : Bool := (((k.sheaf p.1).lane p.2).regroupAt.map fun r => r.2) == some (first, count, set)
      let trap (c : Cause) : State := ids.foldl (fun s n => s.trapHeld u n (k.sheaf n).live c) s
      let c := s.core k.core
      if !live.all here then s
      else if !live.all same then trap .syncMismatch
      else if ids.any fun n => (k.sheaf n).m.any fun _ => true then trap .maskMismatch
      else if !ids.all fun n => (k.sheaf n).lanes.all fun x => !x.exitIssued || x.exited then s
      else if ids.any fun n => !(k.sheaf n).queue.isEmpty || c.reqs.any fun q => q.stook == u && q.sheaf == n then s
      else
        let s := ids.foldl (fun s n => s.modSheaf u n fun h =>
          ((h.issuesOf h.live).foldl (fun h q => h.finishLanes q.2 (maskOf [q.1])) h).modLanes h.live fun _ x =>
            { x with issue := 0 }) s
        let inside (r : Nat) : Bool := first ≤ r && r < first + count
        let dropped := ids.foldl (fun a n => a + ((k.sheaf n).spilled.filter fun r => !inside r).length) 0
        let s := (s.modStook u fun k => k.regroup ids first count).unspill k.ctx dropped
        ids.foldl (fun s n =>
          let m := (s.sheafAt u n).live
          (s.modSheaf u n fun h => ((h.finishHeld m).nextLanes m 2 fun _ => none).count).touchRegs u n m []
            (if m = 0 then [] else (List.range count).map fun j => first + j)) s

/-- The lanes of a stook at REGROUP: failures of their copies, monitors disarmed on arrival, then the move. -/
def State.settleRegroup (s : State) (u : Nat) : State :=
  let refs (s : State) : List (Nat × Nat) := match s.stook? u with
    | none => []
    | some k => (List.range k.sheaves.length).flatMap fun i =>
        (lanesOf ((k.sheaf i).lanesWhere fun x => x.regroupAt.isSome)).map fun l => (i, l)
  let s := (List.range (((s.stook? u).map fun k => k.sheaves.length).getD 0)).foldl (fun s i => s.regroupFault u i) s
  let s := (refs s).foldl (fun s p =>
    let r : LaneRef := { stook := u, sheaf := p.1, lane := p.2 }
    if s.regroupFree r then s.modLane r fun x => { x with monitor := none } else s) s
  (refs s).foldl (fun s p => s.tryRegroup u p.1 p.2) s

/-- REGROUP (R196): lanes come to the word with their keys. -/
def execRegroup (w : AWord) (s : State) : Host.Outcome State Fault Refusal :=
  issueWord (.regroup w) s fun p s =>
    let f := aForm 0x157
    let k := (s.stook? p.stook).getD default
    let h := s.sheafAt p.stook p.sheaf
    let all : Word := maskOf (List.range k.sheaves.length)
    let set := (if w.c f == cBCAST then h.rs (w.sregN f) else BitVec.allOnes 32) &&& all
    let (issue, s) := s.beginIssue p.stook p.sheaf (w.tok f) p.lanes
    (s.modSheaf p.stook p.sheaf fun g => g.modLanes p.lanes fun l x =>
      { x with hold := some (.regroup (h.src (w.sregN f) w.a l) w.b.toNat (w.opt f + 1) set), issue := issue }).settleRegroup p.stook

end Sys2Proof.Machine
end

