-- ==== Sys2Proof/Machine/CopyEngine.lean ====
section
/-! DEFINITION. Bulk copies (14 R305 to R312; 06 R149 to R151): the copy words, acceptance, chunks, CWAIT. -/

namespace Sys2Proof.Machine

open Sys2Proof

/-! ### Formats and extents -/

/-- A legal pair of source and destination formats (R307). -/
def copyPair (f g : Nat) : Bool :=
  let cb := f = 0x21 || f = 0x22
  if cb then g = 0x11 || g = 0x12 else f = g || (fmtIsFloat f && fmtIsFloat g)

/-- One element converted (R307): its bits and flags. -/
def copyConvert (f g rm v : Nat) : Nat × FlagSet :=
  let f' := if f = 0x21 || f = 0x22 then 0x11 else f
  if f' = g then (v, 0) else fCvt g f' rm v

/-- The shape of one element of a copy. -/
def copyShape (fmt : Nat) : Shape :=
  { fmt := fmt, bits := fmtBits fmt, step := 1, align := 1, count := 1, raw := false, cell := false }

/-- Elements moved as one unit, and the bytes a unit takes in a buffer slot. -/
def copyUnit (fmt : Nat) : Nat := if fmt = 0x20 then 16 else 1
def copySlotBytes (fmt : Nat) : Nat := if fmt = 0x20 then 12 else fmtBits fmt / 8

/-- A run of indices lies inside a record. -/
def runInside (r : Rec) (lo : Int) (n : Nat) : Bool := 0 ≤ lo && lo + n ≤ recCount r

/-- The byte interval of a run of indices of a record: from the lowest to the highest byte it may touch (R149). Rows
ascend within a plane and planes ascend, so the ends are met at the run's first and last element or at the row and plane
ends between them. A record that clamps is touched at its first or last element by what lies outside it (R76). -/
def runRange (r : Rec) (lo : Int) (n : Nat) (wr : Bool) : Bool × Nat × Nat × Bool :=
  let total := recCount r
  let u := copyUnit (recFmt r)
  let inside (i : Int) : Nat := (max 0 (min i ((total : Int) - u))).toNat
  let clamps := recBounds r = 2 && n != 0 && total != 0
  let a := if clamps then inside lo else (max lo 0).toNat
  let b := if clamps then inside (lo + n - u) + u else (min (lo + n) total).toNat
  if b ≤ a then (false, 0, 0, wr)
  else
    let e0 := recExt0 r
    let e1 := recExt1 r
    let at' (i : Nat) : Nat := (recBitpos r i).toNat
    let w := fmtBits (recFmt r)
    let last := b - 1
    let lows := [a, (a / e0 + 1) * e0, (a / (e0 * e1) + 1) * (e0 * e1)].filter fun i => i ≤ last
    let highs := [last] ++ (if last / e0 * e0 ≤ a then [] else [last / e0 * e0 - 1])
      ++ (if last / (e0 * e1) * (e0 * e1) ≤ a then [] else [last / (e0 * e1) * (e0 * e1) - 1])
    let lo8 := (lows.map at').foldl min (at' a)
    let hi8 := (highs.map fun i => at' i + w).foldl max 0
    (false, lo8 / 8, (hi8 + 7) / 8, wr)

def Copy.total (c : Copy) : Nat := shapeRun c.shape * shapeCount c.shape
def Copy.dstFmt (c : Copy) : Nat := if ctlDcb c.ctl then ctlDfmt c.ctl else recFmt c.dstRec
def Copy.unit (c : Copy) : Nat := copyUnit (recFmt c.srcRec)

/-- The ranges a copy reads or writes, computed at issue (R149). -/
def Copy.lockRanges (c : Copy) : List (Bool × Nat × Nat × Bool) :=
  let all (r : Rec) (wr : Bool) := runRange r 0 (recCount r) wr
  [if c.kind = 1 then all c.srcRec false else runRange c.srcRec c.sorg c.total false]
    ++ (if ctlDcb c.ctl then [] else [if c.kind = 2 then all c.dstRec true else runRange c.dstRec c.dorg c.total true])
    ++ (if c.kind = 0 then [] else [runRange c.idxRec c.iorg (shapeCount c.shape) false])

/-- Entries of the range-lock table in use: a copy holds one until it completes or fails. -/
def Core.locksUsed (c : Core) : Nat := (c.copies.filter fun x => x.state ≤ 3 && !x.ranges.isEmpty).length

/-- A command takes an entry of the range-lock table when one is free. -/
def State.takeEntry (s : State) (core id : Nat) : State :=
  if Config.copyEntries ≤ (s.core core).locksUsed then s
  else
    let take (x : Copy) : Copy := if x.id == id && x.ranges.isEmpty then { x with ranges := x.lockRanges } else x
    s.modCore core fun c => { c with copies := c.copies.map take }

/-! ### The copy words (R305 to R308) -/

/-- The geometry CBINIT reads (R313). -/
def cbGeometry (x : Word) : CBuf :=
  let slots := (x.extractLsb' 0 8).toNat + 1
  { slots := slots, slotBytes := ((x.extractLsb' 8 9).toNat + 1) * 128, offset := (x.extractLsb' 17 12).toNat * 128,
    free := slots, filled := 0, held := 0, claim := 0, acq := 0, rel := 0, done := [] }

/-- The CBINITs of a buffer that lanes of a stook wait at: the numbers of their issues and the geometries they read. -/
def Stook.cbInits (k : Stook) (n : Nat) : List (Nat × Word) :=
  (k.sheaves.flatMap fun h => h.lanes.filterMap fun x => match x.hold with
    | some (.cbinit (.cbinit w) g id) => if w.opt (aForm 0x110) = n then some (id, g) else none
    | _ => none).eraseDups

/-- A buffer as a copy issued now finds it when it is accepted: behind the CBINITs issued before (R137, R313). -/
def Stook.ringFor (k : Stook) (n : Nat) : CBuf :=
  ((k.cbInits n).foldl (fun (b : Nat × CBuf) x => if b.1 ≤ x.1 then (x.1, cbGeometry x.2) else b) (0, (k.cbuf? n).getD default)).2

/-- The descriptor's first register with its rounding mode resolved (R305, R310). -/
def resolvedCtl (c : Word) (rm : Nat) : Word := (c &&& ~~~(0x00E00000 : Word)) ||| BitVec.ofNat 32 (rm <<< 21)

/-- The checks of R308 from 2 on, in order. DESIGN CHOICE (log entry 61): R307's MISALIGNED of an LG6 copy, which the order does not
name, stands between checks 4 and 5. -/
def copyCheck (k : Stook) (h : Sheaf) (kind : Nat) (w : MWord) : Option Cause :=
  let x := h.copyDesc w
  let c := x.ctl
  let dcb := ctlDcb c
  let src := (w.slotIn h).bind k.record?
  let dst := k.record? (ctlDslot c)
  let idx := k.record? (ctlIslot c)
  let rs := src.getD 0
  let rd := dst.getD 0
  let f := recFmt rs
  let g := if dcb then ctlDfmt c else recFmt rd
  let side := k.record? (recSide rs)
  let cb := f = 0x21 || f = 0x22
  let T := shapeRun x.shape * shapeCount x.shape
  let so : Int := (x.sorg : Int) + w.imm
  let b := k.ringFor (ctlCbuf c)
  let gRead := !dcb && (g = 0x21 || g = 0x22)
  firstFail
    [(src.isSome && (dcb || dst.isSome) && (kind = 0 || idx.isSome) && (!cb || side.isSome), .recordUnset),
     ((copyPair f g || gRead) && (kind = 0 || recFmt (idx.getD 0) = 0x03 || recFmt (idx.getD 0) = 0x05)
        && (!cb || recFmt (side.getD 0) = 0x30), .illegalFormat),
     (dcb || !(gRead || recRO rd || recOverlap rd), .roStore),
     (f != 0x20 || (shapeRun x.shape % 16 = 0 && so % 16 = 0 && x.dorg % 16 = 0), .misaligned),
     (!dcb || b.slots = 0 || T / copyUnit g * copySlotBytes g ≤ b.slotBytes, .bounds),
     (!dcb || b.slots != 0, .cbState),
     ((kind = 1 || recBounds rs != 0 || runInside rs so T)
        && (dcb || kind = 2 || recBounds rd != 0 || runInside rd x.dorg T), .bounds)]

/-- A copy word: the copy's command, whose lanes wait at the word until the engine accepts it (R308). -/
def copyAct (i : Instr) (kind : Nat) (w : MWord) (p : Focus) (s : State) : State :=
  match s.stook? p.stook with
  | none => s
  | some k =>
    let h := k.sheaf p.sheaf
    match copyCheck k h kind w with
    | some c => s.takeTrap p i.size c
    | none =>
      let x := h.copyDesc w
      let pc := ((lanesOf p.lanes).head?.map fun l => (h.lane l).pc).getD 0
      let id := s.next
      let (issue, s) := State.beginIssue { s with next := id + 1 } p.stook p.sheaf w.tok p.lanes
      let rs : Rec := ((w.slotIn h).bind k.record?).getD 0
      let copy : Copy :=
        { id := id, ctx := k.ctx, launch := k.launch, stook := k.uid, sheaf := p.sheaf, lanes := p.lanes, pc := pc, kind := kind,
          ctl := resolvedCtl x.ctl (h.mode (ctlRm x.ctl)), shape := x.shape, sorg := (x.sorg : Int) + w.imm, dorg := x.dorg, iorg := x.iorg,
          srcSlot := (w.slotIn h).getD 0, srcRec := rs, sideRec := (k.record? (recSide rs)).getD 0,
          dstRec := if ctlDcb x.ctl then 0 else (k.record? (ctlDslot x.ctl)).getD 0,
          idxRec := if kind = 0 then 0 else (k.record? (ctlIslot x.ctl)).getD 0, cbSlot := none,
          rm := h.mode (ctlRm x.ctl), scope := w.scope, rel := w.releases, reuse := w.reuse, repl := w.repl, cursor := 0,
          state := 0, fcause := none, fault := 0, flags := 0, issue := issue,
          epochs := (lanesOf p.lanes).map fun l => (l, (h.lane l).epoch), writes := [], taking := 0, ranges := [], undelivered := p.lanes, mate := none }
      let s := (lanesOf p.lanes).foldl (fun s l => s.passFence k.core { stook := p.stook, sheaf := p.sheaf, lane := l }) s
      let s := (s.modCore k.core fun c => { c with copies := c.copies ++ [copy] }).takeEntry k.core id
      s.modSheaf p.stook p.sheaf fun h => (h.holdLanes p.lanes issue (.copy id)).count

/-- CPY (R306) -/
def execCpy (w : MWord) (s : State) : Host.Outcome State Fault Refusal := issueWord (.cpy w) s (copyAct (.cpy w) 0 w)
/-- CPYG (R306) -/
def execCpyg (w : MWord) (s : State) : Host.Outcome State Fault Refusal := issueWord (.cpyg w) s (copyAct (.cpyg w) 1 w)
/-- CPYS (R306) -/
def execCpys (w : MWord) (s : State) : Host.Outcome State Fault Refusal := issueWord (.cpys w) s (copyAct (.cpys w) 2 w)

/-! ### Acceptance (R308, R152) -/

/-- The `k`-th command of a core not yet accepted. -/
def Core.command? (c : Core) (k : Nat) : Option Copy := (c.copies.filter fun x => x.state = 0)[k]?

/-- A command holds what it needs: an entry, and a free slot of its buffer, which no CBINIT issued before is to form anew (R313). -/
def State.canAccept (s : State) (x : Copy) : Bool :=
  !x.ranges.isEmpty
    && (!ctlDcb x.ctl || ((s.stook? x.stook).bind fun k => k.cbuf? (ctlCbuf x.ctl)).any fun b => 0 < b.free)
    && !(ctlDcb x.ctl && (s.stook? x.stook).any fun k => (k.cbInits (ctlCbuf x.ctl)).any fun g => g.1 < x.id)

/-- A command is accepted: it claims its slot, its lanes go on, its token is finished; it runs unless an earlier lock holds it. A
secondary twin's waits for the primary's, which is performed for both (R384). -/
def State.accept (s : State) (core : Nat) (x : Copy) : State :=
  let b := (((s.stook? x.stook).bind fun k => k.cbuf? (ctlCbuf x.ctl)).getD default : CBuf)
  let slot := if ctlDcb x.ctl then some (b.claim, b.offset + b.claim * b.slotBytes) else none
  let set (y : Copy) : Copy := if y.id == x.id then { y with state := 1, cbSlot := slot, mate := x.mate } else y
  let s := s.modCore core fun c => Core.wake { c with copies := c.copies.map set }
  let s := if ctlDcb x.ctl then s.modStook x.stook fun k =>
      k.setCbuf (ctlCbuf x.ctl) { b with free := b.free - 1, claim := (b.claim + 1) % b.slots } else s
  s.modSheaf x.stook x.sheaf fun h =>
    let m := maskFilter x.lanes fun l => (h.lane l).hold == some (.copy x.id)
    (h.finishHeld m).nextLanes m 2 fun _ => none

/-- Two twins' commands agree (R384). -/
def Copy.agrees (a b : Copy) : Bool :=
  a.kind == b.kind && a.ctl == b.ctl && a.shape == b.shape && a.sorg == b.sorg && a.dorg == b.dorg && a.iorg == b.iorg
    && a.srcRec == b.srcRec && a.dstRec == b.dstRec && a.idxRec == b.idxRec && a.lanes == b.lanes

/-- The `k`-th waiting command of a core takes its entry and is accepted. Twins' commands are accepted together. -/
def copyAccept (core k : Nat) (s : State) : State :=
  match (s.core core).command? k with
  | none => s
  | some x =>
    let s := s.takeEntry core x.id
    let x := (((s.core core).copies.find? fun y => y.id == x.id).getD x)
    let ks := (s.stook? x.stook).getD default
    if ks.stopping != 0 && !s.canAccept x then s
    else
      match (ks.twin.bind s.stook?) with
      | none => if s.canAccept x then s.accept core x else s
      | some kt =>
        if ks.secondary then s
        else
          match (s.core kt.core).copies.find? fun y => y.state = 0 && y.stook == kt.uid && y.sheaf == x.sheaf with
          | none => s
          | some y =>
            let s := s.takeEntry kt.core y.id
            let y := (((s.core kt.core).copies.find? fun z => z.id == y.id).getD y)
            if !x.agrees y then
              s.containError { (default : FaultRec) with
                cause := .watermark, ctx := x.ctx, launch := x.launch, stookId := ks.stookId, core := core, lanes := x.lanes, kind := .none }
            else if s.canAccept x && s.canAccept y then (s.accept core x).accept kt.core { y with mate := some x.id }
            else s

/-- COPY_ACCEPT (R308) -/
def execCopyAccept (core k : Nat) (s : State) : Host.Outcome State Fault Refusal := event s (copyAccept core k)

/-! ### Chunks (R309) -/

/-- What stops a chunk. -/
inductive ChunkStop where
  | fail (c : Cause)
  | miss (va level : Nat) (kind : AccessKind)
  deriving Repr, Inhabited

/-- A copy's element through a record at an index: its place and storage. -/
def State.copyPlace (s : State) (core ctx : Nat) (slot : Nat) (r : Rec) (need : Need) (kind : AccessKind) (i : Int) :
    Except ChunkStop (Place × List ByteLoc) :=
  match indexPlace { slot := slot, record := r, flat := false } (copyShape (recFmt r)) i with
  | .error c => .error (.fail c)
  | .ok p =>
    if p.skip then .ok (p, [])
    else match s.locateRange core ctx p.va p.n p.va need with
      | .error (.xlateMiss, l, va) => .error (.miss va l kind)
      | .error (c, _, _) => .error (.fail c)
      | .ok ls => .ok (p, ls)

/-- Every index of a list, in ascending element order. -/
def mapPlaces {α β : Type} (f : α → Except ChunkStop β) : List α → Except ChunkStop (List β)
  | [] => .ok []
  | a :: t => match f a with
    | .error x => .error x
    | .ok b => match mapPlaces f t with
      | .error x => .error x
      | .ok bs => .ok (b :: bs)

/-- The byte a copy reads at a place: of the newest store its core has seen, of a copy of the line at its scope, whose presence is
free, or at the home (R137, R143). -/
def State.copyByteAt (s : State) (k : Stook) (c : Copy) (b : ByteLoc) : Byte :=
  let r : Req := { (default : Req) with scope := c.scope }
  match newestByte (s.seenStores k) b with
  | some x => x.2
  | none => if s.takesCopy k.core r (b.pa / 8, b.peer) then (s.copyByte k.core r b.pa).getD 0 else s.byteAt 0 b

/-- A number read at some bytes. -/
def State.readLocs (s : State) (k : Stook) (c : Copy) (ls : List ByteLoc) : Nat := leNat (ls.map (s.copyByteAt k c))

/-- The bytes of a side entry that a chunk reads: of the newest stores its core has seen, or at the home, all at once (R74). -/
def State.entryBytes (s : State) (k : Stook) (ls : List ByteLoc) : List Byte :=
  ls.map fun b => ((newestByte (s.seenStores k) b).map Prod.snd).getD (s.byteAt 0 b)

/-- A side entry that a chunk reads through the side record of its issue: block, addresses, storage, bytes. -/
structure SideRead where
  block : Nat
  vas : List Nat
  locs : List ByteLoc
  bytes : List Byte
  deriving DecidableEq, Repr, Inhabited

/-- The value of a source element, a codebook's through the block-side cache (R71, R74), with the entry it had to read. -/
def State.copyValue (s : State) (k : Stook) (c : Copy) (p : Place) (ls : List ByteLoc) : Except ChunkStop (Nat × Option SideRead) :=
  let f := recFmt c.srcRec
  let raw := s.readLocs k c ls
  if p.skip then .ok (0, none)
  else if f = 0x21 || f = 0x22 then
    match sideEntryIn c.srcRec c.sideRec p.block with
    | .error x => .error (.fail x)
    | .ok vas =>
      match s.bscFind k c.srcSlot p.block vas with
      | some bytes => .ok (cbExpand f raw p.shift bytes, none)
      | none =>
        match mapPlaces (fun va => match s.locate k.core k.ctx va va { rd := true } with
          | .error (.xlateMiss, l) => .error (.miss va l .copySrc)
          | .error (x, _) => .error (.fail x)
          | .ok b => .ok b) vas with
        | .error x => .error x
        | .ok bs =>
          let bytes := s.entryBytes k bs
          .ok (cbExpand f raw p.shift bytes, some { block := p.block, vas := vas, locs := bs, bytes := bytes })
  else .ok (raw % 2 ^ (if f = 0x20 then 96 else fmtBits f), none)

/-- What a chunk writes: global bytes with their addresses and storage, and scratchpad bytes; what it reads, each place with the
REUSE of its record, and the side entries it had to read. -/
structure ChunkWrites where
  glob : List (Nat × ByteLoc × Byte)
  spad : List (Nat × Byte)
  reads : List (ByteLoc × Nat)
  sides : List SideRead
  flags : FlagSet
  deriving Repr, Inhabited

/-- The elements of a chunk, read, converted and placed (R306, R307, R309): index-list entries, sources, destinations. DESIGN CHOICE
(log entry 79): a codebook source's side table is translated behind the source pages, its miss of the source's KIND, and a write
that meets LA_BUSY fails the copy with that cause. -/
def State.chunk (s : State) (k : Stook) (c : Copy) (n : Nat) : Except ChunkStop ChunkWrites :=
  let u := c.unit
  let run := shapeRun c.shape
  let es := ((List.range (n / u)).map fun j => c.cursor + u * j)
  let ks := (es.map fun e => e / run).eraseDups
  match (if c.kind = 0 then .ok [] else mapPlaces (fun j =>
      match s.copyPlace k.core k.ctx 0 c.idxRec { rd := true } .copyIdx ((c.iorg + j : Nat) : Int) with
      | .error x => .error x
      | .ok (p, ls) => .ok (j, if p.skip then 0 else s.readLocs k c ls, ls)) ks) with
  | .error x => .error x
  | .ok idx =>
    let entry (e : Nat) : Int := (((idx.find? fun q => q.1 == e / run).map fun q => q.2.1).getD 0 * run : Nat)
    let srcAt (e : Nat) : Int := c.sorg + if c.kind = 1 then entry e + (e % run : Nat) else (e : Int)
    let dstAt (e : Nat) : Int := c.dorg + if c.kind = 2 then entry e + (e % run : Nat) else (e : Int)
    match mapPlaces (fun e => s.copyPlace k.core k.ctx c.srcSlot c.srcRec { rd := true } .copySrc (srcAt e)) es with
    | .error x => .error x
    | .ok srcs =>
      match mapPlaces (fun p => s.copyValue k c p.1 p.2) srcs with
      | .error x => .error x
      | .ok vals =>
        let g := c.dstFmt
        let outs := (srcs.zip vals).map fun p => if p.1.1.skip then (0, 0) else copyConvert (recFmt c.srcRec) g c.rm p.2.1
        let sides := vals.filterMap Prod.snd
        let reads := ((idx.flatMap fun q => q.2.2).map fun b => (b, recReuse c.idxRec))
          ++ ((srcs.flatMap fun p => p.2).map fun b => (b, recReuse c.srcRec))
          ++ (sides.flatMap SideRead.locs).map fun b => (b, recReuse c.sideRec)
        match c.cbSlot with
        | some (_, off) =>
          let w := copySlotBytes g
          .ok { glob := [], reads := reads, sides := sides, flags := outs.foldl (fun a o => a ||| o.2) 0
                spad := (es.zip outs).flatMap fun p =>
                  (leBytes w p.2.1).mapIdx fun j b => (off + p.1 / u * w + j, b) }
        | none =>
          match mapPlaces (fun e => s.copyPlace k.core k.ctx 0 c.dstRec { wr := true } .copyDst (dstAt e)) es with
          | .error x => .error x
          | .ok dsts =>
            if dsts.any fun d => d.2.any fun b => s.laBusy k.ctx k.launch b then .error (.fail .laBusy)
            else
              let kept := (dsts.zip outs).filter fun p => !p.1.1.skip
              .ok { spad := [], reads := reads, sides := sides, flags := kept.foldl (fun a p => a ||| p.2.2) 0
                    glob := kept.flatMap fun p =>
                      (p.1.2.zip (leBytes p.1.2.length p.2.1)).mapIdx fun j q => (p.1.1.va + j, q.1, q.2) }

/-- The aligned words a chunk writes. -/
def ChunkWrites.words (w : ChunkWrites) : List (Nat × Option Nat) := (w.glob.map fun g => (g.2.1.pa / 8, g.2.1.peer)).eraseDups

/-- The aligned words, by virtual address, that a unit of a copy's elements is written to; none where it is not written to global
memory, or where its index cannot be read. -/
def State.dstWords (s : State) (k : Stook) (c : Copy) (e : Nat) : List Nat :=
  let run := shapeRun c.shape
  let index : Option Int :=
    if c.kind != 2 then some (e : Int)
    else match s.copyPlace k.core k.ctx 0 c.idxRec { rd := true } .copyIdx ((c.iorg + e / run : Nat) : Int) with
      | .ok (p, ls) => some (((if p.skip then 0 else s.readLocs k c ls) * run + e % run : Nat) : Int)
      | .error _ => none
  match index with
  | none => []
  | some i =>
    if c.cbSlot.isSome then []
    else match indexPlace { slot := 0, record := c.dstRec, flat := false } (copyShape (recFmt c.dstRec)) (c.dorg + i) with
      | .ok p => if p.skip then [] else ((List.range p.n).map fun j => (p.va + j) / 8).eraseDups
      | .error _ => []

/-- A chunk of at least `m` elements none of whose words the next element goes on writing: each aligned word is written as one event
(R151), though the next element's pages may miss. -/
def State.wholeChunk (s : State) (k : Stook) (c : Copy) : Nat → Nat → Nat
  | 0, m => m
  | fuel + 1, m =>
    if c.total ≤ c.cursor + m then m
    else
      let taken := (List.range (m / c.unit)).flatMap fun j => s.dstWords k c (c.cursor + c.unit * j)
      if (s.dstWords k c (c.cursor + m)).any taken.contains then s.wholeChunk k c fuel (m + c.unit) else m

/-- The stores that write a chunk's words, one for each (R151). -/
def Copy.stores (c : Copy) (w : ChunkWrites) : List Req :=
  w.words.map fun key =>
    let mine := w.glob.filter fun g => (g.2.1.pa / 8, g.2.1.peer) == key
    let locs := (mine.map fun g => g.2.1).eraseDups
    let byte (b : ByteLoc) : Byte := ((mine.reverse.find? fun g => g.2.1 == b).map fun g => g.2.2).getD 0
    let e : Elem := { (default : Elem) with
      va := (mine.head?.map Prod.fst).getD 0, locs := locs, n := locs.length, width := 8 * locs.length,
      known := List.replicate locs.length none }
    { (default : Req) with
      ctx := c.ctx, launch := c.launch, stook := c.stook, sheaf := c.sheaf, lane := minLane c.lanes, opcode := 0x100 + c.kind,
      op := .store, elems := [e], data := [leNat (locs.map byte)], scope := c.scope, reuse := c.reuse, epoch := (c.epochs.head?.map Prod.snd).getD 0, also := c.epochs }

/-- Slots of a buffer whose copies have ended count as filled, from the oldest claimed on (R152). -/
def CBuf.settleDone (b : CBuf) : Nat → CBuf
  | 0 => b
  | n + 1 =>
    let slot := (b.acq + b.filled) % b.slots
    if b.done.contains slot then CBuf.settleDone { b with filled := b.filled + 1, done := b.done.filter fun x => x != slot } n else b

/-- An entry of the range-lock table ends, complete or failed: its flags enter FX, its slot counts, its locks are freed (R307, R311,
R152). -/
def State.endEntry (s : State) (core : Nat) (c : Copy) (cause : Option Cause) : State :=
  let c' := { c with state := if cause.isSome then 5 else 4, fcause := cause, ranges := [], fault := 0, writes := [], taking := 0 }
  let s := s.modCore core fun x => Core.wake { x with copies := (x.copies.map fun y => if y.id == c.id then c' else y).filter fun y =>
    y.state ≤ 3 || y.undelivered != 0 }
  let s := s.modSheaf c.stook c.sheaf fun h => h.raise c.flags
  match c.cbSlot with
  | none => s
  | some (slot, _) => s.modStook c.stook fun k => match k.cbuf? (ctlCbuf c.ctl) with
    | none => k
    | some b => k.setCbuf (ctlCbuf c.ctl) (CBuf.settleDone { b with done := b.done ++ [slot] } b.slots)

/-- The secondary twin's copy that a primary's stands for, with its core (R384). -/
def State.mateOf (s : State) (c : Copy) : Option (Nat × Copy) :=
  (((s.stook? c.stook).bind Stook.twin).bind s.stook?).bind fun t =>
    ((s.core t.core).copies.find? fun y => y.mate == some c.id && y.state ≤ 3).map fun y => (t.core, y)

/-- A copy ends, and with it its mate. A complete one is a release at its scope (R151). -/
def State.endCopy (s : State) (core : Nat) (c : Copy) (cause : Option Cause) : State :=
  let mate := s.mateOf c
  let s := if cause.isNone && c.scope = 6 then s.releaseDurable else s
  let s := s.endEntry core c cause
  match mate with
  | some (n, y) => s.endEntry n { y with cursor := c.cursor, flags := c.flags } cause
  | none => s

/-- The accesses that a copy's lanes issued before it, and its own writes, are performed at its scope (R151). -/
def State.copyReleased (s : State) (c : Copy) : Bool :=
  (lanesOf c.lanes).all fun l => s.released { stook := c.stook, sheaf := c.sheaf, lane := l } c.scope c.id

/-- An access by which one of a copy's lanes acquires, issued before the copy, is still to be performed (R138, R140). -/
def State.copyAcquires (s : State) (c : Copy) : Bool :=
  (s.core ((s.stook? c.stook).getD default).core).reqs.any fun q =>
    q.stook == c.stook && q.sheaf == c.sheaf && c.lanes.getLsbD q.lane && q.acquires && !q.performed && q.born < c.id

/-- A running copy can go on: it reads nothing before its lanes' earlier acquires are performed (R138), and with ORDER release it writes
nothing before their earlier accesses are (R311). -/
def State.copyGoes (s : State) (c : Copy) : Bool :=
  c.state = 2 && !s.copyAcquires c && (c.cursor != 0 || !c.rel || s.copyReleased c)

/-- Words of this device that some places lie in. -/
def wordsOf (bs : List ByteLoc) : List Nat := ((bs.filter fun b => b.peer.isNone).map fun b => b.pa / 8).eraseDups

/-- Whether a chunk can happen now: no word it reads is locked (R287), and no side entry it reads is half written (R74). -/
def State.chunkGoes (s : State) (w : ChunkWrites) : Bool :=
  !(s.locks.any fun l => (wordsOf (w.reads.map Prod.fst)).contains (l.pa / 8)) && !(w.sides.any fun r => s.halfWritten r.locs)

def State.setCopy (s : State) (core : Nat) (c : Copy) : State :=
  s.modCore core fun x => { x with copies := x.copies.map fun y => if y.id == c.id then c else y }

/-- The fault of a copy stopped at a missing page (R309, R369), or the event of a containment error it meets. DESIGN CHOICE (log entry
80): DETAIL of a miss is the level of its walk. -/
def copyRec (k : Stook) (core : Nat) (c : Copy) (cause : Cause) (va level : Nat) (kind : AccessKind) : FaultRec :=
  { (default : FaultRec) with
    cause := cause, ctx := c.ctx, launch := c.launch, stookId := k.stookId, uid := c.stook, sheaf := c.sheaf, core := core,
    slot := (k.sheaf c.sheaf).slot, pc := c.pc, lanes := c.lanes, va := va, detail := BitVec.ofNat 32 level, kind := kind,
    cursor := c.cursor }

/-- The block-side cache keeps an entry that a chunk read, where the records installed still name it (R74). -/
def State.keepSide (s : State) (k : Stook) (c : Copy) (r : SideRead) : State :=
  let same (b : BscEntry) : Bool := b.live && b.entry.isSome && b.place == k.place && b.slot == c.srcSlot && b.block == r.block
  if !sideCurrent k c.srcSlot r.block r.vas then s
  else
    let e : BscEntry :=
      { id := s.next, live := true, reuse := recReuse c.sideRec, place := k.place, slot := c.srcSlot, block := r.block,
        entry := some r.bytes, ctx := k.ctx, locs := r.locs }
    State.modCore { s with next := s.next + 1 } k.core fun x => { x with bsc := (x.bsc.filter fun b => !same b) ++ [e] }

/-- The lines a chunk read come to its die's L2 and their granary, each at the position its record's REUSE gives (R127). -/
def State.fillReads (s : State) (core : Nat) (reads : List (ByteLoc × Nat)) : State :=
  (((reads.filter fun b => b.1.peer.isNone).map fun b => (64 * lineOf b.1.pa, b.2)).eraseDups).foldl
    (fun s b => s.fillLine core b.1 b.2 false) s

/-- A copy's writes of a chunk are over: its cursor moves past it, and after its last one it completes once its lanes' accesses are
performed at its scope (R151, R309). -/
def State.chunkDone (s : State) (core : Nat) (c : Copy) : State :=
  let c' := { c with cursor := c.cursor + c.taking, taking := 0 }
  let s := match s.mateOf c with
    | some (n, y) => s.setCopy n { y with cursor := c'.cursor }
    | none => s
  let s := s.setCopy core c'
  if c'.cursor = c'.total && s.copyReleased c' then s.endCopy core c' none else s

/-- A word of the chunk in hand, which one being free, becomes visible to the copy's core (R137, R151). -/
def State.landWord (s : State) (core : Nat) (c : Copy) : State :=
  let n := (Config.freeWord s.free).toNat % c.writes.length
  let r : Req := { c.writes.getD n default with id := s.next, born := s.next }
  let c' := { c with writes := c.writes.eraseIdx n }
  let s := State.modCore { s with free := s.free + 1, next := s.next + 1 } core fun x => { x with stores := x.stores ++ [r] }
  if c'.writes.isEmpty then s.chunkDone core c' else s.setCopy core c'

/-- A chunk of `m` elements begins: it reads its elements, and its writes are in hand. An uncorrectable sector ends the copy
(R311); any other lasting error is a containment error (R358, R387). Nothing where the chunk must wait. -/
def State.beginChunk (s : State) (core : Nat) (k : Stook) (c : Copy) (sector : SectorRead) (m : Nat) : Option State :=
  match s.chunk k c m with
  | .error (.fail x) => some (s.endCopy core c (some x))
  | .error (.miss va lv kind) =>
    let (f, s) := s.joinFault (copyRec k core c .copyFault va lv kind)
    some (s.setCopy core { c with state := 3, fault := f })
  | .ok w =>
    let reads := w.reads.map Prod.fst
    if !s.chunkGoes w then none
    else
      match s.readSectors core reads sector with
      | (some .eccUncorr, s) => some (s.endCopy core c (some .eccUncorr))
      | (some x, s) => some (s.containError (copyRec k core c x 0 0 .copySrc))
      | (none, s) =>
        let stores := c.stores w
        let s := s.combineLocs reads
        let s := (w.sides.foldl (fun s r => s.keepSide k c r) s).fillReads core w.reads
        let s := s.claimSnaps c.ctx c.launch (stores.flatMap Req.locs)
        let put (k : Stook) : Stook := { k with scratch := w.spad.foldl (fun b x => Bank.set b x.1 x.2) k.scratch }
        let s := if w.spad.isEmpty then s else ([c.stook] ++ k.twin.toList).foldl (fun s u => s.modStook u put) s
        let s := if c.repl then (reads.filter fun b => b.peer.isNone).foldl (fun s b => s.addReplica core c.ctx c.launch b.pa) s else s
        let c' := { c with writes := stores, taking := m, flags := c.flags ||| w.flags }
        let s := State.setCopy { s with free := s.free + 1 } core c'
        some (if stores.isEmpty then s.chunkDone core c' else s)

/-- The copies of a core that run; a secondary twin's goes with its mate (R384). -/
def Core.running (c : Core) : List Copy := c.copies.filter fun x => x.state = 2 && x.mate.isNone

/-- The `j`-th running copy of a core writes a word of its chunk, begins a chunk of about `n` elements, or completes after its last
one. A chunk that must wait as a whole is begun with as few elements as can be. -/
def copyChunk (core j n : Nat) (sector : SectorRead) (s : State) : State :=
  match (s.core core).running[j]? with
  | none => s
  | some c =>
    match s.stook? c.stook with
    | none => s
    | some k =>
      if !s.copyGoes c then s
      else if !c.writes.isEmpty then s.landWord core c
      else if c.cursor = c.total then (if s.copyReleased c then s.endCopy core c none else s)
      else
        let m := min (max 1 ((n + c.unit - 1) / c.unit) * c.unit) (c.total - c.cursor)
        ((s.beginChunk core k c sector (s.wholeChunk k c 16 m)).orElse fun _ =>
          s.beginChunk core k c sector (s.wholeChunk k c 16 c.unit)).getD s

/-- COPY_CHUNK (R309) -/
def execCopyChunk (core k n : Nat) (sector : SectorRead) (s : State) : Host.Outcome State Fault Refusal :=
  event s (copyChunk core k n sector)

/-! ### CWAIT (R312) -/

/-- The copies a lane's CWAIT waits for: of one group, or all. -/
def State.awaited (s : State) (r : LaneRef) (g : Option Nat) : List Copy :=
  (s.copiesOf r).filter fun c => g.all fun n => ctlGroup c.ctl == n

/-- The end of some copies has been told to a lane; a copy told to all its lanes is forgotten. -/
def State.tellCopies (s : State) (r : LaneRef) (cs : List Copy) : State :=
  let core := ((s.stook? r.stook).getD default).core
  let m : LaneMask := maskOf [r.lane]
  let tell (x : Copy) : Copy := if cs.any fun c => c.id == x.id then { x with undelivered := x.undelivered &&& ~~~m } else x
  s.modCore core fun c => { c with copies := (c.copies.map tell).filter fun y => y.state ≤ 3 || y.undelivered != 0 }

/-- The copies that a lane held at CWAIT waits for, once they have all ended. -/
def State.cwaitDone (s : State) (r : LaneRef) : Option (List Copy) :=
  let x := s.laneAt r
  match x.hold with
  | some (.cwait g) =>
    let cs := s.awaited r g
    if x.stop.isNone && cs.all fun c => c.state = 4 || c.state = 5 then some cs else none
  | _ => none

/-- Lanes at CWAIT whose copies have all ended trap on a failure, or go on with an acquire at the copies' scopes. DESIGN CHOICE (log
entry 81): of several failures the oldest copy's is reported, and the others count as delivered with it. -/
def State.settleCwait (s : State) (u i : Nat) : State :=
  let core := ((s.stook? u).getD default).core
  let ref (l : Nat) : LaneRef := { stook := u, sheaf := i, lane := l }
  let due := (List.range (s.sheafAt u i).lanes.length).filterMap fun l => (s.cwaitDone (ref l)).map fun cs => (l, cs)
  let failed := due.filterMap fun d => (d.2.find? fun c => c.state = 5).map fun c => (d.1, c)
  let goes := due.filter fun d => d.2.all fun c => c.state = 4
  let m := maskOf (goes.map Prod.fst)
  let s := due.foldl (fun s d => s.tellCopies (ref d.1) d.2) s
  let s := goes.foldl (fun s d => d.2.foldl (fun s c => s.acquireAt core u i (maskOf [d.1]) c.scope) s) s
  let s := s.failCopies u i 2 failed
  if m = 0 then s else s.modSheaf u i fun h => (h.finishHeld m).nextLanes m 2 fun _ => none

/-- CWAIT (R312): MOD.OPT [8:6] is the group, [9] ALL. -/
def execCwait (w : AWord) (s : State) : Host.Outcome State Fault Refusal :=
  issueWord (.cwait w) s fun p s =>
    let o := w.opt (aForm 0x108)
    (s.modSheaf p.stook p.sheaf fun h =>
      (h.holdLanes p.lanes 0 (.cwait (if o / 8 = 1 then none else some (o % 8)))).count).settleCwait p.stook p.sheaf

end Sys2Proof.Machine
end

