-- ==== Sys2Proof/Machine/Buffers.lean ====
section
/-! DEFINITION. Circular buffers (14 R313 to R315, 06 R152) and persist barriers (13 R293, R294; 14 R320). -/

namespace Sys2Proof.Machine

open Sys2Proof

/-! ### Circular buffers -/

/-- The lanes of a sheaf held by one issue of a CBACQ or CBINIT. -/
def Sheaf.groupAt (h : Sheaf) (g : Nat) : LaneMask :=
  h.lanesWhere fun x => x.stop.isNone && (match x.hold with | some (.cbacq _ n) => n == g | some (.cbinit _ _ n) => n == g | _ => false)

/-- A copy into a buffer of a stook, issued earlier than a number, has neither completed nor failed (R313). -/
def State.bufferBusy (s : State) (k : Stook) (n group : Nat) : Bool :=
  (s.core k.core).copies.any fun c => c.stook == k.uid && ctlDcb c.ctl && ctlCbuf c.ctl == n && c.state ≤ 3 && c.id < group

/-- A CBINIT whose copies have ended takes effect (R313): its geometry is that of its issue. -/
def State.tryCbinit (s : State) (u i group : Nat) (ins : Instr) (geometry : Word) : State :=
  match s.stook? u, ins with
  | some k, .cbinit w =>
    let n := w.opt (aForm 0x110)
    let m := (k.sheaf i).groupAt group
    if m = 0 || s.bufferBusy k n group then s
    else
      (s.modStook u fun k => k.setCbuf n (cbGeometry geometry)).modSheaf u i fun h =>
        (h.finishHeld m).nextLanes m (sizeA w) fun _ => none
  | _, _ => s

/-- CBINIT (R313) -/
def execCbinit (w : AWord) (s : State) : Host.Outcome State Fault Refusal :=
  issueWord (.cbinit w) s fun p s =>
    let k := (s.stook? p.stook).getD default
    let x := (k.sheaf p.sheaf).rs (w.sregN (aForm 0x110))
    let b := cbGeometry x
    if !spadInside k (s.launchOf k).desc b.offset ((b.slots * b.slotBytes : Nat) : Int) then s.takeTrap p (sizeA w) .bounds
    else
      let g := s.next
      (State.modSheaf { s with next := g + 1 } p.stook p.sheaf fun h => (h.holdLanes p.lanes 0 (.cbinit (.cbinit w) x g)).count).tryCbinit
        p.stook p.sheaf g (.cbinit w) x

/-- A CBACQ takes a filled slot for its path (R314). -/
def State.tryCbacq (s : State) (u i group : Nat) (ins : Instr) : State :=
  match s.stook? u, ins with
  | some k, .cbacq w =>
    let n := w.opt (aForm 0x111)
    let m := (k.sheaf i).groupAt group
    match k.cbuf? n with
    | none => s
    | some b =>
      if m = 0 || b.filled = 0 then s
      else
        let b' := { b with filled := b.filled - 1, held := b.held + 1, acq := (b.acq + 1) % b.slots }
        let s := (s.touchRegs u i m [] [w.d.toNat]).modStook u fun k => k.setCbuf n b'
        s.modSheaf u i fun h =>
          ((h.writeLanes m false w.d.toNat fun _ => BitVec.ofNat 64 (b.offset + b.acq * b.slotBytes)).finishHeld m).nextLanes m
            (sizeA w) fun _ => none
  | _, _ => s

/-- CBACQ (R314): the path is held until a slot is filled. -/
def execCbacq (w : AWord) (s : State) : Host.Outcome State Fault Refusal :=
  issueWord (.cbacq w) s fun p s =>
    let k := (s.stook? p.stook).getD default
    if ((k.cbuf? (w.opt (aForm 0x111))).getD default).slots = 0 then s.takeTrap p (sizeA w) .cbState
    else
      let g := s.next
      let (issue, s) := State.beginIssue { s with next := g + 1 } p.stook p.sheaf (w.tok (aForm 0x111)) p.lanes
      (s.modSheaf p.stook p.sheaf fun h => (h.holdLanes p.lanes issue (.cbacq (.cbacq w) g)).count).tryCbacq p.stook p.sheaf g
        (.cbacq w)

/-- The issue of CBACQ or CBINIT that holds a lane: its number, its word, and CBINIT's geometry. -/
def Lane.cbGroup (x : Lane) : Option (Nat × Instr × Word) :=
  if x.stop.isSome then none
  else match x.hold with | some (.cbacq i g) => some (g, i, 0) | some (.cbinit i x g) => some (g, i, x) | _ => none

/-- Held CBACQs and CBINITs of a sheaf, in the order of their issue. -/
def State.settleBuffers (s : State) (u i : Nat) : State :=
  let gs := ((s.sheafAt u i).lanes.filterMap Lane.cbGroup).eraseDups
  let order := gs.foldl (fun l g => (l.takeWhile fun x => x.1 < g.1) ++ g :: l.dropWhile fun x => x.1 < g.1) []
  order.foldl (fun s g => (s.tryCbinit u i g.1 g.2.1 g.2.2).tryCbacq u i g.1 g.2.1) s

/-- CBREL (R314): the oldest acquired slot is free again. It issues once what its lanes accessed before is performed at
CORE scope (`State.wordReady`). -/
def execCbrel (w : AWord) (s : State) : Host.Outcome State Fault Refusal :=
  issueWord (.cbrel w) s fun p s =>
    let k := (s.stook? p.stook).getD default
    let n := w.opt (aForm 0x112)
    let b := (k.cbuf? n).getD default
    if b.slots = 0 || b.held = 0 then s.takeTrap p (sizeA w) .cbState
    else
      (s.modStook p.stook fun k => k.setCbuf n { b with rel := (b.rel + 1) % b.slots, free := b.free + 1, held := b.held - 1 }).modSheaf
        p.stook p.sheaf fun h => (h.nextLanes p.lanes (sizeA w) fun _ => none).count

/-! ### Persist barriers -/

/-- A persist barrier is placed for each lane: its later NV writes follow its earlier ones (R293, rule 1). -/
def Lane.barrier (x : Lane) : Lane := { x with epoch := x.epoch + 1 }

/-- PBAR.ORD (R320): places a barrier, complete at issue. -/
def execPbarOrd (w : MWord) (s : State) : Host.Outcome State Fault Refusal :=
  issueWord (.pbarOrd w) s fun p s => s.modSheaf p.stook p.sheaf fun h =>
    ((h.modLanes p.lanes fun _ x => x.barrier).nextLanes p.lanes 2 fun _ => none).count

/-- PBAR.SYNC (R294, R320): a barrier that holds the lane's next memory access; at once complete in a lane with no NV store
since its last one. DESIGN CHOICE (log entry 78): a second one issued while the first is pending completes with it. -/
def execPbarSync (w : MWord) (s : State) : Host.Outcome State Fault Refusal :=
  issueWord (.pbarSync w) s fun p s =>
    let id := s.next
    let h := s.sheafAt p.stook p.sheaf
    let waits := maskFilter p.lanes fun l => (h.lane l).nvSince
    let (issue, s) := State.beginIssue { s with next := id + 1 } p.stook p.sheaf w.tok p.lanes
    s.modSheaf p.stook p.sheaf fun h =>
      ((((h.modLanes p.lanes fun _ x => x.barrier).modLanes waits fun _ x => { x with persist := x.persist ++ [(issue, x.pc)] }).finishLanes issue
        (p.lanes &&& ~~~waits)).nextLanes p.lanes 2 fun _ => none).count

/-- Every write that precedes a lane's PBAR.SYNC is durable (R294): performed at its NV home and in its staging buffer (R290), no
contribution of the lane to an NV word left in a delta (R295). -/
def State.persistDone (s : State) (r : LaneRef) : Bool :=
  match s.stook? r.stook with
  | none => true
  | some k =>
    let e := (s.laneAt r).epoch
    !s.persistsBefore k.core r.stook r.sheaf r.lane e
      && !((s.core k.core).copies.any fun x => x.stook == r.stook && x.sheaf == r.sheaf && (x.epochs.any fun w => w.1 == r.lane && w.2 < e)
            && x.scope = 6 && x.state ≤ 3)
      && !(s.deltas.any fun d => d.earlier r.stook r.sheaf r.lane e)
      && !(s.volatile.any fun v => earlierOf v.who r.stook r.sheaf r.lane e)

/-- A lane's earlier contributions to NV words are combined (R295). -/
def State.combineNv (s : State) (r : LaneRef) : State := s.combineIf fun d => d.earlier r.stook r.sheaf r.lane (s.laneAt r).epoch

/-- A lane's PBAR.SYNCs complete. -/
def State.completePersist (s : State) (r : LaneRef) : State :=
  let issues := (s.laneAt r).persist
  if issues.isEmpty then s
  else
    let s := s.combineNv r
    if !s.persistDone r then s
    else s.modSheaf r.stook r.sheaf fun h =>
      issues.foldl (fun h i => h.finishLanes i.1 (maskOf [r.lane]))
        (h.modLane r.lane fun x => { x with persist := [], nvSince := false })

/-- PBAR_SYNC_COMPLETE (R294) -/
def execPbarSyncComplete (l : LaneRef) (s : State) : Host.Outcome State Fault Refusal :=
  event s fun s => s.completePersist l

end Sys2Proof.Machine
end

