-- ==== Sys2Proof/Machine/Sys.lean ====
section
/-! DEFINITION. RDSR, WRSR (08 R197 to R201), RAND (08 R202, 07 R178), TRAP and BKPT (08 R203), VFREE (08 R205) and the
refill of a spilled register (05 R110). -/

namespace Sys2Proof.Machine

open Sys2Proof

/-! ### Special registers -/

/-- The value of a special register for one lane (R46, R95, R198 to R201). -/
def State.specialReg (s : State) (k : Stook) (h : Sheaf) (sheaf l n : Nat) : DWord :=
  let d := (s.launchOf k).desc
  let x := h.lane l
  let id := k.stookId.toNat
  let w (n : Nat) : DWord := BitVec.ofNat 64 n
  -- both twins of a PAIRED launch read the primary's core (R383), a second run the first one's (R385)
  let core := if k.secondary then ((k.twin.bind s.stook?).map Stook.core).getD (k.rerun.getD k.core) else k.core
  if n = 0x00 then w l
  else if n = 0x01 then w sheaf
  else if n = 0x02 then w id
  else if n = 0x03 then w (id % d.fieldX)
  else if n = 0x04 then w (id / d.fieldX % d.fieldY)
  else if n = 0x05 then w (id / (d.fieldX * d.fieldY))
  else if n = 0x06 then w (d.fieldX * d.fieldY * d.fieldZ)
  else if n = 0x07 then w core
  else if n = 0x08 then w (dieOf core)
  else if n = 0x09 then (if d.rotates || k.rerun.isSome then h.retired else (s.core k.core).cycles)
  else if n = 0x0a then h.retired
  else if n = 0x0b then d.seed
  else if n = 0x0c then w (8 * d.contain + 2 * d.place + (if d.det then 1 else 0))
  else if n = 0x10 then h.frm.setWidth 64
  else if n = 0x11 then h.fx.setWidth 64
  else if n = 0x12 then w ((if x.txrec then 256 else 0) + x.txcode.toNat)
  else if n = 0x13 then w ((if x.tx.locked then 16 else 0) + x.tx.depth)
  else 0

/-- RDSR (R197) -/
def execRdsr (w : IWord) (s : State) : Host.Outcome State Fault Refusal :=
  issueWord (.rdsr w) s fun p s =>
    let k := (s.stook? p.stook).getD default
    let h := s.sheafAt p.stook p.sheaf
    s.modSheaf p.stook p.sheaf fun g =>
      ((g.writeLanes p.lanes (isWideSR w.imm.toNat) w.d.toNat fun l => s.specialReg k h p.sheaf l w.imm.toNat).nextLanes p.lanes
        1 fun _ => none).count

/-- A value that FRM or FX takes (R199, R200): no reserved bit, and FRM.MODE at most 4. -/
def srValueOk (n : Nat) (x : Word) : Bool :=
  if n = 0x10 then x &&& 0xFFFFFEF8#32 == 0 && x.toNat % 8 ≤ 4 else x.toNat < 32

/-- WRSR (R197) -/
def execWrsr (w : IWord) (s : State) : Host.Outcome State Fault Refusal :=
  issueWord (.wrsr w) s fun p s =>
    let h := s.sheafAt p.stook p.sheaf
    let v (l : Nat) : Word := h.src 0 w.a l
    let x := v ((lanesOf p.lanes).headD 0)
    if !(lanesOf p.lanes).all fun l => v l == x then s.takeTrap p 1 .nonuniform
    else if !srValueOk w.imm.toNat x then s.takeTrap p 1 .illegalOperand
    else
      s.modSheaf p.stook p.sheaf fun g =>
        ((if w.imm.toNat = 0x10 then { g with frm := x } else { g with fx := x }).nextLanes p.lanes 1 fun _ => none).count

/-! ### RAND -/

/-- RAND (R178, R202): lanes whose counter would wrap trap RNG_WRAP when FRM asks for it; the others draw. -/
def execRand (w : AWord) (s : State) : Host.Outcome State Fault Refusal :=
  issueWord (.rand w) s fun p s =>
    let k := (s.stook? p.stook).getD default
    let d := (s.launchOf k).desc
    let h := s.sheafAt p.stook p.sheaf
    let ctr (l : Nat) : DWord := h.src64 0 w.a l
    let wraps := maskFilter p.lanes fun l => h.wrapTrap && ctr l == BitVec.allOnes 64
    let goes := p.lanes &&& ~~~wraps
    let G (l : Nat) : DWord := BitVec.ofNat 64 ((k.stookId.toNat * d.sheaves + p.sheaf) * 32 + l)
    let s := s.takeTrap { p with lanes := wraps } (sizeA w) .rngWrap
    if goes = 0 then s
    else
      (s.touchRegs p.stook p.sheaf goes [] (pairRegs w.d true ++ pairRegs w.a true)).modSheaf p.stook p.sheaf fun g =>
        (((g.writeLanes goes true w.d.toNat fun l => zmix d.seed (G l) (ctr l)).writeLanes goes true w.a.toNat fun l =>
          ctr l + 1).nextLanes goes (sizeA w) fun _ => none).count

/-! ### TRAP, BKPT -/

/-- TRAP (R203): each executing lane stops with SW_TRAP and the code; one in a transaction aborts with FAULT. -/
def execTrap (w : IWord) (s : State) : Host.Outcome State Fault Refusal :=
  issueWord (.trap w) s fun p s => s.takeTrap p 1 .swTrap { detail := w.imm.setWidth 32 }

/-- BKPT (R122, R203): parks the lanes where the context has debugging enabled. -/
def execBkpt (w : IWord) (s : State) : Host.Outcome State Fault Refusal :=
  issueWord (.bkpt w) s fun p s =>
    let k := (s.stook? p.stook).getD default
    if (s.ctx k.ctx).debug then
      (s.modSheaf p.stook p.sheaf Sheaf.count).takeTrap p 1 .breakpoint { detail := w.imm.setWidth 32 }
    else s.modSheaf p.stook p.sheaf fun h => (h.nextLanes p.lanes 1 fun _ => none).count

/-! ### VFREE, refill -/

/-- VFREE (R109, R205): the executing lanes' registers read zero; one that every lane has released is unbound. -/
def execVfree (w : AWord) (s : State) : Host.Outcome State Fault Refusal :=
  issueWord (.vfree w) s fun p s =>
    let regs := (List.range (w.opt (aForm 0x186) + 1)).map fun j => w.d.toNat + j
    let before := (s.sheafAt p.stook p.sheaf).spilled.length
    let s := s.modSheaf p.stook p.sheaf fun h =>
      let h := regs.foldl (fun h r => h.writeLanes p.lanes false r fun _ => 0) h
      let h := { h with freed := regs.foldl (fun b r => Bank.set b r (Bank.get b r ||| p.lanes)) h.freed }
      (h.dropFreed.nextLanes p.lanes (sizeA w) fun _ => none).count
    s.unspill ((s.stook? p.stook).getD default).ctx (before - (s.sheafAt p.stook p.sheaf).spilled.length)

/-- A spilled register is back: its marks go, and it takes a physical register again (R110). -/
def refillReg (u i r : Nat) (s : State) : State :=
  let h := s.sheafAt u i
  if !h.lanes.any fun x => x.pending.contains (r, 0) then s
  else
    let clear (x : Lane) : Lane :=
      let left := x.pending.filter fun q => q != (r, 0)
      { x with pending := left, refilled := x.refilled || (x.pending.contains (r, 0) && left.all fun q => q.2 != 0) }
    let s := s.modSheaf u i fun h => { h with lanes := h.lanes.map clear }
    if h.spilled.contains r then s.bindReg u i r 0 else s

/-- REGISTER_REFILL (R110) -/
def execRegisterRefill (u i r : Nat) (s : State) : Host.Outcome State Fault Refusal := event s (refillReg u i r)

end Sys2Proof.Machine
end

