-- ==== Sys2Proof/Machine/Launch.lean ====
section
/-! DEFINITION. Launch descriptors, their acceptance and the placement of stooks (02 R60; 05 R96, R97, R111 to R113; 20 R349 to
R357; 22 R383). -/

namespace Sys2Proof.Machine

open Sys2Proof

/-! ### The descriptor (R351, R352) -/

/-- A little-endian field of a byte list. -/
def fieldAt (bs : List Byte) (off n : Nat) : Nat := leNat ((bs.drop off).take n)

/-- A descriptor from its 256 bytes. -/
def parseDesc (bs : List Byte) : Desc :=
  let f := fieldAt bs
  let role (x : Nat) : Bool := x >>> 56 = 0
  { version := f 0 2, flags := f 2 2, watchdog := f 4 4, codeVa := f 8 8, codeWords := f 0x10 4, entry := f 0x14 4,
    seed := BitVec.ofNat 64 (f 0x18 8), fieldX := f 0x20 4, fieldY := f 0x24 2 + 1, fieldZ := f 0x26 2 + 1, sheaves := f 0x28 1,
    l1 := f 0x29 1, txReads := f 0x2a 1, txWrites := f 0x2b 1, scratch := f 0x2c 4, quantum := f 0x30 4, txlogOff := f 0x34 2,
    roles := f 0x36 1, paramBytes := f 0x37 1, producer := BitVec.ofNat 64 (f 0x38 8), consumer := BitVec.ofNat 64 (f 0x40 8),
    recVa := f 0x48 8, cbufVa := f 0x50 8, recCount := f 0x58 1, cbufCount := f 0x59 1, eligFirst := f 0x5c 4,
    eligCount := f 0x60 4, deps := (List.range 4).map fun j => BitVec.ofNat 32 (f (0x64 + 4 * j) 4), params := (bs.drop 0x80).take 128,
    reserved := !(f 0x5a 2 = 0 && f 0x74 12 = 0 && (f 2 2) >>> 14 = 0 && role (f 0x38 8) && role (f 0x40 8)) }

/-- A role's fields (R59): first sheaf, count, registers, entry. -/
def roleFirst (r : DWord) : Nat := (r.extractLsb' 0 8).toNat
def roleCount (r : DWord) : Nat := (r.extractLsb' 8 8).toNat
def roleRegs (r : DWord) : Nat := (r.extractLsb' 16 8).toNat
def roleEntry (r : DWord) : Nat := (r.extractLsb' 24 32).toNat

/-- NSTOOKS (R95). -/
def Desc.stooks (d : Desc) : Nat := d.fieldX * d.fieldY * d.fieldZ

/-- The roles a launch declares: number, word. -/
def Desc.roleList (d : Desc) : List (Nat × DWord) :=
  (if d.roles % 2 = 1 then [(0, d.producer)] else []) ++ (if d.roles / 2 % 2 = 1 then [(1, d.consumer)] else [])

/-- The role of a sheaf: its number, budget and entry (R54, R96). -/
def Desc.roleOf (d : Desc) (sheaf : Nat) : Nat × Nat × Nat :=
  match d.roleList.find? fun r => roleFirst r.2 ≤ sheaf && sheaf < roleFirst r.2 + roleCount r.2 with
  | some r => (r.1, roleRegs r.2, roleEntry r.2)
  | none => (0, Config.defaultRegs, d.entry)

/-- Scratchpad bytes of a core beside an L1 size (R54). -/
def spadRoom (l1 : Nat) : Nat := Config.sramBytes - l1 * 65536 - Config.systemArea

/-! ### Memory as the service die reads and writes it (R348) -/

/-- Bytes of a context's memory, or the cause that stops their reading. -/
def State.nodeRead (s : State) (ctx va : Nat) (need : Need) : Nat → Except Cause (List Byte)
  | 0 => .ok []
  | n + 1 =>
    match s.nodeLocate ctx va need with
    | .error c => .error c
    | .ok l =>
      match s.nodeRead ctx (va + 1) need n with
      | .error c => .error c
      | .ok bs => match s.sectorCause [l] .good with
        | some c => .error c
        | none => .ok ((match l.peer with | some _ => Config.freeByte s.free l.pa | none => s.homeByte l.pa) :: bs)

/-! ### Validation (R353) -/

/-- The eligible cores of a launch (R351, R394, R387): of its partition, in its range, not quarantined. -/
def State.eligible (s : State) (ctx : Nat) (d : Desc) : List Nat :=
  let (die, n) := s.svc.settings.dies (s.ctx ctx).partition
  let lo := die * Config.coresPerDie
  let hi := (die + n) * Config.coresPerDie
  let (a, b) := if d.eligCount = 0 then (lo, hi) else (max lo d.eligFirst, min hi (d.eligFirst + d.eligCount))
  ((List.range (b - a)).map fun j => a + j).filter fun c => !s.svc.quarantined.contains (clusterOf c)

/-- The eligible cores of a launch that is placed: a replay after a mismatch avoids the clusters involved, where others are
left (R387). -/
def State.eligibleFor (s : State) (l : Launch) : List Nat :=
  let el := s.eligible l.ctx l.desc
  let rest := el.filter fun c => !l.avoid.contains (clusterOf c)
  if rest.isEmpty then el else rest

/-- Stooks of a launch that an idle core holds (R111). -/
def Desc.perCore (d : Desc) : Nat :=
  let per (total each : Nat) : Nat := if each = 0 then Config.placesPerCore else total / each
  min (min Config.placesPerCore (per Config.slotsPerCore d.sheaves))
    (min (per Config.physRegs (Config.minRegs * d.sheaves)) (min (per (spadRoom d.l1) d.scratch) (per 16 d.cbufCount)))

/-- The eligible core number drawn for a stook (R113). -/
def Desc.draw (d : Desc) (stream : DWord) (id e : Nat) : Nat := (zmix d.seed stream (BitVec.ofNat 64 id)).toNat % e

/-- The core of a stook's secondary twin (R383): the first eligible core of another cluster, from its draw on. -/
def Desc.twinCore (d : Desc) (el : List Nat) (id core : Nat) : Option Nat :=
  let n := d.draw streamPaired id (max 1 el.length)
  (el.drop n ++ el.take n).find? fun c => clusterOf c != clusterOf core

/-- Stooks of a PAIRED field placed one after another on idle cores, by the stooks that each core holds: a core for the
primary with room for it, and its twin's. -/
def Desc.pairsFit (d : Desc) (el : List Nat) : Nat → Nat → List (Nat × Nat) → Bool
  | 0, _, _ => true
  | n + 1, id, held =>
    let fits (held : List (Nat × Nat)) (c : Nat) : Bool := (assoc? held c).getD 0 < d.perCore
    let put (held : List (Nat × Nat)) (c : Nat) : List (Nat × Nat) := assocSet held c ((assoc? held c).getD 0 + 1)
    let cores := if d.det then (el[d.draw streamPlace id (max 1 el.length)]?).toList else el
    cores.any fun c => fits held c && match d.twinCore el id c with
      | none => false
      | some c2 => fits (put held c) c2 && Desc.pairsFit d el n (id + 1) (put (put held c) c2)

/-- Whether a COHORT field can be resident at once on its idle eligible set; twins stand on cores of different clusters. -/
def Desc.cohortFits (d : Desc) (el : List Nat) : Bool :=
  let n := d.stooks * if d.contain = 2 then 2 else 1
  if el.length * d.perCore < n then false
  else if d.contain = 2 then d.pairsFit el d.stooks 0 []
  else if !d.det then true
  else (List.range el.length).all fun e =>
    ((List.range d.stooks).filter fun i => d.draw streamPlace i el.length = e).length ≤ d.perCore

/-- The roles partition the sheaves (R53, R54). -/
def Desc.rolesOk (d : Desc) : Bool :=
  1 ≤ d.sheaves && d.sheaves ≤ 32 && d.roles ≤ 3
    && (d.roleList.all fun r => 1 ≤ roleCount r.2 && 8 ≤ roleRegs r.2 && roleRegs r.2 ≤ 112)
    && (d.roles = 0 || ((d.roleList.foldl (fun n r => n + roleCount r.2) 0 = d.sheaves)
        && (List.range d.sheaves).all fun i => d.roleList.any fun r => roleFirst r.2 ≤ i && i < roleFirst r.2 + roleCount r.2))

/-- The ring of a circular buffer, by its table entry (number, slots, slot bytes, offset), lies in the scratchpad and off
the log area. -/
def Desc.ringOk (d : Desc) (b : Nat × Nat × Nat × Nat) : Bool :=
  let (_, slots, bytes, off) := b
  let (lo, hi) := d.logRange
  off + slots * bytes ≤ d.scratch && (hi ≤ lo || off + slots * bytes ≤ lo || hi ≤ off)

/-- The first entry of a record table that is refused: sub-code and slot (R353, R79). DESIGN CHOICE: R353 names BASEKIND 1 alone
under code 0x0A; every value but 0 and 2 is refused with it, sub-code 0 (log entry 50). -/
def recTableRefusal : List RecEntry → List Nat → Option (Nat × Nat)
  | [], _ => none
  | r :: rs, seen =>
    if r.baseKind != 0 && r.baseKind != 2 || r.slot = 0 || 63 < r.slot || seen.contains r.slot || (r.baseKind = 2 && r.preg % 2 = 1) then
      some (0, r.slot)
    else
      match recordRefusal r.record r.slot with
      | some c => some (c, r.slot)
      | none => recTableRefusal rs (r.slot :: seen)

/-- The entries of a record table (R60); a base taken from a parameter is put in. A nonzero reserved byte counts as a base
kind that does not exist. DESIGN CHOICE: the parameter's eight bytes take the place of the record's low 64 bits, BASE and the
reserved bits above it, so that a parameter of 2^55 or more is refused with sub-code 2 (log entry 50). -/
def parseRecords (d : Desc) (bs : List Byte) : List RecEntry :=
  (List.range d.recCount).map fun j =>
    let f (off n : Nat) : Nat := fieldAt bs (40 * j + off) n
    let kind := if f 0x23 5 = 0 then f 0x21 1 else 3
    let base : DWord := BitVec.ofNat 64 (fieldAt (d.params.take d.paramBytes) (4 * f 0x22 1) 8)
    let raw : BitVec 256 := BitVec.ofNat 256 (f 0 32)
    { record := if kind = 2 then (raw.extractLsb' 64 192) ++ base else raw, slot := f 0x20 1, baseKind := kind, preg := f 0x22 1 }

/-- The entries of a circular-buffer table (R60): number, slots, slot bytes, offset. -/
def parseCbufs (d : Desc) (bs : List Byte) : List (Nat × Nat × Nat × Nat) :=
  (List.range d.cbufCount).map fun j =>
    let f (off n : Nat) : Nat := fieldAt bs (8 * j + off) n
    (f 0 1, f 1 2 + 1, f 3 2 * 128, f 5 3 * 128)

/-- The checks of R353 in their order: the code of the first that fails with its sub-code and slot. `recs` and `cbs` are
none when their table cannot be read. -/
def State.refusal (s : State) (ctx : Nat) (d : Desc) (recs : Option (List RecEntry)) (cbs : Option (List (Nat × Nat × Nat × Nat))) :
    Option (Nat × Nat × Nat) :=
  let c := s.ctx ctx
  let el := s.eligible ctx d
  let (logLo, logHi) := d.logRange
  let no (b : Bool) (n : Nat) : Option (Nat × Nat × Nat) := if b then some (n, 0, 0) else none
  let entries := if d.roles = 0 then [d.entry] else d.roleList.map fun r => roleEntry r.2
  let nums (l : List (Nat × Nat × Nat × Nat)) : List Nat := l.map fun b => b.1
  [no (d.version != 1) 1,
   no d.reserved 2,
   no (d.fieldX = 0 || 2 ^ 20 < d.fieldX || 2 ^ 32 ≤ d.stooks) 3,
   no (!d.rolesOk) 4,
   no (d.l1 = 0 || 7 < d.l1 || spadRoom d.l1 < d.scratch) 5,
   no (64 < d.txReads || 32 < d.txWrites || (logLo < logHi && d.scratch < logHi)) 6,
   no (d.place = 3 || d.contain = 3 || 16 < d.sample || (d.place = 2 && d.quantum < 65536)) 7,
   no (d.codeVa % 256 != 0 || d.codeWords = 0 || !entries.all fun e => e < d.codeWords) 8,
   no (128 < d.paramBytes || d.paramBytes % 4 != 0
        || recs.any fun rs => rs.any fun r => r.baseKind = 2 && d.paramBytes < 4 * r.preg + 8) 9,
   (recs.bind fun rs => recTableRefusal rs []).map fun r => (0x0a, r.1, r.2),
   no (cbs.any fun bs => bs.any (fun b => 15 < b.1 || 256 < b.2.1 || b.2.2.1 = 0 || 65536 < b.2.2.1 || !d.ringOk b)
        || (nums bs).eraseDups.length != bs.length) 0x0b,
   no (d.deps.any fun x => x != BitVec.allOnes 32 && c.nextId ≤ x.toNat) 0x0c,
   no el.isEmpty 0x0d,
   no (d.place = 1 && !d.cohortFits el) 0x0e,
   no (0x7fffffff < c.nextId) 0x0f,
   no (recs.isNone || cbs.isNone) 0x10].findSome? id

/-- What an acceptance answers: a status, the detail of a refusal, the state. -/
def State.submit (s : State) (ctx queue : Nat) (bs : List Byte) : Word × Word × State :=
  let d := parseDesc bs
  let full := Config.launchesPerQueue ≤ (s.launches.filter fun l => l.ctx == ctx && l.queue == queue && l.state ≤ 3).length
  let table {α : Type} (n va : Nat) (f : List Byte → List α) : Option (List α) :=
    if n = 0 then some []
    else match s.nodeRead ctx va { rd := true } n with
      | .ok b => some (f b)
      | .error _ => none
  let recs := table (40 * min d.recCount 63) d.recVa (parseRecords d)
  let cbs := table (8 * min d.cbufCount 16) d.cbufVa (parseCbufs d)
  if 15 < queue then (0x80000004, 0, s)
  else if full then (0x80000001, 0, s)
  else
    match s.refusal ctx d recs cbs with
    | some (c, sub, slot) => (0x80000002, BitVec.ofNat 32 (slot * 65536 + c * 256 + sub), s)
    | none =>
      let id : Word := BitVec.ofNat 32 (s.ctx ctx).nextId
      let l : Launch :=
        { ctx := ctx, id := id, queue := queue, desc := d, records := recs.getD [], cbufs := cbs.getD [], code := [], codeFaults := [],
          state := 0, nextStook := 0, detNext := [], saved := [], held := false, gone := 0, breakpoints := [], eligible := [],
          seqLa := none, attempts := 0, noSnap := false, peerWritten := false, images := 0, digests := [], verdicts := [], checked := [], errorRec := none, watched := 0, avoid := [], rerun := [],
          ending := none, recorded := false }
      (id, 0, { s.modCtx ctx (fun c => { c with nextId := c.nextId + 1 }) with launches := s.launches ++ [l] })

/-! ### Arbitration (R354) -/

/-- Stooks of a launch still to be placed: saved ones too. -/
def Launch.unplaced (l : Launch) : Bool := !l.saved.isEmpty || l.nextStook < l.desc.stooks

/-- Whether every dependence of a launch has ended, and whether one ended otherwise than completed. -/
def State.depsEnded (s : State) (l : Launch) : Bool :=
  l.desc.deps.all fun x => x == BitVec.allOnes 32 || (s.launch? l.ctx x).all fun d => 4 ≤ d.state

def State.depsFailed (s : State) (l : Launch) : Bool :=
  l.desc.depStrict && l.desc.deps.any fun x => x != BitVec.allOnes 32 && (s.launch? l.ctx x).any fun d => 4 < d.state

/-- The oldest launch of its queue whose stooks are not yet all placed. -/
def State.oldestInQueue (s : State) (l : Launch) : Bool :=
  ((s.launches.find? fun x => x.ctx == l.ctx && x.queue == l.queue && x.state ≤ 2 && !x.held).map Launch.id) == some l.id

def State.ready (s : State) (l : Launch) : Bool :=
  (l.state ≤ 2 || (l.state = 3 && !l.saved.isEmpty)) && !l.held && l.ending.isNone && (l.state = 3 || s.oldestInQueue l) && s.depsEnded l
    && (l.unplaced || (l.desc.det && !l.saved.isEmpty))

/-- A priority of a launch's queue (R350). -/
def State.priority (s : State) (l : Launch) : Nat := ((s.ctx l.ctx).qprio.extractLsb' (3 * l.queue) 3).toNat

/-- The place of a (context, queue) pair in the round robin after the pair last served. -/
def State.turnOf (s : State) (l : Launch) : Nat := (l.ctx * 16 + l.queue + 1024 - (s.lastServed + 1)) % 1024

/-- Launches in the order in which a core's resources are offered to them. -/
def State.offerOrder (s : State) (ls : List Launch) : List Launch :=
  let before (a b : Launch) : Bool :=
    s.priority b < s.priority a || (s.priority a = s.priority b && s.turnOf a < s.turnOf b)
  ls.foldl (fun o l => (o.takeWhile fun x => !before l x) ++ l :: o.dropWhile fun x => !before l x) []

/-! ### Room on a core (R111) -/

def State.stooksOn (s : State) (core : Nat) : List Stook := s.stooks.filter fun k => k.core == core

/-- The free slots of a core, in ascending order. -/
def State.freeSlots (s : State) (core : Nat) : List Nat :=
  let used := (s.stooksOn core).flatMap fun k => k.sheaves.map fun h => h.slot
  (List.range Config.slotsPerCore).filter fun n => !used.contains n

/-- The slots a stook of a launch takes (R97): in rotation the lowest free ones; otherwise the core's choice. DESIGN CHOICE (log entry
76): the first one is free, and the stook's other sheaves take the free slots that follow it in ascending order, cyclically. -/
def State.pickSlots (s : State) (core : Nat) (l : Launch) : List Nat :=
  let free := s.freeSlots core
  let n := if l.desc.rotates then 0 else (Config.freeWord s.free).toNat % max 1 free.length
  free.drop n ++ free.take n

def State.freePlaces (s : State) (core : Nat) : List Nat :=
  let used := (s.stooksOn core).map Stook.place
  (List.range Config.placesPerCore).filter fun n => !used.contains n

/-- A core has room for a stook of a launch. A core in rotation holds stooks of one launch only (R113, R383). -/
def State.room (s : State) (core : Nat) (l : Launch) : Bool :=
  let here := s.stooksOn core
  let d := l.desc
  let mine (k : Stook) : Bool := k.ctx == l.ctx && k.launch == l.id
  let spad := (here.map fun k => k.scratchBytes).foldl (fun a b => a + b) 0
  let bufs := (here.map fun k => k.cbufs.length).foldl (fun a b => a + b) 0
  !s.svc.quarantined.contains (clusterOf core)
    && d.sheaves ≤ (s.freeSlots core).length && !(s.freePlaces core).isEmpty
    && Config.minRegs * d.sheaves ≤ s.poolFree core
    && spad + d.scratch ≤ spadRoom d.l1
    && bufs + d.cbufCount ≤ 16
    && (here.isEmpty || (s.core core).l1 = d.l1)
    && (if d.rotates then here.all mine else here.all fun k => !(s.launchOf k).desc.rotates)

/-! ### A stook on a core -/

/-- A lane at its sheaf's entry. -/
def Lane.atEntry (entry : Nat) : Lane :=
  { (default : Lane) with pc := BitVec.ofNat 32 entry, hdr := BitVec.ofNat 32 entry, fin := BitVec.ofNat 32 entry, withdrawn := 7 }

/-- The parameter words as scalar registers (R56). -/
def Desc.paramRegs (d : Desc) : Bank 32 :=
  let ws := leWords (d.params.take d.paramBytes)
  (List.range ws.length).foldl (fun b j => Bank.set b j (ws.getD j 0)) []

/-- A sheaf as it is placed. -/
def Desc.newSheaf (d : Desc) (i slot : Nat) : Sheaf :=
  let (role, regs, entry) := d.roleOf i
  { lanes := List.replicate 32 (Lane.atEntry entry), v := [], s := d.paramRegs, m := [], frm := 0, fx := 0, retired := 0, issues := [],
    bound := [], spilled := [], freed := [], role := role, budget := regs, slot := slot, age := 0, yielded := false, queue := [] }

/-- A launch's stook as it is placed on a core: records and circular buffers as declared (R55, R56). -/
def State.newStook (s : State) (l : Launch) (id core uid : Nat) (secondary : Bool) (twin : Option Nat) : Stook :=
  let d := l.desc
  let slots := s.pickSlots core l
  let buf (b : Nat × Nat × Nat × Nat) : CBuf :=
    { slots := b.2.1, slotBytes := b.2.2.1, offset := b.2.2.2, free := b.2.1, filled := 0, held := 0, claim := 0, acq := 0, rel := 0,
      done := [] }
  { uid := uid, ctx := l.ctx, launch := l.id, stookId := BitVec.ofNat 32 id, core := core, place := (s.freePlaces core).headD 0,
    scratch := [], scratchBytes := d.scratch, barriers := [], cbufs := l.cbufs.map fun b => (b.1, buf b),
    records := l.records.map fun r => (r.slot, r.record),
    sheaves := (List.range d.sheaves).map fun i => d.newSheaf i (slots.getD i 0), resident := 0, stopAll := false, stopping := 0, reserve := 0,
    secondary := secondary, twin := twin, window := 0, digest := 0, stores := 0, windowStores := 0, atPoint := false,
    passPoint := false, heldStores := [], rerun := none }

/-- The words of a code segment as they stand when the launch is placed (R8), and the granules of it that cannot be read. -/
def State.readCode (s : State) (ctx : Nat) (d : Desc) : List Word × List (Nat × Cause × Nat) :=
  let need : Need := { ex := true }
  let lo := d.codeVa / 65536
  let hi := (d.codeVa + 4 * d.codeWords - 1) / 65536
  let stop (g : Nat) : Option (Cause × Nat) := match s.walk ctx (max d.codeVa (65536 * g)) with
    | .fail c l => some (c, l)
    | .leaf l e => match s.permit ctx need e with
      | some c => some (c, l)
      | none =>
        let line (j : Nat) : Option Cause := (s.nodeLocate ctx (65536 * g + 64 * j) need).toOption.bind fun b => s.sectorCause [b] .good
        let used (j : Nat) : Bool := d.codeVa < 65536 * g + 64 * (j + 1) && 65536 * g + 64 * j < d.codeVa + 4 * d.codeWords
        if s.svc.poison.isEmpty && s.lineKeys.isEmpty then none
        else (((List.range 1024).filter used).findSome? line).map fun c => (c, l)
  let bad := ((List.range (hi - lo + 1)).map fun j => lo + j).filterMap fun g => (stop g).map fun c => (g, c.1, c.2)
  let word (j : Nat) : Word :=
    match s.nodeLocate ctx (d.codeVa + 4 * j) need with
    | .error _ => 0
    | .ok b => BitVec.ofNat 32 (leNat ((List.range 4).map fun x => s.homeByte (b.pa + x)))
  ((List.range d.codeWords).map word, bad)

/-- The SEQ of a launch-atomic launch's record, fixed with its first stook (R301). -/
def State.nextSeq (s : State) (ctx : Nat) : Nat :=
  let past := ((assoc? s.completions ctx).map Completion.seq).getD 0
  (s.launches.filter fun l => l.ctx == ctx && l.state ≤ 3).foldl (fun m l => max m (l.seqLa.getD 0)) past + 1

/-- A launch begins with its first stook: the eligible set is fixed, the code is read, the context's TLB entries go (R117,
R8, R365). -/
def State.beginLaunch (s : State) (l : Launch) : State :=
  if !l.code.isEmpty then s
  else
    let (code, bad) := s.readCode l.ctx l.desc
    let seq := if !l.desc.la then none else some (l.seqLa.getD (s.nextSeq l.ctx))
    (s.dropTlb l.ctx).modLaunch l.ctx l.id fun l =>
      { l with state := 2, eligible := s.eligibleFor l, code := code, codeFaults := bad, seqLa := seq }

/-- One stook is placed on a core; the start of a launch is an acquire at SYSTEM scope (R355). -/
def State.addStook (s : State) (core l1 : Nat) (k : Stook) : State :=
  let s := (s.modCore core fun c => { c with l1 := l1 }).discardFor core 4
  { s with stooks := s.stooks ++ [k], next := max s.next (k.uid + 1), free := s.free + 1 }

/-- A core begins its rotation of a launch at step 0 (R114): the first stook of it that comes to the core is to be placed. -/
def State.startRotation (s : State) (l : Launch) (core : Nat) : State :=
  if !l.desc.rotates || !(s.stooksOn core).isEmpty || (assoc? l.detNext core).isSome then s
  else s.modCore core fun c => { c with rotation := 0, steps := 0 }

/-- No launch ahead in the order could use a core (R354). -/
def State.openTo (s : State) (ahead : List Launch) (c : Nat) : Bool :=
  !ahead.any fun a => (s.eligible a.ctx a.desc).contains c && a.desc.place != 1 && s.room c a

/-- The core of a stook's secondary twin (R383), where it has room. -/
def State.secondaryCore (s : State) (l : Launch) (id core : Nat) (ahead : List Launch := []) : Option Nat :=
  (l.desc.twinCore l.eligible id core).filter fun c => s.room c l && s.openTo ahead c

/-- A stook of a launch on a core, with its twin under PAIRED; nothing when there is no room. -/
def State.placeNew (s : State) (l : Launch) (id core : Nat) (ahead : List Launch := []) : Option State :=
  if !s.room core l then none
  else if l.desc.contain != 2 then
    let s := s.startRotation l core
    some (s.addStook core l.desc.l1 (s.newStook l id core s.next false none))
  else
    match s.secondaryCore l id core ahead with
    | none => none
    | some c2 =>
      let a := s.next
      let s := (s.startRotation l core).startRotation l c2
      let s := s.addStook core l.desc.l1 (s.newStook l id core a false (some (a + 1)))
      some (s.addStook c2 l.desc.l1 (s.newStook l id c2 (a + 1) true (some a)))

/-- A launch's count of placed stooks, and its state once all are (R356). -/
def State.placed (s : State) (l : Launch) (n : Nat) : State :=
  State.modLaunch { s with lastServed := l.ctx * 16 + l.queue } l.ctx l.id fun l =>
    { l with nextStook := n, state := if n < l.desc.stooks then 2 else 3 }

/-- The next stook drawn for a core from a number on (R113). -/
def Desc.nextDrawn (d : Desc) (e index : Nat) : Nat → Nat → Option Nat
  | 0, _ => none
  | n + 1, id => if d.draw streamPlace id e = index then some id else Desc.nextDrawn d e index n (id + 1)

/-- The core that stands for a core of a deterministic launch's eligible set: itself, or, when it is quarantined, the next of
the set that is not (R117). -/
def State.substitute (s : State) (l : Launch) (core : Nat) : Option Nat :=
  let n := (l.eligible.takeWhile fun c => c != core).length
  (l.eligible.drop n ++ l.eligible.take n).find? fun c => !s.svc.quarantined.contains (clusterOf c)

/-- The stook a core admits next of a deterministic launch, and the core it was drawn for (R113): the lowest of those drawn for
the core and for the cores it stands for (R117) that none of them has considered. -/
def State.nextDet (s : State) (l : Launch) (core : Nat) : Option (Nat × Nat) :=
  let mine := l.eligible.filter fun c => s.substitute l c == some core
  let past (c : Nat) : Nat := (assoc? l.detNext c).getD 0
  let lo := mine.foldl (fun m c => min m (past c)) l.desc.stooks
  let rec go : Nat → Nat → Option (Nat × Nat)
    | 0, _ => none
    | n + 1, id =>
      let c := l.eligible.getD (l.desc.draw streamPlace id l.eligible.length) 0
      if mine.contains c && past c ≤ id then some (id, c) else go n (id + 1)
  go (l.desc.stooks - lo) lo

/-- COHORT places every stook, each on the first eligible core with room, or none (R112). It takes no core that a launch ahead
of it could use (R354). -/
def State.placeAll (s : State) (l : Launch) (ahead : List Launch) : Nat → Nat → Option State
  | 0, _ => some s
  | n + 1, id =>
    let drawn := l.eligible[l.desc.draw streamPlace id (max 1 l.eligible.length)]?
    let cores := if l.desc.det then (drawn.bind fun c => s.substitute l c).toList else l.eligible
    match (cores.filter (s.openTo ahead)).findSome? fun c => s.placeNew l id c ahead with
    | none => none
    | some s => s.placeAll l ahead n (id + 1)

/-! ### Sampled stooks (R385) -/

/-- The stooks of a PURE launch that are sampled. -/
def Desc.sampled (d : Desc) (id : Nat) : Bool :=
  d.pure && (zmix d.seed streamSample (BitVec.ofNat 64 id)).toNat % 2 ^ d.sample = 0

/-- The sampled stooks of a launch whose second or extra run is still to begin, once every stook of it is gone. -/
def State.toRerun (s : State) (l : Launch) : List (Word × DWord × Nat × Nat) :=
  if l.state != 3 || l.held || l.ending.isSome || l.gone != l.desc.stooks then []
  else l.digests.filter fun d => l.desc.sampled d.1.toNat && !l.checked.contains d.1 && !(l.verdicts.any fun v => v.1 == d.1)
    && !s.stooks.any fun k => k.ctx == l.ctx && k.launch == l.id && k.stookId == d.1

/-- A core may take a second run: it lies in the partition, in another cluster than the first run, an extra run in none of those
involved (R385, R387). -/
def State.rerunCore (s : State) (l : Launch) (d : Word × DWord × Nat × Nat) (core : Nat) : Bool :=
  let (die, n) := s.svc.settings.dies (s.ctx l.ctx).partition
  die * Config.coresPerDie ≤ core && core < (die + n) * Config.coresPerDie && clusterOf core != clusterOf d.2.2.2
    && !(l.rerun.contains d.1 && l.avoid.contains (clusterOf core))

/-- A sampled stook runs again on a core. DESIGN CHOICE (log entry 86): second runs begin once every stook of their launch is gone,
where no waiting launch can use the core, and a run that is asked to leave its core begins anew later. -/
def State.placeRerun (s : State) (l : Launch) (core : Nat) : Option State :=
  if !s.room core l then none
  else ((s.toRerun l).find? fun d => s.rerunCore l d core).map fun d =>
    let s := s.startRotation l core
    s.addStook core l.desc.l1 { s.newStook l d.1.toNat core s.next true none with rerun := some d.2.2.2 }

/-- Place what a launch can on a core, behind launches ahead of it in the order; none if nothing. -/
def State.placeOn (s : State) (core : Nat) (l : Launch) (restore : State → Launch → Nat → List Launch → Option State) (ahead : List Launch := []) :
    Option State :=
  if !(s.eligible l.ctx l.desc).contains core && !l.eligible.contains core then none
  else
    let s := s.beginLaunch l
    match s.launch? l.ctx l.id with
    | none => none
    | some l =>
      match (if l.saved.any fun x => x.first then restore s l core ahead else none) with
      | some s => some s
      | none =>
        if l.nextStook < l.desc.stooks && !(l.saved.any fun x => x.first) then
          if l.desc.place = 1 then (s.placeAll l ahead l.desc.stooks 0).map fun s => s.placed l l.desc.stooks
          else if l.desc.det then
            match s.nextDet l core with
            | none => restore s l core ahead
            | some (id, drawn) => (s.placeNew l id core ahead).map fun s =>
                (s.modLaunch l.ctx l.id fun l => { l with detNext := assocSet l.detNext drawn (id + 1) }).placed l (l.nextStook + 1)
          else (s.placeNew l l.nextStook core ahead).map fun s => s.placed l (l.nextStook + 1)
        else if l.saved.isEmpty then none
        else restore s l core ahead

end Sys2Proof.Machine
end

