-- ==== Sys2Proof/Machine/Messages.lean ====
section
/-! DEFINITION. The control link (20 R344 to R350, R353, R356, R358): the order of requests, their answers, reading and
writing memory, contexts, submission, cancelling and asking, the settings block (23 R393), telemetry (23 R398). -/

namespace Sys2Proof.Machine

open Sys2Proof

/-! ### Responses (R346) -/

def State.reply (s : State) (h : MsgHdr) (status detail : Word) (data : List Byte := []) : State :=
  s.post (.response h.context h.tag status detail data)

/-- The header of a message the device sends (R345, R346): CONTEXT, TAG, FLAGS, its payload and LENGTH, its SEQ. -/
def Post.context : Post → Nat
  | .response c _ _ _ _ => c
  | .faultReport r => (r.extractLsb' 16 6).toNat
  | .recoveryReport _ => 255
  | .telemetry _ => 255
  | .done c _ _ => c

/-- DESIGN CHOICE: a message that answers none carries TAG 0 (log entry 53). -/
def Post.tag : Post → Word
  | .response _ t _ _ _ => t
  | _ => 0

/-- FLAGS: [0] a response, [1] a STATUS other than 0 or an identifier. -/
def Post.flags : Post → Nat
  | .response _ _ st _ _ => if 2 ^ 31 ≤ st.toNat then 3 else 1
  | _ => 0

/-- The TYPE of a message that is no response; R346 states none for a response. -/
def Post.type? : Post → Option Nat
  | .response _ _ _ _ _ => none
  | .faultReport _ => some 0x40
  | .recoveryReport _ => some 0x41
  | .telemetry _ => some 0x42
  | .done _ _ _ => some 0x43

def Post.payload : Post → List Byte
  | .response _ _ st d data => leBytes 4 st.toNat ++ leBytes 4 d.toNat ++ data
  | .faultReport r => leBytes 64 r.toNat
  | .recoveryReport es => leBytes 8 64 ++ es.flatMap fun e => leBytes 32 e.toNat
  | .telemetry es => es.flatMap fun e => leBytes 8 e.toNat
  | .done _ l st => leBytes 4 l.toNat ++ leBytes 4 st

def Post.length (p : Post) : Nat := p.payload.length

/-- SEQ, per context and direction: the messages of its context sent before the `j`-th since power-up. -/
def State.outSeq (s : State) (j : Nat) : Nat :=
  ((s.sent.take j).filter fun p => p.context == ((s.sent[j]?).map Post.context).getD 0).length

/-- STATUS values of R346 and R353. -/
def stFull : Word := 0x80000001
def stRefused : Word := 0x80000002
def stContext : Word := 0x800000F0
def stType : Word := 0x800000F1
def stLength : Word := 0x800000F2
def stForbidden : Word := 0x800000F3
def stBusy : Word := 0x800000F4
def stGap : Word := 0x800000F5
def stMemory : Word := 0x800000F6
def stUnknown : Word := 0x800000F7

/-! ### Memory by message (R347, R348) -/

/-- A byte of a physical address that names storage (R362). -/
def physLocate (a : Nat) : Except Cause ByteLoc :=
  if inDram a || inNv a then .ok { pa := a, peer := none, la := false, key := 0 } else .error .badPte

/-- A byte a message names, or the cause that ends its request: a read also meets poison and tags (R387). -/
def State.msgByte (s : State) (ctx : Nat) (phys wr : Bool) (a : Nat) : Except Cause ByteLoc :=
  let r : Except Cause ByteLoc :=
    if phys then physLocate a
    else if 2 ^ 55 ≤ a then .error .xlateMiss
    else s.nodeLocate ctx a (if wr then { wr := true } else { rd := true })
  match r with
  | .error c => .error c
  | .ok b =>
    if !b.peer.all s.peerUp then .error .peerDown
    else if wr then .ok b
    else match s.sectorCause [b] .good with
      | some c => .error c
      | none => .ok b

/-- The bytes of a range up to the first that fails, and its cause. -/
def State.msgBytes (s : State) (ctx : Nat) (phys wr : Bool) : Nat → Nat → List ByteLoc × Option Cause
  | _, 0 => ([], none)
  | a, n + 1 =>
    match s.msgByte ctx phys wr a with
    | .error c => ([], some c)
    | .ok b => let r := s.msgBytes ctx phys wr (a + 1) n; (b :: r.1, r.2)

def MemBlock.phys (b : MemBlock) : Bool := b.mode.getLsbD 0
def MemBlock.bytes (b : MemBlock) : Nat := b.size.toNat

/-- The request block is sound: reserved bits zero, the size in range (R348). -/
def blockOk (b : MemBlock) : Bool :=
  b.mode.toNat < 2 && b.addr.toNat < (if b.mode.getLsbD 0 then 2 ^ 48 else 2 ^ 55) && 1 ≤ b.size.toNat && b.size.toNat ≤ 65512

/-- Bytes rounded up to a multiple of 8. -/
def round8 (n : Nat) : Nat := (n + 7) / 8 * 8

/-- The bytes a MEMWRITE would write, and the cause that ends it. -/
def State.writeBytes (s : State) (ctx : Nat) (b : MemBlock) : List ByteLoc × Option Cause :=
  s.msgBytes ctx (b.mode.getLsbD 0) true b.addr.toNat b.size.toNat

/-- Locks on the words of some bytes. -/
def State.locksOn (s : State) (bs : List ByteLoc) : List WordLock :=
  s.locks.filter fun k => bs.any fun b => b.peer.isNone && b.pa / 8 == k.pa / 8

/-- A context's next request can be performed: no transfer of an earlier one is under way (R347). DESIGN CHOICE (log entry 54): a
request of a context that is not VALID waits while launches of the context's last life still stop, so that the identifiers of the
next one can start at 0 (R353). -/
def State.messageGoes (s : State) (ctx : Nat) : Bool :=
  !(s.transfers.any fun x => x.hdr.context == ctx) && (ctx = 255 || (s.ctx ctx).valid || !s.launches.any fun l => l.ctx == ctx && l.state ≤ 3)

/-! ### The order of requests (R347) -/

/-- The arrived request of a context whose turn it is comes next. -/
def State.nextMessage (s : State) (ctx : Nat) : State :=
  match s.inbox.find? fun m => m.1.context == ctx && m.1.seq == (s.ctx ctx).seq && s.messageGoes ctx with
  | some m => { s with inbox := s.inbox.filter (fun x => x != m), agenda := m.2 :: s.agenda }
  | none => s

/-- A request arrives. In its turn it is performed, refused for a context that is not VALID (R349) or answered for its
LENGTH; ahead of its turn it waits; a request whose turn is past is answered as the gap it left. `who` tells which CONTEXT
may send it: 0 a VALID one, 1 also 0xFF, 2 any, what it does judging that; `len` is the LENGTH of its TYPE. -/
def State.request (s : State) (h : MsgHdr) (i : Instr) (who : Nat) (len : Nat) (act : State → State) : State :=
  let turn := (s.ctx h.context).seq
  if h.seq == turn && s.messageGoes h.context then
    let s := s.modCtx h.context fun c => { c with seq := c.seq + 1 }
    let ok := who = 2 || if h.context = 255 then who = 1 else h.context < 64 && (s.ctx h.context).valid
    (if !ok then s.reply h stContext 0 else if h.length != len then s.reply h stLength 0 else act s).nextMessage h.context
  else if (h.seq - turn).toNat < 2 ^ 31 then
    if s.inbox.contains (h, i) then s else { s with inbox := s.inbox ++ [(h, i)] }
  else s.reply h stGap turn

/-- A request of the control link: a device held in reset answers FWUPDATE alone (R389). -/
def message (s : State) (h : MsgHdr) (i : Instr) (who : Nat) (len : Nat) (act : State → State) : Host.Outcome State Fault Refusal :=
  event s fun s => if s.svc.heldReset then s else s.request h i who len act

/-- SEQ_GAP_TIMEOUT: the lowest-numbered request that has arrived is answered for the missing SEQ, and the device goes on
behind it. -/
def seqGap (ctx : Nat) (s : State) : State :=
  let turn := (s.ctx ctx).seq
  let here := s.inbox.filter fun m => m.1.context == ctx
  let ahead (m : MsgHdr × Instr) : Nat := (m.1.seq - turn).toNat
  match here.foldl (fun (b : Option (MsgHdr × Instr)) m => match b with
      | none => some m
      | some x => if ahead m < ahead x then some m else b) none with
  | none => s
  | some m =>
    if ahead m = 0 then s
    else
      ((State.modCtx { s with inbox := s.inbox.filter fun x => x != m } ctx fun c => { c with seq := m.1.seq + 1 }).reply m.1 stGap
        turn).nextMessage ctx

/-- SEQ_GAP_TIMEOUT (R347) -/
def execSeqGapTimeout (ctx : Nat) (s : State) : Host.Outcome State Fault Refusal := event s (seqGap ctx)

/-! ### The settings block (R393) -/

/-- The settings block as its 512 bits. -/
def Settings.pack (c : Settings) : BitVec 512 :=
  let bytes (l : List Nat) : BitVec 128 := BitVec.ofNat 128 (leNat ((List.range 16).map fun p => BitVec.ofNat 8 (l.getD p 0)))
  bytes c.nvQuota ++ bytes c.snapPool ++ 0#192 ++ BitVec.ofNat 16 c.telemMs ++ 0#13 ++ BitVec.ofNat 3 c.partLog ++ 0#19
    ++ BitVec.ofNat 13 c.cap

/-- The settings that 512 bits give, when no reserved bit is set and every value is within its limits. -/
def Settings.unpack? (x : BitVec 512) : Option Settings :=
  let bytes (lo : Nat) : List Nat := (List.range 16).map fun p => (x.extractLsb' (lo + 8 * p) 8).toNat
  let c : Settings :=
    { cap := (x.extractLsb' 0 13).toNat, partLog := (x.extractLsb' 32 3).toNat, telemMs := (x.extractLsb' 48 16).toNat,
      snapPool := bytes 256, nvQuota := bytes 384 }
  let reserved := x.extractLsb' 13 19 != 0 || x.extractLsb' 35 13 != 0 || x.extractLsb' 64 192 != 0
  let inside := 3000 ≤ c.cap && c.cap ≤ 6000 && c.partLog ≤ 4 && (c.telemMs = 0 || (10 ≤ c.telemMs && c.telemMs ≤ 60000))
    && c.nvQuota.foldl (fun a b => a + b) 0 ≤ 128
  if reserved || !inside then none else some c

def settingsBase : Nat := 0x800000000000

/-- Whether a message's range begins in the settings block. -/
def inSettings (h : MsgHdr) (b : MemBlock) : Bool :=
  h.context = 255 && b.mode.getLsbD 0 && settingsBase ≤ b.addr.toNat && b.addr.toNat < settingsBase + 64

/-- A write of the settings block. -/
def State.writeSettings (s : State) (h : MsgHdr) (b : MemBlock) (data : List Byte) : State :=
  let old := s.svc.settings
  match Settings.unpack? (BitVec.ofNat 512 (leNat data)) with
  | none => s.reply h stForbidden 0
  | some c =>
    let held (p : Nat) : Bool := s.contexts.any fun x => x.2.valid && x.2.partition == p
    let moved := (List.range 16).any fun p =>
      held p && (c.nvQuota.getD p 0 != old.nvQuota.getD p 0 || c.snapPool.getD p 0 != old.snapPool.getD p 0)
    if b.addr.toNat != settingsBase || b.size.toNat != 64 then s.reply h stForbidden 0
    else if (c.partLog != old.partLog && s.contexts.any fun x => x.2.valid) || moved then s.reply h stBusy 0
    else State.reply { s with svc := { s.svc with settings := c } } h 0 0

/-- SETTINGS_WRITE (R393) -/
def execSettingsWrite (h : MsgHdr) (b : MemBlock) (data : List Byte) (s : State) : Host.Outcome State Fault Refusal :=
  message s h (.settingsWrite h b data) 1 (24 + round8 b.size.toNat) fun s =>
    if !blockOk b || data.length != b.size.toNat then s.reply h stLength 0
    else if inSettings h b then s.writeSettings h b data
    else s.reply h stForbidden 0

/-! ### MEMREAD, MEMWRITE -/

/-- The answer of a request that a cause ended after some bytes. -/
def State.failed (s : State) (h : MsgHdr) (done : Nat) (c : Cause) : State :=
  s.reply h stMemory (BitVec.ofNat 32 (done * 256 + c.code))

/-- The words of a launch's code that the control node has written, as fetch then gives them: undefined (R8). -/
def State.rewritten (s : State) (bs : List ByteLoc) (l : Launch) : List Word :=
  let lo := l.desc.codeVa / 65536
  let hi := (l.desc.codeVa + 4 * l.desc.codeWords - 1) / 65536
  let granules := ((List.range (hi - lo + 1)).map fun j => lo + j).filterMap fun g =>
    match s.nodeLocate l.ctx (65536 * g) {} with
    | .error _ => none
    | .ok b => if bs.any fun x => x.peer.isNone && b.pa ≤ x.pa && x.pa < b.pa + 65536 then some (g, b.pa) else none
  if granules.isEmpty then l.code
  else (l.code.zip (List.range l.code.length)).map fun c =>
    let va := l.desc.codeVa + 4 * c.2
    match assoc? granules (va / 65536) with
    | some pa => if bs.any fun x => x.peer.isNone && x.pa / 4 == (pa + va % 65536) / 4 then Config.freeWord (s.free + c.2) else c.1
    | none => c.1

/-- A MEMWRITE's bytes at their homes; code of a launch that has stooks on the device becomes undefined words where it is written
(R8). -/
def State.nodeWrite (s : State) (bs : List ByteLoc) (data : List Byte) : State :=
  let s := { s with
    launches := s.launches.map fun l =>
      if s.stooks.any fun k => k.ctx == l.ctx && k.launch == l.id then { l with code := s.rewritten bs l } else l
    free := s.free + 65536 * 64 }
  if bs.isEmpty then s else s.storeAt .node (bs.zip data)

/-- The aligned words of consecutive bytes. -/
def wordRuns : List (ByteLoc × Byte) → List (List (ByteLoc × Byte))
  | [] => []
  | x :: xs => match wordRuns xs with
    | [] => [[x]]
    | [] :: rs => [x] :: rs
    | (y :: ys) :: rs =>
      if x.1.pa / 8 == y.1.pa / 8 && x.1.peer == y.1.peer then (x :: y :: ys) :: rs else [x] :: (y :: ys) :: rs

/-- A word of a transfer can be performed: no commit and no locked transaction holds it (R148, R287). -/
def State.wordGoes (s : State) (w : List (ByteLoc × Byte)) : Bool := (s.locksOn (w.map Prod.fst)).isEmpty

/-- A transfer whose words are all performed is over once those on non-volatile memory are durable (R295): its request is answered,
and the next of its context has its turn. -/
def State.endTransfer (s : State) (x : Transfer) : State :=
  if x.units.any s.isVolatile then s
  else
  let s : State := { s with transfers := s.transfers.filter fun y => y.hdr != x.hdr }
  (match x.cause with
    | some c => s.failed x.hdr x.done c
    | none => s.reply x.hdr 0 0 (x.got ++ List.replicate (round8 x.got.length - x.got.length) 0)).nextMessage x.hdr.context

/-- The next word of a transfer, one event (R133, R347): its bytes are stored as plain stores, or read as the home has them. -/
def State.moveWord (s : State) (x : Transfer) : State :=
  let wr := match x.req with | .memwrite _ _ _ => true | _ => false
  match x.left with
  | [] => s.endTransfer x
  | w :: rest =>
    let bs := w.map Prod.fst
    if !s.wordGoes w then s
    else
      let s := if wr then s.nodeWrite bs (w.map Prod.snd) else State.combineLocs { s with free := s.free + 1 } bs
      let bytes := bs.map fun b => if b.peer.isSome then Config.freeByte s.free b.pa else s.homeByte b.pa
      let units := if wr && bs.any fun b => b.peer.isNone && inNv b.pa then (s.volatile.getLast?.map NvWrite.unit).toList else []
      let x' := { x with left := rest, got := if wr then [] else x.got ++ bytes, done := x.done + w.length, units := x.units ++ units }
      let s : State := { s with transfers := s.transfers.map fun y => if y.hdr == x.hdr then x' else y }
      if rest.isEmpty then s.endTransfer x' else s

/-- A transfer begins, with its first word. -/
def State.beginTransfer (s : State) (h : MsgHdr) (i : Instr) (ws : List (ByteLoc × Byte)) (c : Option Cause) : State :=
  let x : Transfer := { hdr := h, req := i, left := wordRuns ws, got := [], done := 0, units := [], cause := c }
  State.moveWord { s with transfers := s.transfers ++ [x] } x

/-- A message that transfers memory: a request, or the next word of its transfer under way. -/
def transferMessage (s : State) (h : MsgHdr) (i : Instr) (len : Nat) (act : State → State) : Host.Outcome State Fault Refusal :=
  match s.transfers.find? fun x => x.hdr == h && x.req == i with
  | some x => event s fun s => s.moveWord x
  | none => message s h i 1 len act

/-- MEMREAD (R347, R348): an acquire at SYSTEM scope, each aligned word as its home has it, answered with its last. -/
def execMemread (h : MsgHdr) (b : MemBlock) (s : State) : Host.Outcome State Fault Refusal :=
  transferMessage s h (.memread h b) 24 fun s =>
    let n := b.size.toNat
    if !blockOk b then s.reply h stLength 0
    else if h.context = 255 && !b.mode.getLsbD 0 then s.reply h stContext 0
    else if inSettings h b then
      let off := b.addr.toNat - settingsBase
      if off + n ≤ 64 then
        s.reply h 0 0 (((leBytes 64 s.svc.settings.pack.toNat).drop off).take n ++ List.replicate (round8 n - n) (0 : Byte))
      else s.failed h (64 - off) .badPte
    else
      let (bs, c) := s.msgBytes h.context (b.mode.getLsbD 0) false b.addr.toNat n
      s.beginTransfer h (.memread h b) (bs.map fun x => (x, 0)) c

/-- MEMWRITE (R347, R348): plain stores of aligned words in ascending order, answered once all are performed, and durable on NV. -/
def execMemwrite (h : MsgHdr) (b : MemBlock) (data : List Byte) (s : State) : Host.Outcome State Fault Refusal :=
  transferMessage s h (.memwrite h b data) (24 + round8 b.size.toNat) fun s =>
    if !blockOk b || data.length != b.size.toNat then s.reply h stLength 0
    else if h.context = 255 && !b.mode.getLsbD 0 then s.reply h stContext 0
    else if inSettings h b then s.writeSettings h b data
    else
      let (bs, c) := s.writeBytes h.context b
      s.beginTransfer h (.memwrite h b data) (bs.zip data) c

/-! ### Waiting on a locked word (R287) -/

/-- Holders of a locked transaction's lock on some words, but for one lane, that are not already writing at their TEND. -/
def State.lockHolders (s : State) (words : List Nat) (self : Option LaneRef) : List LaneRef :=
  ((s.locks.filter fun k => !k.commit && self != some k.holder && words.contains (k.pa / 8) && !s.writingTx k.holder).map
    fun k => k.holder).eraseDups

/-- The words of this device that the smallest chunk a running copy can begin reads. -/
def State.copyWaits (s : State) (c : Copy) : List Nat :=
  match s.stook? c.stook with
  | none => []
  | some k => match s.chunk k c (s.wholeChunk k c 16 c.unit) with
    | .ok w => if c.writes.isEmpty && s.copyGoes c then wordsOf (w.reads.map Prod.fst) else []
    | .error _ => []

/-- The holders that some words wait for abort with CONFLICT, twins together, and the access is performed. -/
def State.breakLocks (s : State) (words : List Nat) (self : Option LaneRef) (go : State → State) : State :=
  let hs := s.lockHolders words self
  if hs.isEmpty then s else go (hs.foldl (fun s l => s.abortTwins l 0x01) s)

/-- A plain access that has waited 2 µs on locked words: each holder aborts with CONFLICT, and the access is performed. Behind the
requests of a core stand its running copies; under the number after the last core's, the control node's transfers. -/
def lockedTimeout (core k : Nat) (s : State) : State :=
  let reqs := (s.core core).homeList
  if core = Config.numCores then
    match s.transfers[k]? with
    | none => s
    | some x => s.breakLocks (wordsOf ((x.left.headD []).map Prod.fst)) none fun s => s.moveWord x
  else
    match reqs[k]? with
    | some r =>
      if r.performed || r.spad then s
      else s.breakLocks (r.words.filterMap fun w => if w.2.isNone then some w.1 else none)
        (some { stook := r.stook, sheaf := r.sheaf, lane := r.lane }) (homeRequest core k .good)
    | none =>
      match (s.core core).running[k - reqs.length]? with
      | none => s
      | some c => s.breakLocks (s.copyWaits c) none (copyChunk core (k - reqs.length) 1 .good)

/-- LOCKED_ACCESS_TIMEOUT (R287) -/
def execLockedAccessTimeout (core k : Nat) (s : State) : Host.Outcome State Fault Refusal := event s (lockedTimeout core k)

/-! ### Contexts (R349, R350) -/

/-- The fields of a context record. -/
def ctxRecord (r : BitVec 512) (c : Context) : Context :=
  { c with
    valid := r.getLsbD 136, ptroot := (r.extractLsb' 0 64).toNat, partition := (r.extractLsb' 128 4).toNat,
    devlaunch := r.getLsbD 137, debug := r.getLsbD 138, qprio := r.extractLsb' 144 48,
    spillVa := (r.extractLsb' 192 64).toNat, spillBytes := (r.extractLsb' 256 64).toNat }

/-- A reserved bit set, or a base not aligned to 64 KiB. -/
def ctxRecordBad (r : BitVec 512) : Bool :=
  r.extractLsb' 64 64 != 0 || r.extractLsb' 132 4 != 0 || r.extractLsb' 139 5 != 0 || r.extractLsb' 320 192 != 0
    || r.extractLsb' 0 16 != 0 || r.extractLsb' 192 16 != 0

/-- A context record written: every TLB drops the context's entries (R365); identifiers of a context that becomes VALID
start at 0 (R353), its ended launches forgotten. -/
def State.setContext (s : State) (n : Nat) (r : BitVec 512) : State :=
  let old := s.ctx n
  let new := ctxRecord r old
  let s := s.dropTlb n
  if new.valid && !old.valid then
    let s := s.modCtx n fun _ => { new with nextId := 0, spillUsed := 0, imageTop := 0 }
    { s with launches := s.launches.filter fun l => l.ctx != n }
  else s.modCtx n fun _ => new

/-- CTXSET (R350) -/
def execCtxset (h : MsgHdr) (rec : BitVec 512) (s : State) : Host.Outcome State Fault Refusal :=
  event s fun s =>
    if s.svc.heldReset then s
    else
      let turn := (s.ctx h.context).seq
      if h.seq != turn || !s.messageGoes h.context then s.request h (.ctxset h rec) 2 64 id
      else
        let s := s.modCtx h.context fun c => { c with seq := c.seq + 1 }
        let old := s.ctx h.context
        let new := ctxRecord rec old
        let busy := s.launches.any fun l => l.ctx == h.context && l.state ≤ 3
        (if h.length != 64 then s.reply h stLength 0
         else if 64 ≤ h.context || 2 ^ s.svc.settings.partLog ≤ new.partition then s.reply h stContext 0
         else if ctxRecordBad rec then s.reply h stForbidden 0
         else if busy && ((old.valid && !new.valid) || new.ptroot != old.ptroot || new.partition != old.partition || new.spillVa != old.spillVa) then
           s.reply h stBusy 0
         else (s.setContext h.context rec).reply h 0 0).nextMessage h.context

/-! ### Launches (R353, R356) -/

/-- SUBMIT (R346, R353). DESIGN CHOICE (log entry 83): reserved bits of the queue word are answered as a LENGTH that does not match. -/
def execSubmit (h : MsgHdr) (queue : DWord) (desc : BitVec 2048) (s : State) : Host.Outcome State Fault Refusal :=
  message s h (.submit h queue desc) 0 264 fun s =>
    if 256 ≤ queue.toNat then s.reply h stLength 0
    else
      let (status, detail, s) := s.submit h.context queue.toNat (leBytes 256 desc.toNat)
      s.reply h status detail

/-! ### Telemetry (R398) -/

/-- The entry of a peer link. -/
def Service.linkEntry (v : Service) (n : Nat) : DWord :=
  let l := (v.links.find? fun l => l.num == n).getD { (default : Link) with num := n }
  BitVec.ofNat 64 (min l.retrains 65535 + (min l.retransmits (2 ^ 32 - 1)) * 2 ^ 16 + (if l.up then 2 ^ 48 else 0)
    + (if v.enable.testBit n then 2 ^ 49 else 0))

/-- The fewest spare frames on any stack. -/
def Service.fewestSpares (v : Service) : Nat := (List.range Config.numDies).foldl (fun m n => min m (v.spares n)) (v.spares 0)

/-- The 71 entries of a telemetry payload; the gauges nothing in the model measures are free. -/
def State.telemetry (s : State) : List DWord :=
  let v := s.svc
  let g (k : Nat) : DWord := BitVec.ofNat 64 (Config.gauge k v.telemSeq)
  let c (k : Nat) : DWord := Bank.get v.counters k
  let w (n : Nat) : DWord := BitVec.ofNat 64 n
  [w v.telemSeq, v.cycles, w v.powerMw, w v.clockMHz, c 4, w v.hottest, g 6, g 7, c 8, c 9, c 10, c 11, c 12, c 13, c 14,
   w v.quarantined.length, c 16, c 17, c 18, c 19, w v.fewestSpares, w v.wear, g 22] ++ (List.range 48).map v.linkEntry

/-- A telemetry payload has been sent; of the service die's cycles, how many go by before the next is free (R398). -/
def State.countTelemetry (s : State) : State :=
  { s with svc := { s.svc with telemSeq := s.svc.telemSeq + 1, cycles := s.svc.cycles + 1 + (Config.freeWord s.free).setWidth 64 }, free := s.free + 1 }

/-! ### Launches under way (R356, R374) -/

/-- Whether a launch's stooks are saved by a PREEMPT (R374). -/
def Launch.isSaved (l : Launch) : Bool := l.held && !l.saved.isEmpty && l.state ≤ 3

/-- The state QUERY reports (R356): 1 while the launch is the oldest of its queue and waits on a dependence. -/
def State.queryState (s : State) (l : Launch) : Nat :=
  if l.isSaved then 0 else if l.state = 0 && s.oldestInQueue l && !s.depsEnded l then 1 else l.state

/-- The answer to a QUERY of the device: the telemetry payload (R398). -/
def State.answerTelemetry (s : State) (h : MsgHdr) : State :=
  (s.reply h 0 0 (s.telemetry.flatMap fun x => leBytes 8 x.toNat)).countTelemetry

/-- QUERY (R356, R374, R380); with CONTEXT 0xFF, of the device (R398). -/
def execQuery (h : MsgHdr) (launch : Word) (s : State) : Host.Outcome State Fault Refusal :=
  message s h (.query h launch) 1 8 fun s =>
    if h.context = 255 then s.answerTelemetry h
    else match s.launch? h.context launch with
    | none => s.reply h stUnknown 0
    | some l =>
      s.reply h 0 (BitVec.ofNat 32 (s.queryState l + (if l.isSaved then 256 else 0) + (if l.noSnap then 512 else 0)))

/-- CANCEL (R356): answered with the end state once the launch has ended. -/
def execCancel (h : MsgHdr) (launch : Word) (s : State) : Host.Outcome State Fault Refusal :=
  message s h (.cancel h launch) 0 8 fun s =>
    match s.launch? h.context launch with
    | none => s.reply h stUnknown 0
    | some l =>
      if 4 ≤ l.state then s.reply h 0 (BitVec.ofNat 32 l.state)
      else
        State.endLaunch { s with pending := s.pending ++ [{ hdr := h, cancel := true, launches := [launch], count := 0 }] }
          h.context launch 6

/-! ### Peer links (R358) -/

/-- PEERCFG (R358): every enabled link is trained. -/
def execPeercfg (h : MsgHdr) (cfg : BitVec 4160) (s : State) : Host.Outcome State Fault Refusal :=
  message s h (.peercfg h cfg) 1 520 fun s =>
    let enable := (cfg.extractLsb' 64 48).toNat
    let devid := (cfg.extractLsb' 0 7).toNat
    let routes := (List.range 84).map fun p => (p, (cfg.extractLsb' (112 + 48 * p) 48).toNat)
    let link (n : Nat) : Link :=
      { (s.svc.links.find? fun l => l.num == n).getD { (default : Link) with num := n } with up := enable.testBit n, failures := 0 }
    if h.context != 255 || cfg.extractLsb' 7 25 != 0 || cfg.extractLsb' 44 20 != 0 || cfg.extractLsb' 4144 16 != 0 || 83 < devid then
      s.reply h stForbidden 0
    else if !s.stooks.isEmpty then s.reply h stBusy 0
    else
      State.reply { s with svc := { s.svc with
        devid := devid
        domain := (cfg.extractLsb' 32 12).toNat
        enable := enable
        routes := routes.filter fun r => r.2 != 0
        links := (List.range 48).map link } } h 0 0

/-! ### Telemetry messages (R398) -/

/-- TELEMETRY_QUERY (R398) -/
def execTelemetryQuery (h : MsgHdr) (s : State) : Host.Outcome State Fault Refusal :=
  message s h (.telemetryQuery h) 1 8 fun s =>
    if h.context != 255 then s.reply h stContext 0
    else s.answerTelemetry h

/-- TELEMETRY_TICK (R398) -/
def execTelemetryTick (s : State) : Host.Outcome State Fault Refusal :=
  event s fun s => if s.svc.settings.telemMs = 0 || s.svc.heldReset then s else (s.post (.telemetry s.telemetry)).countTelemetry

/-! ### The link layer (R344, R386) -/

/-- CONTROL_FRAME_RETRANSMIT (R344): every message still arrives whole. -/
def execControlFrameRetransmit (port : Nat) (s : State) : Host.Outcome State Fault Refusal :=
  event s fun s => if 2 ≤ port then s else { s with svc := { s.svc with portRetransmits := s.svc.portRetransmits + 1 } }

/-- CONTROL_PORT_FAILOVER (R344): in fail-over mode the other port works on; no accepted message is lost. -/
def execControlPortFailover (port : Nat) (s : State) : Host.Outcome State Fault Refusal :=
  event s fun s => if s.svc.bonded || port != s.svc.workingPort then s else { s with svc := { s.svc with workingPort := 1 - port } }

/-- A peer link's entry, changed. -/
def State.modLink (s : State) (n : Nat) (f : Link → Link) : State :=
  { s with svc := { s.svc with links := s.svc.links.map fun l => if l.num == n then f l else l } }

/-- PEER_FRAME_RETRANSMIT (R386, R398) -/
def execPeerFrameRetransmit (link : Nat) (s : State) : Host.Outcome State Fault Refusal :=
  event s fun s => s.modLink link fun l => { l with retransmits := l.retransmits + 1 }

/-- LINK_RETRAIN (R402): three trainings failed within an hour mark the link down; whether three fell within one is free. -/
def execLinkRetrain (link : Nat) (ok : Bool) (s : State) : Host.Outcome State Fault Refusal :=
  event s fun s => State.modLink { s with free := s.free + 1 } link fun l =>
    if !l.up then l
    else if ok then { l with retrains := l.retrains + 1 }
    else { l with retrains := l.retrains + 1, failures := l.failures + 1, up := l.failures + 1 < 3 || Config.freeChoice s.free }

end Sys2Proof.Machine
end

