-- ==== Sys2Proof/Machine/DevLaunch.lean ====
section
/-! DEFINITION. Device-side launch (08 R204, 20 R357): the word and the controller's answer. -/

namespace Sys2Proof.Machine

open Sys2Proof

/-- What a LAUNCH asks of a lane: its descriptor's bytes are read, so a miss on them parks it (R204). -/
def launchAccess (w : AWord) (h : Sheaf) : Access :=
  { opcode := 0x185, op := .load, af := 0, dest := w.d, regs := 1, via := some { slot := 0, record := 0, flat := true },
    shape := { fmt := 0x30, bits := 2048, step := 1, align := 64, count := 1, raw := true, cell := false },
    idx := fun l => [((h.src64 (w.sregN (aForm 0x185)) w.a l).toNat : Int)], data := fun l => [(h.src (w.sregN (aForm 0x185)) w.b l).toNat], need := { rd := true },
    kind := .read, scope := 3, order := 2, reuse := 0, repl := false, sv := 0, rm := 0, tok := w.tok (aForm 0x185),
    flags := fun _ => [] }

/-- The submission of a lane goes to the launch controller. -/
def State.askLaunch (s : State) (core : Nat) (r : LaunchReq) : State :=
  s.modCore core fun c => { c with launches := c.launches ++ [r] }

/-- LAUNCH (R204): misaligned addresses trap, lanes that miss park, the others submit in ascending lane order. DESIGN CHOICE (log entry
77): a descriptor whose 256 bytes reach past address 2^55 traps BOUNDS, which R204 does not name. -/
def launchAct (w : AWord) (p : Focus) (s : State) : State :=
  match s.stook? p.stook with
  | none => s
  | some k =>
    let h := k.sheaf p.sheaf
    let a := launchAccess w h
    let n := sizeA w
    let va (l : Nat) : Nat := (h.src64 (w.sregN (aForm 0x185)) w.a l).toNat
    let fate (l : Nat) : Except (Cause × Nat × Nat) Unit :=
      if va l % 64 != 0 then .error (.misaligned, 0, va l)
      else if 2 ^ 55 < va l + 256 then .error (.bounds, 0, va l)
      else match s.locateRange k.core k.ctx (va l) 256 (va l) { rd := true } with
        | .error x => .error x
        | .ok _ => .ok ()
    let fates := (lanesOf p.lanes).map fun l => (l, fate l)
    let traps := fates.filterMap fun f => match f.2 with
      | .error (c, lv, va) => if c == .xlateMiss then none else some (f.1, c, va, lv)
      | .ok _ => none
    let misses : List (Nat × Nat × Nat × List Elem) := fates.filterMap fun f => match f.2 with
      | .error (.xlateMiss, lv, x) => some (f.1, x, lv, [{ (default : Elem) with va := va f.1, n := 256, width := 2048, fmt := 0x30 }])
      | _ => none
    let goes := fates.filterMap fun f => match f.2 with | .ok _ => some f.1 | .error _ => none
    let m := maskOf goes
    let group := s.next
    let s : State := { s with free := s.free + 1, next := group + 1 }
    let s := s.trapLanes p n .read traps
    let s := (s.parkMisses a (.launch w) k p 0 misses).modCore k.core fun c => { c with replay := c.replay.map fun e =>
      if group < e.req.id then { e with req := { e.req with born := group } } else e }
    let (issue, s) := s.beginIssue p.stook p.sheaf a.tok m
    let s := goes.foldl (fun s l =>
      let id := s.next
      let s := State.modSheaf { s with next := id + 1 } p.stook p.sheaf fun h => h.mark l w.d 1 id
      s.askLaunch k.core { id := id, group := group, ctx := k.ctx, stook := p.stook, sheaf := p.sheaf, lane := l, issue := issue,
                           dest := w.d, queue := h.src (w.sregN (aForm 0x185)) w.b l, va := va l }) s
    s.modSheaf p.stook p.sheaf fun h =>
      let h := h.nextLanes m n fun _ => none
      if goes.isEmpty && misses.isEmpty then h else h.count

/-- LAUNCH (R204) -/
def execLaunch (w : AWord) (s : State) : Host.Outcome State Fault Refusal := issueWord (.launch w) s (launchAct w)

/-- The controller's answer to a submission: the value for D (R204, R357). -/
def State.answerLaunch (s : State) (r : LaunchReq) : Word × State :=
  if !(s.ctx r.ctx).devlaunch then (0x80000003, s)
  else if 15 < r.queue.toNat then (0x80000004, s)
  else
    match s.nodeRead r.ctx r.va { rd := true } 256 with
    | .error _ => (0x80001002, s)
    | .ok bs =>
      let (status, detail, s) := s.submit r.ctx r.queue.toNat bs
      (if status == stRefused then status ||| (detail &&& 0xFF00#32) else status, s)

/-- A submission can be answered: its lane's earlier accesses are performed, and the submissions of lower lanes of its issue are
answered, those parked on their descriptors among them (R357), unless its launch ends meanwhile. -/
def State.launchGoes (s : State) (c : Core) (r : LaunchReq) : Bool :=
  s.released { stook := r.stook, sheaf := r.sheaf, lane := r.lane } 3 r.group
    && !(c.launches.any fun q => q.group == r.group && q.stook == r.stook && q.lane < r.lane)
    && ((s.stook? r.stook).any (fun k => k.stopping = 2 || (s.launchOf k).ending.isSome)
        || !(c.replay.any fun e => e.req.opcode = 0x185 && e.req.born == r.group && e.req.stook == r.stook && e.req.lane < r.lane))

/-- A submission is answered and its D written. -/
def State.giveLaunch (s : State) (core : Nat) (r : LaunchReq) (x : Word) : State :=
  (s.modCore core fun c => { c with launches := c.launches.filter fun q => q.id != r.id }).deliver r.stook r.sheaf r.lane r.id
    r.issue r.dest [x] 0

/-- The `k`-th submission of a core is answered. Twins submit once, together (R384). -/
def launchAnswer (core k : Nat) (s : State) : State :=
  match (s.core core).launches[k]? with
  | none => s
  | some r =>
    let ks := (s.stook? r.stook).getD default
    if !s.launchGoes (s.core core) r then s
    else
      match ks.twin.bind s.stook? with
      | none => let (x, s) := s.answerLaunch r; s.giveLaunch core r x
      | some kt =>
        if ks.secondary then s
        else
          match (s.core kt.core).launches.find? fun q => q.stook == kt.uid && q.sheaf == r.sheaf && q.lane == r.lane with
          | none => s
          | some q =>
            if q.va != r.va || q.queue != r.queue then
              s.containError { (default : FaultRec) with
                cause := .watermark, ctx := r.ctx, launch := ks.launch, stookId := ks.stookId, core := core,
                lanes := maskOf [r.lane], kind := .none }
            else
              let (x, s) := s.answerLaunch r
              (s.giveLaunch core r x).giveLaunch kt.core q x

/-- LAUNCH_ANSWER (R204) -/
def execLaunchAnswer (core k : Nat) (s : State) : Host.Outcome State Fault Refusal := event s (launchAnswer core k)

end Sys2Proof.Machine
end

