-- ==== Sys2Proof/Machine/Ending.lean ====
section
/-! DEFINITION. The end of a launch: completion (20 R355, R356; 13 R300), the watchdog and cancellation (05 R121; 22 R382), an
uncontained error and the replay (22 R381). -/

namespace Sys2Proof.Machine

open Sys2Proof

def Stook.of (k : Stook) (ctx : Nat) (id : Word) : Bool := k.ctx == ctx && k.launch == id
def Req.of (r : Req) (ctx : Nat) (id : Word) : Bool := r.ctx == ctx && r.launch == id
def NvWrite.of (v : NvWrite) (ctx : Nat) (id : Word) : Bool := v.ctx == ctx && v.launch == id

/-- The resident stooks of a launch. -/
def State.stooksOf (s : State) (ctx : Nat) (id : Word) : List Stook := s.stooks.filter fun k => k.of ctx id

/-- A lane that has come to a clause boundary or hold point, or is gone or stopped (R182, R356). -/
def Lane.atRest (x : Lane) : Bool :=
  x.exited || x.exitIssued || x.stop.isSome || (match x.hold with | some h => h.isPoint | none => !x.inside)

/-- A lane whose wait inside its clause nothing ends while its launch's other lanes rest: for a lock that one of them holds, for a table
entry that no fill brings any more, for a copy that cannot be accepted, or behind a copy into its buffer that stands at a fault. -/
def State.stuck (s : State) (k : Stook) (x : Lane) : Bool :=
  let c := s.core k.core
  match x.hold with
  | some (.txwait r _) => (s.locks.any fun q => r.words.contains (q.pa / 8, none) && !q.commit
      && (s.stook? q.holder.stook).any fun y => y.ctx == k.ctx && y.launch == k.launch)
      || r.elems.any fun e => e.side.any fun t => t.entry.isNone && !c.bsc.any fun b => b.id = t.fill
  | some (.copy id) => !(c.copies.any fun y => y.id == id && s.canAccept y)
  | some (.cbinit (.cbinit w) _ _) =>
    c.copies.any fun y => y.stook == k.uid && ctlDcb y.ctl && ctlCbuf y.ctl == w.opt (aForm 0x110) && y.state = 3
  | _ => false

/-- Every lane of a stook rests. -/
def State.rests (s : State) (k : Stook) : Bool := k.sheaves.all fun h => h.lanes.all fun x => x.atRest || s.stuck k x

/-- Whether the memory system still holds work of a launch. -/
def State.workOf (s : State) (ctx : Nat) (id : Word) : Bool :=
  s.cores.any fun c => (c.stores ++ c.left ++ c.reqs).any fun r => r.of ctx id

def Delta.of (d : Delta) (ctx : Nat) (id : Word) : Bool := d.ctx == ctx && d.launch == id

/-- The update-only deltas of a launch are combined (R145, R355). -/
def State.combineOf (s : State) (ctx : Nat) (id : Word) : State := s.combineIf fun d => d.of ctx id

/-- The stooks of a launch under NONE are gone. Of its accesses stay those that its store queues and homes have accepted and not
yet performed (R382), but for writes to NV words, which were still volatile and are lost (R297); and so its deltas. -/
def State.retireWork (s : State) (ctx : Nat) (id : Word) : State :=
  let ks := s.stooksOf ctx id
  let uids := ks.map Stook.uid
  let keep (r : Req) : Bool := !r.of ctx id || (!r.performed && r.op != .load && !r.spad && !r.nvWrite)
  let s := ks.foldl State.removeStook (s.loseVolatile fun v => v.of ctx id)
  let core (c : Core) : Core := { c with
    stores := c.stores.filter keep
    left := c.left.filter keep
    reqs := c.reqs.filter keep
    deltas := c.deltas.filter fun d => !(d.of ctx id && d.nv)
    park := c.park.filter fun x => !uids.contains x.stook
    replay := c.replay.filter fun x => !x.req.of ctx id
    launches := c.launches.filter fun x => !uids.contains x.stook }
  { s with
    cores := s.cores.map core
    dies := s.dies.map fun e => { e with deltas := e.deltas.filter fun d => !(d.of ctx id && d.nv) }
    locks := s.locks.filter fun k => !uids.contains k.holder.stook
    faults := s.faults.filter fun f => !(f.ctx == ctx && f.launch == id) }

/-- Writes to NV words of a launch that has been ended are still volatile (R297): on their way, in deltas, or visible. -/
def State.holdsVolatile (s : State) (ctx : Nat) (id : Word) : Bool :=
  (s.cores.any fun c => (c.stores ++ c.left ++ c.reqs).any fun r => r.of ctx id && !r.performed && r.nvWrite)
    || (s.deltas.any fun d => d.of ctx id && d.nv)
    || !((s.volatile.filter fun v => v.of ctx id).all fun v => (s.keptWrites fun x => x.of ctx id).contains v)

/-- What the device still holds for a launch is gone: stooks, requests, stores, deltas, park and replay entries, copies, locks,
outstanding faults, saved stooks (R372, R381). -/
def State.dropWork (s : State) (ctx : Nat) (id : Word) : State :=
  let ks := s.stooksOf ctx id
  let uids := ks.map Stook.uid
  let mine (r : Req) : Bool := r.of ctx id
  let saved := ((s.launch? ctx id).map Launch.saved).getD []
  let spilled := ((ks ++ saved.map Saved.stook).flatMap fun k => k.sheaves.map fun h => h.spilled.length).foldl (fun a b => a + b) 0
  let s := s.loseVolatile fun v => v.of ctx id
  let core (c : Core) : Core := Core.wake { c with
    stores := c.stores.filter fun r => !mine r
    left := c.left.filter fun r => !mine r
    reqs := c.reqs.filter fun r => !mine r
    deltas := c.deltas.filter fun d => !d.of ctx id
    park := c.park.filter fun x => !uids.contains x.stook
    replay := c.replay.filter fun x => !mine x.req
    copies := c.copies.filter fun x => !(x.ctx == ctx && x.launch == id)
    launches := c.launches.filter fun x => !uids.contains x.stook
    bsc := c.bsc.filter fun e => !ks.any fun k => k.core == c.num && k.place == e.place }
  State.unspill { s with
    stooks := s.stooks.filter fun k => !k.of ctx id
    cores := s.cores.map core
    dies := s.dies.map fun e => { e with deltas := e.deltas.filter fun d => !d.of ctx id }
    locks := s.locks.filter fun k => !uids.contains k.holder.stook
    faults := s.faults.filter fun f => !(f.ctx == ctx && f.launch == id) } ctx spilled

/-- Every snapshot of a launch, or of its launch-atomic regions alone, is put back, and all are released. -/
def State.undoSnaps (s : State) (ctx : Nat) (id : Word) (all : Bool) : State :=
  let mine (x : Snapshot) : Bool := x.ctx == ctx && x.launch == id
  let s := (s.snapshots.filter fun x => mine x && !x.claim && (all || x.la)).foldl State.restoreSnap s
  { s with snapshots := s.snapshots.filter fun x => !mine x }

/-- A mismatch whose replay succeeded is counted against each cluster involved; after a lasting one the clusters whose
self-test fails are quarantined, which ones being free (R387). -/
def State.judgeClusters (s : State) (clusters : List Nat) (ok : Bool) : State :=
  clusters.foldl (fun s c =>
    if ok || !Config.freeHit s.free c then s.bump 14
    else { s with svc := { s.svc with quarantined := if s.svc.quarantined.contains c then s.svc.quarantined else s.svc.quarantined ++ [c] } })
    { s with free := s.free + 1 }

/-- The room of a launch's images is free (R378). -/
def State.freeImages (s : State) (l : Launch) : State :=
  let others := s.launches.any fun x => x.ctx == l.ctx && x.id != l.id && x.images != 0
  s.modCtx l.ctx fun c => { c with spillUsed := c.spillUsed - l.images, imageTop := if others then c.imageTop else 0 }

/-- The replicas that a launch has made are gone (R355, R381). -/
def State.dropReplicas (s : State) (ctx : Nat) (id : Word) : State :=
  { s with dies := s.dies.map fun d => { d with replicas := d.replicas.filter fun r => !(r.2.1 == ctx && r.2.2 == id) } }

/-- A launch has ended in a state: its replicas go (R355), the context's TLB entries go (R365), its images' room is free
(R378), DONE is sent if it asks (R352). -/
def State.closeLaunch (s : State) (l : Launch) (code : Nat) : State :=
  let s := ((s.dropTlb l.ctx).freeImages l).dropReplicas l.ctx l.id
  let s : State := { s with
    snapshots := s.snapshots.filter fun x => !(x.ctx == l.ctx && x.launch == l.id)
    faults := s.faults.filter fun f => !(f.ctx == l.ctx && f.launch == l.id) }
  let s := if l.avoid.isEmpty then s else s.judgeClusters l.avoid (code = 4)
  let s := s.modLaunch l.ctx l.id fun l =>
    { l with state := code, ending := none, code := [], saved := [], held := false, images := 0, errorRec := none }
  if l.desc.notify then s.post (.done l.ctx l.id code) else s

/-- A marked end takes place: under NONE the deltas are combined; otherwise all is
discarded and the snapshots put back (R382). Launch-atomic regions go back in any case (R300). A replay then places the
launch again from its descriptor (R381). -/
def State.finishEnding (s : State) (l : Launch) (code : Nat) : State :=
  let plain := l.plain
  let s := if plain then s.combineOf l.ctx l.id else s
  let s := ((s.dropWork l.ctx l.id).undoSnaps l.ctx l.id (!plain)).dropReplicas l.ctx l.id
  let s := match l.errorRec with
    | some f => if code = 7 || code = replayCode then s.report f else s
    | none => s
  if code = replayCode then
    let s := s.freeImages l
    s.modLaunch l.ctx l.id fun l =>
      { l with state := 2, code := [], nextStook := 0, detNext := [], saved := [], held := false, gone := 0, digests := [],
               verdicts := [], checked := [], images := 0, noSnap := false, errorRec := none, ending := none }
  else s.closeLaunch l code

/-- The marked end of a launch once every resident stook has stopped; under NONE once what its stooks leave behind is performed. -/
def State.settleEnding (s : State) (l : Launch) : State :=
  let ks := s.stooksOf l.ctx l.id
  match l.ending with
  | none => s
  | some code =>
    if 4 ≤ l.state || !ks.all s.rests then s
    else if !l.plain then s.finishEnding l code
    else if !ks.isEmpty || s.holdsVolatile l.ctx l.id then s.retireWork l.ctx l.id
    else if s.workOf l.ctx l.id then s
    else s.finishEnding l code

/-! ### Completion (R300, R355, R385) -/

/-- Every stook of a launch is gone, nothing of it is left in the memory system, and every sampled stook has its verdict. -/
def State.allDone (s : State) (l : Launch) : Bool :=
  l.state = 3 && l.ending.isNone && l.gone = l.desc.stooks && l.saved.isEmpty && (s.stooksOf l.ctx l.id).isEmpty
    && !s.workOf l.ctx l.id
    && (!l.desc.pure || l.digests.all fun d => !l.desc.sampled d.1.toNat || l.checked.contains d.1)

/-- A launch that is not launch-atomic completes. -/
def State.settleDone (s : State) (l : Launch) : State :=
  if l.desc.la || !s.allDone l then s else (s.combineOf l.ctx l.id).closeLaunch l 4

/-- LA_COMPLETION_RECORD (R300, R301): the record is written to its stack once the launch's writes are durable and every smaller SEQ
of the context is settled; then, in a step of its own, the snapshots are released and the launch has ended. -/
def laCompletion (ctx : Nat) (launch : Word) (s : State) : State :=
  match s.launch? ctx launch with
  | none => s
  | some l =>
    let seq := l.seqLa.getD 0
    let before := s.launches.any fun x => x.ctx == ctx && x.state ≤ 3 && !x.recorded && x.id != launch && x.seqLa.any fun q => q < seq
    if 4 ≤ l.state then s
    else if l.recorded then s.closeLaunch l 4
    else if !l.desc.la || !s.allDone l || before then s
    else
      let s := s.combineOf ctx launch
      if (s.volatile.any fun v => v.of ctx launch) || !s.stagingRoom (ctx % 4) recordBytes then s
      else
        let old := (assoc? s.completions ctx).getD { seq := 0, launch := 0, valid := false }
        let new : Completion := { seq := seq, launch := launch, valid := true }
        State.modLaunch { s with
          next := s.next + 1
          completions := assocSet s.completions ctx new
          staging := s.staging ++ [{ pa := 0, media := [], unit := s.next, record := some (ctx, old) }] } ctx launch fun l =>
            { l with recorded := true }

/-- LA_COMPLETION_RECORD (R300) -/
def execLaCompletionRecord (ctx : Nat) (launch : Word) (s : State) : Host.Outcome State Fault Refusal :=
  event s (laCompletion ctx launch)

/-! ### Answers that waited -/

/-- The answer of a CANCEL once its launch has ended (R356), of a PREEMPT once its last image is written (R374). -/
def State.settlePending (s : State) : State :=
  let launch (p : Pending) : Option Launch := p.launches.head?.bind fun id => s.launch? p.hdr.context id
  let stopping (p : Pending) : Bool := s.stooks.any fun k => k.ctx == p.hdr.context && p.launches.contains k.launch && k.stopping = 1
  let done (p : Pending) : Bool := if p.cancel then (launch p).all fun l => 4 ≤ l.state else !stopping p
  let answer (s : State) (p : Pending) : State :=
    if p.cancel then s.reply p.hdr 0 (BitVec.ofNat 32 (((launch p).map Launch.state).getD 6))
    else s.reply p.hdr 0 (BitVec.ofNat 32 p.count)
  (s.pending.filter done).foldl answer { s with pending := s.pending.filter fun p => !done p }

/-! ### The watchdog (R121) -/

/-- The limit of a launch counts: it has one, and a resident stook, and no debugger holds it in stop-all. DESIGN CHOICE: stop-all
is chosen for a stook (R123), while R121 speaks of the launch; the limit stops counting while any one resident stook of the
launch is in it (log entry 49). -/
def State.watching (s : State) (l : Launch) : Bool :=
  let ks := s.stooksOf l.ctx l.id
  l.desc.watchdog != 0 && l.ending.isNone && l.running && !ks.isEmpty && !ks.any Stook.stopAll

/-- Cycles of the launch controller go by. -/
def State.watch (s : State) (n : Nat) : State :=
  { s with launches := s.launches.map (fun l => if s.watching l then { l with watched := l.watched + n } else l)
           svc := { s.svc with cycles := s.svc.cycles + BitVec.ofNat 64 n } }

/-- WATCHDOG_EXPIRY: the launch whose limit has been counted ends in state 5. -/
def watchdogExpiry (ctx : Nat) (launch : Word) (s : State) : State :=
  match s.launch? ctx launch with
  | none => s
  | some l =>
    if s.watching l && 1024 * l.desc.watchdog ≤ l.watched then s.failLaunch ctx launch .watchdog 5 else s

/-- WATCHDOG_EXPIRY (R121) -/
def execWatchdogExpiry (ctx : Nat) (launch : Word) (s : State) : Host.Outcome State Fault Refusal :=
  event s (watchdogExpiry ctx launch)

end Sys2Proof.Machine
end

