-- ==== Sys2Proof/Machine/Service.lean ====
section
/-! DEFINITION. The service of replayable faults and the acknowledgements of the control node (21 R361, R365, R367 to R372). -/

namespace Sys2Proof.Machine

open Sys2Proof

/-! ### Walks -/

/-- PAGE_WALK (R361, R364): a leaf enters the core's TLB; a walk that ends in a cause changes nothing by itself. -/
def execPageWalk (core ctx : Nat) (va : DWord) (s : State) : Host.Outcome State Fault Refusal :=
  event s fun s => if core < Config.numCores && (s.ctx ctx).valid && va.toNat < 2 ^ 55 then s.touchTlb core ctx va.toNat else s

/-- TLB entries of a page leave every core (R365). -/
def State.dropPage (s : State) (ctx va : Nat) : State :=
  s.dropEntries fun t => t.ctx == ctx && t.vpn == va >>> leafBits t.level

/-- The permissions an access kind needs (R363). -/
def AccessKind.need : AccessKind → Need
  | .fetch => { ex := true }
  | .read => { rd := true }
  | .write => { wr := true }
  | .rmw => { rd := true, wr := true }
  | .copySrc => { rd := true }
  | .copyDst => { wr := true }
  | .copyIdx => { rd := true }
  | .none => {}

/-! ### Fetches -/

/-- A lane waits at a header for a granule of its launch's code (R363). -/
def Launch.waitsFetch (L : Launch) (g : Nat) (x : Lane) : Bool :=
  x.running && !x.inside && (match L.codeStop x.pc.toNat with
    | some (.xlateMiss, _, va) => va / 65536 = g
    | _ => false)

/-- Paths waiting at a header for a granule of code stop there with NO_MAPPING (R371). -/
def State.stopFetches (s : State) (f : FaultRec) : State :=
  let g := f.va / 65536
  (s.stooks.filter fun k => k.ctx == f.ctx).foldl (fun s k =>
    let L := s.launchOf k
    (List.range k.sheaves.length).foldl (fun s i =>
      let h := k.sheaf i
      let m := h.lanesWhere (L.waitsFetch g)
      (((lanesOf m).map fun l => (h.lane l).pc).eraseDups).foldl (fun s pc =>
        s.takeTrap { stook := k.uid, sheaf := i, lanes := maskFilter m fun l => (h.lane l).pc == pc } 0 .noMapping
          { va := f.va, kind := .fetch, detail := f.detail }) s) s) s

/-! ### Re-issue of replay entries (R370) -/

/-- The words between a parked lane's word and the word it goes on at. -/
def Lane.parkSize (x : Lane) : Nat := ((x.stop.map Stop.resume).getD x.pc - x.pc).toNat

/-- A parked lane goes on after its word, its access re-issued: the instruction is not executed again. -/
def State.goOnParked (s : State) (r : LaneRef) : State :=
  s.modLane r fun x => { x.resume with credit := false }

/-- A parked access fails: its marks go, and its lane traps at its word (R371). -/
def State.trapParked (s : State) (r : LaneRef) (id : Nat) (c : Cause) (t : TrapInfo) : State :=
  let m : LaneMask := maskOf [r.lane]
  let n := (s.laneAt r).parkSize
  ((s.modSheaf r.stook r.sheaf fun h => h.unpend m [id]).modLane r fun x => { x with stop := none }).takeTrap
    { stook := r.stook, sheaf := r.sheaf, lanes := m } n c t

/-- An entry whose access misses again waits on the fault of that granule (R370). -/
def State.parkAgain (s : State) (core : Nat) (k : Stook) (e : Replay) (va level : Nat) : State :=
  let r : LaneRef := { stook := e.req.stook, sheaf := e.req.sheaf, lane := e.req.lane }
  let (f, s) := s.joinFault (s.missRec k { stook := r.stook, sheaf := r.sheaf, lanes := maskOf [r.lane] } va level e.kind false)
  (s.modCore core fun c => { c with replay := c.replay ++ [{ e with fault := f }] }).modLane r fun x =>
    { x with stop := x.stop.map fun t => { t with fault := f } }

/-- The elements of an entry, translated anew; their side entries lie where they did at issue (R80). -/
def State.relocate (s : State) (k : Stook) (need : Need) : List Elem → Except (Cause × Nat × Nat) (List (Elem × List ByteLoc))
  | [] => .ok []
  | e :: es =>
    let here : Except (Cause × Nat × Nat) (Elem × List ByteLoc) :=
      if e.skip then .ok (e, [])
      else match s.locateRange k.core k.ctx e.va e.n e.va need with
        | .error x => .error x
        | .ok ls =>
          let e := { e with locs := ls, known := List.replicate e.n none }
          match e.side with
          | none => .ok (e, [])
          | some t => match s.sideRefAt k t.slot t.block t.vas with
            | .ok (t', bs) => .ok ({ e with side := some t' }, bs)
            | .error (.miss va l _) => .error (.xlateMiss, l, va)
            | .error (.trap c va l) => .error (c, l, va)
            | .error .unsupported => .ok (e, [])
    match here with
    | .error x => .error x
    | .ok e => match s.relocate k need es with
      | .error x => .error x
      | .ok es => .ok (e :: es)

/-- One entry of the replay buffer is re-issued; it reads no register. -/
def State.reissue (s : State) (core : Nat) (e : Replay) : State :=
  let s : State := { s with free := s.free + 1 }
  let q := e.req
  let r : LaneRef := { stook := q.stook, sheaf := q.sheaf, lane := q.lane }
  match s.stook? q.stook with
  | none => s
  | some k =>
    if q.elems.any fun x => !x.skip && q.opcode != 0x14c && q.opcode != 0x185 && s.rangeLocked k q.spad x.va x.n then
      s.trapParked r q.id .rangeLock { va := (q.elems.head?.map Elem.va).getD 0, kind := e.kind }
    else match s.relocate k e.kind.need q.elems with
    | .error (.xlateMiss, lv, va) => s.parkAgain core k e va lv
    | .error (c, lv, va) => s.trapParked r q.id c { detail := BitVec.ofNat 32 lv, va := va, kind := e.kind }
    | .ok es =>
      let locs := es.flatMap fun x => x.1.locs
      let va := (q.elems.head?.map Elem.va).getD 0
      let n := (s.laneAt r).parkSize
      if e.kind.need.wr && locs.any fun b => s.laBusy k.ctx k.launch b then
        s.trapParked r q.id .laBusy { va := va, kind := e.kind }
      else if q.opcode = 0x14c then
        (s.goOnParked r).modLane r fun x => match es.head? with | some g => x.arm g.1 | none => { x with monitor := none }
      else if q.opcode = 0x185 then
        (s.goOnParked r).askLaunch core
          { id := q.id, group := q.born, ctx := q.ctx, stook := q.stook, sheaf := q.sheaf, lane := q.lane, issue := q.issue,
            dest := q.dest, queue := BitVec.ofNat 32 (q.data.headD 0), va := va }
      else
        let id := s.next
        let s : State := { s with next := id + 1 }
        let s := if q.tx then s else s.passFence core r
        let (els, s) := s.askSides k es
        let s := es.foldl (fun s x => s.touchTlb core k.ctx x.1.va) s
        let renew (p : Nat × Nat) : Nat × Nat := if p.2 = q.id then (p.1, id) else p
        let s := s.modLane r fun x => { x with pending := x.pending.map renew }
        let q' := { q with id := id, born := id, elems := els }
        if q.tx then (s.modLane r fun x => { x with stop := none }).txGo r q' n
        else
          let nv := e.kind.need.wr && locs.any fun b => b.peer.isNone && inNv b.pa
          let s := if e.kind.need.wr then s.claimSnaps k.ctx k.launch locs else s
          ((s.goOnParked r).modLane r fun x => { x with nvSince := x.nvSince || nv, fence := none }).enqueue core q'

/-- Entries in the order of their re-issue: by sheaf slot, then lane. -/
def State.replayOrder (s : State) (es : List Replay) : List Replay :=
  let key (e : Replay) : Nat := 32 * (s.sheafAt e.req.stook e.req.sheaf).slot + e.req.lane
  es.foldl (fun l e => (l.takeWhile fun x => key x ≤ key e) ++ e :: l.dropWhile fun x => key x ≤ key e) []

/-- Whether a saved stook still holds something that waits on a fault (R372). -/
def State.savedWaits (s : State) (id : Word) : Bool :=
  let granule := ((s.fault? id).filter fun f => f.kind == .fetch).map fun f => (f.ctx, f.va / 65536)
  s.launches.any fun l => l.saved.any fun v =>
    (granule.any fun g => g.1 == l.ctx && v.stook.sheaves.any fun h => h.lanes.any (l.waitsFetch g.2)) ||
    v.replays.any (fun e => e.fault == id) || v.copies.any (fun c => c.fault == id)
      || v.stook.sheaves.any fun h => h.lanes.any fun x => x.stop.any fun t => t.fault == id

/-- A fault is outstanding no more; while a saved stook waits on it, its outcome is kept for the restore (R372). -/
def State.settleFault (s : State) (f : FaultRec) (c : Cause) : State :=
  if s.savedWaits f.id then
    { s with faults := s.faults.map fun g => if g.id == f.id then { g with resolved := true, cause := c } else g }
  else s.dropFault f.id

/-- Lanes parked at a tile for a fault stand at it again. -/
def State.unparkTiles (s : State) (id : Word) : State :=
  { s with stooks := s.stooks.map fun k => { k with sheaves := k.sheaves.map fun h => { h with lanes := h.lanes.map fun x =>
      match x.hold, x.stop with
      | some (.tile _), some t => if t.fault == id then { x with stop := none } else x
      | _, _ => x } } }

/-- An entry leaves the replay buffer and is re-issued, unless the re-issue of one before it has aborted its lane, and with it the
access (R280, R283). -/
def State.reissueHeld (s : State) (core : Nat) (e : Replay) : State :=
  if (s.core core).replay.contains e then
    (s.modCore core fun x => { x with replay := x.replay.filter fun y => y != e }).reissue core e
  else s

/-- RETRY (R365, R370, R371): by the control node, or by firmware for a miss whose entry is now valid. -/
def State.retryFault (s : State) (f : FaultRec) : State :=
  let s := (s.dropPage f.ctx f.va).settleFault f .xlateMiss
  let s := (s.refetch f.ctx f.va).unparkTiles f.id
  s.cores.foldl (fun s c =>
    let mine := s.replayOrder ((s.core c.num).replay.filter fun e => e.fault == f.id)
    let s := s.modCore c.num fun x => { x with
      copies := x.copies.map fun y => if y.state = 3 && y.fault == f.id then { y with state := 2, fault := 0 } else y }
    mine.foldl (fun s e => s.reissueHeld c.num e) s) s

/-- Lanes parked at a tile for a fault that ends without a mapping trap there (R371, R372). -/
def State.nomapTiles (s : State) (f : FaultRec) : State :=
  s.stooks.foldl (fun s k => (List.range k.sheaves.length).foldl (fun s i =>
    let m := (k.sheaf i).lanesWhere fun x => x.stop.any (fun t => t.fault == f.id) && (match x.hold with | some (.tile _) => true | _ => false)
    if m = 0 then s
    else
      (s.modSheaf k.uid i fun h => h.modLanes m fun _ x => { x with stop := none }).takeTrap
        { stook := k.uid, sheaf := i, lanes := m } 2 .noMapping { detail := f.detail, va := f.va, kind := .read }) s) s

/-- NOMAP (R371). -/
def State.nomapFault (s : State) (f : FaultRec) : State :=
  let s := (s.settleFault f .noMapping).stopFetches f
  let info (k : AccessKind) (va : Nat) : TrapInfo := { detail := f.detail, va := va, kind := k }
  let s := s.cores.foldl (fun s c =>
    let mine := s.replayOrder ((s.core c.num).replay.filter fun e => e.fault == f.id)
    let copies := (s.core c.num).copies.filter fun y => y.state = 3 && y.fault == f.id
    let s := s.modCore c.num fun x => { x with replay := x.replay.filter fun e => e.fault != f.id }
    let s := mine.foldl (fun s e =>
      s.trapParked { stook := e.req.stook, sheaf := e.req.sheaf, lane := e.req.lane } e.req.id .noMapping
        (info e.kind ((e.req.elems.head?.map Elem.va).getD 0))) s
    copies.foldl (fun s y => s.endCopy c.num y (some .noMapping)) s) s
  s.nomapTiles f

/-! ### Service by firmware (R369) -/

/-- FAULT_SERVICE: firmware walks again; a valid entry that permits the access is retried without a report. -/
def faultService (id : Word) (s : State) : State :=
  match s.fault? id with
  | none => s
  | some f =>
    if f.reported || f.resolved then s
    else
      let fine := match s.walk f.ctx f.va with
        | .fail _ _ => false
        | .leaf _ e => (s.permit f.ctx f.kind.need e).isNone
      if fine then s.retryFault f
      else
        State.post { s with faults := s.faults.map fun g => if g.id == id then { g with reported := true } else g }
          (.faultReport f.pack)

/-- FAULT_SERVICE (R369) -/
def execFaultService (fault : Word) (s : State) : Host.Outcome State Fault Refusal := event s (faultService fault)

/-! ### FAULT_ACK (R371) -/

/-- A fault record's class: COPY_FAULT is replayable while its copy can resume (R366). -/
def FaultRec.cls (f : FaultRec) : Nat := f.cause.cls (!(f.cause == .copyFault) || f.kind == .none)

/-- A FAULT_ACK: one of a fault that is outstanding no more is answered with DETAIL 1, one with an action not permitted for
its fault is refused. -/
def ackWord (h : MsgHdr) (i : Instr) (id : Word) (s : State) (permitted : FaultRec → Bool) (act : FaultRec → State → State) :
    Host.Outcome State Fault Refusal :=
  message s h i 0 8 fun s =>
    match s.fault? id with
    | none => s.reply h 0 1
    | some f =>
      if f.ctx != h.context || !f.reported || f.resolved then s.reply h 0 1
      else if !permitted f then s.reply h stForbidden 0
      else (act f s).reply h 0 0

/-- FAULT_ACK RETRY -/
def execFaultAckRetry (h : MsgHdr) (fault : Word) (s : State) : Host.Outcome State Fault Refusal :=
  ackWord h (.faultAckRetry h fault) fault s (fun f => f.cls = 0) fun f s => s.retryFault f

/-- FAULT_ACK NOMAP -/
def execFaultAckNomap (h : MsgHdr) (fault : Word) (s : State) : Host.Outcome State Fault Refusal :=
  ackWord h (.faultAckNomap h fault) fault s (fun f => f.cls = 0) fun f s => s.nomapFault f

/-- The lanes of a stopped event go on after their word; one stopped at its EXIT completes it (R311, R371). -/
def State.resumeEvent (s : State) (f : FaultRec) : State :=
  (s.modSheaf f.uid f.sheaf fun h => h.modLanes f.lanes fun _ x =>
    if x.exitIssued && x.stop.any (fun t => t.fault == f.id) then { x with stop := none } else x).resumeFault f

/-- FAULT_ACK RESUME -/
def execFaultAckResume (h : MsgHdr) (fault : Word) (s : State) : Host.Outcome State Fault Refusal :=
  ackWord h (.faultAckResume h fault) fault s (fun f => (f.cls = 1 || f.cls = 2) && !f.header && f.lanes != 0) fun f s => s.resumeEvent f

/-- FAULT_ACK END_LAUNCH -/
def execFaultAckEndLaunch (h : MsgHdr) (fault : Word) (s : State) : Host.Outcome State Fault Refusal :=
  ackWord h (.faultAckEndLaunch h fault) fault s (fun _ => true) fun f s => s.endLaunch f.ctx f.launch 6

/-- FAULT_ACK END_CONTEXT -/
def execFaultAckEndContext (h : MsgHdr) (fault : Word) (s : State) : Host.Outcome State Fault Refusal :=
  ackWord h (.faultAckEndContext h fault) fault s (fun _ => true) fun f s => s.endContext f.ctx 6

end Sys2Proof.Machine
end

