-- ==== Sys2Proof/Machine/Image.lean ====
section
/-! DEFINITION. The save image of a stook (21 R376, R377), with the entries of 07 R172, 12 R272 and R273, 14 R310 and 21 R370. -/

namespace Sys2Proof.Machine

open Sys2Proof

/-- Fields, low to high, each a width and a value, as one number. -/
def packFields : List (Nat × Nat) → Nat
  | [] => 0
  | (w, x) :: t => x % 2 ^ w + 2 ^ w * packFields t

/-- Values of one width, the first lowest. -/
def packAll (w : Nat) (xs : List Nat) : Nat := packFields (xs.map fun x => (w, x))

def padTo (n : Nat) (bs : List Byte) : List Byte := bs ++ List.replicate (n - bs.length) 0

/-- A list of sections, each filled up to a multiple of 64 B. -/
def pad64 (bs : List Byte) : List Byte := padTo ((bs.length + 63) / 64 * 64) bs

/-! ### Sheaf records (R377) -/

/-- The token that the issue of a held lane names, or of its pending PBAR.SYNC: 7 for none (R375). -/
def Sheaf.withdrawnTok (h : Sheaf) (x : Lane) : Nat :=
  let id := if x.hold.isNone then ((x.persist.head?.map Prod.fst).getD 0) else x.issue
  ((h.issues.find? fun i => i.id == id).map Issue.tok).getD 7

/-- A lane that waits for its PBAR.SYNC stands at a hold point (R320, R375): at the PBAR's word, unless it has gone past it. -/
def Lane.savedPc (x : Lane) : Word :=
  match x.persist.getLast? with
  | some (_, pc) => if x.hold.isNone && x.pc == pc + 2 then pc else x.pc
  | none => x.pc

def Sheaf.laneState (h : Sheaf) (x : Lane) : Nat :=
  packFields [(1, if x.exited then 1 else 0), (1, if x.stop.isSome && x.inside then 1 else 0),
    (7, (x.stop.map fun t => t.cause.code).getD 0), (1, if x.hold.isSome || !x.persist.isEmpty then 1 else 0), (3, h.withdrawnTok x)]

def LogEntry.pack (e : LogEntry) : Nat :=
  packFields [(3, 0), (52, e.va / 8), (1, if e.lock then 1 else 0), (8, e.bytes.toNat), (64, e.value.toNat)]

def TxState.pack (t : TxState) : Nat :=
  packFields [(1, 0), (3, t.nvstack), (7, t.reads.length), (6, t.writes.length), (15, t.count), (32, t.target.toNat), (64, t.ticket)]

/-- A sheaf's 2,048 bytes. -/
def Sheaf.record (h : Sheaf) : List Byte :=
  let age (x : Lane) : Nat := h.lanes.foldl (fun m y => if y.pc == x.pc && y.tag == x.tag && y.inside == x.inside && !y.exited then max m y.age else m) x.age
  let each (n : Nat) (f : Lane → Nat) : List Byte := h.lanes.flatMap fun x => leBytes n (f x)
  let owned := h.bound ++ h.spilled
  let map := (List.range 112).foldl (fun m n => if owned.contains n then m + 2 ^ n else m) 0
  padTo 0x1c4 (each 4 (fun x => x.savedPc.toNat) ++ ((List.range 64).flatMap fun n => leBytes 4 (h.rs n).toNat)
      ++ ((List.range 12).flatMap fun n => leBytes 4 (h.rm n).toNat) ++ leBytes 4 h.frm.toNat ++ leBytes 4 h.fx.toNat
      ++ leBytes 8 h.retired.toNat ++ leBytes 1 h.role ++ leBytes 1 (h.slot / 8) ++ leBytes 2 h.age)
    ++ List.replicate 12 0 ++ leBytes 16 map ++ List.replicate 32 0 ++ each 2 age ++ each 4 h.laneState
    ++ each 8 (fun x => packFields [(8, x.txcode.toNat), (24, if x.txrec then 1 else 0), (4, x.tx.depth), (28, if x.tx.locked then 1 else 0)])
    ++ List.replicate 64 0 ++ each 16 (fun x => x.tx.pack) ++ List.replicate 512 0

/-- A sheaf's registers, those it owns in ascending order. -/
def Sheaf.registers (h : Sheaf) : List Byte :=
  ((List.range 112).filter fun n => (h.bound ++ h.spilled).contains n).flatMap fun n =>
    (List.range 32).flatMap fun l => leBytes 4 (h.rv n l).toNat

/-! ### Scratchpad with the transaction logs (R271) -/

/-- The log area's bytes by offset. -/
def Stook.logBytes (k : Stook) (d : Desc) : List (Nat × Byte) :=
  let per := 16 * (d.txReads + d.txWrites)
  (List.range k.sheaves.length).flatMap fun i => (List.range 32).flatMap fun l =>
    let t := ((k.sheaf i).lane l).tx
    let base := d.txlogOff * 128 + (i * 32 + l) * per
    let put (at' : Nat) (es : List LogEntry) : List (Nat × Byte) :=
      (es.flatMap fun e => leBytes 16 e.pack).mapIdx fun j b => (at' + j, b)
    put base t.reads ++ put (base + 16 * d.txReads) t.writes

def Stook.scratchBytesAll (k : Stook) (d : Desc) : List Byte :=
  let b : Bank 8 := (k.logBytes d).foldl (fun b x => Bank.set b x.1 x.2) k.scratch
  (List.range k.scratchBytes).map fun a => Bank.get b a

/-! ### Engine state -/

/-- The operand bits of a request (R172). DESIGN CHOICE: R172 lists the parts but not their places; the first listed stands at
bit 128, the rest follow upward, and bits not used are 0 (log entry 51). -/
def Park.operandBits (p : Park) : Nat :=
  let c := p.operands.getLastD 0
  let ab := p.operands.dropLast
  if p.op = 0x080 then packFields ((ab.map fun x => ((tileShape p.fmt).1, x)) ++ [(32, c)])
  else if p.op = 0x081 then
    packFields ((ab.map fun x => (6, x)) ++ (p.scales.map fun x => (8, wrapInt 8 x)) ++ [(32, c)])
  else packAll (floatOf p.fmt).bits p.operands

/-- A request's entries, 128 B each, in STATE 1 and with the SHEAFID for the slot. -/
def Park.pack (p : Park) : List Byte :=
  (List.range p.nparts).flatMap fun j =>
    leBytes 128 (packFields
      [(8, 1), (33, 0), (5, p.sel), (9, p.op), (3, p.rm), (6, p.fmt), (2, j), (6, p.elem), (3, p.nparts), (7, p.dest.toNat),
       (6, p.sheaf), (8, 0), (32, p.lanes.toNat), (896, p.operandBits >>> (896 * j))])

/-- A replay entry, 160 B (R370). -/
def Replay.pack (e : Replay) : List Byte :=
  let r := e.req
  let w := (r.elems.head?.map Elem.width).getD 32
  leBytes 160 (packFields
    [(171, 0), (3, r.rm), (6, (r.elems.head?.map Elem.fmt).getD 0), (1, if r.tx then 1 else 0), (3, r.elems.length - 1), (5, r.lane),
     (6, r.sheaf), (7, if r.silent then cZERO.toNat else r.dest.toNat), (5, r.sv), (1, if r.repl then 1 else 0), (2, r.reuse), (2, r.order), (3, r.scope),
     (9, r.opcode), (32, e.fault.toNat), (512, packAll 64 (r.elems.map Elem.va)), (512, packAll w r.data)])

/-- A copy, 256 B (R310). -/
def Copy.pack (c : Copy) (slot : Nat) : List Byte :=
  padTo 256 (leBytes 32 (packFields
      [(1, 0), (3, c.state), (2, c.kind), (7, (c.fcause.map Cause.code).getD 0), (1, if c.repl then 1 else 0), (2, c.reuse),
       (1, if c.rel then 1 else 0), (3, c.scope), (6, c.srcSlot), (6, slot), (32, c.lanes.toNat), (32, c.ctl.toNat),
       (32, c.shape.toNat), (32, wrapInt 32 c.sorg), (32, c.dorg), (32, c.iorg), (32, c.cursor)])
    ++ leBytes 32 c.srcRec.toNat ++ leBytes 32 c.dstRec.toNat ++ leBytes 32 c.idxRec.toNat)

def CBuf.pack (b : CBuf) : List Byte :=
  leBytes 2 b.slots ++ leBytes 2 (b.slotBytes / 128 - 1) ++ leBytes 4 (b.offset / 128) ++ leBytes 2 b.free ++ leBytes 2 b.filled
    ++ leBytes 2 b.claim ++ leBytes 2 b.acq ++ leBytes 2 b.rel ++ leBytes 2 b.held ++ leBytes 1 1 ++ List.replicate 11 0
    ++ leBytes 32 (b.done.foldl (fun m i => m ||| 2 ^ i) 0)

def phaseByte : Option (Option Nat) → Nat
  | none => 0
  | some none => 0xC0
  | some (some n) => 0x80 + n

def Barrier.pack (b : Barrier) : List Byte :=
  leBytes 1 (phaseByte b.phase) ++ leBytes 1 (phaseByte b.nextPhase) ++ leBytes 2 0 ++ leBytes 4 b.arrived.toNat
    ++ leBytes 4 b.next.toNat ++ leBytes 4 0
    ++ leBytes 8 (packAll 2 ((List.range 32).map fun i => (Bank.get b.record i).toNat)) ++ leBytes 8 0

/-- The monitors armed by lanes of a stook. -/
def Stook.monitors (k : Stook) : List (Nat × Nat × Nat) :=
  (List.range k.sheaves.length).flatMap fun i => (List.range 32).filterMap fun l =>
    ((k.sheaf i).lane l).monitor.map fun m => (i, l, m.1)

/-! ### The image (R376) -/

/-- A stook's image: the header, then the sections, each from a multiple of 64 B. -/
def saveImage (d : Desc) (k : Stook) (parks : List Park) (replays : List Replay) (copies : List Copy) (rotation : Nat) : List Byte :=
  let cps := copies.filter fun c => c.state != 0
  let mons := k.monitors
  let sections : List (List Byte) :=
    [k.sheaves.flatMap Sheaf.record, k.sheaves.flatMap Sheaf.registers, k.scratchBytesAll d, parks.flatMap Park.pack,
     replays.flatMap Replay.pack, cps.flatMap fun c => c.pack (k.sheaf c.sheaf).slot,
     (List.range 16).flatMap fun n => ((k.cbuf? n).map CBuf.pack).getD (List.replicate 64 0),
     (List.range 63).flatMap fun n => leBytes 32 ((assoc? k.records (n + 1)).getD 0).toNat,
     (List.range 32).flatMap fun n => (k.barrier n).pack,
     mons.flatMap fun m => leBytes 8 (packFields [(6, 0), (49, m.2.2), (5, m.2.1)]) ++ leBytes 8 m.1]
  let body := sections.map pad64
  let offs := (List.range 10).map fun j => 256 + ((body.take j).map List.length).foldl (fun a b => a + b) 0
  let total := 256 + (body.map List.length).foldl (fun a b => a + b) 0
  let recmap := (List.range 63).foldl (fun m n => if (assoc? k.records (n + 1)).isSome then m + 2 ^ (n + 1) else m) 0
  padTo 256 (leBytes 4 0x4D495653 ++ leBytes 2 1 ++ leBytes 2 k.sheaves.length ++ leBytes 4 k.launch.toNat ++ leBytes 4 k.stookId.toNat
      ++ leBytes 4 k.core ++ leBytes 4 rotation ++ leBytes 4 total ++ leBytes 4 k.scratchBytes
      ++ leBytes 2 ((parks.map Park.nparts).foldl (fun a b => a + b) 0) ++ leBytes 2 replays.length ++ leBytes 1 cps.length
      ++ leBytes 1 0 ++ leBytes 2 mons.length ++ leBytes 8 recmap ++ offs.flatMap fun o => leBytes 4 o)
    ++ body.flatten

end Sys2Proof.Machine
end

