-- ==== Sys2Proof/Machine/Preempt.lean ====
section
/-! DEFINITION. Pre-emption and restore (21 R374, R375, R378; 05 R112), and the placement of stooks by the controller
(20 R354, 05 R111 to R113). -/

namespace Sys2Proof.Machine

open Sys2Proof

/-! ### What goes with a stook -/

def Core.parksOf (c : Core) (u : Nat) : List Park := c.park.filter fun p => p.stook == u
def Core.replaysOf (c : Core) (u : Nat) : List Replay := c.replay.filter fun r => r.req.stook == u
def Core.copiesOf (c : Core) (u : Nat) : List Copy := c.copies.filter fun x => x.stook == u

/-- The image of a resident stook as it stands. -/
def State.imageOf (s : State) (k : Stook) : List Byte :=
  let c := s.core k.core
  saveImage (s.launchOf k).desc k (c.parksOf k.uid) (c.replaysOf k.uid) (c.copiesOf k.uid) c.rotation

/-- The length of an image, without its bytes. -/
def State.imageSize (s : State) (k : Stook) : Nat :=
  let c := s.core k.core
  let up (n : Nat) : Nat := (n + 63) / 64 * 64
  let regs := (k.sheaves.map fun h => h.bound.length + h.spilled.length).foldl (fun a b => a + b) 0
  256 + 2048 * k.sheaves.length + 128 * regs + up k.scratchBytes + 128 * ((c.parksOf k.uid).map Park.nparts).foldl (fun a b => a + b) 0
    + up (160 * (c.replaysOf k.uid).length) + 256 * (c.copiesOf k.uid).length + 1024 + 2048 + 1024 + up (16 * k.monitors.length)

/-- Where the next image of a context lies in its spill region. -/
def Context.imageAt (c : Context) : Nat := (max c.spillUsed c.imageTop + 63) / 64 * 64

/-- Whether a context's spill region holds `n` more bytes beside the images already asked for (R374). -/
def State.spillRoom (s : State) (ctx n : Nat) : Bool := (s.ctx ctx).imageAt + s.reserved ctx + n ≤ (s.ctx ctx).spillBytes

/-! ### Saving (R375) -/

/-- A lane that may be saved where it stands: stopped, gone, at a header, held where a wait can be without end, or at the access that
a PBAR.SYNC holds. -/
def State.laneSavable (s : State) (k : Stook) (x : Lane) : Bool :=
  x.exited || x.exitIssued || x.stop.isSome
    || match x.hold with
      | none => !x.inside || (!x.persist.isEmpty && accessWord (instrAt (s.launchOf k).code x.pc.toNat))
      | some (.copy id) => !((s.core k.core).copies.any fun c => c.id == id && s.canAccept c)
      | some (.cbinit _ _ _) => s.stuck k x
      | some h => h.isPoint

/-- Locked transactions of a stook that asks to be saved abort with PREEMPT, unless their commit is under way (R284). -/
def State.abortLocked (s : State) (k : Stook) : State :=
  (List.range k.sheaves.length).foldl (fun s i =>
    let m := (k.sheaf i).lanesWhere fun x => 0 < x.tx.depth && x.tx.locked
      && (match x.hold with | some (.commit _ _ _) => false | some _ => true | none => !x.inside || x.stop.isSome)
    s.abortLanes k.uid i m 0x09) s

/-- Steps 1 to 5 of R375 are done; as at a FENCE.ACQREL at SYSTEM scope, every store that the stook sees is performed (R131), which
waits for no durability. -/
def State.savable (s : State) (k : Stook) : Bool :=
  let c := s.core k.core
  let mine (r : Req) : Bool := r.stook == k.uid
  let held (h : Sheaf) (i : Issue) : Bool := (lanesOf i.lanes).all fun l => (h.lane l).issue == i.id || (h.lane l).persist.any fun q => q.1 == i.id
  (k.sheaves.all fun h => h.queue.isEmpty && h.lanes.all (s.laneSavable k) && h.issues.all fun i => i.tok = 7
      || held h i || (c.parksOf k.uid).any fun p => p.issues.any fun q => q.2 == i.id)
    && !c.reqs.any mine && (s.seenStores k).isEmpty && !(c.launches.any fun r => r.stook == k.uid)
    && ((c.copiesOf k.uid).all fun x => x.writes.isEmpty)
    && !((c.parksOf k.uid).any fun p => p.state = 0)

/-- The bytes of an image reach the spill region, where its pages are mapped, on non-volatile memory each word as a unit of its own
(R292). -/
def State.writeImage (s : State) (ctx va : Nat) (bs : List Byte) : State :=
  let ws := (bs.mapIdx fun j b => (va + j, b)).filterMap fun w =>
    match s.nodeLocate ctx w.1 { wr := true } with
    | .ok l => some (l, w.2)
    | .error _ => none
  if ws.isEmpty then s
  else if ws.any fun w => w.1.peer.isNone && inNv w.1.pa then (wordRuns ws).foldl (fun s w => s.storeAt .node w) s
  else s.storeAt .node ws

/-- A request back in STATE 1, its work at the WU or XS abandoned (R173). -/
def Park.requeue (p : Park) : Park := { p with state := 1, toXs := false }

/-- A stook's image is written and the stook leaves its core. Without room the launch ends with SPILL_FULL (R366). -/
def State.saveStook (s : State) (k : Stook) (batch : Nat) : State :=
  let c := s.core k.core
  let size := s.imageSize k
  if !(s.modStook k.uid fun k => { k with reserve := 0 }).spillRoom k.ctx size then
    (s.failLaunch k.ctx k.launch .spillFull 6).modStook k.uid fun k => { k with stopping := 2, reserve := 0 }
  else
    let l := s.launchOf k
    let cx := s.ctx k.ctx
    let image := s.imageOf k
    let saved : Saved :=
      { first := l.held || s.svc.quarantined.contains (clusterOf k.core), stook := { k with stopping := 0, reserve := 0 }, parks := (c.parksOf k.uid).map Park.requeue, replays := c.replaysOf k.uid,
        copies := c.copiesOf k.uid, rotation := c.rotation, core := k.core, batch := batch, imageAt := cx.imageAt, imageBytes := size }
    let s := s.writeImage k.ctx (cx.spillVa + cx.imageAt) image
    let s := s.modCtx k.ctx fun c => { c with spillUsed := c.spillUsed + size, imageTop := c.imageAt + size }
    let s := s.modCore k.core fun c => Core.wake { c with
      park := c.park.filter fun p => p.stook != k.uid
      replay := c.replay.filter fun r => r.req.stook != k.uid
      copies := c.copies.filter fun x => x.stook != k.uid
      bsc := c.bsc.filter fun e => e.place != k.place }
    let s := s.modLaunch k.ctx k.launch fun l => { l with saved := l.saved ++ [saved], images := l.images + size }
    { s with
      stooks := s.stooks.filter fun x => x.uid != k.uid
      pending := s.pending.map fun p =>
        if !p.cancel && p.hdr.context == k.ctx && p.launches.contains k.launch then { p with count := p.count + 1 } else p }

/-- The stooks that are saved together with one: those of its core where the core issues in rotation (R116); every one of a PAIRED
launch, so that no twin waits at a compare point for one that is saved (R384). -/
def State.saveGroup (s : State) (k : Stook) : List Stook :=
  let d := (s.launchOf k).desc
  if d.contain = 2 then s.stooks.filter fun x => x.ctx == k.ctx && x.launch == k.launch
  else if d.rotates then s.stooksOn k.core else [k]

/-- A twin that has retired less than the other in some sheaf has still to come to where that one stands. -/
def State.behind (s : State) (k : Stook) : Bool :=
  (k.twin.bind s.stook?).any fun t => (List.range k.sheaves.length).any fun i => (k.sheaf i).retired.toNat < (t.sheaf i).retired.toNat

/-- A second run is over, or is asked to leave its core: what it stored and still asks for is dropped (R385). -/
def State.dropRun (s : State) (k : Stook) : State :=
  let s := s.modCore k.core fun c => { c with
    reqs := c.reqs.filter fun r => r.stook != k.uid
    park := c.park.filter fun p => p.stook != k.uid
    replay := c.replay.filter fun r => r.req.stook != k.uid }
  let s := s.removeStook k
  { s with faults := s.faults.filter fun f => f.uid != k.uid || f.cause == .xlateMiss }

/-- A second run goes once its verdict stands, when its stook is asked to stop, or when its cluster is quarantined. -/
def State.settleRerun (s : State) (k : Stook) : State :=
  let l := s.launchOf k
  if k.rerun.isSome && l.ending.isNone
      && (k.stopping = 1 || s.svc.quarantined.contains (clusterOf k.core) || l.verdicts.any fun v => v.1 == k.stookId) then s.dropRun k
  else s

/-- A stook that asks to be saved is saved once it can be. In rotation the core goes on until every lane on it has come to
a clause boundary or hold point together, a PAIRED launch's cores until its twins stand at one point. -/
def State.settleSave (s : State) (u : Nat) : State :=
  match s.stook? u with
  | none => s
  | some k =>
    if k.stopping != 1 || ((s.launchOf k).desc.rotates && !(s.saveGroup k).all fun x => s.rests x && !s.behind x) then s
    else
      let s := (s.saveGroup k).foldl (fun s x => s.abortLocked x) s
      match s.stook? u with
      | none => s
      | some k =>
        let ks := s.saveGroup k
        if ks.all fun x => s.savable x then ks.foldl (fun s x => s.saveStook x s.next) { s with next := s.next + 1 } else s

/-- A launch held by a PREEMPT that came to save nothing is held no more. -/
def State.settleHeld (s : State) : State :=
  { s with launches := s.launches.map fun l =>
      if l.held && l.saved.isEmpty && !(s.stooks.any fun k => k.ctx == l.ctx && k.launch == l.id && k.stopping = 1) then
        { l with held := false } else l }

/-- The stooks that some stooks' save takes with it. -/
def State.savedWith (s : State) (p : Stook → Bool) (k : Stook) : Bool :=
  p k || s.stooks.any fun x => p x && (s.saveGroup x).any fun y => y.uid == k.uid

/-- Stooks of a launch are asked to stop for their save; room is kept for their images (R374). -/
def State.askSave (s : State) (p : Stook → Bool) : State :=
  let p := s.savedWith p
  { s with stooks := s.stooks.map fun k => if p k && k.stopping = 0 then { k with stopping := 1, reserve := s.imageSize k } else k }

/-- PREEMPT (R374): answered after the last image; without room nothing changes. -/
def execPreempt (h : MsgHdr) (launch : Word) (s : State) : Host.Outcome State Fault Refusal :=
  message s h (.preempt h launch) 0 8 fun s =>
    let all := launch == BitVec.allOnes 32
    let mine (k : Stook) : Bool := k.ctx == h.context && (all || k.launch == launch) && (s.launchOf k).ending.isNone
    let ks := s.stooks.filter mine
    if !all && (s.launch? h.context launch).isNone then s.reply h stUnknown 0
    else if ks.isEmpty then s.reply h 0 0
    else if !s.spillRoom h.context ((ks.filter fun k => k.stopping = 0).foldl (fun n k => n + s.imageSize k) 0) then s.reply h stBusy 0
    else
      let ids := (ks.map Stook.launch).eraseDups
      let s := ids.foldl (fun s id => s.modLaunch h.context id fun l => { l with held := true }) s
      State.askSave { s with pending := s.pending ++ [{ hdr := h, cancel := false, launches := ids, count := 0 }] } mine

/-- QUANTUM_EXPIRY (R112): a stook resident for its quantum is saved when a stook of its launch waits for placement and there
is room; in rotation with every stook of its core (R116). -/
def quantumExpiry (u : Nat) (s : State) : State :=
  match s.stook? u with
  | none => s
  | some k =>
    let l := s.launchOf k
    let mine (x : Stook) : Bool := x.uid == u
    let ks := s.stooks.filter (s.savedWith mine)
    if l.desc.place != 2 || k.resident < l.desc.quantum || !l.unplaced || l.ending.isSome || k.stopping != 0 then s
    else if !s.spillRoom k.ctx (ks.foldl (fun n k => n + s.imageSize k) 0) then s
    else s.askSave mine

/-- QUANTUM_EXPIRY (R112) -/
def execQuantumExpiry (stook : Nat) (s : State) : Host.Outcome State Fault Refusal := event s (quantumExpiry stook)

/-! ### Restoring (R378) -/

/-- A copy as it goes on after a restore, by what became of its fault (R372). -/
def State.restoredCopy (s : State) (c : Copy) : Copy :=
  if c.state != 3 then c
  else match s.fault? c.fault with
    | none => { c with state := 2, fault := 0 }
    | some f => if f.resolved && f.cause == .xlateMiss then { c with state := 2, fault := 0 } else c

/-- A lane as it is reinstated: one with a monitor, or held at MWAIT, wakes (R153, R378); no latch is valid (R25). -/
def Lane.reinstate (x : Lane) : Lane :=
  let waits := match x.hold with | some (.mwait _ _ _) => true | _ => false
  { x with wake := if waits || x.monitor.isSome then some 2 else x.wake, latches := [] }

/-- What waited on faults settled meanwhile: entries re-issue at once, or trap (R372). -/
def State.replaySaved (s : State) (core : Nat) (v : Saved) : State :=
  let settled (f : Word) : Option Bool := match s.fault? f with
    | none => some true
    | some g => if g.resolved then some (g.cause == .xlateMiss) else none
  let waiting := v.replays.filter fun e => (settled e.fault).isNone
  let again := v.replays.filter fun e => settled e.fault == some true
  let lost := v.replays.filter fun e => settled e.fault == some false
  let s0 := s
  let s := s.modCore core fun c => { c with replay := c.replay ++ waiting }
  let s := (s.replayOrder again).foldl (fun s e => s.reissue core e) s
  let s := lost.foldl (fun s e =>
    s.trapParked { stook := e.req.stook, sheaf := e.req.sheaf, lane := e.req.lane } e.req.id .noMapping
      { va := (e.req.elems.head?.map Elem.va).getD 0, kind := e.kind, detail := ((s0.fault? e.fault).map FaultRec.detail).getD 0 }) s
  let failed := v.copies.filter fun c => c.state = 3 && (match s0.fault? c.fault with | some g => g.resolved && g.cause == .noMapping | none => false)
  let s := failed.foldl (fun s c => s.endCopy core c (some .noMapping)) s
  let alone (c : Copy) : Bool := c.state ≤ 3 && c.mate.any fun id => !s.cores.any fun x => x.copies.any fun y => y.id == id && y.state ≤ 3
  let s := (v.copies.filter alone).foldl (fun s c => s.endEntry core c (some .noMapping)) s
  let ids := (((v.stook.sheaves.flatMap fun h => h.lanes.filterMap fun x => (x.stop.map Stop.fault)).eraseDups).filter fun f =>
    (s0.fault? f).any fun g => g.resolved && g.cause == .xlateMiss)
  let s := ids.foldl (fun s f => s.unparkTiles f) s
  let s := (s0.faults.filter fun g => g.resolved && g.cause == .noMapping && g.ctx == v.stook.ctx).foldl
    (fun s g => (if g.kind == .fetch then s.stopFetches g else s).nomapTiles g) s
  { s with faults := s.faults.filter fun g => !g.resolved || s.savedWaits g.id }

/-- Sheaves that come back take the registers the pool has, each at least its 8: what is left of a sheaf's registers, the
least recently used first, stays spilled (R110). -/
def fitRegs : Nat → List Sheaf → List Sheaf
  | _, [] => []
  | room, h :: t =>
    let n := Config.minRegs + min room (h.bound.length - Config.minRegs)
    let gone := h.bound.length - n
    { h with bound := h.bound.drop gone, spilled := h.spilled ++ h.bound.take gone } :: fitRegs (room - (n - Config.minRegs)) t

/-- Room of the spill region is taken for registers that a restore leaves spilled; without it the launch ends (R366). -/
def State.chargeSpill (s : State) (k : Stook) (n : Nat) : State :=
  let c := s.ctx k.ctx
  if n = 0 then s
  else if c.spillUsed + s.reserved k.ctx + 128 * n ≤ c.spillBytes then s.modCtx k.ctx fun c => { c with spillUsed := c.spillUsed + 128 * n }
  else s.failLaunch k.ctx k.launch .spillFull 6

/-- The issues whose lanes a save has left held are counted once for each word (R378): those of one token at one word are one. -/
def Sheaf.mergeIssues (h : Sheaf) : Sheaf :=
  let at' (i : Issue) : Option (Nat × Word) := (lanesOf i.lanes).head?.bind fun l =>
    let x := h.lane l
    if x.issue == i.id then some (i.tok, x.pc) else (x.persist.find? fun q => q.1 == i.id).map fun q => (i.tok, q.2)
  let first (i : Issue) : Nat := ((h.issues.find? fun j => (at' i).isSome && at' j == at' i).map Issue.id).getD i.id
  let name (n : Nat) : Nat := ((h.issues.find? fun i => i.id == n).map first).getD n
  { h with
    issues := (h.issues.filter fun i => first i == i.id).map fun i =>
      { i with lanes := (h.issues.filter fun j => first j == i.id).foldl (fun m j => m ||| j.lanes) i.lanes }
    lanes := h.lanes.map fun x => { x with issue := name x.issue, persist := x.persist.map fun q => (name q.1, q.2) } }

/-- Park entries that come back to a core take the queue's free entries in their order; those that find none wait for them in
staging. DESIGN CHOICE: R111 and R378 do not say what becomes of them (log entry 84). -/
def Core.takeParks (c : Core) (ps : List Park) : Core :=
  ps.foldl (fun c p => { c with park := c.park ++ [{ p with state :=
    if !c.parkStaged && c.parkUsed + p.nparts ≤ Config.parkEntries then 1 else 0 }] }) c

/-- One saved stook placed on a core, with an acquire at SYSTEM scope (R131); in rotation it keeps its slots. -/
def State.reinstate (s : State) (l : Launch) (v : Saved) (core : Nat) : State :=
  let slots := s.pickSlots core l
  let keep := l.desc.rotates && v.stook.sheaves.all fun h => slots.contains h.slot
  let spilt (hs : List Sheaf) : Nat := hs.foldl (fun n h => n + h.spilled.length) 0
  let fitted := fitRegs (s.poolFree core - Config.minRegs * v.stook.sheaves.length) v.stook.sheaves
  let sheaves := fitted.mapIdx fun i h =>
    { h with slot := if keep then h.slot else slots.getD i 0, lanes := h.lanes.map Lane.reinstate }.mergeIssues
  let k : Stook := { v.stook with core := core, place := (s.freePlaces core).headD 0, resident := 0, sheaves := sheaves }
  let s := ((s.addStook core l.desc.l1 k).discardFor core 5).chargeSpill k (spilt fitted - spilt v.stook.sheaves)
  let s := s.modCore core fun c => Core.wake { c.takeParks v.parks with
    rotation := if l.desc.rotates then v.rotation else c.rotation
    copies := c.copies ++ v.copies.map s.restoredCopy }
  let s := s.modLaunch l.ctx l.id fun l => { l with saved := l.saved.filter fun x => x.stook.uid != v.stook.uid }
  s.replaySaved core v

/-- Saved stooks that are placed together, primaries first: all of a COHORT (R112), in deterministic mode those saved
together from one core (R378), and with each its twin. -/
def Launch.together (l : Launch) (v : Saved) : List Saved :=
  let some' := if l.desc.place = 1 then l.saved.filter fun x => !x.stook.secondary
    else if l.desc.det then l.saved.filter fun x => x.core == v.core && x.batch = v.batch && !x.stook.secondary
    else [v]
  some' ++ l.saved.filter fun x => x.stook.secondary && some'.any fun y => y.stook.twin == some x.stook.uid

/-- The core a saved stook goes to: a twin's where it was, or where its primary's core lets it go (R383); of a COHORT the core
drawn, or the first eligible one with room; otherwise the core whose room is offered. -/
def State.restoreCore (s : State) (l : Launch) (v : Saved) (core : Nat) (ahead : List Launch) : Option Nat :=
  let quiet (c : Nat) : Bool := !s.svc.quarantined.contains (clusterOf c)
  if v.stook.secondary then
    let first := ((v.stook.twin.bind s.stook?).map Stook.core).getD core
    if l.desc.rotates && quiet v.core && clusterOf v.core != clusterOf first && s.openTo ahead v.core then some v.core
    else s.secondaryCore l v.stook.stookId.toNat first ahead
  else if l.desc.place = 1 then
    (if l.desc.det then (s.substitute l v.core).filter (s.openTo ahead) else l.eligible.find? fun c => s.room c l && s.openTo ahead c)
  else some core

/-- The next saved stooks of a launch placed on a core, where they fit. -/
def State.restoreOn (s : State) (l : Launch) (core : Nat) (ahead : List Launch := []) : Option State :=
  let pick := (l.saved.filter fun v => v.first) ++ l.saved.filter fun v => !v.first
  let home (v : Saved) : Bool := !l.desc.det || s.substitute l v.core == some core
  let whole := l.desc.place != 1 || l.desc.det || !s.stooks.any fun k => k.ctx == l.ctx && k.launch == l.id
  match pick.find? fun v => whole && home v && !v.stook.secondary with
  | none => none
  | some v =>
    let rec go (s : State) : List Saved → Option State
      | [] => some s
      | x :: xs =>
        match s.restoreCore l x core ahead with
        | none => none
        | some c => if s.room c l then go (s.reinstate l x c) xs else none
    go s (l.together v)

/-- RESTORE (R374, R378): the saved stooks take part in placement again, ahead of the unplaced ones. -/
def execRestore (h : MsgHdr) (launch : Word) (s : State) : Host.Outcome State Fault Refusal :=
  message s h (.restore h launch) 0 8 fun s =>
    match s.launch? h.context launch with
    | none => s.reply h stUnknown 0
    | some l =>
      if 4 ≤ l.state then s.reply h 0 0
      else
        (s.modLaunch h.context launch fun l => { l with held := false, saved := l.saved.map fun v => { v with first := true } }).reply h 0
          (BitVec.ofNat 32 l.saved.length)

/-! ### Placement (R354) -/

/-- Launches whose dependence ended otherwise than completed, with DEPSTRICT, end cancelled. -/
def State.dropFailed (s : State) : State :=
  (s.launches.filter fun l => l.state ≤ 1 && l.ending.isNone && s.depsFailed l).foldl
    (fun s l => s.endLaunch l.ctx l.id 6) s

/-- A launch in free mode that has stooks on a quarantined cluster is replayed elsewhere; under NONE, or without the snapshots for
it, it ends with its context; one that has written a peer's page ends alone (R380, R387). -/
def State.leaveQuarantine (s : State) (l : Launch) : State :=
  match s.launch? l.ctx l.id with
  | none => s
  | some l =>
    if l.ending.isSome || l.desc.det || !l.running then s
    else if l.desc.contain = 0 || l.noSnap then (s.endContext l.ctx 7).modCtx l.ctx fun c => { c with valid := false }
    else if l.peerWritten then s.endLaunch l.ctx l.id 7
    else (s.endLaunch l.ctx l.id replayCode).bump 16

/-- Stooks of a deterministic launch on a quarantined core are saved, all of the core, to go to its substitute; with no core of
the set left the launch ends in state 7 (R117). Other launches leave a quarantined cluster by replay (R387). -/
def State.settleQuarantine (s : State) : State :=
  let bad (c : Nat) : Bool := s.svc.quarantined.contains (clusterOf c)
  let s := (s.launches.filter fun l => s.stooks.any fun k => bad k.core && k.rerun.isNone && k.ctx == l.ctx && k.launch == l.id).foldl State.leaveQuarantine s
  let moves (k : Stook) : Bool := bad k.core && (s.launchOf k).desc.det && (s.launchOf k).ending.isNone && k.stopping = 0
  let s := if s.stooks.any moves then s.askSave moves else s
  (s.launches.filter fun l => l.desc.det && (l.state = 2 || l.state = 3) && l.ending.isNone && !l.eligible.isEmpty && l.eligible.all bad).foldl
    (fun s l => s.endLaunch l.ctx l.id 7) s

/-- STOOK_PLACEMENT: a core's free resources are offered to the ready launches in their order; the first that can use them
places a stook. In deterministic mode a core that already runs the launch admits at its rotation steps instead (R113). A core that none
can use may take the second run of a sampled stook (R385). -/
def stookPlacement (core : Nat) (s : State) : State :=
  let s := s.dropFailed
  if Config.numCores ≤ core then s
  else
    let ls := s.offerOrder (s.launches.filter s.ready)
    let busy (l : Launch) : Bool := l.desc.det && (s.stooksOn core).any fun k => k.ctx == l.ctx && k.launch == l.id
    match ls.findSome? fun l => if busy l then none else s.placeOn core l (fun s l c ahead => s.restoreOn l c ahead) (ls.takeWhile fun a => a != l) with
    | some s => s
    | none => ((s.offerOrder s.launches).findSome? fun l => s.placeRerun l core).getD s

/-- STOOK_PLACEMENT (R354) -/
def execStookPlacement (core : Nat) (s : State) : Host.Outcome State Fault Refusal := event s (stookPlacement core)

end Sys2Proof.Machine
end

