-- ==== Sys2Proof/Machine/Debug.lean ====
section
/-! DEFINITION. The debugger (21 R373; 05 R122, R123): breakpoints, stop-all, release, single-step, dump. -/

namespace Sys2Proof.Machine

open Sys2Proof

/-- Lanes park with a debug cause where they stand: at a header, before a word, or at a hold point, whose arrival is kept
(R123, R182). -/
def State.parkLanes (s : State) (p : Focus) (c : Cause) : State :=
  if p.lanes = 0 then s
  else
    let k := (s.stook? p.stook).getD default
    let h := k.sheaf p.sheaf
    let first := ((lanesOf p.lanes).head?.map h.lane).getD default
    let id := s.nextFault
    let s := s.report
      { (default : FaultRec) with cause := c, ctx := k.ctx, launch := k.launch, stookId := k.stookId, uid := k.uid, sheaf := p.sheaf,
                                  core := k.core, slot := h.slot, pc := first.pc, lanes := p.lanes, kind := .none, header := !first.inside,
                                  va := if first.inside then 0 else (s.launchOf k).desc.codeVa + 4 * first.pc.toNat }
    State.modSheaf { s with next := s.next + 32 } p.stook p.sheaf fun h => (h.parkIssues p.lanes).modLanes p.lanes fun l x =>
      { x with tag := s.next + l, stop := some { cause := c, fault := id, resume := x.pc } }

/-- Lanes of a sheaf in a mask park, one event for each place they stand at. -/
def State.parkAll (s : State) (u i : Nat) (m : LaneMask) (c : Cause) : State :=
  let h := s.sheafAt u i
  (((lanesOf m).map fun l => (h.lane l).pc).eraseDups).foldl (fun s pc =>
    s.parkLanes { stook := u, sheaf := i, lanes := maskFilter m fun l => (h.lane l).pc == pc } c) s

/-- Lanes of a stook in stop-all park at the hold points and headers they have come to, unless released there; lanes whose
step is over park before their next word (R122, R123). -/
def State.settleDebug (s : State) (u : Nat) : State :=
  match s.stook? u with
  | none => s
  | some k => (List.range k.sheaves.length).foldl (fun s i =>
      let h := s.sheafAt u i
      let held (x : Lane) : Bool := x.hold.any Hold.isPoint
      let here (x : Lane) : Bool := !x.exitIssued && !x.exited && x.stop.isNone
      let stops := if k.stopAll then h.lanesWhere fun x => here x && !x.passed && (held x || (x.hold.isNone && !x.inside)) else 0
      let steps := h.lanesWhere fun x => here x && x.stepping && !x.credit && x.hold.isNone
      ((s.parkAll u i stops .breakpoint).parkAll u i (steps &&& ~~~stops) .stepStop)) s

/-! ### Messages (R373) -/

/-- The stook a debug message names, while it is resident. -/
def State.debugStook (s : State) (ctx : Nat) (launch stookId : Word) : Option Stook :=
  s.stooks.find? fun k => k.ctx == ctx && k.launch == launch && k.stookId == stookId && !k.secondary

/-- A DEBUG message: refused in a context without DEBUG. -/
def debugWord (h : MsgHdr) (i : Instr) (launch : Word) (s : State) (act : Launch → State → State) : Host.Outcome State Fault Refusal :=
  message s h i 0 16 fun s =>
    if !(s.ctx h.context).debug then s.reply h stForbidden 0
    else match s.launch? h.context launch with
      | none => s.reply h stUnknown 0
      | some l => act l s

/-- SETBP (R373) -/
def execSetbp (h : MsgHdr) (launch arg0 arg1 : Word) (s : State) : Host.Outcome State Fault Refusal :=
  debugWord h (.setbp h launch arg0 arg1) launch s fun l s =>
    if l.desc.codeWords ≤ arg0.toNat then s.reply h stForbidden 3
    else if l.breakpoints.contains arg0 then s.reply h 0 2
    else if Config.maxBreakpoints ≤ l.breakpoints.length then s.reply h stForbidden 1
    else (s.modLaunch h.context launch fun l => { l with breakpoints := l.breakpoints ++ [arg0] }).reply h 0 0

/-- CLRBP (R373) -/
def execClrbp (h : MsgHdr) (launch arg0 arg1 : Word) (s : State) : Host.Outcome State Fault Refusal :=
  debugWord h (.clrbp h launch arg0 arg1) launch s fun l s =>
    if !l.breakpoints.contains arg0 then s.reply h 0 1
    else (s.modLaunch h.context launch fun l => { l with breakpoints := l.breakpoints.filter fun b => b != arg0 }).reply h 0 0

/-- STOPALL (R123) -/
def execStopall (h : MsgHdr) (launch arg0 arg1 : Word) (s : State) : Host.Outcome State Fault Refusal :=
  debugWord h (.stopall h launch arg0 arg1) launch s fun _ s =>
    match s.debugStook h.context launch arg0 with
    | none => s.reply h stForbidden 0
    | some k => (s.modStook k.uid fun k => { k with stopAll := true }).reply h 0 0

/-- Lanes of an event that have been released are no longer its concern; an event at which no lane stands any more is over. -/
def State.forgetLanes (s : State) (u i : Nat) (m : LaneMask) : State :=
  let mine (f : FaultRec) : Bool := f.uid == u && f.sheaf == i && f.cause.cls (!(f.cause == .copyFault) || f.kind == .none) != 0
  { s with faults := (s.faults.map fun f => if mine f then { f with lanes := f.lanes &&& ~~~m } else f).filter fun f =>
      !(mine f && !(s.sheafAt u i).lanes.any (fun x => x.stop.any fun t => t.fault == f.id) && f.cause != .watchdog && f.cause != .spillFull) }

/-- The stopped lanes of a sheaf go on, single-stepped or not; lanes parked for a page wait on. -/
def State.releaseSheaf (s : State) (u i : Nat) (stepping : Bool) : State :=
  let m := (s.sheafAt u i).lanesWhere fun x => x.stop.any fun t => t.cause != .xlateMiss
  (s.modSheaf u i fun h => h.modLanes m fun _ x =>
    if x.exitIssued then { x with stop := none } else Lane.resume { x with stepping := stepping }).forgetLanes u i m

/-- RELEASE and STEP over the sheaves that ARG1 names; the whole stook leaves stop-all. -/
def State.releaseNamed (s : State) (k : Stook) (arg : Word) (stepping : Bool) : State :=
  if arg == BitVec.allOnes 32 then
    (List.range k.sheaves.length).foldl (fun s i => s.releaseSheaf k.uid i stepping) (s.modStook k.uid fun k => { k with stopAll := false })
  else s.releaseSheaf k.uid arg.toNat stepping

/-- ARG1 names a sheaf of the stook or all of them. -/
def sheafArg (k : Stook) (arg : Word) : Bool := arg == BitVec.allOnes 32 || arg.toNat < k.sheaves.length

def releaseWord (h : MsgHdr) (i : Instr) (launch arg0 arg1 : Word) (stepping : Bool) (s : State) : Host.Outcome State Fault Refusal :=
  debugWord h i launch s fun _ s =>
    match s.debugStook h.context launch arg0 with
    | none => s.reply h stForbidden 0
    | some k => if sheafArg k arg1 then (s.releaseNamed k arg1 stepping).reply h 0 0 else s.reply h stForbidden 0

/-- RELEASE (R373) -/
def execRelease (h : MsgHdr) (launch arg0 arg1 : Word) (s : State) : Host.Outcome State Fault Refusal :=
  releaseWord h (.release h launch arg0 arg1) launch arg0 arg1 false s

/-- STEP (R122, R373) -/
def execStep (h : MsgHdr) (launch arg0 arg1 : Word) (s : State) : Host.Outcome State Fault Refusal :=
  releaseWord h (.step h launch arg0 arg1) launch arg0 arg1 true s

/-- Every path of a stook is stopped. -/
def Stook.allStopped (k : Stook) : Bool := k.sheaves.all fun h => h.lanes.all fun x => x.exited || x.exitIssued || x.stop.isSome

/-- DUMP (R373): an image of the stopped stook in the spill region; the stook stays. -/
def execDump (h : MsgHdr) (launch arg0 arg1 : Word) (s : State) : Host.Outcome State Fault Refusal :=
  debugWord h (.dump h launch arg0 arg1) launch s fun _ s =>
    match s.debugStook h.context launch arg0 with
    | none => s.reply h stForbidden 0
    | some k =>
      let c := s.ctx h.context
      if !k.allStopped then s.reply h stBusy 0
      else if arg1.toNat % 65536 != 0 || c.spillBytes < arg1.toNat + s.imageSize k then s.reply h stForbidden 0
      else (s.writeImage h.context (c.spillVa + arg1.toNat) (s.imageOf k)).reply h 0 0

end Sys2Proof.Machine
end

