-- ==== Sys2Proof/Machine/Security.lean ====
section
/-! DEFINITION. Key slots (22 R388), firmware banks (22 R389, R390) and attestation (22 R391). The cryptographic functions
are the standards the spec names, opaque here. -/

namespace Sys2Proof.Machine

open Sys2Proof

/-! ### Key slots (R388) -/

/-- Whether a table, or one below it, holds a leaf that names a key slot. -/
def State.tableNames (s : State) (slot : Nat) : Nat → Nat → Bool
  | 0, _ => false
  | fuel + 1, table =>
    let words := ((s.mem.filter fun c => table ≤ c.1 && c.1 < table + 65536).map fun c => c.1 / 8).eraseDups
    words.any fun w =>
      let e : DWord := BitVec.ofNat 64 (s.homeWord (8 * w))
      pteV e && (if pteT e then s.tableNames slot fuel (ptePA e) else pteKEY e == slot)

/-- A launch with stooks resident or saved belongs to a context that maps a slot. -/
def State.slotInUse (s : State) (slot : Nat) : Bool :=
  s.contexts.any fun c =>
    (s.stooks.any (fun k => k.ctx == c.1) || s.launches.any fun l => l.ctx == c.1 && !l.saved.isEmpty)
    && s.tableNames slot 3 c.2.ptroot

/-- What the device holds of a slot's lines on its way to their homes is performed there (R388). -/
def State.writeBack (s : State) (slot : Nat) : State :=
  let s := s.combineIf fun d => d.locs.any fun b => b.key = slot
  let late (q : Req) : Bool := q.locs.any fun b => b.key = slot
  (s.cores.flatMap fun c => (c.stores.filter late).map fun q => (c.num, q)).foldl (fun s q =>
    if s.homeReady q.1 q.2 then s.perform q.1 q.2 .good else s) s

/-- Every cached line of a slot is written back and dropped. -/
def State.dropSlot (s : State) (slot : Nat) : State :=
  let s := s.writeBack slot
  let key := s.keyBytes slot
  let under (pa : Nat) : Bool := s.lineKeys.any fun p => p.1 == lineOf pa && p.2 == key
  if key.isEmpty then s
  else { s with
    cores := s.cores.map fun c => { c with cache := c.cache.filter fun b => !under (64 * b.line) }
    dies := s.dies.map fun d => { d with cache := d.cache.filter fun b => !under (64 * b.line)
                                         replicas := d.replicas.filter fun r => !under (64 * r.1) } }

/-- The checks of a KEYLOAD, then what it does. -/
def keyWord (h : MsgHdr) (i : Instr) (slot : Byte) (bad : Bool) (s : State) (act : State → State) : Host.Outcome State Fault Refusal :=
  message s h i 0 136 fun s =>
    if slot = 0 || 128 ≤ slot.toNat || bad then s.reply h stForbidden 0
    else if s.slotInUse slot.toNat then s.reply h stBusy 0
    else act s

/-- The key that a KEYLOAD carries, unwrapped. -/
def unwrapKey (slot : Byte) (epk : BitVec 448) (wkey : BitVec 576) : Option (List Byte) :=
  let e := leBytes 56 epk.toNat
  let kek := Config.shake256 (Config.x448Shared e ++ Config.devicePublicKey ++ e ++ [slot]) 32
  Config.aesUnwrap kek (leBytes 72 wkey.toNat)

/-- KEYLOAD, load (R388) -/
def execKeyloadLoad (h : MsgHdr) (slot : Byte) (rsv : BitVec 48) (epk : BitVec 448) (wkey : BitVec 576) (s : State) :
    Host.Outcome State Fault Refusal :=
  keyWord h (.keyloadLoad h slot rsv epk wkey) slot (rsv != 0) s fun s =>
    match unwrapKey slot epk wkey with
    | none => s.reply h stRefused 1
    | some key =>
      let s := s.dropSlot slot.toNat
      let k : KeySlot := { num := slot.toNat, ctx := h.context, key := key }
      State.reply { s with svc := { s.svc with keys := (s.svc.keys.filter fun x => x.num != slot.toNat) ++ [k] } } h 0 0

/-- KEYLOAD, erase (R388) -/
def execKeyloadErase (h : MsgHdr) (slot : Byte) (rsv : BitVec 48) (epk : BitVec 448) (wkey : BitVec 576) (s : State) :
    Host.Outcome State Fault Refusal :=
  keyWord h (.keyloadErase h slot rsv epk wkey) slot (rsv != 0 || epk != 0 || wkey != 0) s fun s =>
    let s := s.dropSlot slot.toNat
    State.reply { s with svc := { s.svc with keys := s.svc.keys.filter fun x => x.num != slot.toNat } } h 0 0

/-! ### Firmware banks (R389, R390) -/

/-- Fields of an image's header: SVN, LENGTH, DIGEST, SIGNATURE, and the body. -/
def fwSvn (b : List Byte) : Nat := fieldAt b 8 4
def fwDigest (b : List Byte) : List Byte := padTo 64 ((b.drop 0x10).take 64)
def fwBody (b : List Byte) : List Byte := (b.drop 256).take (fieldAt b 0xc 4)
def fwSigned (b : List Byte) : Bool := Config.ed448Verify (b.take 0x50) ((b.drop 0x50).take 114)

/-- What keeps a bank from booting: 1 its signature, 2 its digest, 3 its SVN. -/
def Service.bankFault (v : Service) (b : List Byte) : Option Nat :=
  if !fwSigned b then some 1
  else if fwDigest b != Config.shake256 (fwBody b) 64 then some 2
  else if fwSvn b < v.fusedSvn then some 3
  else none

def Service.inactive (v : Service) : Nat := 1 - v.running
/-- A bank's image: the one written since, or the one it was delivered with. -/
def Service.bank (v : Service) (n : Nat) : List Byte := (v.banks.getD n none).getD (Config.factoryImage n)
def Service.setBank (v : Service) (n : Nat) (b : List Byte) : Service := { v with banks := v.banks.set n (some b) }

/-- FWUPDATE and ATTEST: accepted with CONTEXT 0xFF alone, which is judged before the LENGTH (log entry 14), in a device held in reset
too; their order is that of any request. -/
def fwWord (h : MsgHdr) (i : Instr) (len : Nat) (s : State) (act : State → State) : Host.Outcome State Fault Refusal :=
  event s fun s => s.request h i 2 (if h.context = 255 then len else h.length) fun s => if h.context != 255 then s.reply h stForbidden 0 else act s

/-- FWUPDATE BEGIN (R390) -/
def execFwupdateBegin (h : MsgHdr) (total : DWord) (s : State) : Host.Outcome State Fault Refusal :=
  fwWord h (.fwupdateBegin h total) 16 s fun s =>
    if 2 ^ 32 ≤ total.toNat then s.reply h stForbidden 0
    else State.reply { s with svc := { (s.svc.setBank s.svc.inactive []) with pendingBank := none } } h 0 0

/-- FWUPDATE DATA (R390) -/
def execFwupdateData (h : MsgHdr) (offset : DWord) (data : List Byte) (s : State) : Host.Outcome State Fault Refusal :=
  fwWord h (.fwupdateData h offset data) (16 + data.length) s fun s =>
    let b := s.svc.bank s.svc.inactive
    let o := offset.toNat
    if 2 ^ 32 ≤ o then s.reply h stForbidden 0
    else
      State.reply { s with svc := s.svc.setBank s.svc.inactive (padTo o (b.take o) ++ data ++ b.drop (o + data.length)) } h 0 0

/-- FWUPDATE COMMIT (R390) -/
def execFwupdateCommit (h : MsgHdr) (s : State) : Host.Outcome State Fault Refusal :=
  fwWord h (.fwupdateCommit h) 8 s fun s =>
    match s.svc.bankFault (s.svc.bank s.svc.inactive) with
    | some n => s.reply h stRefused (BitVec.ofNat 32 n)
    | none => State.reply { s with svc := { s.svc with pendingBank := some s.svc.inactive } } h 0 0

/-! ### Requests that are not listed (R346) -/

/-- UNKNOWN_MESSAGE_TYPE (R346, R349, R371). DESIGN CHOICE: a DEBUG, KEYLOAD or FWUPDATE whose OP is not listed is not permitted, as
R371 has it for a FAULT_ACK's ACTION (log entry 53). -/
def execUnknownMessageType (h : MsgHdr) (m : Unlisted) (s : State) : Host.Outcome State Fault Refusal :=
  let i : Instr := .unknownMessageType h m
  let refuse (s : State) : State := s.reply h stForbidden 0
  match m.type.toNat with
  | 0x0a => message s h i 0 16 refuse
  | 0x0b => message s h i 0 136 refuse
  | 0x0c => fwWord h i h.length s refuse
  | 0x0d => ackWord h i m.arg s (fun _ => false) fun _ s => s
  | _ => message s h i 1 h.length fun s => s.reply h stType 0

/-! ### Attestation (R391) -/

/-- Bytes of a fixed number. -/
def fixTo (n : Nat) (bs : List Byte) : List Byte := (padTo n bs).take n

/-- The attestation report over a nonce. -/
def State.attestation (s : State) (nonce : BitVec 256) : List Byte :=
  let v := s.svc
  let b := v.bank v.running
  let keymap := v.keys.foldl (fun m k => m ||| 2 ^ k.num) 0
  let head := leBytes 4 0x5441535A ++ leBytes 2 1 ++ leBytes 2 0 ++ leBytes 32 nonce.toNat ++ padTo 64 (fixTo 57 Config.identityKey)
    ++ fixTo 56 Config.devicePublicKey ++ fixTo 64 (fwDigest b) ++ leBytes 4 (fwSvn b) ++ leBytes 4 v.fusedSvn ++ leBytes 16 keymap
    ++ leBytes 1 (2 ^ v.settings.partLog) ++ List.replicate 7 0
  head ++ padTo 120 (fixTo 114 (Config.ed448Sign (Config.shake256 head 64)))

/-- ATTEST (R390, R391) -/
def execAttest (h : MsgHdr) (nonce : BitVec 256) (s : State) : Host.Outcome State Fault Refusal :=
  fwWord h (.attest h nonce) 40 s fun s => s.reply h 0 0 (s.attestation nonce)

end Sys2Proof.Machine
end

