-- ==== Sys2Proof/Machine/Power.lean ====
section
/-! DEFINITION. Power, recovery and the work the device does by itself: power windows and the thermal trip (23 R395, R396),
background activity (23 R397), the staging buffers (13 R291), loss of power and power-up (13 R296, R302; 22 R392; 23 R400),
snapshots (13 R298; 22 R380). -/

namespace Sys2Proof.Machine

open Sys2Proof

def State.modSvc (s : State) (f : Service → Service) : State := { s with svc := f s.svc }

/-! ### Power windows (R395) -/

/-- A demand on the clock after a window that exceeded its limit, kept well below it, or neither, with the windows that have. -/
def clockDemand (above below : Bool) (mhz n : Nat) : Nat × Nat :=
  if above then (max 300 (mhz - 25), 0)
  else if !below then (mhz, 0)
  else if 99 ≤ n then (min 600 (mhz + 25), 0)
  else (mhz, n + 1)

/-- The clock after a window of a measured power (mW) and hottest junction (m°C): the lower of the two demands. DESIGN CHOICE (log entry
25): heat's rises again as power's does, once no die has exceeded 100 °C for 100 windows. -/
def Service.afterWindow (v : Service) (mw mdeg : Nat) : Service :=
  let cap := v.settings.cap
  let power := clockDemand (cap * 1000 < mw) (mw < (cap - 200) * 1000) v.powerMHz v.coolWindows
  let heat := clockDemand (100000 < mdeg) (mdeg ≤ 100000) v.heatMHz v.mildWindows
  let clock := min power.1 heat.1
  { v with
    powerMw := mw, hottest := mdeg, powerMHz := power.1, coolWindows := power.2, heatMHz := heat.1, mildWindows := heat.2
    clockMHz := clock
    counters := if clock < v.clockMHz then Bank.set v.counters 4 (Bank.get v.counters 4 + 1) else v.counters }

/-- POWER_WINDOW (R395) -/
def execPowerWindow (mw mdeg : Nat) (s : State) : Host.Outcome State Fault Refusal :=
  event s fun s => if s.svc.heldReset then s else s.modSvc fun v => v.afterWindow mw mdeg

/-! ### Background activity (R397) -/

/-- SCRUB (R387, R397): what a scrub finds in storage is counted and retired as after a read, and ends nothing. DESIGN CHOICE (log entry
85): a lasting error on a die's own memory is that of the first cluster of the die whose base is the address's home. -/
def execScrub (pa : Nat) (sector : SectorRead) (s : State) : Host.Outcome State Fault Refusal :=
  event s fun s =>
    if !(inDram pa || inNv pa) then s
    else s.sectorCount ((pa >>> 12) % 16 * Config.coresPerDie) pa sector

/-- CALIBRATION (R397): no value that a program or the control node can read changes. -/
def execCalibration (_resource : Nat) (s : State) : Host.Outcome State Fault Refusal := event s id

/-- NV_WEAR_MANAGEMENT (R397, R398): the greatest wear is a gauge of telemetry. -/
def execNvWearManagement (stack permille : Nat) (s : State) : Host.Outcome State Fault Refusal :=
  event s fun s => if 4 ≤ stack then s else s.modSvc fun v => { v with wear := max v.wear permille }

/-! ### Staging buffers (R291) -/

/-- STAGING_DRAIN: the oldest unit of a stack's buffer reaches the media. -/
def drainUnit (stack : Nat) (s : State) : State :=
  match s.staging.find? fun t => t.stack == stack && !s.isVolatile t.unit with
  | none => s
  | some t => { s with staging := s.staging.filter fun x => !(x.unit == t.unit && x.stack == stack) }

/-- STAGING_DRAIN (R291) -/
def execStagingDrain (stack : Nat) (s : State) : Host.Outcome State Fault Refusal := event s (drainUnit stack)

/-! ### Snapshots (R298, R380) -/

/-- A write of a launch waits for a snapshot of a granule of a kind: an access that writes as it stands (R297), in its sheaf's queue or
on its way. -/
def State.snapWanted (s : State) (ctx : Nat) (launch : Word) (g : Nat) (la : Bool) : Bool :=
  let wants (r : Req) : Bool := r.of ctx launch && !r.performed && s.willWrite r && !r.spad
    && r.locs.any fun b => b.peer.isNone && granuleOf b.pa == g && s.needsSnap ctx launch b == some la
  (s.cores.any fun c => c.reqs.any wants || c.stores.any wants || c.left.any wants)
    || s.stooks.any fun k => k.rerun.isNone && (k.heldStores.any wants || k.sheaves.any fun h => h.queue.any wants)

def takeWanted (ctx : Nat) (launch : Word) (g : Nat) (la : Bool) (s : State) : State :=
  if s.snapWanted ctx launch g la then s.takeSnap ctx launch g la else s

/-- LA_SNAPSHOT (R298) -/
def execLaSnapshot (ctx : Nat) (launch : Word) (granule : Nat) (s : State) : Host.Outcome State Fault Refusal :=
  event s (takeWanted ctx launch granule true)

/-- GRANULE_SNAPSHOT (R380) -/
def execGranuleSnapshot (ctx : Nat) (launch : Word) (granule : Nat) (s : State) : Host.Outcome State Fault Refusal :=
  event s (takeWanted ctx launch granule false)

/-! ### Loss of power (R290 to R297) -/

/-- The hold-up store fails its drain (R302, R400): of the units that stand in the staging buffers each has reached the media, has not, or
has left them neither as they were nor as it would have; which is free. -/
def State.failDrain (s : State) : State :=
  let units := (s.staging.map Staged.unit).eraseDups
  let fate (u : Nat) : Nat := (Config.freeWord (s.free + u)).toNat % 3
  let torn := s.staging.filter fun t => t.record.isNone && fate t.unit = 2
  let s := s.undoUnits fun u => units.contains u && fate u = 1
  let mem := (torn.flatMap fun t => (List.range t.media.length).map fun j => t.pa + j).foldl
    (fun m pa => Memory.put m pa (Config.freeByte s.free pa)) s.mem
  { s with mem := mem, free := s.free + s.next }

/-- Power is gone: NV storage, its snapshots and records, and the service die's own store remain. What has not reached the staging
buffers is lost (R290). -/
def State.losePower (s : State) (drained trip : Bool) : State :=
  let s := s.undoUnits s.isVolatile
  let s := if drained then s else s.failDrain
  let v := s.svc
  { State.reset with
    powered := false
    mem := s.mem.filter fun c => 2 ^ 41 ≤ c.1
    snapshots := s.snapshots.filter fun x => x.la && x.durable
    completions := s.completions
    lineKeys := s.lineKeys.filter fun p => 2 ^ 41 ≤ 64 * p.1
    nextTicket := s.nextTicket
    nextFault := s.nextFault
    svc := { Service.reset with
      banks := v.banks, running := v.running, pendingBank := v.pendingBank, fusedSvn := v.fusedSvn, poison := v.poison,
      remapped := v.remapped, quarantined := v.quarantined, holdupOk := drained, thermalTrip := trip, heldReset := v.heldReset, wear := v.wear }
    agenda := s.agenda
    free := s.free + 1
    next := s.next }

/-- POWER_LOSS (R291) -/
def execPowerLoss (drained : Bool) (s : State) : Host.Outcome State Fault Refusal := event s fun s => s.losePower drained false

/-- THERMAL_TRIP (R396): as on loss of the supply, and recorded; whether the buffers drain is free. -/
def execThermalTrip (die mdeg : Nat) (s : State) : Host.Outcome State Fault Refusal :=
  event s fun s =>
    if Config.numDies ≤ die || mdeg ≤ 110000 then s else s.losePower (Config.freeChoice s.free) true

/-! ### Power-up (R302, R389, R392, R400) -/

/-- The bank that boots (R389): the pending one, or else the one that ran, if it passes; otherwise the other, if it passes. -/
def Service.bootBank (v : Service) : Option Nat :=
  let first := v.pendingBank.getD v.running
  [first, 1 - first].find? fun n => (v.bankFault (v.bank n)).isNone

/-- A snapshot whose launch's record persisted is released (R302). -/
def State.completed (s : State) (x : Snapshot) : Bool := (assoc? s.completions x.ctx).any fun c => c.valid && x.seq ≤ c.seq

/-- A context's entry of the RECOVERY_REPORT (R302). -/
def State.recoveryEntry (s : State) (ctx : Nat) : BitVec 256 :=
  let c := (assoc? s.completions ctx).getD { seq := 0, launch := 0, valid := false }
  let mine := s.snapshots.filter fun x => x.ctx == ctx
  let n (p : Snapshot → Bool) : BitVec 32 := BitVec.ofNat 32 (mine.filter p).length
  let flag (b : Bool) : BitVec 1 := if b then 1 else 0
  BitVec.ofNat 64 c.seq ++ c.launch ++ n (fun x => !s.completed x) ++ n s.completed ++ 0#88 ++ flag c.valid ++ flag s.svc.holdupOk
    ++ BitVec.ofNat 6 ctx

/-- Recovery: regions complete forward or roll back, then the report (R302, R346). -/
def State.recover (s : State) : State :=
  let report := (List.range 64).map s.recoveryEntry
  let s := (s.snapshots.filter fun x => !s.completed x).foldl State.restoreSnap s
  State.post { s with snapshots := [] } (.recoveryReport report)

/-- POWER_UP: firmware boots, or the device is held in reset; then recovery. `energyOk` tells whether the hold-up store can
drain four full buffers. -/
def powerUp (energyOk : Bool) (s : State) : State :=
  match s.svc.bootBank with
  | none => { s with powered := true, svc := { s.svc with heldReset := true } }
  | some n =>
    let s := s.modSvc fun v =>
      { v with running := n, pendingBank := none, heldReset := false,
               fusedSvn := max v.fusedSvn (fwSvn (v.bank n)),
               stagingShare := !energyOk }
    State.recover { s with powered := true }

/-- POWER_UP (R392) -/
def execPowerUp (energyOk : Bool) (s : State) : Host.Outcome State Fault Refusal :=
  .next (if s.powered then s else powerUp energyOk s)

end Sys2Proof.Machine
end

