-- ==== Sys2Proof/Machine/Paired.lean ====
section
/-! DEFINITION. Paired execution (22 R383, R384) and sampled checking (22 R385). -/

namespace Sys2Proof.Machine

open Sys2Proof

/-! ### Compare points (R384) -/

/-- Every store of a stook has left its sheaves' queues. -/
def Stook.drained (k : Stook) : Bool := k.sheaves.all fun h => h.queue.isEmpty

/-- A stook's last lane has exited and its stores have left their queues. -/
def Stook.atEnd (k : Stook) : Bool := k.allExited && k.drained

/-- A twin stands where its window is compared: at a compare point with its stores all held, behind its 256th store element, at its
end; or at rest beside its twin, asked for its save, which is to find no store held (R131, R375; DESIGN CHOICE, log entry 28). -/
def State.comparing (s : State) (k : Stook) : Bool :=
  k.full || (k.drained && ((k.atPoint && !k.passPoint) || k.allExited || (k.stopping = 1 && s.rests k && !s.behind k)))

/-- The error of two twins that differ. -/
def State.twinsDiffer (s : State) (k : Stook) : State :=
  s.containError { (default : FaultRec) with
    cause := .watermark, ctx := k.ctx, launch := k.launch, stookId := k.stookId, uid := k.uid, core := k.core, kind := .none }

/-- A new window begins behind the point. -/
def Stook.passCompare (k : Stook) : Stook :=
  { k with window := 0, windowStores := 0, heldStores := [], passPoint := k.passPoint || (k.atPoint && k.drained) }

/-- WATERMARK_COMPARE: twins at a compare point agree, and the primary's held stores go to their homes while the
secondary's are dropped; or they differ. -/
def watermarkCompare (u t : Nat) (s : State) : State :=
  match s.stook? u, s.stook? t with
  | some k, some kt =>
    if k.secondary || k.twin != some t || !s.comparing k || !s.comparing kt then s
    else if k.atEnd && kt.atEnd then s.retireStook u
    else if !(k.window == kt.window && k.windowStores == kt.windowStores && k.full == kt.full && k.atEnd == kt.atEnd) then s.twinsDiffer k
    else
      let s := s.modCore k.core fun c => { c with stores := c.stores ++ k.heldStores }
      (s.modStook u Stook.passCompare).modStook t Stook.passCompare
  | _, _ => s

/-- WATERMARK_COMPARE (R384) -/
def execWatermarkCompare (stook twin : Nat) (s : State) : Host.Outcome State Fault Refusal := event s (watermarkCompare stook twin)

/-- TWIN_TIMEOUT: a twin that has not come to the point within 10 ms of the other. -/
def twinTimeout (u : Nat) (s : State) : State :=
  match s.stook? u with
  | none => s
  | some k => match k.twin.bind s.stook? with
    | none => s
    | some t => if s.comparing k && !s.comparing t then s.twinsDiffer k else s

/-- TWIN_TIMEOUT (R384) -/
def execTwinTimeout (stook : Nat) (s : State) : Host.Outcome State Fault Refusal := event s (twinTimeout stook)

/-! ### Sampled checking (R385, R387) -/

/-- The core of a second run that has come to a verdict: it is noted; or the run still stands and must evict a line that it holds
(R385). -/
def State.verdictCore (s : State) (l : Launch) (stookId : Word) (v : SampleVerdict) : Option Nat :=
  match l.verdicts.find? fun x => x.1 == stookId with
  | some (_, w, core) => if w == v then some core else none
  | none => if v != .abandoned then none
      else (s.stooks.find? fun k => k.ctx == l.ctx && k.launch == l.id && k.stookId == stookId && k.rerun.isSome && !k.heldStores.isEmpty).map Stook.core

/-- The verdict on a sampled stook of a PURE launch, by its second run. A mismatch under NONE has one extra run (R387). -/
def sampleCheck (ctx : Nat) (launch stookId : Word) (v : SampleVerdict) (s : State) : State :=
  match s.launch? ctx launch with
  | none => s
  | some l =>
    match l.digests.find? (fun d => d.1 == stookId), s.verdictCore l stookId v with
    | some (_, digest, stores, core), some core2 =>
      if 4 ≤ l.state || l.ending.isSome || !l.desc.sampled stookId.toNat || l.checked.contains stookId then s
      else
        let s := (s.stooks.filter fun k => k.ctx == ctx && k.launch == launch && k.stookId == stookId && k.rerun.isSome).foldl State.dropRun s
        let s := s.modLaunch ctx launch fun l => { l with verdicts := l.verdicts.filter fun x => x.1 != stookId }
        let pass (s : State) : State := s.modLaunch ctx launch fun l => { l with checked := l.checked ++ [stookId] }
        match v with
        | .abandoned => (pass s).bump 17
        | .ran d n =>
          let s := if d == digest && n = stores then s
            else s.modLaunch ctx launch fun l => { l with avoid := (l.avoid ++ [clusterOf core, clusterOf core2]).eraseDups }
          if d == digest && n = stores then pass s
          else if l.desc.contain = 0 && !l.rerun.contains stookId then
            s.modLaunch ctx launch fun l => { l with rerun := l.rerun ++ [stookId] }
          else
            s.containError { (default : FaultRec) with
              cause := .sampleMismatch, ctx := ctx, launch := launch, stookId := stookId, core := core, kind := .none }
    | _, _ => s

/-- SAMPLE_CHECK (R385) -/
def execSampleCheck (ctx : Nat) (launch stookid : Word) (verdict : SampleVerdict) (s : State) : Host.Outcome State Fault Refusal :=
  event s (sampleCheck ctx launch stookid verdict)

end Sys2Proof.Machine
end

