-- ==== Sys2Proof/Machine/Ready.lean ====
section
/-! DEFINITION. Paths and when they are ready (05 R98, R99; 01 R26 to R28; 07 R171; 11 R264; 13 R294; 21 R370; 22 R384). -/

namespace Sys2Proof.Machine

open Sys2Proof

/-! ### Paths (R98) -/

/-- Where the lanes of a path stand: PC, header, whether inside the clause, and the mark of a path that does not merge.
Lanes that can go on from a header rejoin there (R98). -/
abbrev PathKey := Word × Word × Bool × Nat

def Lane.key (x : Lane) : PathKey := if x.inside then (x.pc, x.hdr, true, x.tag) else (x.pc, x.pc, false, 0)

/-- The paths of a sheaf that could issue, each with the PC and age of its lanes. -/
structure Path where
  lanes : LaneMask
  pc : Nat
  inside : Bool
  age : Nat
  cls : Nat
  deriving DecidableEq, Repr

/-- Lanes at a header that the scoreboard holds there once the tokens of its WAIT read zero (R27, R28), a spilled register
that is read among the causes (R110). A header that fails its checks holds none. -/
def Sheaf.heldAt (h : Sheaf) (code : List Word) (k : Stook) (pc : Nat) (m : LaneMask) : LaneMask :=
  match fetchCheck code k h pc with
  | .error _ => 0
  | .ok ws =>
    let rw := clauseRegs h k ws
    let spilled := rw.1.any fun r => h.spilled.contains r
    if (List.range 6).any fun t => hdrWaits (code.getD pc 0) t && h.tokenCount t != 0 then 0
    else maskFilter m fun l =>
      (spilled && !(h.lane l).refilled) || (h.lane l).pending.any fun q => (rw.1 ++ rw.2.1).contains q.1

/-- The paths of a sheaf among its running lanes: those at one place, but that each lane the scoreboard holds at a header
stands for itself (R98). A path's age is the greatest of its lanes' (R100). -/
def Sheaf.paths (h : Sheaf) (code : List Word) (k : Stook) : List Path :=
  let run := lanesOf (h.lanesWhere Lane.running)
  ((run.map fun l => (h.lane l).key).eraseDups).flatMap fun key =>
    let mine := maskOf (run.filter fun l => (h.lane l).key == key)
    let pc := key.1.toNat
    let held := if key.2.2.1 then 0 else h.heldAt code k pc mine
    let path (m : LaneMask) : Path :=
      { lanes := m, pc := pc, inside := key.2.2.1, age := (lanesOf m).foldl (fun a l => max a (h.lane l).age) 0,
        cls := if key.2.2.1 then (((lanesOf m).head?.map fun l => (h.lane l).cls).getD 0) else hdrClass (code.getD pc 0) }
    (if mine &&& ~~~held = 0 then [] else [path (mine &&& ~~~held)]) ++ (lanesOf held).map fun l => path (maskOf [l])

/-- The lanes of each path take the path's age: where paths have joined at a header, the greatest (R100). -/
def Sheaf.joinAges (h : Sheaf) (code : List Word) (k : Stook) : Sheaf :=
  (h.paths code k).foldl (fun h p => h.modLanes p.lanes fun _ x => { x with age := p.age }) h

def State.joinAges (s : State) (u i : Nat) : State :=
  match s.stook? u with
  | none => s
  | some k => s.modSheaf u i fun h => h.joinAges (s.launchOf k).code k

/-- Lanes that the scoreboard holds at a header are marked: what they enter later is a path of its own until it stands at
another header (R98). A core in rotation waits for them instead (R115, R118). -/
def State.markHeld (s : State) (u i : Nat) : State :=
  match s.stook? u with
  | none => s
  | some k =>
    let h := k.sheaf i
    let code := (s.launchOf k).code
    let held := (((lanesOf (h.lanesWhere Lane.running)).filter fun l => !(h.lane l).inside).map fun l => (h.lane l).pc.toNat).eraseDups.foldl
      (fun m pc => m ||| h.heldAt code k pc (h.lanesWhere fun x => x.running && !x.inside && x.pc.toNat == pc)) (0 : LaneMask)
    let held := if (s.launchOf k).desc.rotates then 0 else held
    State.modSheaf { s with next := s.next + 32 } u i fun h => h.modLanes held fun l x =>
      { x with tag := if x.tag = 0 then s.next + l else x.tag }

/-! ### What keeps a word from issuing -/

/-- The token a word names; 7 for none. -/
def tokenAt (code : List Word) (pc : Nat) : Nat :=
  let w := code.getD pc 0
  let e := code.getD (pc + 1) 0
  match keyOf (opOf w) with
  | .A => if w.getLsbD 0 && (aForm (opOf w)).tok then (eTOK e).toNat else 7
  | .M => (meTOK e).toNat
  | _ => 7

/-- A word that needs room in the replay buffer (R370): MEM words, LDF, STF, MON, LAUNCH. -/
def replayWord : Instr → Bool
  | .ldf _ | .stf _ | .mon _ | .launch _ => true
  | .ld _ | .st _ | .lds _ | .sts _ | .atom _ | .cas _ | .red _ | .xred _ | .xrd _ | .fence _ | .pref _ | .cctl _ => true
  | .brset _ | .brget _ | .brinv _ | .tbegin _ | .tbeginl _ | .tend _ | .tabort _ | .tval _ | .tstat _ => true
  | .pbarOrd _ | .pbarSync _ => true
  | _ => false

/-- A word that can park and is therefore held while an element waits in staging (R171). -/
def parkWord : Instr → Bool
  | .ffn _ | .redl _ | .mmal _ => true
  | .mma w => w.fmt (aForm 0x080) != 0
  | _ => false

/-- The word of a path can issue: one that fails its checks can, and traps; another needs its token, room in the replay
buffer, its lanes' fences and persist barriers, and the park staging; a CBREL its release at CORE scope (R152, R314);
a word of a VALU, SYNC or SYS clause the register writes of the words before it (R29): a LAUNCH's answer. -/
def State.wordReady (s : State) (k : Stook) (i : Nat) (m : LaneMask) (code : List Word) (pc : Nat) : Bool :=
  let h := k.sheaf i
  let ins := instrAt code pc
  let c := s.core k.core
  let tok := tokenAt code pc
  let cls := classOf (code.getD pc 0)
  let ordered : Bool := cls = 0 || 5 ≤ cls
  let fp := if ordered then footprint ins h k else ([], [])
  let clear (l : Nat) : Bool :=
    let x := h.lane l
    x.persist.isEmpty && (match x.fence with
      | some (scope, _, n) => s.released { stook := k.uid, sheaf := i, lane := l } scope n
      | none => true)
  (issueCheck ins k h m).isSome || !ownOk ins k h
    || ((6 ≤ tok || h.tokenCount tok < 63)
      && (!replayWord ins || c.replay.length + Config.replayReserve ≤ Config.replayEntries)
      && (!accessWord ins || (lanesOf m).all clear)
      && (!parkWord ins || !c.parkStaged)
      && (!ordered || !(lanesOf m).any fun l => (h.lane l).pending.any fun q => (fp.1 ++ fp.2).contains q.1)
      && (!(match ins with | .cbrel _ => true | _ => false)
        || (lanesOf m).all fun l => s.released { stook := k.uid, sheaf := i, lane := l } 1 s.next))

/-- The registers that the clause at a header reads. -/
def headerReads (code : List Word) (k : Stook) (h : Sheaf) (pc : Nat) : List Nat :=
  (clauseRegs h k (walkClause code (pc + hdrCount (code.getD pc 0)) 15 (pc + 1)).1).1

/-- The paths of a sheaf that wait at a header ask for the refills of the spilled registers its clause reads (R110). -/
def State.askRefills (s : State) (u i : Nat) : State :=
  match s.stook? u with
  | none => s
  | some k =>
    let code := (s.launchOf k).code
    ((k.sheaf i).paths code k).foldl (fun s p =>
      if p.inside || (k.sheaf i).heldAt code k p.pc p.lanes = 0 then s
      else s.modSheaf u i fun h => h.askRefill p.lanes (headerReads code k (k.sheaf i) p.pc)) s

/-- A path at a header has something to do there: stop, trap, ask for a page, or enter its clause (R99). -/
def State.headerReady (s : State) (k : Stook) (i : Nat) (p : Path) : Bool :=
  let L := s.launchOf k
  let h := k.sheaf i
  let fresh := (lanesOf p.lanes).any fun l => !(h.lane l).passed
  if L.ending.isSome || (k.stopping != 0 && !L.desc.rotates) then false
  else if fresh && (k.stopAll || L.breakpoints.contains (BitVec.ofNat 32 p.pc)) then true
  else
    match L.codeStop p.pc with
    | some (.xlateMiss, _, va) => (s.granuleFault k.ctx va).isNone
    | some _ => true
    | none =>
      match fetchCheck L.code k h p.pc with
      | .error _ => true
      | .ok ws =>
        let hd := L.code.getD p.pc 0
        ((List.range 6).all fun t => !hdrWaits hd t || h.tokenCount t = 0)
          && h.heldAt L.code k p.pc p.lanes = 0
          && match ws.head? with
            | some w => s.wordReady k i p.lanes L.code w.1
            | none => true

/-- A path is ready (R99). -/
def State.pathReady (s : State) (k : Stook) (i : Nat) (p : Path) : Bool :=
  if p.inside then s.wordReady k i p.lanes (s.launchOf k).code p.pc else s.headerReady k i p

/-! ### Compare points (R384) -/

/-- Words that release or act at a home. -/
def pointOf (ins : Instr) : Bool :=
  match ins with
  | .ld w | .lds w | .atom w | .cas w | .red w | .xred w | .xrd w | .fence w => w.releases || (match ins with
    | .ld _ | .lds _ | .fence _ => false
    | _ => true)
  | .st w | .stf w | .sts w => w.releases
  | .tend _ | .launch _ | .cpy _ | .cpyg _ | .cpys _ | .bar _ | .bara _ | .cbrel _ => true
  | _ => false

/-- The index of the word a path issues next: its own, or the first of the clause it enters. -/
def Path.wordPc (p : Path) : Nat := if p.inside then p.pc else p.pc + 1

/-- A path of a twin stands before a compare point. -/
def State.atPoint (s : State) (k : Stook) (i : Nat) (p : Path) : Bool :=
  let code := (s.launchOf k).code
  let ins := instrAt code p.wordPc
  (k.twin.bind s.stook?).isSome
    && (p.inside || match fetchCheck code k (k.sheaf i) p.pc with | .ok _ => true | .error _ => false)
    && (issueCheck ins k (k.sheaf i) p.lanes).isNone && ownOk ins k (k.sheaf i) && pointOf ins

/-- The twins' stores up to the point have agreed and are performed (R384). -/
def State.pointPassed (s : State) (k : Stook) : Bool :=
  let through (x : Stook) : Bool := x.heldStores.isEmpty && (x.sheaves.all fun h => h.queue.isEmpty)
    && !((s.core x.core).stores.any fun r => r.stook == x.uid)
  k.passPoint && through k && (k.twin.bind s.stook?).all through

/-! ### The order of a sheaf's paths (R100) -/

/-- One path issues before another. -/
def Path.before (a b : Path) : Bool :=
  if 32 ≤ a.age || 32 ≤ b.age then b.age < a.age || (a.age = b.age && a.pc < b.pc)
  else population b.lanes < population a.lanes || (population a.lanes = population b.lanes && a.pc < b.pc)

/-- The order of a sheaf's ready paths. Two that stand at one PC, of one age or population, keep the order of their lowest lanes
(DESIGN CHOICE, log entry 75: the spec gives them none). -/
def orderPaths (ps : List Path) : List Path :=
  ps.foldl (fun o p => (o.takeWhile fun q => !p.before q) ++ p :: o.dropWhile fun q => !p.before q) []

/-- The paths that issue in one turn: the first, and the next of the same engine class. -/
def issuing (ps : List Path) : List Path :=
  match orderPaths ps with
  | [] => []
  | p :: rest => p :: ((rest.find? fun q => q.cls = p.cls).toList)

/-- Ages after a turn: of the ready paths, those that issued are at 0, the others one older. -/
def Sheaf.agePaths (h : Sheaf) (ready issued : List Path) : Sheaf :=
  let go : LaneMask := issued.foldl (fun m p => m ||| p.lanes) 0
  ready.foldl (fun h p => h.modLanes p.lanes fun _ x => { x with age := p.age + 1 }) h |>.modLanes go fun _ x => { x with age := 0 }

end Sys2Proof.Machine
end

