-- ==== Sys2Proof/Machine/Rotation.lean ====
section
/-! DEFINITION. The rotation of a core in deterministic mode, or of a twin's core (05 R113 to R116; 14 R315; 22 R383). -/

namespace Sys2Proof.Machine

open Sys2Proof

/-- A turn still to be taken, at its path as it stands: its lanes that can issue together. -/
def State.livePath (s : State) (f : Focus) : Option (Stook × Path) :=
  match s.stook? f.stook with
  | none => none
  | some k =>
    ((k.sheaf f.sheaf).paths (s.launchOf k).code k).findSome? fun p =>
      if p.lanes &&& f.lanes = 0 then none else some (k, { p with lanes := p.lanes &&& f.lanes })

/-- Whether a core has turns of its last step or cycle left. -/
def State.midStep (s : State) (core : Nat) : Bool :=
  s.turn.any fun f => (s.livePath f).any fun x => x.1.core == core

/-- Every lane of a sheaf has issued its EXIT: it has no more turns. -/
def Sheaf.spent (h : Sheaf) : Bool := h.live = 0

/-- The sheaves of a core whose slots are at a rotation position, by port, spent ones left out. -/
def State.considered (s : State) (core pos : Nat) : List (Stook × Nat) :=
  (List.range Config.portsPerCore).flatMap fun port =>
    (s.stooksOn core).flatMap fun k => ((List.range k.sheaves.length).filter fun i =>
      (k.sheaf i).slot = port + 8 * pos && !(k.sheaf i).spent).map fun i => (k, i)

/-! ### Admission (R113) -/

/-- The launch a core in deterministic mode admits stooks of. -/
def State.admitting (s : State) (core : Nat) : Option Launch :=
  ((s.stooksOn core).head?.map s.launchOf).filter fun l => l.desc.det && l.ending.isNone && !l.held

/-- Stooks drawn for a core are admitted while the next fits, those whose last EXIT has issued counted as gone; nothing
when what they hold is still to be freed, the lowest slots then free among it. Saved stooks of the core come back at a step too: those
of a PREEMPT or a quarantine ahead of the drawn ones, those of a quantum behind them (R112, R117, R378). -/
def State.takeOn (s : State) (core : Nat) : Nat → Option State
  | 0 => some s
  | n + 1 =>
    match s.admitting core with
    | none => some s
    | some l =>
      let after : State := { s with stooks := s.stooks.filter fun k => !(k.core == core && k.sheaves.all Sheaf.spent) }
      let back := l.saved.any fun v => v.first && s.substitute l v.core == some core
      match (if back || l.desc.place = 1 then none else s.nextDet l core) with
      | none =>
        if (after.restoreOn l core).isNone then some s
        else if after.stooks.length != s.stooks.length then none
        else match s.restoreOn l core with
          | none => none
          | some s => State.takeOn s core n
      | some (id, drawn) =>
        let slots := (after.freeSlots core).take l.desc.sheaves
        if !after.room core l then some s
        else if !slots.all fun x => (s.freeSlots core).contains x then none
        else
          match s.placeNew l id core with
          | none => none
          | some s =>
            let s := s.modLaunch l.ctx l.id fun l => { l with detNext := assocSet l.detNext drawn (id + 1) }
            State.takeOn (s.placed l (l.nextStook + 1)) core n

/-! ### What the core waits for (R115) -/

/-- A copy waits for a slot of its buffer that no release already issued will free, the commands before it counted as having
taken theirs (R315). -/
def State.ringFull (s : State) (y : Copy) : Bool :=
  let n := ctlCbuf y.ctl
  let before := (s.cores.flatMap Core.copies).filter fun z => z.state = 0 && z.stook == y.stook && ctlDcb z.ctl && ctlCbuf z.ctl == n && z.id < y.id
  ctlDcb y.ctl && ((s.stook? y.stook).bind fun k => k.cbuf? n).all fun b => b.free ≤ before.length

/-- A lane's hold that work already issued will end, or that its members have all come to: the core waits for it. -/
def State.workHold (s : State) (k : Stook) (i l : Nat) : Bool :=
  let h := k.sheaf i
  let x := h.lane l
  let c := s.core k.core
  if x.stop.isSome then false
  else match x.hold with
    | none => false
    | some (.waitm _) => false
    | some (.barw _) => false
    | some (.mwait _ _ _) => false
    | some (.cwait _) => true
    | some (.commit _ _ _) => true
    | some (.cbinit _ _ _) => true
    | some (.copy id) => c.copies.any fun y => y.id == id && !s.ringFull y
    | some (.cbacq (.cbacq w) _) =>
      let n := w.opt (aForm 0x111)
      ((k.cbuf? n).any fun b => b.filled != 0)
        || c.copies.any fun y => y.stook == k.uid && ctlDcb y.ctl && ctlCbuf y.ctl == n && y.state ≤ 3 && (y.state != 0 || !s.ringFull y)
    | some (.cbacq _ _) => false
    | some (.cross m _) => h.rm m &&& ~~~(h.crossers m) = 0
    | some (.tile _) => h.live &&& ~~~(h.lanesWhere fun y => y.stop.isNone && (match y.hold with | some (.tile _) => true | _ => false)) = 0
    | some (.bar n _ _ counted) => counted = 0 && h.live &&& ~~~(h.atBar n fun _ _ c => c = 0) = 0
        && !((k.barrier n).arrived.getLsbD i && (k.barrier n).next.getLsbD i)
    | some (.regroup _ _ _ _) =>
      !s.regroupFree { stook := k.uid, sheaf := i, lane := l } || !h.queue.isEmpty || c.reqs.any fun q => q.stook == k.uid && q.sheaf == i
        || k.sheaves.any fun g => g.lanes.any fun y => y.exitIssued && !y.exited
    | some (.txwait r _) =>
      !(s.locks.any fun q => r.words.contains (q.pa / 8, none) && !q.commit
          && ((s.stook? q.holder.stook).any fun y => y.core == k.core))

/-- The stores and accesses that a core has issued are performed as far as the core sees them, before it issues the next word:
its sheaves' queues and those that stooks now gone left are empty, and its loads and atomics have acted. -/
def State.memoryDone (s : State) (core : Nat) : Bool :=
  ((s.stooksOn core).all fun k => k.sheaves.all fun h => h.queue.isEmpty) && (s.core core).left.isEmpty && (s.core core).reqs.all Req.performed

/-- A lane of a stook is stopped, which holds every stook of its core until it is released; stooks of a launch that is
ending are past that. -/
def State.stoppedLane (s : State) (k : Stook) : Bool :=
  (s.launchOf k).ending.isNone && k.sheaves.any fun h => h.lanes.any fun y => !y.exited && y.stop.isSome

/-- The core waits before a step: a stopped lane, a path that cannot issue in a sheaf it considers, or work that a
hold in such a sheaf waits on. Paths of a launch that is ending are no longer waited for. -/
def State.stalls (s : State) (core : Nat) (here : List (Stook × Nat)) : Bool :=
  (here.any fun x =>
    let h := x.1.sheaf x.2
    let L := s.launchOf x.1
    (h.paths L.code x.1).any fun p => !(L.ending.isSome && !p.inside) && !s.pathReady x.1 x.2 p)
    || ((s.stooksOn core).any fun k => s.stoppedLane k)
    || here.any fun x => (List.range (x.1.sheaf x.2).lanes.length).any fun l => s.workHold x.1 x.2 l

/-! ### The step (R114) -/

/-- Time passes on a core: its cycles, and the residence of its stooks, by one and a free number more (R112, R200), and on
the launch controller's clock by another (R121). -/
def State.passTime (s : State) (core : Nat) : State :=
  let n := 1 + (Config.freeWord s.free).toNat
  let s := s.watch (1 + (Config.freeWord (s.free + 1)).toNat)
  let s : State := { s with
    free := s.free + 2
    stooks := s.stooks.map fun k => if k.core == core then { k with resident := k.resident + n } else k }
  s.modCore core fun c => { c with cycles := c.cycles + BitVec.ofNat 64 n }

/-- One sheaf's turn: its ages, and the paths that issue. -/
def State.takePaths (s : State) (u i : Nat) (ready : List Path) : State :=
  let go := issuing ready
  let s := s.modSheaf u i fun h => h.agePaths ready go
  { s with turn := s.turn ++ go.map fun p => { stook := u, sheaf := i, lanes := p.lanes } }

/-- A pre-emption of a core in rotation takes effect when every lane on it stands at a clause boundary or hold point, so that
the continuation issues as an uninterrupted run does (R116). -/
def State.frozen (s : State) (core : Nat) : Bool :=
  let ks := s.stooksOn core
  (ks.any fun k => k.stopping != 0) && ks.all fun k => s.rests k && !s.behind k

/-- ROTATION_STEP: admissions, then the ports together; the step is skipped when it considers no sheaf, and waits when it
must. With no sheaf left that could take a turn, only admission goes on. -/
def rotate (core : Nat) (s : State) : State :=
  if !((s.stooksOn core).any fun k => (s.launchOf k).desc.rotates) || s.midStep core || s.frozen core || !s.memoryDone core then s
  else
    match s.takeOn core Config.placesPerCore with
    | none => s
    | some t =>
      let pos := (t.core core).rotation
      let turn (c : Core) : Core := { c with rotation := (pos + 1) % 8 }
      let here := t.considered core pos
      if here.isEmpty then
        (if (t.stooksOn core).all fun k => k.sheaves.all Sheaf.spent then t else t.modCore core turn)
      else if t.stalls core here then here.foldl (fun t x => t.askRefills x.1.uid x.2) t
      else
        let t := here.foldl (fun t x =>
          t.takePaths x.1.uid x.2 (((x.1.sheaf x.2).paths (t.launchOf x.1).code x.1).filter fun p => t.pathReady x.1 x.2 p)) t
        (t.passTime core).modCore core fun c => { turn c with steps := c.steps + 1 }

/-- ROTATION_STEP (R114) -/
def execRotationStep (core : Nat) (s : State) : Host.Outcome State Fault Refusal := event s (rotate core)

end Sys2Proof.Machine
end

