-- ==== Sys2Proof/Machine/TxOps.lean ====
section
/-! DEFINITION. The transaction instructions (12 R269, R276 to R279, R285; 14 R316 to R319) and the commit. -/

namespace Sys2Proof.Machine

open Sys2Proof

/-! ### Beginning -/

/-- A lane begins or nests a transaction; `locked` and `target` count at depth 0 only, a ticket is drawn when none is
held; two twins share it (R269, R285, R384). -/
def beginLane (locked : Bool) (imm : Int) (u i : Nat) (s : State) (l : Nat) : State :=
  let ref : LaneRef := { stook := u, sheaf := i, lane := l }
  let x := s.laneAt ref
  if 7 ≤ x.tx.depth then s.abortLane ref 0x0a
  else if 0 < x.tx.depth then
    s.modLane ref fun x => { x.next 2 none with tx := { x.tx with depth := x.tx.depth + 1 } }
  else
    let twins := if locked then ((s.twinLane ref).map fun t => (s.laneAt t).tx.ticket).getD 0 else 0
    let draw := locked && x.tx.ticket = 0 && twins = 0
    let ticket := if draw then s.nextTicket else if x.tx.ticket = 0 then twins else x.tx.ticket
    let tx : TxState := { (default : TxState) with depth := 1, locked := locked, ticket := ticket,
                                                   target := x.hdr + BitVec.ofInt 32 imm }
    State.modLane { s with nextTicket := if draw then s.nextTicket + 1 else s.nextTicket } ref fun x =>
      { x.next 2 none with tx := tx }

/-- TBEGIN and TBEGINL for the lanes of a path, in ascending order. -/
def beginWord (i : Instr) (w : MWord) (locked : Bool) (s : State) : Host.Outcome State Fault Refusal :=
  issueWord i s fun p s =>
    ((lanesOf p.lanes).foldl (beginLane locked w.imm p.stook p.sheaf) s).modSheaf p.stook p.sheaf Sheaf.count

/-- TBEGIN (R316) -/
def execTbegin (w : MWord) (s : State) : Host.Outcome State Fault Refusal := beginWord (.tbegin w) w false s
/-- TBEGINL (R316) -/
def execTbeginl (w : MWord) (s : State) : Host.Outcome State Fault Refusal := beginWord (.tbeginl w) w true s

/-! ### Committing and validating (R277 to R279) -/

/-- The stack a word lies on, numbered as the home slices are (R277); the order within a stack is by address. -/
def homeOrder (pa : Nat) : Nat := if inNv pa then 16 + nvStack pa else (pa >>> 12) % 16

/-- Words in the order in which a commit locks them: keys are inserted in ascending order. -/
def insertWord (pa : Nat) : List Nat → List Nat
  | [] => [pa]
  | q :: t =>
    if q = pa then q :: t
    else if homeOrder pa < homeOrder q || (homeOrder pa = homeOrder q && pa < q) then pa :: q :: t
    else q :: insertWord pa t

/-- The words of a list of log entries, each once, in lock order. -/
def lockOrder (es : List LogEntry) : List Nat := es.foldl (fun l e => insertWord e.pa l) []

/-- The locks of one lane are released. -/
def State.unlockLane (s : State) (r : LaneRef) : State := s.unlock r.stook r.sheaf (maskOf [r.lane])

/-- An optimistic lane takes its commit locks in order: it goes on with all of them, waits on another commit keeping those
it has, or has aborted on a locked transaction's word. -/
def State.lockAll (s : State) (r : LaneRef) : List Nat → TxRes Unit
  | [] => .ok s ()
  | pa :: rest =>
    match s.locks.find? fun k => k.pa == pa with
    | some k =>
      if k.holder == r then s.lockAll r rest
      else if k.commit then .wait s
      else .aborted (s.abortLane r 0x01)
    | none =>
      State.lockAll { s with locks := s.locks ++ [{ pa := pa, holder := r, commit := true, ticket := 0 }] } r rest

/-- Whether every read entry still holds its value, deltas combined (R277). -/
def State.validates (s : State) (es : List LogEntry) : Bool :=
  es.all fun e => e.value == BitVec.ofNat 64 (s.homeWord e.pa)

/-- The bytes a lane's write log puts at the homes. -/
def LogEntry.writes (e : LogEntry) : List (ByteLoc × Byte) :=
  ((List.range 8).filter fun k => e.bytes.getLsbD k).map fun k =>
    ({ pa := e.pa + k, peer := none, la := false, key := e.key }, byteOf e.value k)

/-- A lane's part of a TEND or TVAL is done: it awaits the other lanes of the issue. -/
def State.partDone (s : State) (r : LaneRef) : State :=
  s.modLane r fun x => match x.hold with
    | some (.commit i g _) => { x with hold := some (.commit i g true) }
    | _ => x

/-- A committed lane (R277): status 0, depth 0, no ticket, empty logs; an acquire at DEVICE scope (R278). -/
def State.committed (s : State) (r : LaneRef) : State :=
  let core := ((s.stook? r.stook).getD default).core
  ((s.unlockLane r).modLane r fun x => { x with tx := default, txrec := false, txcode := 0 }).discardFor core 3

/-- The write logs of two twins agree (R384). -/
def sameWrites (a b : TxState) : Bool :=
  (a.writes.map fun e => (e.va, e.bytes, e.value)) == b.writes.map fun e => (e.va, e.bytes, e.value)

/-- One lane's attempt at its part of a TEND or TVAL. -/
def State.tryLane (s : State) (r : LaneRef) (i : Instr) (group : Nat) : State :=
  match s.stook? r.stook with
  | none => s
  | some k =>
    let x := s.laneAt r
    let val := match i with | .tval _ => true | _ => false
    let depth := x.tx.depth
    let twin := s.twinLane r
    let twinAt (t : LaneRef) : Bool := match (s.laneAt t).hold with | some (.commit _ _ false) => true | _ => false
    if depth = 0 then s.partDone r
    else if val && x.tx.locked then s.partDone r
    else if !val && 1 < depth then
      (s.modLane r fun x => { x with tx := { x.tx with depth := x.tx.depth - 1 } }).partDone r
    else if k.secondary && twin.isSome then s
    else if twin.any fun t => !twinAt t then s
    else if !s.released r 3 group then s
    else if twin.any fun t => !sameWrites x.tx (s.laneAt t).tx then
      s.containError { (default : FaultRec) with
        cause := .watermark, ctx := k.ctx, launch := k.launch, stookId := k.stookId, core := k.core,
        lanes := maskOf [r.lane], kind := .none }
    else
      let both (s : State) (f : LaneRef → State → State) : State := match twin with
        | some t => f t (f r s)
        | none => f r s
      let abort (s : State) : State := both s fun q s => s.abortLane q 0x01
      let commit (s : State) : State :=
        if val then both (s.unlockLane r) fun q s => s.partDone q
        else
          let ws := x.tx.writes.flatMap LogEntry.writes
          let a : Author := { core := some k.core, ctx := k.ctx, launch := k.launch, who := [(r.stook, r.sheaf, r.lane, x.epoch)], after := 0 }
          let s := if ws.isEmpty then s else s.storeAt a ws
          let s := x.tx.writes.foldl (fun s e => s.touchGranary e.pa e.reuse) s
          both s fun q s => (s.committed q).partDone q
      let goes := val || (x.tx.writes.all fun e => !inNv e.pa) || s.persistGoes k.core [(r.stook, r.sheaf, r.lane, x.epoch)]
      if !goes then s
      else if x.tx.locked then commit s
      else
        match s.lockAll r (lockOrder (x.tx.reads ++ if val then [] else x.tx.writes)) with
        | .wait s => s
        | .aborted s => match twin with
          | some t => s.abortLane t 0x01
          | none => s
        | .ok s _ =>
          let s := s.combine (x.tx.reads.flatMap fun e => (List.range 8).map fun j => e.pa + j)
          if !s.validates x.tx.reads then abort s else commit s

/-- The lanes of an issue of TEND or TVAL are taken in ascending order, each waiting for the one before it; when none is
left undone, those that continue go on behind the word, with their mask in the destination (R277, R317). -/
def State.tryCommit (s : State) (u i : Nat) (ins : Instr) (group : Nat) : State :=
  let rec go (s : State) : List Nat → State
    | [] => s
    | l :: ls =>
      let s := s.tryLane { stook := u, sheaf := i, lane := l } ins group
      if ((s.sheafAt u i).committers group (some false)).getLsbD l then s else go s ls
  let s := go s (lanesOf ((s.sheafAt u i).committers group (some false)))
  let h := s.sheafAt u i
  if h.committers group (some false) != 0 then s
  else
    let cont := h.committers group (some true)
    let dest := match ins with
      | .tend w => if isVReg w.d then some w.d.toNat else none
      | _ => none
    let s := s.modSheaf u i fun h => (h.finishHeld cont).nextLanes cont ins.size fun _ => none
    match dest with
    | none => s
    | some d =>
      (if cont = 0 then s else s.bindReg u i d cont).modSheaf u i fun h => h.writeLanes cont false d fun _ => cont.setWidth 64

/-- TEND or TVAL issued: its lanes come to the word, each to take its part. -/
def commitWord (i : Instr) (tok : Nat) (dest : OpCode7) (s : State) : Host.Outcome State Fault Refusal :=
  issueWord i s fun p s =>
    let group := s.next
    let (issue, s) := State.beginIssue { s with next := group + 1 } p.stook p.sheaf tok p.lanes
    let s := s.modSheaf p.stook p.sheaf fun h => (h.modLanes p.lanes fun _ x =>
      { x with
        hold := some (.commit i group false)
        issue := issue
        pending := if isVReg dest then x.pending ++ [(dest.toNat, group)] else x.pending }).count
    s.tryCommit p.stook p.sheaf i group

/-- TEND (R317) -/
def execTend (w : AWord) (s : State) : Host.Outcome State Fault Refusal := commitWord (.tend w) (w.tok (aForm 0x0e2)) w.d s
/-- TVAL (R279, R318) -/
def execTval (w : AWord) (s : State) : Host.Outcome State Fault Refusal := commitWord (.tval w) (w.tok (aForm 0x0e4)) cZERO s

/-- A commit that has held locks for 2 µs gives them up and its lane aborts with CONFLICT (R277). -/
def commitTimeout (r : LaneRef) (s : State) : State :=
  match (s.laneAt r).hold with
  | some (.commit i group false) =>
    if s.locks.any fun k => k.commit && k.holder == r then (s.abortLane r 0x01).tryCommit r.stook r.sheaf i group else s
  | _ => s

/-- COMMIT_LOCK_TIMEOUT (R277) -/
def execCommitLockTimeout (l : LaneRef) (s : State) : Host.Outcome State Fault Refusal := event s (commitTimeout l)

/-! ### TABORT, TSTAT -/

/-- TABORT (R318): each lane in a transaction aborts with its own code; the others go on. -/
def execTabort (w : AWord) (s : State) : Host.Outcome State Fault Refusal :=
  issueWord (.tabort w) s fun p s =>
    let h := s.sheafAt p.stook p.sheaf
    let tx := h.inTx p.lanes
    let code (l : Nat) : Nat := 0x80 + (h.src (w.sregN (aForm 0x0e3)) w.a l).toNat % 128
    let s := s.modSheaf p.stook p.sheaf fun h => (h.nextLanes (p.lanes &&& ~~~tx) (sizeA w) fun _ => none).count
    (lanesOf tx).foldl (fun s l => s.abortLane { stook := p.stook, sheaf := p.sheaf, lane := l } (code l)) s

/-- What TSTAT writes for a lane (R319). -/
def Lane.tstat (x : Lane) : Word :=
  BitVec.ofNat 32 ((if x.tx.locked then 2 ^ 20 else 0) + x.tx.depth * 2 ^ 16 + (if x.txrec then 256 else 0) + x.txcode.toNat)

/-- TSTAT (R319) -/
def execTstat (w : AWord) (s : State) : Host.Outcome State Fault Refusal :=
  sheafWord (.tstat w) s fun E h =>
    let g := h.writeLanes E false w.d.toNat fun l => (h.lane l).tstat.setWidth 64
    if w.opt (aForm 0x0e5) = 1 then g.modLanes E fun _ x => { x with txrec := false, txcode := 0 } else g

end Sys2Proof.Machine
end

