-- ==== Sys2Proof/Machine/Dispatch.lean ====
section
/-! DEFINITION. The dispatch: one arm for each instruction word and each event of the device. -/

namespace Sys2Proof.Machine

open Sys2Proof

/-- The meaning of an instruction or event at a state. -/
def exec (i : Instr) (s : State) : Host.Outcome State Fault Refusal :=
  match i with
  | .clauseFetch p => Sys2Proof.Machine.execClauseFetch p s
  | .rotationStep core => Sys2Proof.Machine.execRotationStep core s
  | .iadd w => Sys2Proof.Machine.execIadd w s
  | .isub w => Sys2Proof.Machine.execIsub w s
  | .imul w => Sys2Proof.Machine.execImul w s
  | .imulh w => Sys2Proof.Machine.execImulh w s
  | .imad w => Sys2Proof.Machine.execImad w s
  | .imin w => Sys2Proof.Machine.execImin w s
  | .imax w => Sys2Proof.Machine.execImax w s
  | .iabs w => Sys2Proof.Machine.execIabs w s
  | .and w => Sys2Proof.Machine.execAnd w s
  | .or w => Sys2Proof.Machine.execOr w s
  | .xor w => Sys2Proof.Machine.execXor w s
  | .andn w => Sys2Proof.Machine.execAndn w s
  | .shl w => Sys2Proof.Machine.execShl w s
  | .shr w => Sys2Proof.Machine.execShr w s
  | .sar w => Sys2Proof.Machine.execSar w s
  | .rotl w => Sys2Proof.Machine.execRotl w s
  | .bfx w => Sys2Proof.Machine.execBfx w s
  | .bfi w => Sys2Proof.Machine.execBfi w s
  | .popc w => Sys2Proof.Machine.execPopc w s
  | .clz w => Sys2Proof.Machine.execClz w s
  | .ctz w => Sys2Proof.Machine.execCtz w s
  | .brev w => Sys2Proof.Machine.execBrev w s
  | .iset w => Sys2Proof.Machine.execIset w s
  | .sel w => Sys2Proof.Machine.execSel w s
  | .mov w => Sys2Proof.Machine.execMov w s
  | .movi w => Sys2Proof.Machine.execMovi w s
  | .movw w lit => Sys2Proof.Machine.execMovw w lit s
  | .iadd64 w => Sys2Proof.Machine.execIadd64 w s
  | .imad64 w => Sys2Proof.Machine.execImad64 w s
  | .fadd w => Sys2Proof.Machine.execFadd w s
  | .fsub w => Sys2Proof.Machine.execFsub w s
  | .fmul w => Sys2Proof.Machine.execFmul w s
  | .ffma w => Sys2Proof.Machine.execFfma w s
  | .fmin w => Sys2Proof.Machine.execFmin w s
  | .fmax w => Sys2Proof.Machine.execFmax w s
  | .fabs w => Sys2Proof.Machine.execFabs w s
  | .fneg w => Sys2Proof.Machine.execFneg w s
  | .fset w => Sys2Proof.Machine.execFset w s
  | .fclass w => Sys2Proof.Machine.execFclass w s
  | .fcvt w => Sys2Proof.Machine.execFcvt w s
  | .frnd w => Sys2Proof.Machine.execFrnd w s
  | .fscalb w => Sys2Proof.Machine.execFscalb w s
  | .fdiv w => Sys2Proof.Machine.execFdiv w s
  | .fsqrt w => Sys2Proof.Machine.execFsqrt w s
  | .fdot2 w => Sys2Proof.Machine.execFdot2 w s
  | .iaddImm w => Sys2Proof.Machine.execIaddImm w s
  | .shlImm w => Sys2Proof.Machine.execShlImm w s
  | .shrImm w => Sys2Proof.Machine.execShrImm w s
  | .sarImm w => Sys2Proof.Machine.execSarImm w s
  | .rotlImm w => Sys2Proof.Machine.execRotlImm w s
  | .andImm w => Sys2Proof.Machine.execAndImm w s
  | .moviScalar w => Sys2Proof.Machine.execMoviScalar w s
  | .movwScalar w lit => Sys2Proof.Machine.execMovwScalar w lit s
  | .iaddScalarImm w => Sys2Proof.Machine.execIaddScalarImm w s
  | .bra w => Sys2Proof.Machine.execBra w s
  | .brv w => Sys2Proof.Machine.execBrv w s
  | .brs w => Sys2Proof.Machine.execBrs w s
  | .call w => Sys2Proof.Machine.execCall w s
  | .ret w => Sys2Proof.Machine.execRet w s
  | .jmpi w => Sys2Proof.Machine.execJmpi w s
  | .exit w => Sys2Proof.Machine.execExit w s
  | .exitComplete l => Sys2Proof.Machine.execExitComplete l s
  | .join w => Sys2Proof.Machine.execJoin w s
  | .leave w => Sys2Proof.Machine.execLeave w s
  | .waitm w => Sys2Proof.Machine.execWaitm w s
  | .mset w => Sys2Proof.Machine.execMset w s
  | .mmov w => Sys2Proof.Machine.execMmov w s
  | .mget w => Sys2Proof.Machine.execMget w s
  | .bar w => Sys2Proof.Machine.execBar w s
  | .bara w => Sys2Proof.Machine.execBara w s
  | .barw w => Sys2Proof.Machine.execBarw w s
  | .mon w => Sys2Proof.Machine.execMon w s
  | .mwait w => Sys2Proof.Machine.execMwait w s
  | .mwaitTimeout l => Sys2Proof.Machine.execMwaitTimeout l s
  | .mwaitSpuriousWake l => Sys2Proof.Machine.execMwaitSpuriousWake l s
  | .shfl w => Sys2Proof.Machine.execShfl w s
  | .vote w => Sys2Proof.Machine.execVote w s
  | .matchLanes w => Sys2Proof.Machine.execMatchLanes w s
  | .uni w => Sys2Proof.Machine.execUni w s
  | .rdlane w => Sys2Proof.Machine.execRdlane w s
  | .wrlane w => Sys2Proof.Machine.execWrlane w s
  | .elect w => Sys2Proof.Machine.execElect w s
  | .regroup w => Sys2Proof.Machine.execRegroup w s
  | .yield w => Sys2Proof.Machine.execYield w s
  | .nop w => Sys2Proof.Machine.execNop w s
  | .rdsr w => Sys2Proof.Machine.execRdsr w s
  | .wrsr w => Sys2Proof.Machine.execWrsr w s
  | .rand w => Sys2Proof.Machine.execRand w s
  | .trap w => Sys2Proof.Machine.execTrap w s
  | .bkpt w => Sys2Proof.Machine.execBkpt w s
  | .launch w => Sys2Proof.Machine.execLaunch w s
  | .launchAnswer core k => Sys2Proof.Machine.execLaunchAnswer core k s
  | .vfree w => Sys2Proof.Machine.execVfree w s
  | .ffn w => Sys2Proof.Machine.execFfn w s
  | .redl w => Sys2Proof.Machine.execRedl w s
  | .mma w => Sys2Proof.Machine.execMma w s
  | .mmal w => Sys2Proof.Machine.execMmal w s
  | .ldf w => Sys2Proof.Machine.execLdf w s
  | .stf w => Sys2Proof.Machine.execStf w s
  | .parkEntryGrant core k => Sys2Proof.Machine.execParkEntryGrant core k s
  | .wuAccept cluster => Sys2Proof.Machine.execWuAccept cluster s
  | .wuDecide core k => Sys2Proof.Machine.execWuDecide core k s
  | .xsAccept die => Sys2Proof.Machine.execXsAccept die s
  | .xsDecide core k => Sys2Proof.Machine.execXsDecide core k s
  | .registerRefill stook sheaf reg => Sys2Proof.Machine.execRegisterRefill stook sheaf reg s
  | .brset w => Sys2Proof.Machine.execBrset w s
  | .brget w => Sys2Proof.Machine.execBrget w s
  | .brinv w => Sys2Proof.Machine.execBrinv w s
  | .ld w => Sys2Proof.Machine.execLd w s
  | .st w => Sys2Proof.Machine.execSt w s
  | .lds w => Sys2Proof.Machine.execLds w s
  | .sts w => Sys2Proof.Machine.execSts w s
  | .atom w => Sys2Proof.Machine.execAtom w s
  | .cas w => Sys2Proof.Machine.execCas w s
  | .red w => Sys2Proof.Machine.execRed w s
  | .xred w => Sys2Proof.Machine.execXred w s
  | .xrd w => Sys2Proof.Machine.execXrd w s
  | .fence w => Sys2Proof.Machine.execFence w s
  | .pref w => Sys2Proof.Machine.execPref w s
  | .cctl w => Sys2Proof.Machine.execCctl w s
  | .loadResponse core k => Sys2Proof.Machine.execLoadResponse core k s
  | .homeRequest core k sector => Sys2Proof.Machine.execHomeRequest core k sector s
  | .bscFill core k => Sys2Proof.Machine.execBscFill core k s
  | .tbegin w => Sys2Proof.Machine.execTbegin w s
  | .tbeginl w => Sys2Proof.Machine.execTbeginl w s
  | .tend w => Sys2Proof.Machine.execTend w s
  | .tabort w => Sys2Proof.Machine.execTabort w s
  | .tval w => Sys2Proof.Machine.execTval w s
  | .tstat w => Sys2Proof.Machine.execTstat w s
  | .commitLockTimeout l => Sys2Proof.Machine.execCommitLockTimeout l s
  | .lockedAccessTimeout core k => Sys2Proof.Machine.execLockedAccessTimeout core k s
  | .pbarOrd w => Sys2Proof.Machine.execPbarOrd w s
  | .pbarSync w => Sys2Proof.Machine.execPbarSync w s
  | .pbarSyncComplete l => Sys2Proof.Machine.execPbarSyncComplete l s
  | .cpy w => Sys2Proof.Machine.execCpy w s
  | .cpyg w => Sys2Proof.Machine.execCpyg w s
  | .cpys w => Sys2Proof.Machine.execCpys w s
  | .copyAccept core k => Sys2Proof.Machine.execCopyAccept core k s
  | .copyChunk core k n sector => Sys2Proof.Machine.execCopyChunk core k n sector s
  | .cwait w => Sys2Proof.Machine.execCwait w s
  | .cbinit w => Sys2Proof.Machine.execCbinit w s
  | .cbacq w => Sys2Proof.Machine.execCbacq w s
  | .cbrel w => Sys2Proof.Machine.execCbrel w s
  | .pageWalk core ctx va => Sys2Proof.Machine.execPageWalk core ctx va s
  | .faultService fault => Sys2Proof.Machine.execFaultService fault s
  | .faultAckRetry h fault => Sys2Proof.Machine.execFaultAckRetry h fault s
  | .faultAckNomap h fault => Sys2Proof.Machine.execFaultAckNomap h fault s
  | .faultAckResume h fault => Sys2Proof.Machine.execFaultAckResume h fault s
  | .faultAckEndLaunch h fault => Sys2Proof.Machine.execFaultAckEndLaunch h fault s
  | .faultAckEndContext h fault => Sys2Proof.Machine.execFaultAckEndContext h fault s
  | .submit h queue desc => Sys2Proof.Machine.execSubmit h queue desc s
  | .cancel h launch => Sys2Proof.Machine.execCancel h launch s
  | .query h launch => Sys2Proof.Machine.execQuery h launch s
  | .telemetryQuery h => Sys2Proof.Machine.execTelemetryQuery h s
  | .memread h b => Sys2Proof.Machine.execMemread h b s
  | .memwrite h b data => Sys2Proof.Machine.execMemwrite h b data s
  | .settingsWrite h b data => Sys2Proof.Machine.execSettingsWrite h b data s
  | .ctxset h rec => Sys2Proof.Machine.execCtxset h rec s
  | .peercfg h cfg => Sys2Proof.Machine.execPeercfg h cfg s
  | .seqGapTimeout ctx => Sys2Proof.Machine.execSeqGapTimeout ctx s
  | .controlPortFailover port => Sys2Proof.Machine.execControlPortFailover port s
  | .stookPlacement core => Sys2Proof.Machine.execStookPlacement core s
  | .quantumExpiry stook => Sys2Proof.Machine.execQuantumExpiry stook s
  | .watchdogExpiry ctx launch => Sys2Proof.Machine.execWatchdogExpiry ctx launch s
  | .preempt h launch => Sys2Proof.Machine.execPreempt h launch s
  | .restore h launch => Sys2Proof.Machine.execRestore h launch s
  | .setbp h launch arg0 arg1 => Sys2Proof.Machine.execSetbp h launch arg0 arg1 s
  | .clrbp h launch arg0 arg1 => Sys2Proof.Machine.execClrbp h launch arg0 arg1 s
  | .stopall h launch arg0 arg1 => Sys2Proof.Machine.execStopall h launch arg0 arg1 s
  | .release h launch arg0 arg1 => Sys2Proof.Machine.execRelease h launch arg0 arg1 s
  | .step h launch arg0 arg1 => Sys2Proof.Machine.execStep h launch arg0 arg1 s
  | .dump h launch arg0 arg1 => Sys2Proof.Machine.execDump h launch arg0 arg1 s
  | .keyloadLoad h slot rsv epk wkey => Sys2Proof.Machine.execKeyloadLoad h slot rsv epk wkey s
  | .keyloadErase h slot rsv epk wkey => Sys2Proof.Machine.execKeyloadErase h slot rsv epk wkey s
  | .fwupdateBegin h total => Sys2Proof.Machine.execFwupdateBegin h total s
  | .fwupdateData h offset data => Sys2Proof.Machine.execFwupdateData h offset data s
  | .fwupdateCommit h => Sys2Proof.Machine.execFwupdateCommit h s
  | .attest h nonce => Sys2Proof.Machine.execAttest h nonce s
  | .telemetryTick => Sys2Proof.Machine.execTelemetryTick s
  | .powerWindow mw mdeg => Sys2Proof.Machine.execPowerWindow mw mdeg s
  | .thermalTrip die mdeg => Sys2Proof.Machine.execThermalTrip die mdeg s
  | .powerLoss drained => Sys2Proof.Machine.execPowerLoss drained s
  | .stagingDrain stack => Sys2Proof.Machine.execStagingDrain stack s
  | .powerUp energyOk => Sys2Proof.Machine.execPowerUp energyOk s
  | .laSnapshot ctx launch granule => Sys2Proof.Machine.execLaSnapshot ctx launch granule s
  | .granuleSnapshot ctx launch granule => Sys2Proof.Machine.execGranuleSnapshot ctx launch granule s
  | .laCompletionRecord ctx launch => Sys2Proof.Machine.execLaCompletionRecord ctx launch s
  | .watermarkCompare stook twin => Sys2Proof.Machine.execWatermarkCompare stook twin s
  | .twinTimeout stook => Sys2Proof.Machine.execTwinTimeout stook s
  | .sampleCheck ctx launch stookid verdict => Sys2Proof.Machine.execSampleCheck ctx launch stookid verdict s
  | .scrub pa sector => Sys2Proof.Machine.execScrub pa sector s
  | .calibration resource => Sys2Proof.Machine.execCalibration resource s
  | .nvWearManagement stack permille => Sys2Proof.Machine.execNvWearManagement stack permille s
  | .linkRetrain link ok => Sys2Proof.Machine.execLinkRetrain link ok s
  | .unassignedSlotIssue w => Sys2Proof.Machine.execUnassignedSlotIssue w s
  | .unknownMessageType h m => Sys2Proof.Machine.execUnknownMessageType h m s
  | .controlFrameRetransmit port => Sys2Proof.Machine.execControlFrameRetransmit port s
  | .peerFrameRetransmit link => Sys2Proof.Machine.execPeerFrameRetransmit link s
  | .storeQueueDrain stook sheaf => Sys2Proof.Machine.execStoreQueueDrain stook sheaf s

end Sys2Proof.Machine
end

