-- ==== Sys2Proof/Machine/Schedule.lean ====
section
/-! DEFINITION. What happens next (05 R98 to R101, R113 to R115): the word of the path in focus, the next path of the
same cycle or rotation step, what the state alone decides, an event on the agenda, or what the device does of itself. -/

namespace Sys2Proof.Machine

open Sys2Proof

/-- The instruction at a path's PC: its word and, when it has one, the word after it (R10). -/
def State.wordAt (s : State) (p : Focus) : Instr :=
  let k := (s.stook? p.stook).getD default
  instrAt (s.launchOf k).code (((lanesOf p.lanes).head?.map fun l => ((k.sheaf p.sheaf).lane l).pc.toNat).getD 0)

/-! ### The turns of a cycle or step -/

/-- A path's turn: the fetch of its clause, or its word with the path in focus. A compare point is passed with it. -/
def State.promote (s : State) (f : Focus) (k : Stook) (p : Path) (rest : List Focus) : Instr × State :=
  let f : Focus := { f with lanes := p.lanes }
  let s : State := { s with turn := rest }
  let s := if s.atPoint k f.sheaf p then s.modStook k.uid fun k => { k with atPoint := false, passPoint := false } else s
  if p.inside then (s.wordAt f, { s with focus := some f })
  else (.clauseFetch { stook := f.stook, sheaf := f.sheaf, lanes := f.lanes }, s)

/-- A turn waits: at a compare point (R384), or on a rotating core for what earlier turns have issued (R115). -/
def State.turnWaits (s : State) (f : Focus) (k : Stook) (p : Path) : Bool :=
  (s.atPoint k f.sheaf p && !s.pointPassed k) || ((s.launchOf k).desc.rotates && !s.memoryDone k.core)

/-- The first turn that can be taken; one that waits keeps the turns of its core behind it waiting (R114, R384). -/
def State.pickTurn (s : State) (kept : List Focus) (cores : List Nat) : List Focus → Option (Instr × State)
  | [] => none
  | f :: rest =>
    match s.livePath f with
    | none => s.pickTurn kept cores rest
    | some (k, p) =>
      if cores.contains k.core || s.turnWaits f k p then s.pickTurn (kept ++ [f]) (cores ++ [k.core]) rest
      else some (s.promote f k p (kept ++ rest))

/-! ### What the state alone decides -/

/-- Transactional accesses and commits of a sheaf's lanes that wait are tried again. -/
def State.settleTx (s : State) (u i : Nat) : State :=
  let h := s.sheafAt u i
  let run (l : Nat) : Bool := (h.lane l).stop.isNone
  let ls := (List.range h.lanes.length).filter run
  let s := ls.foldl (fun s l =>
    let r : LaneRef := { stook := u, sheaf := i, lane := l }
    match (s.laneAt r).hold with
    | some (.txwait q n) => s.txGo r q n
    | _ => s) s
  let gs := (ls.filterMap fun l => match (h.lane l).hold with | some (.commit ins g _) => some (ins, g) | _ => none).eraseDups
  gs.foldl (fun s g => if (s.sheafAt u i).committers g.2 none = 0 then s else s.tryCommit u i g.1 g.2) s

/-- The barriers of a stook that something has come to. -/
def Stook.barriersUsed (k : Stook) : List Nat :=
  (k.barriers.map Prod.fst ++ k.sheaves.flatMap fun h => h.lanes.filterMap fun x => match x.hold with
    | some (.bar n _ _ _) => some n
    | some (.barw n) => some n
    | _ => none).eraseDups

/-- A stook is looked at: stops asked for, masks, tiles, waits that have ended, barriers, regroups, its save. -/
def State.settleStook (s : State) (u : Nat) : State :=
  match s.stook? u with
  | none => s
  | some k =>
    let s := (s.settleRerun k).settleDebug u
    let s := (List.range k.sheaves.length).foldl (fun s i =>
      let s := (((s.settleSheaf u i).settleMwait u i).settleCwait u i).settleBuffers u i
      let s := (s.joinAges u i).markHeld u i
      let s := if (s.launchOf k).desc.rotates || k.stopping != 0 || (s.launchOf k).ending.isSome then s else s.askRefills u i
      s.settleTx u i) s
    let s := k.barriersUsed.foldl (fun s n => s.settleBarrier u n) s
    (s.settleRegroup u).settleSave u

/-- Turns that wait at a compare point mark their twin as standing at it (R384). -/
def State.settlePoints (s : State) : State :=
  s.turn.foldl (fun s f => match s.livePath f with
    | some (k, p) =>
      if s.atPoint k f.sheaf p && !k.atPoint then s.modStook k.uid fun k => { k with atPoint := true } else s
    | none => s) s

/-- Masks that the words of a cycle have changed are looked at before its next word issues (R104, R106). -/
def State.settleTurn (s : State) : State := s.turn.foldl (fun s f => s.settleSheaf f.stook f.sheaf) s

/-- Everything that follows from the state without an event. -/
def State.settle (s : State) : State :=
  let s := (s.stooks.map Stook.uid).foldl State.settleStook s
  let s := s.settlePoints.dropFailed.settleQuarantine
  let s := s.launches.foldl (fun s l => match s.launch? l.ctx l.id with
    | some l => let s := s.settleEnding l
      match s.launch? l.ctx l.id with
      | some l => s.settleDone l
      | none => s
    | none => s) s
  let s := s.settleHeld.settlePending
  (s.inbox.map fun m => m.1.context).eraseDups.foldl State.nextMessage s

/-- Two states differ in more than the counters of free values and numbers. -/
def State.differs (a b : State) : Bool :=
  ({ a with free := 0, next := 0, scan := 0 } : State) != { b with free := 0, next := 0, scan := 0 }

/-! ### What the device can do of itself -/

/-- The elements of a copy's next chunk, which the spec leaves to the engine (R309): those of one index entry, or 64, or all. -/
def Copy.chunkSize (c : Copy) (free : Nat) : Nat :=
  if Config.freeHit free c.id then c.total else if c.kind = 0 then 64 else shapeRun c.shape

/-- The events a core may be ready for. -/
def Core.events (free : Nat) (c : Core) : List Instr :=
  let n := c.num
  ((List.range c.homeList.length).map fun k => .homeRequest n k .good) ++ ((List.range c.reqs.length).map fun k => .loadResponse n k)
    ++ ((List.range c.bsc.length).map fun k => .bscFill n k) ++ ((List.range c.park.length).map fun k => .parkEntryGrant n k)
    ++ ((List.range c.park.length).map fun k => .wuDecide n k) ++ ((List.range c.park.length).map fun k => .xsDecide n k)
    ++ ((List.range c.copies.length).map fun k => .copyAccept n k) ++ (c.running.mapIdx fun k x => .copyChunk n k (x.chunkSize free) .good)
    ++ ((List.range c.launches.length).map fun k => .launchAnswer n k)
    ++ (if c.park.isEmpty then [] else [.wuAccept (clusterOf n), .xsAccept (dieOf n)]) ++ [.rotationStep n]

/-- The accesses of a core, and the commits of a stook, that may have waited too long for a lock (R277, R287). -/
def Core.timeouts (c : Core) : List Instr :=
  (List.range (c.homeList.length + c.running.length)).map fun k => .lockedAccessTimeout c.num k
def Stook.timeouts (k : Stook) : List Instr :=
  (List.range k.sheaves.length).flatMap fun i => ((List.range (k.sheaf i).lanes.length).filter fun l =>
    match ((k.sheaf i).lane l).hold with | some (.commit _ _ _) => true | _ => false).map fun l =>
      .commitLockTimeout { stook := k.uid, sheaf := i, lane := l }

/-- The events a stook may be ready for. -/
def Stook.events (k : Stook) : List Instr :=
  ((List.range k.sheaves.length).flatMap fun i =>
    let h := k.sheaf i
    let ref (l : Nat) : LaneRef := { stook := k.uid, sheaf := i, lane := l }
    (if h.queue.isEmpty then [] else [.storeQueueDrain k.uid i])
      ++ (((h.lanes.flatMap fun x => x.pending).filter fun q => q.2 = 0).map Prod.fst).eraseDups.map (fun r => .registerRefill k.uid i r)
      ++ (List.range h.lanes.length).flatMap fun l =>
        let x := h.lane l
        (if x.exitIssued && !x.exited then [.exitComplete (ref l)] else []) ++ (if !x.persist.isEmpty then [.pbarSyncComplete (ref l)] else [])
          ++ match x.hold with
            | some (.mwait _ _ _) => [.mwaitTimeout (ref l)]
            | _ => [])
    ++ [.quantumExpiry k.uid] ++ k.twin.toList.map fun t => .watermarkCompare k.uid t

/-- Granules that writes of the device's requests reach. -/
def State.writtenGranules (s : State) : List (Nat × Word × Nat) :=
  ((s.cores.flatMap (fun c => c.homeList ++ c.left) ++ s.stooks.flatMap fun k => k.heldStores ++ k.sheaves.flatMap Sheaf.queue).flatMap fun r =>
    if r.writes && !r.spad then r.locs.map fun b => (r.ctx, r.launch, granuleOf b.pa) else []).eraseDups

/-- The cores a launch may be placed on next, from a free one on; some that may take its second runs. -/
def State.placeEvents (s : State) (l : Launch) : List Instr :=
  let el := if l.eligible.isEmpty then s.eligibleFor l else l.eligible
  let n := (Config.freeWord (s.free + 1)).toNat % max 1 el.length
  let again := (List.range Config.numCores).filter fun c => (s.toRerun l).any fun d => s.rerunCore l d c
  if s.ready l then (el.drop n ++ el.take n).map .stookPlacement
  else ((again.drop ((Config.freeWord (s.free + 1)).toNat % max 1 again.length)).take 24).map .stookPlacement

/-- The verdicts on second runs (R385); one that holds stores may have to evict a line of them. -/
def State.sampleEvents (s : State) : List Instr :=
  (s.launches.flatMap fun l => l.verdicts.map fun v => .sampleCheck l.ctx l.id v.1 v.2.1)
    ++ (s.stooks.filter fun k => k.rerun.isSome && !k.heldStores.isEmpty && Config.freeHit s.free k.uid).map fun k =>
        .sampleCheck k.ctx k.launch k.stookId .abandoned

/-- Stores that stooks now gone left leave their queues (R119); NV writes that are visible become durable (R290). -/
def State.leftEvents (s : State) : List Instr :=
  ((s.cores.flatMap Core.left).map fun q => (q.stook, q.sheaf)).eraseDups.map fun q => .storeQueueDrain q.1 q.2
def State.persistEvents (s : State) : List Instr :=
  (s.volatile.map NvWrite.core).eraseDups.flatMap fun n =>
    (List.range (s.volatileOf n).length).map fun k => .homeRequest n ((s.core n).homeList.length + k) .good

/-- The events the device may be ready for. -/
def State.events (s : State) : List Instr :=
  (s.cores.flatMap (Core.events s.free)) ++ (s.stooks.flatMap Stook.events) ++ s.leftEvents ++ s.persistEvents ++ s.sampleEvents
    ++ (s.cores.flatMap Core.timeouts) ++ (s.stooks.flatMap Stook.timeouts)
    ++ ((List.range s.transfers.length).map fun k => .lockedAccessTimeout Config.numCores k)
    ++ ((s.faults.filter fun f => !f.reported).map fun f => .faultService f.id)
    ++ (s.launches.flatMap fun l => [.watchdogExpiry l.ctx l.id] ++ s.placeEvents l ++ if l.desc.la && l.state = 3 then [.laCompletionRecord l.ctx l.id] else [])
    ++ (s.writtenGranules.flatMap fun g => [.laSnapshot g.1 g.2.1 g.2.2, .granuleSnapshot g.1 g.2.1 g.2.2])
    ++ s.transfers.map Transfer.req ++ ((s.staging.map Staged.stack).eraseDups.map .stagingDrain)

/-- An event would change the state now. -/
def State.enabled (s : State) (i : Instr) : Bool :=
  match exec i s with
  | .next t => t.differs s
  | _ => false

/-! ### A cycle of a core in free mode (R100) -/

/-- The sheaves of a core with a ready path. -/
def State.readySheaves (s : State) (core : Nat) : List (Stook × Nat × List Path) :=
  (s.stooksOn core).flatMap fun k =>
    if (s.launchOf k).desc.rotates then []
    else (List.range k.sheaves.length).filterMap fun i =>
      let ps := ((k.sheaf i).paths (s.launchOf k).code k).filter fun p => s.pathReady k i p
      if ps.isEmpty then none else some (k, i, ps)

/-- A port's choice: a sheaf that has not yielded before one that has, then the greatest age, then the lowest slot. -/
def pickSheaf (rs : List (Stook × Nat × List Path)) : Option (Stook × Nat × List Path) :=
  let rank (x : Stook × Nat × List Path) : Bool × Nat × Nat := let h := x.1.sheaf x.2.1; (h.yielded || h.lanes.any (fun y => y.yields && !y.inside), h.age, h.slot)
  rs.foldl (fun b x => match b with
    | none => some x
    | some y =>
      let a := rank x
      let c := rank y
      if a.1 != c.1 then (if a.1 then b else some x)
      else if c.2.1 < a.2.1 || (a.2.1 = c.2.1 && a.2.2 < c.2.2) then some x else b) none

/-- Something on the core waits for time alone: a watchdog, a lane's MWAIT, a stook's quantum (R121, R192, R112). -/
def State.waitsForTime (s : State) (core : Nat) : Bool :=
  (s.stooksOn core).any fun k =>
    let l := s.launchOf k
    s.watching l || !l.desc.rotates && ((l.desc.place = 2 && l.unplaced && k.stopping = 0) || k.sheaves.any fun h => h.lanes.any fun x =>
      x.stop.isNone && match x.hold with | some (.mwait _ t _) => t != 0 | _ => false)

/-- Whether a core's clock brings anything on. -/
def State.canTick (s : State) (core : Nat) : Bool :=
  !s.midStep core && (!(s.readySheaves core).isEmpty || s.waitsForTime core)

/-- A cycle: each port chooses a sheaf and takes its paths; the order of the ports' effects is free. -/
def State.tick (s : State) (core : Nat) : State :=
  let rs := s.readySheaves core
  let first := (Config.freeWord s.free).toNat % Config.portsPerCore
  let ports := (List.range Config.portsPerCore).map fun j => (first + j) % Config.portsPerCore
  let chosen := ports.filterMap fun p => pickSheaf (rs.filter fun x => (x.1.sheaf x.2.1).slot % Config.portsPerCore = p)
  let isChosen (x : Stook × Nat × List Path) : Bool := chosen.any fun y => y.1.uid == x.1.uid && y.2.1 == x.2.1
  let s := rs.foldl (fun s x => if isChosen x then s else s.modSheaf x.1.uid x.2.1 fun h =>
    { h.agePaths x.2.2 [] with age := h.age + 1 }) { s with free := s.free + 1 }
  let s := chosen.foldl (fun s x => (s.modSheaf x.1.uid x.2.1 fun h => { h with age := 0 }).takePaths x.1.uid x.2.1 x.2.2) s
  let served := chosen.map fun x => (x.1.sheaf x.2.1).slot % Config.portsPerCore
  let heard (h : Sheaf) : Sheaf := if served.contains (h.slot % Config.portsPerCore) then
    { h with yielded := false, lanes := h.lanes.map fun y => { y with yields := y.yields && y.inside } } else h
  State.passTime { s with
    stooks := s.stooks.map fun k => if k.core == core then { k with sheaves := k.sheaves.map heard } else k } core

/-! ### Eviction (R145) -/

/-- Deltas whose line a cache may evict, with the core that holds each: from its L1, or from a die's L2. -/
def State.evictable (s : State) : List (Option Nat × Delta) :=
  (s.cores.flatMap fun c => c.deltas.map fun d => (some c.num, d))
    ++ (s.dies.flatMap Die.deltas).map fun d => (none, d)

/-- A line is evicted, which one being free: its delta goes from L1 to its die's L2, or from L2 to its home. -/
def State.evict (s : State) : State :=
  let es := s.evictable
  let t : State := { s with free := s.free + 1 }
  match es[(Config.freeWord s.free).toNat % max 1 es.length]? with
  | none => s
  | some (some n, d) =>
    (t.modCore n fun c => { c with deltas := c.deltas.filter fun x => x != d }).modDie (dieOf n) fun e =>
      { e with deltas := Machine.addDelta d e.deltas }
  | some (none, d) => t.combineIf fun x => x == d

/-! ### The choice -/

/-- What the device can do of itself. -/
inductive Own where
  | happen (i : Instr)
  | cycle (core : Nat)
  | evict
  deriving DecidableEq, Repr

def State.can (s : State) : Own → Bool
  | .happen i => s.enabled i
  | .cycle c => s.canTick c
  | .evict => !s.evictable.isEmpty

/-- What the device does of itself: an event it is ready for, a cycle of a core, an eviction. Which is free, but that every eighth
choice begins at the next place in turn, so that nothing it is ready for is put off for ever (R142). -/
def State.own (s : State) : Option Instr × State :=
  let all := s.events.map Own.happen ++ (s.cores.map fun c => Own.cycle c.num) ++ [.evict]
  let n := (if s.scan % 8 = 7 then s.scan / 8 else (Config.freeWord s.free).toNat) % max 1 all.length
  let t : State := { s with free := s.free + 2, scan := s.scan + 1 }
  match (all.drop n ++ all.take n).find? s.can with
  | some (.happen i) => (some i, t)
  | some (.cycle c) => (none, t.tick c)
  | some .evict => (none, t.evict)
  | none => (none, s)

/-- What the agenda may name: an event. Words and fetches come from paths alone. -/
def agendaItem : Instr → Bool
  | .clauseFetch _ => false
  | i => i.words = 0

/-- The agenda's head: an event to execute, or an entry dropped. -/
def State.fromAgenda (s : State) : Option (Option Instr × State) :=
  match s.agenda with
  | i :: rest => some (if agendaItem i then some i else none, { s with agenda := rest })
  | [] => none

/-- The path in focus, whose stook is resident. -/
def State.focused (s : State) : Option Focus := s.focus.filter fun p => (s.stook? p.stook).isSome

/-- What the device executes next, and the state in which it does so; nothing when the step is a change of its own. -/
def State.choose (s : State) : Option Instr × State :=
  match s.focused with
  | some p => (some (s.wordAt p), s)
  | none =>
    let s : State := { s with focus := none }
    if !s.powered then s.fromAgenda.getD (none, s)
    else
      let live := s.turn.filter fun f => (s.livePath f).isSome
      let s : State := { s with turn := live }
      let t := s.settleTurn
      if t.differs s then (none, t)
      else match s.pickTurn [] [] live with
      | some (i, t) => (some i, t)
      | none =>
        let t := s.settle
        if t.differs s then (none, t)
        else s.fromAgenda.getD s.own

end Sys2Proof.Machine
end

