-- ==== Sys2Proof/Machine/Step.lean ====
section
/-! DEFINITION. One step of the device: what happens next, and its meaning; and a state whose next step runs a given
instruction word (log entry 5). -/

namespace Sys2Proof.Machine

open Sys2Proof

/-- One step. -/
def step (s : State) : Host.Outcome State Fault Refusal :=
  match s.choose with
  | (some i, s') => exec i s'
  | (none, s') => .next s'

/-- The descriptor of the smallest launch: one stook of one sheaf (R351). -/
def Desc.smallest : Desc :=
  { (default : Desc) with version := 1, codeWords := 16, fieldX := 1, fieldY := 1, fieldZ := 1, sheaves := 1, l1 := 1 }

/-- A lane inside the clause at index 0, before the word at index 1. -/
def Lane.first (cls : Nat) : Lane :=
  { (default : Lane) with pc := 1, hdr := 0, cls := cls, fin := 16, inside := true, withdrawn := 7 }

/-- The state with one launch more, running on core 0 as its loader leaves it: its code is the header of a clause of the
word's class and the instruction whose bits are `w`, and its one path, of 32 lanes, stands before that instruction. -/
def State.withFetchWord (s : State) (nbits w : Nat) : State :=
  let v := w % 2 ^ nbits
  let w0 : Word := BitVec.ofNat 32 v
  let w1 : Word := BitVec.ofNat 32 (v >>> 32)
  let hdr : Word := BitVec.ofNat 32 (0xCF000000 + classOf w0 * 2 ^ 21)
  let c := s.ctx 0
  let id : Word := BitVec.ofNat 32 c.nextId
  let launch : Launch :=
    { (default : Launch) with
      ctx := 0, id := id, desc := Desc.smallest, code := [hdr, w0, w1, 0, 0, 0, 0, 0, 0, 0, 0, 0, 0, 0, 0, 0], state := 3, nextStook := 1,
      eligible := [0] }
  let sheaf : Sheaf := { Desc.smallest.newSheaf 0 0 with lanes := List.replicate 32 (Lane.first (classOf w0)) }
  let stook : Stook := { s.newStook launch 0 0 s.next false none with sheaves := [sheaf] }
  State.modCtx { s with
    launches := launch :: s.launches
    stooks := stook :: s.stooks
    focus := some { stook := s.next, sheaf := 0, lanes := BitVec.allOnes 32 }
    next := s.next + 1 } 0 fun c => { c with valid := true, nextId := c.nextId + 1 }

end Sys2Proof.Machine
end

