-- ==== Sys2Proof/Safety.lean ====
section
/-! DEFINITION. The terms claims are stated in: when a word issues and completes, what an event or a word leaves alone,
what a run keeps. -/

namespace Sys2Proof

/-- An instruction of the seven classes, or the issue of an unassigned slot: not an event. -/
def Instr.isWord (i : Instr) : Bool := i.op.isSome

end Sys2Proof

namespace Sys2Proof.Machine

open Sys2Proof

/-! ### Runs -/

/-- A property every step keeps. -/
def Kept (I : State → Prop) : Prop := ∀ s t : State, I s → step s = .next t → I t

/-- States a run reaches from a state. -/
inductive Reaches (s : State) : State → Prop where
  | refl : Reaches s s
  | step {t u : State} (h : Reaches s t) (n : Machine.step t = .next u) : Reaches s u

/-! ### Words -/

/-- The path in focus before its word: the path's lanes exist, run and stand at one PC. -/
structure AtWord (s : State) (p : Focus) (k : Stook) : Prop where
  focus : s.focus = some p
  stook : s.stook? p.stook = some k
  sheaf : p.sheaf < k.sheaves.length
  some' : p.lanes ≠ 0
  lanes : ∀ l, p.lanes.getLsbD l = true → l < (k.sheaf p.sheaf).lanes.length
  running : ∀ l, p.lanes.getLsbD l = true → ((k.sheaf p.sheaf).lane l).running = true
  place : ∃ a, ∀ l, p.lanes.getLsbD l = true → ((k.sheaf p.sheaf).lane l).pc = a

/-- The word `i` issues for the path `p` of the stook `k`: the path is in focus, its lanes exist, run and stand at one PC, the checks of R31 and
the word's own operand test hold, no lane is in a transaction that the word would abort (R206, R276), and the stook is no second run
that the word ends (R385). -/
structure Issues (i : Instr) (s : State) (p : Focus) (k : Stook) : Prop extends AtWord s p k where
  checks : issueCheck i k (k.sheaf p.sheaf) p.lanes = none
  own : ownOk i k (k.sheaf p.sheaf) = true
  tx : ∀ l, p.lanes.getLsbD l = true → 0 < ((k.sheaf p.sheaf).lane l).tx.depth →
    ((k.sheaf p.sheaf).lane l).tx.count < Config.txBudget ∧ refusedInTx i = false
  second : (k.rerun.isSome && endsRerun i) = false

/-- The sheaf of a path. -/
def State.here (s : State) (p : Focus) : Sheaf := s.sheafAt p.stook p.sheaf

/-- A lane of a path's sheaf. -/
def State.laneOf (s : State) (p : Focus) (l : Nat) : Lane := (s.here p).lane l

/-- The lane of a path goes on behind its word of `n` 32-bit words (R10, R25): the next word of its clause, or, past the
clause's last word, the header that follows. -/
structure GoesOn (x y : Lane) (n : Nat) : Prop where
  pc : y.pc = x.pc + BitVec.ofNat 32 n
  inside : y.inside = (x.inside && (x.pc + BitVec.ofNat 32 n != x.fin))
  pos : y.inside = true → y.pos = x.pos + 1 ∧ y.hdr = x.hdr ∧ y.fin = x.fin ∧ y.cls = x.cls

/-- What an instruction leaves alone in a lane: its transaction but for the count of its instructions, its status, its
monitor, its pending marks, whether it is held, stopped or gone. -/
structure LaneKept (x y : Lane) : Prop where
  tx : y.tx = { x.tx with count := y.tx.count }
  txcount : y.tx.count = if 0 < x.tx.depth then x.tx.count + 1 else x.tx.count
  txstat : y.txrec = x.txrec ∧ y.txcode = x.txcode
  monitor : y.monitor = x.monitor ∧ y.wake = x.wake
  state : y.exitIssued = x.exitIssued ∧ y.exited = x.exited ∧ y.stop = x.stop ∧ y.hold = x.hold ∧ y.pending = x.pending
  persist : y.persist = x.persist ∧ y.epoch = x.epoch ∧ y.nvSince = x.nvSince ∧ y.fence = x.fence

/-- What binding a register may do beside (R110, R366): room of a context's spill region is taken, or, when there is none,
a launch is marked as ending and the event is reported. -/
structure Aside (s t : State) : Prop where
  contexts : ∀ n, { t.ctx n with spillUsed := 0 } = { s.ctx n with spillUsed := 0 }
  launches : t.launches.map (fun l => { l with ending := none }) = s.launches.map fun l => { l with ending := none }
  faults : ∃ f, t.faults = s.faults ++ f
  sent : ∃ m, t.sent = s.sent ++ m

/-- What a word that acts on its own sheaf alone leaves unchanged: all of memory, every other sheaf, every stook but for
its sheaves, the device; in its sheaf the vector registers outside `vec`, the scalar registers outside `sc`, the masks
outside `mk`, FRM, the store queue, the lanes that are not the path's; FX takes the flags raised and RETIRED one more
issue. The registers bound to physical ones, the room in
the context's spill region and the end that follows when there is none may change (R110). -/
structure SheafFrame (s t : State) (p : Focus) (vec : Nat → Nat → Bool) (sc mk : Nat → Bool) (flags : BitVec 5) : Prop where
  mem : ∀ a, t.mem.byte a = s.mem.byte a
  device : t = { s with focus := none, stooks := t.stooks, contexts := t.contexts, launches := t.launches,
                        faults := t.faults, nextFault := t.nextFault, sent := t.sent, next := t.next,
                        free := t.free }
  aside : Aside s t
  stooks : ∀ u, (t.stook? u).map (fun k => { k with sheaves := [] }) = (s.stook? u).map fun k => { k with sheaves := [] }
  others : ∀ u i, (u, i) ≠ (p.stook, p.sheaf) → t.sheafAt u i = s.sheafAt u i
  vregs : ∀ r l, l < 32 → vec r l = false → (t.here p).rv r l = (s.here p).rv r l
  sregs : ∀ n, sc n = false → (t.here p).rs n = (s.here p).rs n
  masks : ∀ n, mk n = false → (t.here p).rm n = (s.here p).rm n
  frm : (t.here p).frm = (s.here p).frm
  fx : (t.here p).fx = (s.here p).fx ||| flags.setWidth 32
  retired : (t.here p).retired = (s.here p).retired + 1
  queue : (t.here p).queue = (s.here p).queue
  lanesOut : ∀ l, p.lanes.getLsbD l = false → (t.here p).lane l = (s.here p).lane l

/-- The lanes of a path keep what an instruction leaves alone. -/
def PathKept (s t : State) (p : Focus) : Prop :=
  ∀ l, p.lanes.getLsbD l = true → LaneKept ((s.here p).lane l) ((t.here p).lane l)

/-- No issue that counts for a wait token begins or ends in the sheaf of the path (R26). -/
def TokensKept (s t : State) (p : Focus) : Prop := (t.here p).issues = (s.here p).issues

/-- No register, or one register or pair, of each executing lane. -/
def noRegs : Nat → Nat → Bool := fun _ _ => false
def laneRegs (m : LaneMask) (wide : Bool) (d : Nat) : Nat → Nat → Bool := fun r l =>
  m.getLsbD l && (r == d || (wide && r == d + 1))
def noKeys : Nat → Bool := fun _ => false
def oneKey (wide : Bool) (n : Nat) : Nat → Bool := fun m => m == n || (wide && m == (n + 1) % 64)

/-- Every lane of a path goes on behind a word of `n` 32-bit words. -/
def PathGoesOn (s t : State) (p : Focus) (n : Nat) : Prop :=
  ∀ l, p.lanes.getLsbD l = true → GoesOn ((s.here p).lane l) ((t.here p).lane l) n

/-- The latch a lane's word leaves (R23): within the clause, unless the lane was resumed in it (R35). -/
def Latches (s t : State) (p : Focus) (q : Nat → Option Word) : Prop :=
  ∀ l, p.lanes.getLsbD l = true → ((t.here p).lane l).inside = true → ((s.here p).lane l).inside = true →
    ((s.here p).lane l).resumed = false →
    ((t.here p).lane l).latches = (q l :: ((s.here p).lane l).latches).take 4

/-- A word with one vector result per executing lane: 32 bits, or an even pair when `wide` (R21 to R24). `value` is the
result of a lane, `flags` what the lanes raise together; `write` is false when N = 1 and the result is only latched. -/
structure VectorResult (s t : State) (p : Focus) (n : Nat) (write wide : Bool) (d : Nat) (value : Nat → DWord)
    (flags : BitVec 5) : Prop where
  low : write = true → ∀ l, p.lanes.getLsbD l = true → (t.here p).rv d l = (value l).extractLsb' 0 32
  high : write = true → wide = true → ∀ l, p.lanes.getLsbD l = true → (t.here p).rv (d + 1) l = (value l).extractLsb' 32 32
  latch : Latches s t p fun l => if wide then none else some ((value l).extractLsb' 0 32)
  goesOn : PathGoesOn s t p n
  kept : PathKept s t p
  tokens : TokensKept s t p
  frame : SheafFrame s t p (if write then laneRegs p.lanes wide d else noRegs) noKeys noKeys flags

/-- A word with one scalar result for its sheaf (R21): one s-register, or an even pair when `wide`. -/
structure ScalarResult (s t : State) (p : Focus) (n : Nat) (wide : Bool) (d : Nat) (value : DWord) : Prop where
  low : (t.here p).rs d = value.extractLsb' 0 32
  high : wide = true → (t.here p).rs ((d + 1) % 64) = value.extractLsb' 32 32
  latch : Latches s t p fun _ => none
  goesOn : PathGoesOn s t p n
  kept : PathKept s t p
  tokens : TokensKept s t p
  frame : SheafFrame s t p noRegs (oneKey wide d) noKeys 0

/-- A word whose result is a mask register (R187, R219). -/
structure MaskResult (s t : State) (p : Focus) (n d : Nat) (value : LaneMask) (flags : BitVec 5) : Prop where
  mask : (t.here p).rm d = value
  latch : Latches s t p fun _ => none
  goesOn : PathGoesOn s t p n
  kept : PathKept s t p
  tokens : TokensKept s t p
  frame : SheafFrame s t p noRegs noKeys (oneKey false d) flags

/-- A word without a result: its lanes go on and nothing else changes. -/
structure QuietResult (s t : State) (p : Focus) (n : Nat) : Prop where
  latch : Latches s t p fun _ => none
  goesOn : PathGoesOn s t p n
  kept : PathKept s t p
  tokens : TokensKept s t p
  frame : SheafFrame s t p noRegs noKeys noKeys 0

/-- A lane that leaves a hold point goes on behind its word of `n` words, and what the word is not about stays (R182). -/
structure LaneFreed (x y : Lane) (n : Nat) : Prop where
  on : GoesOn x y n
  hold : y.hold = none
  tx : y.tx = { x.tx with count := y.tx.count }
  txstat : y.txrec = x.txrec ∧ y.txcode = x.txcode
  state : y.exitIssued = x.exitIssued ∧ y.exited = x.exited ∧ y.stop = x.stop
  persist : y.persist = x.persist ∧ y.epoch = x.epoch ∧ y.nvSince = x.nvSince ∧ y.fence = x.fence

/-- A lane that is held at its word, where it stays. -/
structure LaneHeld (x y : Lane) (h : Hold) : Prop where
  held : y.hold = some h
  pc : y.pc = x.pc ∧ y.inside = x.inside ∧ y.pos = x.pos ∧ y.hdr = x.hdr ∧ y.fin = x.fin
  tx : y.tx = { x.tx with count := y.tx.count }
  state : y.exitIssued = x.exitIssued ∧ y.exited = x.exited ∧ y.stop = x.stop

/-- Beside the lanes of a mask, no lane of the sheaf is held where lanes of the sheaf wait for each other: on a mask or at a
sheaf-wide word. -/
def Sheaf.ClearBut (h : Sheaf) (m : LaneMask) : Prop := ∀ l, m.getLsbD l = false → match (h.lane l).hold with
  | some (.waitm _) => False
  | some (.cross _ _) => False
  | some (.tile _) => False
  | _ => True

/-- The lanes of a mask, in the sheaf of the path, leave their hold points behind words of `n` words; the registers outside
`vec` and `sc`, all else that a word leaves alone, stay. -/
structure Meet (s t : State) (p : Focus) (m : LaneMask) (n : Nat) (vec : Nat → Nat → Bool) (flags : BitVec 5) : Prop where
  freed : ∀ l, m.getLsbD l = true → LaneFreed ((s.here p).lane l) ((t.here p).lane l) n
  frame : SheafFrame s t { p with lanes := m } vec noKeys noKeys flags

/-- A cross-lane word on mask `MASK` met by the one path whose lanes are the mask's members (R105, R193): it completes, and
each lane that `wr` names holds `val` of the sheaf before the word. -/
def CrossOp (op : Nat) (i : AWord → Instr) (wr : AWord → Sheaf → Nat → Bool) (val : AWord → Sheaf → List Nat → Nat → Word) : Prop :=
  ∀ (s : State) (p : Focus) (k : Stook) (w : AWord), Issues (i w) s p k → (s.here p).ClearBut 0 →
    (s.here p).rm (w.mask (aForm op)) = p.lanes →
    ∃ t, exec (i w) s = .next t
      ∧ (∀ l, p.lanes.getLsbD l = true → wr w (s.here p) l = true → (t.here p).rv w.d.toNat l = val w (s.here p) (lanesOf p.lanes) l)
      ∧ Meet s t p p.lanes (sizeA w) (fun r l => r == w.d.toNat && p.lanes.getLsbD l && wr w (s.here p) l) 0

/-- The cross-lane words: slot and operands. -/
def crossForm : Instr → Option (Nat × AWord)
  | .shfl w => some (0x150, w)
  | .vote w => some (0x151, w)
  | .matchLanes w => some (0x152, w)
  | .rdlane w => some (0x154, w)
  | .wrlane w => some (0x155, w)
  | .elect w => some (0x156, w)
  | .redl w => some (0x041, w)
  | _ => none

/-- A lane waits at BAR on a barrier, its sheaf's arrival counted for the current phase. -/
def Sheaf.waitsAtBar (h : Sheaf) (n l : Nat) : Prop :=
  l < h.lanes.length ∧ (h.lane l).stop = none ∧ ∃ cnt, (h.lane l).hold = some (.bar n cnt true 1)

/-- A barrier of a stook between events (R189): its phase is not complete, nothing counts for the following one; the lanes
held at it wait at BAR with their arrival counted, or at BARW with a phase of their sheaf recorded. -/
structure Stook.Awaiting (k : Stook) (n : Nat) : Prop where
  opened : k.phaseDone (k.barrier n) = false
  next : (k.barrier n).next = 0 ∧ (k.barrier n).nextPhase = none
  held : ∀ i l, match ((k.sheaf i).lane l).hold with
    | some (.bar m _ waits counted) => m = n → waits = true ∧ counted = 1
    | some (.barw m) => m = n → Bank.get (k.barrier n).record i ≠ 0
    | _ => True

/-- The shape of the element MON names: one of the record's format (R191). -/
def monShape (w : MWord) (v : Via) : Shape :=
  { ldShape w v 1 with bits := fmtBits (recFmt v.record), align := fmtBits (recFmt v.record) / 8 }

/-- The lanes of a mask stop precisely at their word of `n` words with a cause: the event is outstanding and reported, with
its lanes, place and DETAIL in the record; each lane stays at its word, and will go on behind it if it is resumed (R32, R35, R367,
R368). -/
structure Stopped (s t : State) (p : Focus) (m : LaneMask) (n : Nat) (c : Cause) (detail : Word := 0) : Prop where
  event : ∃ f : FaultRec, f ∈ t.faults ∧ Post.faultReport f.pack ∈ t.sent ∧ f.cause = c ∧ f.uid = p.stook ∧ f.sheaf = p.sheaf
    ∧ f.lanes = m ∧ f.header = decide (n = 0) ∧ f.detail = detail
    ∧ ∀ l, m.getLsbD l = true →
        (t.laneOf p l).stop = some { cause := c, fault := f.id, resume := (s.laneOf p l).pc + BitVec.ofNat 32 n }
  lanes : ∀ l, m.getLsbD l = true → (t.laneOf p l).pc = (s.laneOf p l).pc ∧ (t.laneOf p l).inside = (s.laneOf p l).inside
    ∧ (t.laneOf p l).hold = none ∧ (t.laneOf p l).tx.depth = (s.laneOf p l).tx.depth

/-- The lanes of a mask stop at their word, and nothing else happens: no register, no memory, no store of a queue, no request
of a core changes; the issue counts only where `counts` says so. -/
structure Trapped (s t : State) (p : Focus) (m : LaneMask) (n : Nat) (c : Cause) (detail : Word := 0) (counts : Bool := false) :
    Prop extends Stopped s t p m n c detail where
  queue : (t.here p).queue = (s.here p).queue
  cores : ∀ n, (t.core n).reqs = (s.core n).reqs ∧ (t.core n).stores = (s.core n).stores
  scratch : ∀ a, Bank.get ((t.stook? p.stook).getD default).scratch a = Bank.get ((s.stook? p.stook).getD default).scratch a
  vregs : ∀ r l, (t.here p).rv r l = (s.here p).rv r l
  sregs : ∀ r, (t.here p).rs r = (s.here p).rs r
  masks : ∀ r, (t.here p).rm r = (s.here p).rm r
  status : (t.here p).frm = (s.here p).frm ∧ (t.here p).fx = (s.here p).fx
  retired : (t.here p).retired = (s.here p).retired + if counts then 1 else 0
  mem : ∀ a, t.mem.byte a = s.mem.byte a
  others : ∀ u i, (u, i) ≠ (p.stook, p.sheaf) → t.sheafAt u i = s.sheafAt u i
  lanesOut : ∀ l, m.getLsbD l = false → (t.here p).lane l = (s.here p).lane l

/-- Lanes in a transaction abort with a status instead: they stand at TARGET as at a header, outside the transaction, with
the status in TXSTAT (R280 to R282, R403). -/
structure Aborted (x y : Lane) (code : Nat) : Prop where
  pc : y.pc = x.tx.target ∧ y.inside = false
  tx : y.tx.depth = 0 ∧ y.tx.reads = [] ∧ y.tx.writes = [] ∧ y.tx.locked = false
  txstat : y.txrec = false ∧ y.txcode = BitVec.ofNat 8 code
  hold : y.hold = none

/-- The bytes that stand when those of a write log are stored over others (R275, R277). -/
def TxState.over (x : TxState) (m : Nat → Byte) : Nat → Byte :=
  x.writes.foldl (fun m e => fun a => if e.pa ≤ a ∧ a < e.pa + 8 ∧ e.bytes.getLsbD (a - e.pa) = true then byteOf e.value (a - e.pa) else m a) m

/-- Every word of a read log has among some bytes the value that it had when it was read. -/
def TxState.holdsIn (x : TxState) (m : Nat → Byte) : Bool :=
  x.reads.all fun e => e.value == BitVec.ofNat 64 (leNat ((List.range 8).map fun i => m (e.pa + i)))

/-- Lanes at one TEND take their parts in turn (R277): those that go on, and the bytes that stand then. A lane at depth 1 stores its
log when its transaction is locked or its reads hold, and aborts otherwise. -/
def commitTurns (x : Nat → TxState) : List Nat → (Nat → Byte) → List Nat × (Nat → Byte)
  | [], m => ([], m)
  | l :: ls, m =>
    if (x l).depth ≠ 1 then (l :: (commitTurns x ls m).1, (commitTurns x ls m).2)
    else if (x l).locked || (x l).holdsIn m then (l :: (commitTurns x ls ((x l).over m)).1, (commitTurns x ls ((x l).over m)).2)
    else commitTurns x ls m

/-- A word that writes a register, or an even pair when `wide`, in each executing lane and latches nothing (R197, R202). -/
structure LaneResult (s t : State) (p : Focus) (n : Nat) (wide : Bool) (d : Nat) (value : Nat → DWord) : Prop where
  low : ∀ l, p.lanes.getLsbD l = true → (t.here p).rv d l = (value l).extractLsb' 0 32
  high : wide = true → ∀ l, p.lanes.getLsbD l = true → (t.here p).rv (d + 1) l = (value l).extractLsb' 32 32
  goesOn : PathGoesOn s t p n
  kept : PathKept s t p
  tokens : TokensKept s t p
  frame : SheafFrame s t p (laneRegs p.lanes wide d) noKeys noKeys 0

/-! ### Memory words -/

/-- The memory words through a record: the uniform checks of the word and the access it makes (R245 to R247, R252 to R263). -/
def recordWord : Instr → Option ((Stook → Sheaf → List Nat → Except Cause Via) × (Sheaf → Via → Access))
  | .ld w => some (ldCheck true w, ldAccess w)
  | .st w => some (ldCheck false w, stAccess w)
  | .ldf w => some (fragCheck true w, ldfAccess w)
  | .stf w => some (fragCheck false w, stfAccess w)
  | .atom w => if 16 ≤ w.sv then none else some (atomCheck (w.sv % 8 = 3) w, fun h v => atomAccess w h (some v))
  | .cas w => if 16 ≤ w.sv then none else some (atomCheck true w, fun h v => casAccess w h (some v))
  | .red w => some (redCheck w, redAccess w)
  | .xred w => some (cellCheck true w, xredAccess w)
  | .xrd w => some (cellCheck (decide (16 ≤ w.sv)) w, xrdAccess w)
  | _ => none

/-- The words of the scratchpad (R259 to R261). -/
def scratchWord : Instr → Option (Sheaf → Access)
  | .lds w => some (ldsAccess w)
  | .sts w => some (stsAccess w)
  | .atom w => if 16 ≤ w.sv then some (fun h => atomAccess w h none) else none
  | .cas w => if 16 ≤ w.sv then some (fun h => casAccess w h none) else none
  | _ => none

/-- No lane of a path is in a transaction. -/
def State.plain (s : State) (p : Focus) : Prop := ∀ l, p.lanes.getLsbD l = true → (s.laneOf p l).tx.depth = 0

/-- What checks 4 to 8 of R254 answer for a lane of a word that issues outside a transaction. -/
def State.judge (s : State) (k : Stook) (a : Access) (l : Nat) : Except LaneStop (List (Elem × List ByteLoc)) :=
  State.laneElems { s with free := s.free + 1 } k a false true l

/-- What names an element of a request, apart from what is known of its value: its bytes, where they stand, its place in
them. -/
def Elem.place (e : Elem) : Nat × List ByteLoc × Nat × Nat × Nat × Bool := (e.va, e.locs, e.shift, e.width, e.fmt, e.skip)

/-- What the issue of a memory word for the lanes of a path leaves alone: all of memory and of the stook's scratchpad, every
register, the masks, FRM, every other sheaf. FX takes the flags raised, RETIRED counts the word, the lanes go on behind it. -/
structure MemWent (s t : State) (p : Focus) (flags : BitVec 5) : Prop where
  goesOn : PathGoesOn s t p 2
  lanes : ∀ l, p.lanes.getLsbD l = true → (t.laneOf p l).tx = { (s.laneOf p l).tx with count := (t.laneOf p l).tx.count }
    ∧ (t.laneOf p l).stop = none ∧ (t.laneOf p l).hold = none
    ∧ (t.laneOf p l).exitIssued = false ∧ (t.laneOf p l).monitor = (s.laneOf p l).monitor
    ∧ (t.laneOf p l).txrec = (s.laneOf p l).txrec ∧ (t.laneOf p l).txcode = (s.laneOf p l).txcode
    ∧ (t.laneOf p l).persist = (s.laneOf p l).persist
  mem : ∀ a, t.mem.byte a = s.mem.byte a
  scratch : ∀ a, Bank.get ((t.stook? p.stook).getD default).scratch a = Bank.get ((s.stook? p.stook).getD default).scratch a
  vregs : ∀ r l, (t.here p).rv r l = (s.here p).rv r l
  sregs : ∀ r, (t.here p).rs r = (s.here p).rs r
  masks : ∀ r, (t.here p).rm r = (s.here p).rm r
  frm : (t.here p).frm = (s.here p).frm
  fx : (t.here p).fx = (s.here p).fx ||| flags.setWidth 32
  retired : (t.here p).retired = (s.here p).retired + 1
  others : ∀ u i, (u, i) ≠ (p.stook, p.sheaf) → t.sheafAt u i = s.sheafAt u i

/-- The same, every other lane of the sheaf staying as it was too. -/
structure MemIssued (s t : State) (p : Focus) (flags : BitVec 5) : Prop extends MemWent s t p flags where
  lanesOut : ∀ l, p.lanes.getLsbD l = false → (t.here p).lane l = (s.here p).lane l

/-- A lane parks at its word of `n` words with the fault of a number: the access stands in its core's replay buffer, to the place its
access names, the registers of its result stay pending, and the lane will go on behind the word (R35, R255, R369, R370). -/
structure Parked (s t : State) (p : Focus) (k : Stook) (a : Access) (n : Nat) (f : Word) (l : Nat) (es : List Elem) : Prop where
  stop : (t.laneOf p l).stop = some { cause := .xlateMiss, fault := f, resume := (s.laneOf p l).pc + BitVec.ofNat 32 n }
  place : (t.laneOf p l).pc = (s.laneOf p l).pc ∧ (t.laneOf p l).inside = (s.laneOf p l).inside
  entry : ∃ q ∈ (t.core k.core).replay, q.fault = f ∧ q.kind = a.kind ∧ q.req.stook = p.stook ∧ q.req.sheaf = p.sheaf ∧ q.req.lane = l
    ∧ q.req.opcode = a.opcode ∧ q.req.op = a.op ∧ q.req.dest = a.dest ∧ q.req.data = a.data l ∧ q.req.elems = es
    ∧ ∀ j, j < a.regs → (a.dest.toNat + j, q.req.id) ∈ (t.laneOf p l).pending

/-- The request of a lane of a memory word: to the place its access names, with its data; a store stands behind those
already in its sheaf's queue, any other at its core; the registers its result will write are pending (R28, R136). -/
structure Requested (s t : State) (p : Focus) (k : Stook) (a : Access) (l : Nat) (es : List (Elem × List ByteLoc)) (r : Req) :
    Prop where
  at' : if a.op = .store then r ∈ (t.here p).queue else r ∈ (t.core k.core).reqs
  new : s.next ≤ r.id
  lane : r.stook = p.stook ∧ r.sheaf = p.sheaf ∧ r.lane = l ∧ r.ctx = k.ctx ∧ r.launch = k.launch
  what : r.opcode = a.opcode ∧ r.op = a.op ∧ r.af = a.af ∧ r.dest = a.dest ∧ r.data = a.data l ∧ r.rm = a.rm
  order : r.order = a.order ∧ r.scope = (if a.via.isNone then min a.scope 1 else a.scope) ∧ r.reuse = a.reuse ∧ r.repl = a.repl
  space : r.spad = a.via.isNone ∧ r.tx = false
  elems : r.elems.map Elem.place = es.map fun e => e.1.place
  pending : ∀ j, j < a.regs → (a.dest.toNat + j, r.id) ∈ (t.laneOf p l).pending

/-- The requests of all lanes of a word, the store queue keeping what it held. -/
def RequestsOf (s t : State) (p : Focus) (k : Stook) (a : Access) (es : Nat → List (Elem × List ByteLoc)) : Prop :=
  (∃ f : Nat → Req, (∀ l, p.lanes.getLsbD l = true → Requested s t p k a l (es l) (f l))
      ∧ ∀ l m, p.lanes.getLsbD l = true → p.lanes.getLsbD m = true → l < m → (f l).id < (f m).id)
    ∧ ∃ q, (t.here p).queue = (s.here p).queue ++ q ∧ (a.op ≠ .store → q = [])

/-- The flags that converting the data of a path's stores raises together (R253). -/
def raisedBy (a : Access) (p : Focus) (es : Nat → List (Elem × List ByteLoc)) : BitVec 5 :=
  flagsOf p.lanes fun l => a.raised l ((es l).map fun e => e.1)

/-- A tile of MMA or MMAL at its issue (R240, R241): each element decided at once is in its register; each other one is a
request of the core's park queue, its register pending. The path's lanes go on behind the word of `n` words, FX takes the
flags of the decided elements, and nothing else changes but `d` and the register after it in the path's lanes. -/
structure TileResult (s t : State) (p : Focus) (k : Stook) (n d : Nat) (es : List TileElem) : Prop where
  decided : ∀ e ∈ es, e.park = none → (t.here p).rv (d + e.j % 2) e.lane = BitVec.ofNat 32 e.value
  parked : ∀ e ∈ es, ∀ o, e.park = some o → ∃ q ∈ (t.core k.core).park, q.operands = o.1 ∧ q.scales = o.2
    ∧ q.lanes = maskOf [e.lane] ∧ q.stook = p.stook ∧ q.sheaf = p.sheaf ∧ q.dest.toNat = d ∧ q.target.toNat = d + e.j % 2
    ∧ (d + e.j % 2, q.id) ∈ (t.laneOf p e.lane).pending
  goesOn : PathGoesOn s t p n
  fx : (t.here p).fx = (s.here p).fx ||| ((es.filter fun (e : TileElem) => e.park.isNone).foldl (fun (f : FlagSet) (e : TileElem) => f ||| e.flags) 0).setWidth 32
  vregs : ∀ r l, l < 32 → ¬ (p.lanes.getLsbD l = true ∧ (r = d ∨ r = d + 1)) → (t.here p).rv r l = (s.here p).rv r l
  sregs : ∀ r, (t.here p).rs r = (s.here p).rs r
  masks : ∀ r, (t.here p).rm r = (s.here p).rm r
  frm : (t.here p).frm = (s.here p).frm
  retired : (t.here p).retired = (s.here p).retired + 1
  mem : ∀ a, t.mem.byte a = s.mem.byte a
  others : ∀ u i, (u, i) ≠ (p.stook, p.sheaf) → t.sheafAt u i = s.sheafAt u i
  lanesOut : ∀ l, p.lanes.getLsbD l = false → (t.here p).lane l = (s.here p).lane l

/-- A result that reaches its lane (R26, R28): its registers, and its flags in FX; the register awaits the operation no
more, and no memory changes. -/
structure Delivered (s t : State) (u i l d id : Nat) (ws : List Word) (f : FlagSet) : Prop where
  regs : ∀ j, j < ws.length → (t.sheafAt u i).rv (d + j) l = ws.getD j 0
  fx : (t.sheafAt u i).fx = (s.sheafAt u i).fx ||| f.setWidth 32
  done : ∀ q ∈ ((t.sheafAt u i).lane l).pending, q.2 ≠ id
  rest : ∀ r m, m < 32 → ¬ (m = l ∧ d ≤ r ∧ r < d + ws.length) → (t.sheafAt u i).rv r m = (s.sheafAt u i).rv r m
  others : ∀ v j, (v, j) ≠ (u, i) → t.sheafAt v j = s.sheafAt v j
  place : ((t.sheafAt u i).lane l).pc = ((s.sheafAt u i).lane l).pc
  mem : ∀ a, t.mem.byte a = s.mem.byte a

/-- A lane that can take a result: it exists and has not issued its EXIT (R119). -/
def State.takes (s : State) (u i l : Nat) : Prop :=
  ∃ k, s.stook? u = some k ∧ i < k.sheaves.length ∧ l < (k.sheaf i).lanes.length ∧ l < 32 ∧ ((k.sheaf i).lane l).exitIssued = false

/-! ### Operations of VALU words -/

/-- The A, B and C sources of an A word in a lane (R19, R20, R23): 32 bits. -/
def srcA (op : Nat) (w : AWord) (h : Sheaf) (l : Nat) : Word := h.src (w.sregN (aForm op)) w.a l
def srcB (op : Nat) (w : AWord) (h : Sheaf) (l : Nat) : Word := h.src (w.sregN (aForm op)) w.b l
def srcC (op : Nat) (w : AWord) (h : Sheaf) (l : Nat) : Word := h.src (w.sregN (aForm op)) (w.c (aForm op)) l

/-- A 32-bit integer operation in the vector domain: it completes for every state and operands that let it issue; each
executing lane's D takes `f` of its sources, no flag is raised. -/
def VectorOp (op : Nat) (i : AWord → Instr) (f : AWord → Word → Word → Word → Word) : Prop :=
  ∀ (s : State) (p : Focus) (k : Stook) (w : AWord), Issues (i w) s p k → w.scal (aForm op) = false →
    ∃ t, exec (i w) s = .next t ∧ VectorResult s t p (sizeA w) (!w.n) false w.d.toNat
      (fun l => (f w (srcA op w (s.here p) l) (srcB op w (s.here p) l) (srcC op w (s.here p) l)).setWidth 64) 0

/-- The same operation in the scalar domain (R21): once, on s-registers. -/
def ScalarOp (op : Nat) (i : AWord → Instr) (f : AWord → Word → Word → Word) : Prop :=
  ∀ (s : State) (p : Focus) (k : Stook) (w : AWord), Issues (i w) s p k → w.scal (aForm op) = true →
    ∃ t, exec (i w) s = .next t ∧ ScalarResult s t p (sizeA w) false w.d.toNat
      ((f w ((s.here p).ssrc w.a) ((s.here p).ssrc w.b)).setWidth 64)

/-- An operation of any widths in the vector domain, from the rounding mode and the three sources as 64-bit values (R209):
each executing lane's D takes the value, FX takes the flags of all of them (R160). -/
def AluOp (op : Nat) (i : AWord → Instr) (f : AWord → AluFn) : Prop :=
  ∀ (s : State) (p : Focus) (k : Stook) (w : AWord), Issues (i w) s p k → w.scal (aForm op) = false →
    ∃ t, exec (i w) s = .next t ∧
      let x (l : Nat) : DWord × FlagSet :=
        let v := valuWide op (w.fmt (aForm op)) (w.opt (aForm op))
        let sr := w.sregN (aForm op)
        f w ((s.here p).mode (w.rm (aForm op))) ((s.here p).srcW v.1 sr w.a l) ((s.here p).srcW v.2.1 sr w.b l)
          ((s.here p).srcW v.2.2.1 sr (w.c (aForm op)) l)
      VectorResult s t p (sizeA w) (!w.n) (valuWideD op w) w.d.toNat (fun l => (x l).1) (flagsOf p.lanes fun l => (x l).2)

/-- A compare whose outcome goes to a mask register (R219): for each executing lane its bit follows the relation, the
mask's other bits stay. -/
def CompareOp (op : Nat) (i : AWord → Instr) (rel : State → Focus → AWord → Nat → Bool) (flags : State → Focus → AWord → Nat → FlagSet) :
    Prop :=
  ∀ (s : State) (p : Focus) (k : Stook) (w : AWord), Issues (i w) s p k → w.toMask (aForm op) = true →
    ∃ t, exec (i w) s = .next t ∧ MaskResult s t p (sizeA w) w.d.toNat
      (((s.here p).rm w.d.toNat &&& ~~~p.lanes) ||| maskFilter p.lanes (rel s p w)) (flagsOf p.lanes (flags s p w))

/-- A vector immediate form (R41). -/
def ImmOp (i : IWord → Instr) (n : Nat) (f : IWord → Word → Word) : Prop :=
  ∀ (s : State) (p : Focus) (k : Stook) (w : IWord), Issues (i w) s p k →
    ∃ t, exec (i w) s = .next t ∧ VectorResult s t p n (!w.n) false w.d.toNat
      (fun l => (f w ((s.here p).src 0 w.a l)).setWidth 64) 0

/-- A scalar immediate form (R41). -/
def ScalarImmOp (i : IWord → Instr) (n : Nat) (f : IWord → Word → Word) : Prop :=
  ∀ (s : State) (p : Focus) (k : Stook) (w : IWord), Issues (i w) s p k →
    ∃ t, exec (i w) s = .next t ∧ ScalarResult s t p n false w.d.toNat ((f w ((s.here p).ssrc w.a)).setWidth 64)

/-! ### Other shapes of words -/

/-- A transfer: each executing lane is at the header `target l`, outside any clause (R183, R184); `vec` is what the word
writes beside. -/
structure TransferResult (s t : State) (p : Focus) (vec : Nat → Nat → Bool) (target : Nat → Word) : Prop where
  target : ∀ l, p.lanes.getLsbD l = true → ((t.here p).lane l).pc = target l ∧ ((t.here p).lane l).inside = false
  kept : PathKept s t p
  tokens : TokensKept s t p
  frame : SheafFrame s t p vec noKeys noKeys 0

/-- The header a transfer with a 23-bit or 16-bit offset names: that of the clause it stands in, plus the offset (R13). -/
def braTarget (w : JWord) (x : Lane) : Word := x.hdr + w.off.signExtend 32
def brTarget (w : JcWord) (x : Lane) : Word := x.hdr + w.off.signExtend 32

/-! ### Requests of the control node -/

/-- A request that is performed when it arrives (R346, R347, R349): the device has power and has booted, it is the context's
turn, no MEMREAD or MEMWRITE of it is under way, the sender may send it (`dev`: the device as a whole may), the LENGTH is that of its TYPE. -/
structure InTurn (s : State) (h : MsgHdr) (len : Nat) (dev : Bool) : Prop where
  powered : s.powered = true
  booted : s.svc.heldReset = false
  turn : h.seq = (s.ctx h.context).seq
  idle : ∀ x ∈ s.transfers, x.hdr.context ≠ h.context
  length : h.length = len
  sender : (dev = true ∧ h.context = 255) ∨ (h.context < 64 ∧ (s.ctx h.context).valid = true)

/-- The order of a context's requests after one is performed: its turn has moved on, every other context's stands, and
nothing else of the contexts' records, as `u` has them, differs (R347). -/
structure TurnPassed (u t : State) (h : MsgHdr) : Prop where
  turn : (t.ctx h.context).seq = h.seq + 1
  record : ∀ n, { t.ctx n with seq := (u.ctx n).seq } = u.ctx n
  turns : ∀ n, n ≠ h.context → (t.ctx n).seq = (u.ctx n).seq

/-- The answer to a MEMREAD or MEMWRITE (R347): the cause that ended it with the bytes done, or the bytes read, padded to a multiple
of 8. -/
def Transfer.answer (x : Transfer) : Post := match x.cause with
  | some c => .response x.hdr.context x.hdr.tag 0x800000F6 (BitVec.ofNat 32 (x.done * 256 + c.code)) []
  | none => .response x.hdr.context x.hdr.tag 0 0 (x.got ++ List.replicate ((x.got.length + 7) / 8 * 8 - x.got.length) 0)

/-- A transfer behind its next word. -/
def Transfer.after (x : Transfer) (w : List (ByteLoc × Byte)) (rest : List (List (ByteLoc × Byte))) (wr : Bool) (s : State) : Transfer :=
  { x with left := rest, got := if wr then [] else x.got ++ w.map (fun q => s.mem.byte q.1.pa), done := x.done + w.length }

/-- The next word of a MEMREAD or MEMWRITE under way (R133, R347): its bytes are stored, or read and kept; behind the last word
the request is answered, once what it wrote to the non-volatile tier is durable (R295). -/
structure Moved (s t : State) (x : Transfer) (w : List (ByteLoc × Byte)) (rest : List (List (ByteLoc × Byte))) (wr : Bool) : Prop where
  stored : wr = true → ∀ q ∈ w, t.mem.byte q.1.pa = q.2
  mem : ∀ a, (wr = true → ∀ q ∈ w, a ≠ q.1.pa) → t.mem.byte a = s.mem.byte a
  more : rest ≠ [] ∨ (∃ n ∈ x.units, s.isVolatile n = true) ∨ (wr = true ∧ ∃ q ∈ w, inNv q.1.pa = true) →
    t.sent = s.sent ∧ ∃ us, { x.after w rest wr s with units := us } ∈ t.transfers
  last : rest = [] → (∀ n ∈ x.units, s.isVolatile n = false) → (wr = true → ∀ q ∈ w, inNv q.1.pa = false) →
    (∀ y ∈ t.transfers, y.hdr ≠ x.hdr) ∧ t.sent = s.sent ++ [(x.after w rest wr s).answer]

/-- A containment error that touches a launch for the first time has it placed again once its stooks have stopped, and is to be
reported (R379, R381). -/
def Replays (t : State) (c : Nat) (id : Word) (cause : Cause) : Prop :=
  ∃ m, t.launch? c id = some m ∧ m.ending = some replayCode ∧ m.attempts = 1
    ∧ (m.errorRec.any fun f => f.cause == cause && f.detail == 1) = true

/-- A fault is over without a new access (R365, R371): no TLB holds its page, the copies that stood at it run, no memory changes. -/
structure Retried (s t : State) (f : FaultRec) : Prop where
  settled : t.fault? f.id = none
  tlbs : (∀ c ∈ t.cores, tlbFind c.tlb f.ctx f.va = []) ∧ ∀ n, tlbFind (t.clusterTlb n) f.ctx f.va = []
  copies : ∀ c ∈ s.cores, ∀ y ∈ c.copies, y.state = 3 → y.fault = f.id →
    ∃ d ∈ t.cores, d.num = c.num ∧ { y with state := 2, fault := 0 } ∈ d.copies
  mem : ∀ a, t.mem.byte a = s.mem.byte a

/-- The state after a request whose effect leaves `u`: the response is sent, the turn has moved on, and a request of the
context that had arrived early may be the next (R346, R347). -/
structure Answered (u t : State) (h : MsgHdr) (status detail : Word) (data : List Byte := []) : Prop extends TurnPassed u t h where
  same : t = { u with contexts := t.contexts, sent := u.sent ++ [.response h.context h.tag status detail data], inbox := t.inbox,
                      agenda := t.agenda }

end Sys2Proof.Machine
end

