-- ==== Sys2Proof/Certificates/Slice0/Obligations.lean ====
section
/-! DEFINITION. The statements for the provers. Each docstring says what the statement formalises; the terms are those of
Safety.lean. -/

open Sys2Proof Sys2Proof.Machine

/-- IADD, ISUB, IMUL, IMULH, IMAD, IMIN, IMAX and IABS complete with the results of R214. For every state and operands
with which it issues in the vector domain, each instruction answers a next state in which D of every executing lane
holds the result the rule gives, with no flag raised, every lane behind the word, and everything else unchanged. -/
def Obligations.IntegerArithmetic : Prop :=
  VectorOp 0x000 .iadd (fun _ a b _ => a + b)
    ∧ VectorOp 0x001 .isub (fun _ a b _ => a - b)
    ∧ VectorOp 0x002 .imul (fun _ a b _ => a * b)
    ∧ VectorOp 0x003 .imulh (fun w a b _ =>
        if w.fmt (aForm 0x003) = 4 then (a.signExtend 64 * b.signExtend 64).extractLsb' 32 32
        else (a.setWidth 64 * b.setWidth 64).extractLsb' 32 32)
    ∧ VectorOp 0x004 .imad (fun _ a b c => a * b + c)
    ∧ VectorOp 0x005 .imin (fun w a b _ => if w.fmt (aForm 0x005) = 4 then (if a.toInt ≤ b.toInt then a else b)
        else if a.toNat ≤ b.toNat then a else b)
    ∧ VectorOp 0x006 .imax (fun w a b _ => if w.fmt (aForm 0x006) = 4 then (if b.toInt ≤ a.toInt then a else b)
        else if b.toNat ≤ a.toNat then a else b)
    ∧ VectorOp 0x007 .iabs (fun _ a _ _ => if a.toInt < 0 then 0 - a else a)

/-- AND, OR, XOR, ANDN, SHL, SHR, SAR and ROTL complete with the results of R216. In the vector domain the count of a
shift is the whole 32-bit source: from 32 on SHL and SHR give 0 and SAR the sign; ROTL takes it modulo 32. The
immediate forms take IMM8 zero-extended, 0 to 255, as the count. -/
def Obligations.LogicAndShifts : Prop :=
  VectorOp 0x008 .and (fun _ a b _ => a &&& b)
    ∧ VectorOp 0x009 .or (fun _ a b _ => a ||| b)
    ∧ VectorOp 0x00a .xor (fun _ a b _ => a ^^^ b)
    ∧ VectorOp 0x00b .andn (fun _ a b _ => a &&& ~~~b)
    ∧ VectorOp 0x00c .shl (fun _ a b _ => a <<< b.toNat)
    ∧ VectorOp 0x00d .shr (fun _ a b _ => a >>> b.toNat)
    ∧ VectorOp 0x00e .sar (fun _ a b _ => a.sshiftRight b.toNat)
    ∧ VectorOp 0x00f .rotl (fun _ a b _ => (a <<< (b.toNat % 32)) ||| (a >>> (32 - b.toNat % 32)))
    ∧ ImmOp .shlImm 1 (fun w a => a <<< w.imm.toNat)
    ∧ ImmOp .shrImm 1 (fun w a => a >>> w.imm.toNat)
    ∧ ImmOp .sarImm 1 (fun w a => a.sshiftRight w.imm.toNat)
    ∧ ImmOp .rotlImm 1 (fun w a => (a <<< (w.imm.toNat % 32)) ||| (a >>> (32 - w.imm.toNat % 32)))

/-- BFX, BFI, POPC, CLZ, CTZ and BREV complete with the results of R217 and R218. The position is bits [4:0] of b and
the width the lesser of bits [13:8] and 32 less the position; BFX extracts, sign-extended for I32; BFI inserts into c.
POPC counts the set bits; CLZ and CTZ answer the number of leading or trailing zero bits, 32 for 0; BREV moves bit k
to bit 31 - k; the format changes nothing. -/
def Obligations.BitOperations : Prop :=
  (let pos (b : Word) : Nat := b.toNat % 32
  let width (b : Word) : Nat := min (b.toNat / 256 % 64) (32 - pos b)
  let field (a b : Word) : Nat := a.toNat / 2 ^ pos b % 2 ^ width b
  VectorOp 0x010 .bfx (fun w a b _ =>
      if w.fmt (aForm 0x010) = 4 ∧ 0 < width b ∧ (field a b).testBit (width b - 1) = true
      then BitVec.ofInt 32 ((field a b : Int) - (2 ^ width b : Nat)) else BitVec.ofNat 32 (field a b))
    ∧ VectorOp 0x011 .bfi (fun _ a b c =>
      (c &&& ~~~(BitVec.ofNat 32 ((2 ^ width b - 1) * 2 ^ pos b))) ||| BitVec.ofNat 32 (a.toNat % 2 ^ width b * 2 ^ pos b)))
    ∧ (VectorOp 0x012 .popc (fun _ a _ _ => BitVec.ofNat 32 ((List.range 32).countP fun j => a.getLsbD j))
    ∧ (∃ clz : Word → Word, VectorOp 0x013 .clz (fun _ a _ _ => clz a) ∧ ∀ a : Word,
        (clz a).toNat ≤ 32 ∧ (∀ j < (clz a).toNat, a.getLsbD (31 - j) = false)
          ∧ ((clz a).toNat < 32 → a.getLsbD (31 - (clz a).toNat) = true))
    ∧ (∃ ctz : Word → Word, VectorOp 0x014 .ctz (fun _ a _ _ => ctz a) ∧ ∀ a : Word,
        (ctz a).toNat ≤ 32 ∧ (∀ j < (ctz a).toNat, a.getLsbD j = false)
          ∧ ((ctz a).toNat < 32 → a.getLsbD (ctz a).toNat = true))
    ∧ ∃ brev : Word → Word, VectorOp 0x015 .brev (fun _ a _ _ => brev a) ∧ ∀ a : Word, ∀ j < 32,
        (brev a).getLsbD j = a.getLsbD (31 - j))

/-- ISET, FSET and FCLASS complete: into a register of ones or zeros, a mask, or a class with one bit set. ISET: with
TOMASK = 0 D takes all ones when the relation CMP holds and 0 when it does not, in the vector or the scalar domain;
with TOMASK = 1 the mask takes the relation for each executing lane and keeps its other bits. FSET applies the
relation CMP so, unordered pairs and invalid as the table of R224 has them, per half in a packed format; FCLASS sets
one bit for each element and raises no flag. -/
def Obligations.Compares : Prop :=
  (let rel (w : AWord) (a b : Word) : Bool :=
    let x : Int := if w.fmt (aForm 0x016) = 4 then a.toInt else a.toNat
    let y : Int := if w.fmt (aForm 0x016) = 4 then b.toInt else b.toNat
    match w.cmp (aForm 0x016) with
    | 0 => x == y
    | 1 => x != y
    | 2 => decide (x < y)
    | 3 => decide (x ≤ y)
    | 4 => decide (y < x)
    | _ => decide (y ≤ x)
  let out (b : Bool) : Word := if b then BitVec.allOnes 32 else 0
  (∀ (s : State) (p : Focus) (k : Stook) (w : AWord), Issues (.iset w) s p k → w.toMask (aForm 0x016) = false →
      w.scal (aForm 0x016) = false →
      ∃ t, exec (.iset w) s = .next t ∧ VectorResult s t p (sizeA w) (!w.n) false w.d.toNat
        (fun l => (out (rel w (srcA 0x016 w (s.here p) l) (srcB 0x016 w (s.here p) l))).setWidth 64) 0)
    ∧ (∀ (s : State) (p : Focus) (k : Stook) (w : AWord), Issues (.iset w) s p k → w.toMask (aForm 0x016) = false →
      w.scal (aForm 0x016) = true →
      ∃ t, exec (.iset w) s = .next t ∧ ScalarResult s t p (sizeA w) false w.d.toNat
        ((out (rel w ((s.here p).ssrc w.a) ((s.here p).ssrc w.b))).setWidth 64))
    ∧ CompareOp 0x016 .iset (fun s p w l => rel w (srcA 0x016 w (s.here p) l) (srcB 0x016 w (s.here p) l)) (fun _ _ _ _ => 0))
    ∧ (let rel (F : FFmt) (cmp x y : Nat) : Bool × FlagSet :=
    let un := (F.unpack x).isNan || (F.unpack y).isNan
    let sn := (F.unpack x).isSNan || (F.unpack y).isSNan
    let c := (F.unpack x).cmp (F.unpack y)
    (match cmp with
      | 0 => !un && c == 0
      | 1 => un || c != 0
      | 2 => !un && decide (c < 0)
      | 3 => !un && decide (c ≤ 0)
      | 4 => !un && decide (0 < c)
      | 5 => !un && decide (0 ≤ c)
      | 6 => !un
      | _ => un,
     if sn || (un && decide (2 ≤ cmp) && decide (cmp ≤ 5)) then 16 else 0)
  let one (F : FFmt) (cmp : Nat) (a b : DWord) : Bool × FlagSet := rel F cmp (a.toNat % 2 ^ F.bits) (b.toNat % 2 ^ F.bits)
  let outcome (w : AWord) (a b : DWord) : DWord × FlagSet :=
    let fmt := w.fmt (aForm 0x028)
    let cmp := w.cmp (aForm 0x028)
    let F := floatOf fmt
    if fmt = 0x14 ∨ fmt = 0x15 then
      let r0 := rel F cmp (half0 a) (half0 b)
      let r1 := rel F cmp (half1 a) (half1 b)
      (BitVec.ofNat 64 ((if r0.1 then 65535 else 0) + 65536 * (if r1.1 then 65535 else 0)), r0.2 ||| r1.2)
    else (if (one F cmp a b).1 then 0xFFFFFFFF#64 else 0, (one F cmp a b).2)
  let sources (s : State) (p : Focus) (w : AWord) (l : Nat) : DWord × DWord :=
    let v := valuWide 0x028 (w.fmt (aForm 0x028)) (w.opt (aForm 0x028))
    ((s.here p).srcW v.1 (w.sregN (aForm 0x028)) w.a l, (s.here p).srcW v.2.1 (w.sregN (aForm 0x028)) w.b l)
  (∀ (s : State) (p : Focus) (k : Stook) (w : AWord), Issues (.fset w) s p k → w.toMask (aForm 0x028) = false →
      ∃ t, exec (.fset w) s = .next t ∧ VectorResult s t p (sizeA w) (!w.n) false w.d.toNat
        (fun l => (outcome w (sources s p w l).1 (sources s p w l).2).1)
        (flagsOf p.lanes fun l => (outcome w (sources s p w l).1 (sources s p w l).2).2))
    ∧ CompareOp 0x028 .fset
        (fun s p w l => (one (floatOf (w.fmt (aForm 0x028))) (w.cmp (aForm 0x028)) (sources s p w l).1 (sources s p w l).2).1)
        (fun s p w l => (one (floatOf (w.fmt (aForm 0x028))) (w.cmp (aForm 0x028)) (sources s p w l).1 (sources s p w l).2).2)
    ∧ AluOp 0x029 .fclass (fun w _ a b c => perElem (w.fmt (aForm 0x029)) (fun F x _ _ => (match F.unpack x with
        | .inf s => if s then 2 ^ 0 else 2 ^ 7
        | .fin s m _ => if 2 ^ F.mb ≤ m then (if s then 2 ^ 1 else 2 ^ 6) else if s then 2 ^ 2 else 2 ^ 5
        | .zero s => if s then 2 ^ 3 else 2 ^ 4
        | .nan s => if s then 2 ^ 8 else 2 ^ 9, 0)) a b c)
    ∧ ∀ fmt opt, (valuWide 0x028 fmt opt).2.2.2 = false ∧ (valuWide 0x029 fmt opt).2.2.2 = false)

/-- SEL, MOV, MOVI, MOVW, their scalar forms, and IADD and AND with an immediate complete. SEL and MOV move bit
patterns; MOVI writes IMM8 sign-extended and MOVW its literal word; the scalar forms write one s-register, and the
scalar IADD adds IMM8 sign-extended to one. IADD and AND with an immediate add IMM8, sign-extended, to the one source,
or AND it. -/
def Obligations.SelectAndMove : Prop :=
  (VectorOp 0x017 .sel (fun _ a b c => if c ≠ 0 then a else b)
    ∧ VectorOp 0x018 .mov (fun _ a _ _ => a)
    ∧ ImmOp .movi 1 (fun w _ => w.imm.signExtend 32)
    ∧ (∀ lit, ImmOp (fun w => .movw w lit) 2 (fun _ _ => lit))
    ∧ ScalarImmOp .moviScalar 1 (fun w _ => w.imm.signExtend 32)
    ∧ (∀ lit, ScalarImmOp (fun w => .movwScalar w lit) 2 (fun _ _ => lit))
    ∧ ScalarImmOp .iaddScalarImm 1 (fun w a => a + w.imm.signExtend 32))
    ∧ (ImmOp .iaddImm 1 (fun w a => a + w.imm.signExtend 32)
    ∧ ImmOp .andImm 1 (fun w a => a &&& w.imm.signExtend 32))

/-- IADD64 and IMAD64 complete with the results of R215, and the integer instructions of the scalar domain complete.
IADD64 adds 64-bit pairs; IMAD64 adds a 64-bit pair to the exact product of two 32-bit sources, signed for I64 and
unsigned for U64; neither leaves a latch. With MOD.SCALAR = 1 the scalar instructions work once on s-registers and
constants and write one s-register (IADD64 a pair), with the same results. -/
def Obligations.WideAndScalarIntegers : Prop :=
  (AluOp 0x01b .iadd64 (fun _ _ a b _ => (a + b, 0))
    ∧ AluOp 0x01c .imad64 (fun w _ a b c =>
        ((if w.fmt (aForm 0x01c) = 6 then (a.setWidth 32).signExtend 64 * (b.setWidth 32).signExtend 64
          else (a.setWidth 32).setWidth 64 * (b.setWidth 32).setWidth 64) + c, 0))
    ∧ (∀ w : AWord, valuWideD 0x01b w = true ∧ valuWideD 0x01c w = true)
    ∧ ∀ fmt opt, valuWide 0x01b fmt opt = (true, true, false, true) ∧ valuWide 0x01c fmt opt = (false, false, true, true))
    ∧ (ScalarOp 0x000 .iadd (fun _ a b => a + b)
    ∧ ScalarOp 0x001 .isub (fun _ a b => a - b)
    ∧ ScalarOp 0x002 .imul (fun _ a b => a * b)
    ∧ ScalarOp 0x007 .iabs (fun _ a _ => if a.toInt < 0 then 0 - a else a)
    ∧ ScalarOp 0x008 .and (fun _ a b => a &&& b)
    ∧ ScalarOp 0x009 .or (fun _ a b => a ||| b)
    ∧ ScalarOp 0x00a .xor (fun _ a b => a ^^^ b)
    ∧ ScalarOp 0x00b .andn (fun _ a b => a &&& ~~~b)
    ∧ ScalarOp 0x00c .shl (fun _ a b => a <<< b.toNat)
    ∧ ScalarOp 0x00d .shr (fun _ a b => a >>> b.toNat)
    ∧ ScalarOp 0x00e .sar (fun _ a b => a.sshiftRight b.toNat)
    ∧ ScalarOp 0x018 .mov (fun _ a _ => a)
    ∧ ScalarOp 0x003 .imulh (fun w a b =>
        if w.fmt (aForm 0x003) = 4 then (a.signExtend 64 * b.signExtend 64).extractLsb' 32 32
        else (a.setWidth 64 * b.setWidth 64).extractLsb' 32 32)
    ∧ ScalarOp 0x005 .imin (fun w a b => if w.fmt (aForm 0x005) = 4 then (if a.toInt ≤ b.toInt then a else b)
        else if a.toNat ≤ b.toNat then a else b)
    ∧ ScalarOp 0x006 .imax (fun w a b => if w.fmt (aForm 0x006) = 4 then (if b.toInt ≤ a.toInt then a else b)
        else if b.toNat ≤ a.toNat then a else b)
    ∧ ScalarOp 0x00f .rotl (fun _ a b => (a <<< (b.toNat % 32)) ||| (a >>> (32 - b.toNat % 32)))
    ∧ (let pos (b : Word) : Nat := b.toNat % 32
       let width (b : Word) : Nat := min (b.toNat / 256 % 64) (32 - pos b)
       let field (a b : Word) : Nat := a.toNat / 2 ^ pos b % 2 ^ width b
       ScalarOp 0x010 .bfx (fun w a b =>
         if w.fmt (aForm 0x010) = 4 ∧ 0 < width b ∧ (field a b).testBit (width b - 1) = true
         then BitVec.ofInt 32 ((field a b : Int) - (2 ^ width b : Nat)) else BitVec.ofNat 32 (field a b)))
    ∧ ScalarOp 0x012 .popc (fun _ a _ => BitVec.ofNat 32 ((List.range 32).countP fun j => a.getLsbD j))
    ∧ (∃ clz : Word → Word, ScalarOp 0x013 .clz (fun _ a _ => clz a) ∧ ∀ a : Word,
        (clz a).toNat ≤ 32 ∧ (∀ j < (clz a).toNat, a.getLsbD (31 - j) = false)
          ∧ ((clz a).toNat < 32 → a.getLsbD (31 - (clz a).toNat) = true))
    ∧ (∃ ctz : Word → Word, ScalarOp 0x014 .ctz (fun _ a _ => ctz a) ∧ ∀ a : Word,
        (ctz a).toNat ≤ 32 ∧ (∀ j < (ctz a).toNat, a.getLsbD j = false)
          ∧ ((ctz a).toNat < 32 → a.getLsbD (ctz a).toNat = true))
    ∧ (∃ brev : Word → Word, ScalarOp 0x015 .brev (fun _ a _ => brev a) ∧ ∀ a : Word, ∀ j < 32,
        (brev a).getLsbD j = a.getLsbD (31 - j))
    ∧ ∀ (s : State) (p : Focus) (k : Stook) (w : AWord), Issues (.iadd64 w) s p k → w.scal (aForm 0x01b) = true →
        ∃ t, exec (.iadd64 w) s = .next t ∧
          ScalarResult s t p (sizeA w) true w.d.toNat ((s.here p).ssrc64 w.a + (s.here p).ssrc64 w.b))

/-- FADD, FSUB, FMUL, FFMA, FDIV and FSQRT complete with one rounding of the exact result. Each element of each
executing lane is the exact sum, product or sum of a product rounded once in the word's mode (FDIV and FSQRT: the
rounded quotient and root), packed formats element by element; FX takes the flags of all elements. -/
def Obligations.FloatArithmetic : Prop :=
  AluOp 0x020 .fadd (fun w rm a b c => perElem (w.fmt (aForm 0x020)) (fun F x y _ => F.sum rm [F.unpack x, F.unpack y]) a b c)
    ∧ AluOp 0x021 .fsub (fun w rm a b c =>
        perElem (w.fmt (aForm 0x021)) (fun F x y _ => F.sum rm [F.unpack x, (F.unpack y).neg]) a b c)
    ∧ AluOp 0x022 .fmul (fun w rm a b c =>
        perElem (w.fmt (aForm 0x022)) (fun F x y _ => F.sum rm [(F.unpack x).mul (F.unpack y)]) a b c)
    ∧ AluOp 0x023 .ffma (fun w rm a b c =>
        perElem (w.fmt (aForm 0x023)) (fun F x y z => F.sum rm [(F.unpack x).mul (F.unpack y), F.unpack z]) a b c)
    ∧ AluOp 0x02d .fdiv (fun w rm a b c => perElem (w.fmt (aForm 0x02d)) (fun F x y _ => fDiv F rm x y) a b c)
    ∧ AluOp 0x02e .fsqrt (fun w rm a b c => perElem (w.fmt (aForm 0x02e)) (fun F x _ _ => fSqrt F rm x) a b c)

/-- FMIN, FMAX, FABS and FNEG complete with the results of R223. FMIN and FMAX give the other operand for one NaN and
the canonical NaN for two, else the lesser or greater with -0 below +0, bits unchanged; FABS clears and FNEG inverts
the sign bit of an element that is no NaN; invalid is raised for a signalling NaN and nothing else is. -/
def Obligations.FloatSigns : Prop :=
  let inv (b : Bool) : FlagSet := if b then 16 else 0
  let less (F : FFmt) (x y : Nat) : Bool := (F.unpack x).cmp (F.unpack y) < 0
    || ((F.unpack x).cmp (F.unpack y) == 0 && (F.unpack x == .zero true || F.unpack x == F.unpack y))
  let pick (F : FFmt) (x y : Nat) (z : Nat) : Nat × FlagSet :=
    (if (F.unpack x).isNan && (F.unpack y).isNan then F.canon else if (F.unpack x).isNan then y
      else if (F.unpack y).isNan then x else z, inv ((F.unpack x).isSNan || (F.unpack y).isSNan))
  let sign (F : FFmt) (x z : Nat) : Nat × FlagSet :=
    (if (F.unpack x).isNan then F.canon else z, inv (F.unpack x).isSNan)
  AluOp 0x024 .fmin (fun w _ a b c =>
      perElem (w.fmt (aForm 0x024)) (fun F x y _ => pick F x y (if less F x y then x else y)) a b c)
    ∧ AluOp 0x025 .fmax (fun w _ a b c =>
      perElem (w.fmt (aForm 0x025)) (fun F x y _ => pick F x y (if less F x y then y else x)) a b c)
    ∧ AluOp 0x026 .fabs (fun w _ a b c =>
      perElem (w.fmt (aForm 0x026)) (fun F x _ _ => sign F x (x % 2 ^ (F.bits - 1))) a b c)
    ∧ AluOp 0x027 .fneg (fun w _ a b c =>
      perElem (w.fmt (aForm 0x027)) (fun F x _ _ => sign F x ((x + 2 ^ (F.bits - 1)) % 2 ^ F.bits)) a b c)

/-- FCVT, FRND, FSCALB and FDOT2 complete. FCVT converts one element, or two F32 sources into the halves of a packed
D; FRND rounds to an integral value; FSCALB scales by 2^b, b an I32 or an I16 for each half; FDOT2 rounds the exact
sum of two products of halves and an F32 once. -/
def Obligations.FloatConversion : Prop :=
  AluOp 0x02a .fcvt (fun w rm a b _ =>
      let dst := w.fmt (aForm 0x02a)
      let src := w.opt (aForm 0x02a)
      if dst = 0x14 ∨ dst = 0x15 then
        let r0 := fCvt dst src rm (a.toNat % 2 ^ 32)
        let r1 := fCvt dst src rm (b.toNat % 2 ^ 32)
        (BitVec.ofNat 64 (r0.1 + 65536 * r1.1), r0.2 ||| r1.2)
      else (BitVec.ofNat 64 (fCvt dst src rm a.toNat).1, (fCvt dst src rm a.toNat).2))
    ∧ AluOp 0x02b .frnd (fun w rm a b c => perElem (w.fmt (aForm 0x02b)) (fun F x _ _ => fRnd F rm x) a b c)
    ∧ AluOp 0x02c .fscalb (fun w rm a b c =>
      let fmt := w.fmt (aForm 0x02c)
      if fmt = 0x14 ∨ fmt = 0x15 then perElem fmt (fun F x y _ => fScalb F rm x (signedOf 16 y)) a b c
      else
        let F := floatOf fmt
        let r := fScalb F rm (a.toNat % 2 ^ F.bits) (signedOf 32 b.toNat)
        (BitVec.ofNat 64 r.1, r.2))
    ∧ AluOp 0x02f .fdot2 (fun w rm a b c =>
      let F := floatOf (w.fmt (aForm 0x02f))
      let r := fmtF32.sum rm [(F.unpack (half0 a)).mul (F.unpack (half0 b)), (F.unpack (half1 a)).mul (F.unpack (half1 b)),
        fmtF32.unpack (c.toNat % 2 ^ 32)]
      (BitVec.ofNat 64 r.1, r.2))

/-- BRA, BRV, BRS, CALL, RET and JMPI complete with the transfers of R184. Each executing lane goes to the header the
rule gives: H plus the offset, or, when the condition of BRV or BRS is 0, the header after the clause; CALL writes
that header index to its link register first; RET takes the register; JMPI adds twice the register. -/
def Obligations.Transfers : Prop :=
  (∀ (s : State) (p : Focus) (k : Stook) (w : JWord), Issues (.bra w) s p k →
      ∃ t, exec (.bra w) s = .next t ∧ TransferResult s t p noRegs fun l => braTarget w (s.laneOf p l))
    ∧ (∀ (s : State) (p : Focus) (k : Stook) (w : JcWord), Issues (.brv w) s p k →
      ∃ t, exec (.brv w) s = .next t ∧ TransferResult s t p noRegs fun l =>
        if (s.here p).src 0 w.a l ≠ 0 then brTarget w (s.laneOf p l) else (s.laneOf p l).fin)
    ∧ (∀ (s : State) (p : Focus) (k : Stook) (w : JcWord), Issues (.brs w) s p k →
      ∃ t, exec (.brs w) s = .next t ∧ TransferResult s t p noRegs fun l =>
        if (s.here p).ssrc w.a ≠ 0 then brTarget w (s.laneOf p l) else (s.laneOf p l).fin)
    ∧ (∀ (s : State) (p : Focus) (k : Stook) (w : JcWord), Issues (.call w) s p k →
      ∃ t, exec (.call w) s = .next t
        ∧ (∀ l, p.lanes.getLsbD l = true → (t.here p).rv w.a.toNat l = (s.laneOf p l).fin)
        ∧ TransferResult s t p (laneRegs p.lanes false w.a.toNat) fun l => brTarget w (s.laneOf p l))
    ∧ (∀ (s : State) (p : Focus) (k : Stook) (w : JcWord), Issues (.ret w) s p k →
      ∃ t, exec (.ret w) s = .next t ∧ TransferResult s t p noRegs fun l => (s.here p).src 0 w.a l)
    ∧ ∀ (s : State) (p : Focus) (k : Stook) (w : JcWord), Issues (.jmpi w) s p k →
      ∃ t, exec (.jmpi w) s = .next t ∧ TransferResult s t p noRegs fun l =>
        brTarget w (s.laneOf p l) + 2 * (s.here p).src 0 w.a l

/-- JOIN, LEAVE, MSET, MMOV, MGET, YIELD and NOP complete. JOIN adds the executing lanes to the mask and LEAVE takes
them out; MSET writes a scalar source, MMOV copies a mask, MGET reads a mask into an s-register. NOP changes nothing
but the place and the count of its path; YIELD also asks the port to prefer another sheaf. Nothing else changes, and
neither of the last two leaves a latch. -/
def Obligations.MaskWords : Prop :=
  (∀ (s : State) (p : Focus) (k : Stook) (w : IWord),
    (Issues (.join w) s p k → ∃ t, exec (.join w) s = .next t ∧
        MaskResult s t p 1 w.imm.toNat ((s.here p).rm w.imm.toNat ||| p.lanes) 0)
    ∧ (Issues (.leave w) s p k → ∃ t, exec (.leave w) s = .next t ∧
        MaskResult s t p 1 w.imm.toNat ((s.here p).rm w.imm.toNat &&& ~~~p.lanes) 0)
    ∧ (Issues (.mset w) s p k → ∃ t, exec (.mset w) s = .next t ∧ MaskResult s t p 1 w.imm.toNat ((s.here p).ssrc w.a) 0)
    ∧ (Issues (.mmov w) s p k → ∃ t, exec (.mmov w) s = .next t ∧
        MaskResult s t p 1 (w.imm.toNat % 16) ((s.here p).rm (w.imm.toNat / 16)) 0)
    ∧ (Issues (.mget w) s p k → ∃ t, exec (.mget w) s = .next t ∧
        ScalarResult s t p 1 false w.d.toNat (((s.here p).rm w.imm.toNat).setWidth 64)))
    ∧ (∀ (s : State) (p : Focus) (k : Stook) (w : AWord),
    (Issues (.yield w) s p k → ∃ t, exec (.yield w) s = .next t ∧ (t.here p).yielded = true
        ∧ QuietResult s t p 1)
    ∧ (Issues (.nop w) s p k → ∃ t, exec (.nop w) s = .next t ∧ (t.here p).yielded = (s.here p).yielded
        ∧ QuietResult s t p 1))

/-- WAITM lets its lanes go on when every member of the mask waits, and holds them until then. With w the lanes of the
path and those already waiting at WAITM on the mask: if the mask has no member outside w, every lane of w goes on
behind its word; otherwise the lanes of the path are held at theirs. No register changes. The premise is that no lane
of the sheaf beside those waits on a mask or at a sheaf-wide word. That RETIRED counts a held word at its issue is log
entry 6, a reading of R116. -/
def Obligations.WaitMask : Prop :=
  ∀ (s : State) (p : Focus) (k : Stook) (w : IWord), Issues (.waitm w) s p k →
    let m := w.imm.toNat
    let all : LaneMask := p.lanes ||| (s.here p).waiters m
    (s.here p).ClearBut ((s.here p).waiters m) →
      ((s.here p).rm m &&& ~~~all = 0 → ∃ t, exec (.waitm w) s = .next t ∧ Meet s t p all 1 noRegs 0)
      ∧ ((s.here p).rm m &&& ~~~all ≠ 0 → ∃ t, exec (.waitm w) s = .next t
          ∧ (∀ l, p.lanes.getLsbD l = true → LaneHeld (s.laneOf p l) (t.laneOf p l) (.waitm m))
          ∧ SheafFrame s t p noRegs noKeys noKeys 0)

/-- SHFL, VOTE, MATCH, RDLANE, WRLANE and ELECT complete when the path is the mask, trap outside it and wait for
absent members. When the executing lanes are the members of the named mask, each instruction completes at once: D of
each member takes the value of R193 and R194, every source read before any destination is written, no flag raised,
everything else unchanged. For ROT the direction is that of the pseudocode of R194, which its prose contradicts (log
entry 37). Executing lanes that are no members trap MASK_MISMATCH, for REDL too; members are held, with nothing
written, while another member is elsewhere; when RETIRED counts them is log entry 6, a reading of R116. -/
def Obligations.CrossLane : Prop :=
  (CrossOp 0x150 .shfl (fun _ _ _ => true) (fun w h ms l =>
      let a := srcA 0x150 w h
      let x := srcB 0x150 w h l
      let r := (ms.filter fun k => decide (k < l)).length
      match w.subop (aForm 0x150) with
      | 0 => if x.toNat % 32 ∈ ms then a (x.toNat % 32) else a l
      | 1 => a (ms.getD ((r + x.toNat) % ms.length) 0)
      | 2 => if 0 ≤ (r : Int) - x.toInt ∧ (r : Int) - x.toInt < ms.length then a (ms.getD ((r : Int) - x.toInt).toNat 0) else 0
      | _ => if 4 * (l / 4) + x.toNat / 4 ^ (l % 4) % 4 ∈ ms then a (4 * (l / 4) + x.toNat / 4 ^ (l % 4) % 4) else a l)
    ∧ CrossOp 0x151 .vote (fun _ _ _ => true) (fun w h ms _ =>
      let a := srcA 0x151 w h
      match w.subop (aForm 0x151) with
      | 0 => if ∃ k ∈ ms, a k ≠ 0 then 1 else 0
      | 1 => if ∀ k ∈ ms, a k ≠ 0 then 1 else 0
      | 2 => maskOf (ms.filter fun k => decide (a k ≠ 0))
      | _ => if ∀ k ∈ ms, a k = a (ms.headD 0) then 1 else 0)
    ∧ CrossOp 0x152 .matchLanes (fun _ _ _ => true) (fun w h ms l =>
      let a (k : Nat) : DWord := h.srcW (decide (w.subop (aForm 0x152) = 1)) (w.sregN (aForm 0x152)) w.a k
      if w.subop (aForm 0x152) = 2 then BitVec.ofNat 32 ((ms.find? fun k => a k == a l).getD 0)
      else maskOf (ms.filter fun k => a k == a l))
    ∧ CrossOp 0x154 .rdlane (fun _ _ _ => true) (fun w h ms _ =>
      if laneNum 0x154 w h ∈ ms then srcA 0x154 w h (laneNum 0x154 w h) else 0)
    ∧ CrossOp 0x155 .wrlane (fun w h l => l == laneNum 0x155 w h) (fun w h ms _ => srcA 0x155 w h (ms.headD 0))
    ∧ CrossOp 0x156 .elect (fun _ _ _ => true) (fun w _ ms l =>
      if w.subop (aForm 0x156) = 1 then BitVec.ofNat 32 (ms.headD 0) else if l = ms.headD 0 then 1 else 0))
    ∧ (∀ (s : State) (p : Focus) (k : Stook) (i : Instr) (op : Nat) (w : AWord), crossForm i = some (op, w) → Issues i s p k →
    let M := (s.here p).rm (w.mask (aForm op))
    (M &&& p.lanes = 0 → (∀ l, p.lanes.getLsbD l = true → (s.laneOf p l).tx.depth = 0) →
        ∃ t, exec i s = .next t ∧ Trapped s t p p.lanes (sizeA w) .maskMismatch)
      ∧ ((s.here p).ClearBut 0 → p.lanes &&& ~~~M = 0 → M &&& ~~~p.lanes ≠ 0 →
        ∃ t, exec i s = .next t
          ∧ (∀ l, p.lanes.getLsbD l = true → LaneHeld (s.laneOf p l) (t.laneOf p l) (.cross (w.mask (aForm op)) i))
          ∧ (∀ r l, (t.here p).rv r l = (s.here p).rv r l) ∧ (∀ r, (t.here p).rs r = (s.here p).rs r)
          ∧ (∀ a, t.mem.byte a = s.mem.byte a) ∧ (t.here p).retired = (s.here p).retired))

/-- REDL completes with one rounding of the exact sum over the members, at once or by a request that parks. When the
executing lanes are the members of the mask and no element of the core waits in staging: if the alignment window
decides the sum, every member holds the exact sum of the members' sources rounded once in the word's mode, with its
flags; otherwise the lanes go on with D pending and one request in the park queue whose result is that same value. -/
def Obligations.CrossLaneReduce : Prop :=
  ∀ (s : State) (p : Focus) (k : Stook) (w : AWord), Issues (.redl w) s p k → (s.here p).ClearBut 0 →
    (s.here p).rm (w.mask (aForm 0x041)) = p.lanes → (s.core k.core).parkStaged = false →
    let fmt := w.fmt (aForm 0x041)
    let wide := decide (fmt = 0x13)
    let F := floatOf fmt
    let terms := (lanesOf p.lanes).map fun l =>
      F.unpack (((s.here p).srcW wide (w.sregN (aForm 0x041)) w.a l).toNat % 2 ^ F.bits)
    let sum := F.sum ((s.here p).mode (w.rm (aForm 0x041))) terms
    (windowPasses F (if wide then 160 else 80) terms.length terms = true →
        ∃ t, exec (.redl w) s = .next t
          ∧ (∀ l, p.lanes.getLsbD l = true → (t.here p).rv w.d.toNat l = BitVec.ofNat 32 sum.1
              ∧ (wide = true → (t.here p).rv (w.d.toNat + 1) l = BitVec.ofNat 32 (sum.1 / 2 ^ 32)))
          ∧ Meet s t p p.lanes (sizeA w) (laneRegs p.lanes wide w.d.toNat) sum.2)
      ∧ (windowPasses F (if wide then 160 else 80) terms.length terms = false →
        ∃ t, exec (.redl w) s = .next t
          ∧ (∀ l, p.lanes.getLsbD l = true → LaneFreed (s.laneOf p l) (t.laneOf p l) (sizeA w))
          ∧ (∃ q ∈ (t.core k.core).park, q.lanes = p.lanes ∧ q.dest = w.d ∧ q.result = sum
              ∧ ∀ l, p.lanes.getLsbD l = true → (w.d.toNat, q.id) ∈ (t.laneOf p l).pending)
          ∧ (∀ r l, (t.here p).rv r l = (s.here p).rv r l) ∧ (t.here p).fx = (s.here p).fx)

/-- UNI writes the value the executing lanes share, or traps NONUNIFORM. If every executing lane reads the same value,
the s-register (with W64 the pair) takes it and nothing else changes; if two of them differ, and none is in a
transaction, the path traps NONUNIFORM and no s-register changes. -/
def Obligations.Uniform : Prop :=
  ∀ (s : State) (p : Focus) (k : Stook) (w : AWord), Issues (.uni w) s p k →
    let wide := decide (w.subop (aForm 0x153) = 1)
    let v (l : Nat) : DWord := (s.here p).srcW wide (w.sregN (aForm 0x153)) w.a l
    (∀ x, (∀ l, p.lanes.getLsbD l = true → v l = x) → ∃ t, exec (.uni w) s = .next t
        ∧ (t.here p).rs w.d.toNat = x.extractLsb' 0 32
        ∧ (wide = true → (t.here p).rs ((w.d.toNat + 1) % 64) = x.extractLsb' 32 32)
        ∧ PathGoesOn s t p (sizeA w) ∧ PathKept s t p
        ∧ SheafFrame s t p noRegs (oneKey wide w.d.toNat) noKeys 0)
      ∧ ((∃ l m, p.lanes.getLsbD l = true ∧ p.lanes.getLsbD m = true ∧ v l ≠ v m) →
        (∀ l, p.lanes.getLsbD l = true → (s.laneOf p l).tx.depth = 0) →
        ∃ t, exec (.uni w) s = .next t ∧ Trapped s t p p.lanes (sizeA w) .nonuniform)

/-- BAR and BARA arrive for their sheaf and complete the phase when the count is reached; BARW waits for the recorded
phase. The path is every lane of its sheaf not exited, what it issued before is performed at its core, and the barrier
stands in a phase in which its sheaf has not arrived, of the same count. If this arrival completes the phase, the
lanes of the path and every lane waiting at BAR go on and the next phase has no arrival; if not, lanes at BAR are held
and lanes at BARA go on, the arrival standing in the phase. Lanes at BARW go on exactly when their sheaf has no
recorded phase. That RETIRED counts a word that is held at its issue is log entry 6, a reading of R116. Where else the
spec is silent this rests on log entry 8, the model's reading. -/
def Obligations.Barriers : Prop :=
  ∀ (s : State) (p : Focus) (k : Stook) (w : IWord),
    let n := w.imm.toNat
    let b := k.barrier n
    let cnt := barCount w (s.here p)
    let b' : Barrier := { b with phase := some cnt, arrived := b.arrived ||| 1#32 <<< p.sheaf }
    let on (t : State) : Prop := ∀ l, p.lanes.getLsbD l = true → LaneFreed (s.laneOf p l) (t.laneOf p l) 1
    let others (t : State) : Prop := ∀ j l, j ≠ p.sheaf → l < 32 → (s.sheafAt p.stook j).waitsAtBar n l →
      LaneFreed ((s.sheafAt p.stook j).lane l) ((t.sheafAt p.stook j).lane l) 1
    let same (t : State) : Prop := (∀ a, t.mem.byte a = s.mem.byte a)
      ∧ ∀ u j r, (∀ l, (t.sheafAt u j).rv r l = (s.sheafAt u j).rv r l) ∧ (t.sheafAt u j).rs r = (s.sheafAt u j).rs r
    k.Awaiting n → (s.barReleased p.stook p.sheaf p.lanes = true ∧ p.lanes = (s.here p).live ∧ b.arrived.getLsbD p.sheaf = false
        ∧ (b.phase = none ∨ b.phase = some cnt) →
      (Issues (.bar w) s p k →
        (k.phaseDone b' = true → ∃ t, exec (.bar w) s = .next t ∧ on t ∧ others t ∧ same t
            ∧ ∃ k', t.stook? p.stook = some k' ∧ (k'.barrier n).phase = none ∧ (k'.barrier n).arrived = 0)
        ∧ (k.phaseDone b' = false → ∃ t, exec (.bar w) s = .next t ∧ same t
            ∧ (∀ l, p.lanes.getLsbD l = true → LaneHeld (s.laneOf p l) (t.laneOf p l) (.bar n cnt true 1))
            ∧ ∃ k', t.stook? p.stook = some k' ∧ k'.barrier n = b'))
      ∧ (Issues (.bara w) s p k →
        (k.phaseDone b' = true → ∃ t, exec (.bara w) s = .next t ∧ on t ∧ others t ∧ same t
            ∧ ∃ k', t.stook? p.stook = some k' ∧ (k'.barrier n).phase = none ∧ (k'.barrier n).arrived = 0)
        ∧ (k.phaseDone b' = false → ∃ t, exec (.bara w) s = .next t ∧ on t ∧ same t
            ∧ ∃ k', t.stook? p.stook = some k' ∧ k'.barrier n = { b' with record := Bank.set b.record p.sheaf 1 })))
    ∧ (Issues (.barw w) s p k →
      (Bank.get b.record p.sheaf = 0 → ∃ t, exec (.barw w) s = .next t ∧ on t ∧ same t)
      ∧ (Bank.get b.record p.sheaf ≠ 0 → ∃ t, exec (.barw w) s = .next t ∧ same t
          ∧ ∀ l, p.lanes.getLsbD l = true → LaneHeld (s.laneOf p l) (t.laneOf p l) (.barw n)))

/-- MON arms each lane on the line of its element; MWAIT goes on with its reason or holds the lane until a write, the
timeout or a spurious wake. MON: when every executing lane's element is located, each lane is armed on the line of the
element's first byte, on none for a peer page or an element outside under BOUNDS mode 1. MWAIT: each lane that a write
has reached since its MON, that a restore woke or that has no monitor armed goes on with reason 0, 2 or 3 in D and its
monitor disarmed; each other lane is held. MWAIT_TIMEOUT and MWAIT_SPURIOUS_WAKE release a held lane with reason 1 and
3. That RETIRED counts MWAIT at its issue is log entry 6, a reading of R116. -/
def Obligations.Monitors : Prop :=
  ((∀ (s : State) (p : Focus) (k : Stook) (w : MWord) (v : Via) (e : Nat → Elem), Issues (.mon w) s p k →
      mwVia w (s.here p) k = some v →
      (∀ l, p.lanes.getLsbD l = true → ({ s with free := s.free + 1 } : State).namedElem k v (monShape w v) { rd := true }
        [elemIndex (mwIndex w (s.here p) v.flat l) w.imm (monShape w v) (immUnit v (monShape w v).bits) 0] = .ok (e l)) →
      ∃ t, exec (.mon w) s = .next t ∧ PathGoesOn s t p 2 ∧ SheafFrame s t p noRegs noKeys noKeys 0
        ∧ ∀ l, p.lanes.getLsbD l = true → (t.laneOf p l).monitor = match (e l).locs.head? with
          | some b => if b.peer.isSome then none else some (lineOf (e l).va, lineOf b.pa, false)
          | none => none)
    ∧ ∀ (s : State) (p : Focus) (k : Stook) (w : AWord), Issues (.mwait w) s p k →
      (∀ l i time since, p.lanes.getLsbD l = false → (s.laneOf p l).hold = some (.mwait i time since) →
        (s.laneOf p l).wakeReason = none ∧ (time = 0 ∨ s.waitCount k < since + time)) →
      ∃ t, exec (.mwait w) s = .next t
        ∧ (∀ l, p.lanes.getLsbD l = true → ∀ r, (s.laneOf p l).wakeReason = some r →
            LaneFreed (s.laneOf p l) (t.laneOf p l) (sizeA w) ∧ (t.laneOf p l).monitor = none
              ∧ (isVReg w.d = true → (t.here p).rv w.d.toNat l = BitVec.ofNat 32 r))
        ∧ (∀ l, p.lanes.getLsbD l = true → (s.laneOf p l).wakeReason = none →
            LaneHeld (s.laneOf p l) (t.laneOf p l)
              (.mwait (.mwait w) ((s.here p).src (w.sregN (aForm 0x14d)) w.a l).toNat (s.waitCount k)))
        ∧ SheafFrame s t p (fun r l => isVReg w.d && r == w.d.toNat && p.lanes.getLsbD l
            && (s.laneOf p l).wakeReason.isSome) noKeys noKeys 0)
    ∧ (∀ (s : State) (r : LaneRef) (k : Stook) (w : AWord) (time since : Nat), s.powered = true → s.stook? r.stook = some k →
    r.sheaf < k.sheaves.length → r.lane < 32 → r.lane < (k.sheaf r.sheaf).lanes.length →
    (s.laneAt r).hold = some (.mwait (.mwait w) time since) → (s.laneAt r).stop = none →
    let woken (t : State) (reason : Nat) : Prop := LaneFreed (s.laneAt r) (t.laneAt r) (sizeA w) ∧ (t.laneAt r).monitor = none
      ∧ (isVReg w.d = true → (t.sheafAt r.stook r.sheaf).rv w.d.toNat r.lane = BitVec.ofNat 32 reason)
      ∧ (∀ a, t.mem.byte a = s.mem.byte a)
      ∧ ∀ n l, l < 32 → (n ≠ w.d.toNat ∨ l ≠ r.lane) →
          (t.sheafAt r.stook r.sheaf).rv n l = (s.sheafAt r.stook r.sheaf).rv n l
    (time ≠ 0 → since + time ≤ s.waitCount k → ∃ t, exec (.mwaitTimeout r) s = .next t ∧ woken t 1)
      ∧ ∃ t, exec (.mwaitSpuriousWake r) s = .next t ∧ woken t 3)

/-- REGROUP of one sheaf moves its lanes into the order of their keys. The participating set is the path's sheaf, the
path is every lane of it not exited, every mask is empty, nothing of it is outstanding and no other lane of the stook
stands at a REGROUP. Then the lanes are put in ascending order of key, ties by lane: position l takes the place and
the registers of the moved range of the l-th lane in that order, every other register reads zero, positions beyond the
last are exited; scalar registers stay. Where the spec is silent this rests on log entry 7, the model's reading. -/
def Obligations.Regroup : Prop :=
  ∀ (s : State) (p : Focus) (k : Stook) (w : AWord), Issues (.regroup w) s p k →
    let f := aForm 0x157
    let key (l : Nat) : Nat := ((s.here p).src (w.sregN f) w.a l).toNat
    let first := w.b.toNat
    let count := w.opt f + 1
    let set : Word := (if w.c f == cBCAST then (s.here p).rs (w.sregN f) else BitVec.allOnes 32)
    ((List.range k.sheaves.length).filter fun n => set.getLsbD n && decide (n < 32)) = [p.sheaf] →
    p.lanes = (s.here p).live → (s.here p).m = [] → (s.here p).queue = [] →
    (∀ l, l < (s.here p).lanes.length → (s.laneOf p l).exitIssued = true → (s.laneOf p l).exited = true) →
    (∀ l, p.lanes.getLsbD l = true → (s.laneOf p l).pending = []) →
    (∀ q ∈ (s.core k.core).reqs, ¬ (q.stook = p.stook ∧ q.sheaf = p.sheaf)) →
    (∀ e ∈ (s.core k.core).replay, ¬ (e.req.stook = p.stook ∧ e.req.sheaf = p.sheaf)) →
    (∀ c ∈ (s.core k.core).copies, ¬ (c.stook = p.stook ∧ c.sheaf = p.sheaf)) →
    (∀ j l, ((s.sheafAt p.stook j).lane l).regroupAt = none) →
    ∃ t, exec (.regroup w) s = .next t ∧ (∀ a, t.mem.byte a = s.mem.byte a) ∧ (∀ r, (t.here p).rs r = (s.here p).rs r)
      ∧ ∃ o : List Nat, o.Perm (lanesOf p.lanes) ∧ (o.Pairwise fun a b => key a < key b ∨ (key a = key b ∧ a < b))
        ∧ (∀ l x, l < (s.here p).lanes.length → o[l]? = some x → GoesOn (s.laneOf p x) (t.laneOf p l) 2
            ∧ ∀ j, j < count → (t.here p).rv (first + j) l = (s.here p).rv (first + j) x)
        ∧ (∀ l, l < (s.here p).lanes.length → o.length ≤ l → (t.laneOf p l).exited = true)
        ∧ ∀ r l, l < 32 → (r < first ∨ first + count ≤ r) → (t.here p).rv r l = 0

/-- A word that fails an issue check traps its path or aborts its transactions; in a transaction a word past the
budget or refused aborts it. For every instruction word: when the first failing check of R31 names a cause, lanes in
no transaction trap with that cause at the word, no operand read and nothing written; lanes all in a transaction abort
with status FAULT (0x05) instead. A word whose own operand test fails behind those checks traps lanes in no
transaction with ILLEGAL_OPERAND. The word of an unassigned slot always fails with ILLEGAL_OPCODE. When the checks
pass and all lanes are in a transaction: past the 16,384 instructions all abort with 0x04; a word that R206 refuses
aborts them with 0x06. Such a word has no effect. -/
def Obligations.Refusals : Prop :=
  ((∀ (s : State) (p : Focus) (k : Stook) (i : Instr) (c : Cause), i.isWord = true → AtWord s p k →
      issueCheck i k (k.sheaf p.sheaf) p.lanes = some c →
      ((∀ l, p.lanes.getLsbD l = true → (s.laneOf p l).tx.depth = 0) →
        ∃ t, exec i s = .next t ∧ Trapped s t p p.lanes i.size c)
      ∧ ((∀ l, p.lanes.getLsbD l = true → 0 < (s.laneOf p l).tx.depth) →
        ∃ t, exec i s = .next t ∧ t.faults = s.faults ∧ t.sent = s.sent
          ∧ (∀ l, p.lanes.getLsbD l = true → Aborted (s.laneOf p l) (t.laneOf p l) 0x05)
          ∧ (∀ r l, (t.here p).rv r l = (s.here p).rv r l) ∧ ∀ a, t.mem.byte a = s.mem.byte a))
    ∧ (∀ (s : State) (p : Focus) (k : Stook) (i : Instr), i.isWord = true → AtWord s p k →
      issueCheck i k (k.sheaf p.sheaf) p.lanes = none → ownOk i k (k.sheaf p.sheaf) = false →
      (∀ l, p.lanes.getLsbD l = true → (s.laneOf p l).tx.depth = 0) →
        ∃ t, exec i s = .next t ∧ Trapped s t p p.lanes i.size .illegalOperand)
    ∧ ∀ (s : State) (p : Focus) (k : Stook) (w : UWord), AtWord s p k →
      (∀ l, p.lanes.getLsbD l = true → (s.laneOf p l).tx.depth = 0) →
      ∃ t, exec (.unassignedSlotIssue w) s = .next t
        ∧ Trapped s t p p.lanes (Instr.unassignedSlotIssue w).size .illegalOpcode)
    ∧ (∀ (s : State) (p : Focus) (k : Stook) (i : Instr), i.isWord = true → AtWord s p k →
    issueCheck i k (k.sheaf p.sheaf) p.lanes = none → (∀ l, p.lanes.getLsbD l = true → 0 < (s.laneOf p l).tx.depth) →
    let aborted (t : State) (code : Nat) : Prop := t.faults = s.faults ∧ t.sent = s.sent
      ∧ (∀ l, p.lanes.getLsbD l = true → Aborted (s.laneOf p l) (t.laneOf p l) code)
      ∧ (∀ r l, (t.here p).rv r l = (s.here p).rv r l) ∧ (t.here p).retired = (s.here p).retired
      ∧ ∀ a, t.mem.byte a = s.mem.byte a
    ((∀ l, p.lanes.getLsbD l = true → 16384 ≤ (s.laneOf p l).tx.count) → ∃ t, exec i s = .next t ∧ aborted t 0x04)
      ∧ ((∀ l, p.lanes.getLsbD l = true → (s.laneOf p l).tx.count < 16384) → refusedInTx i = true →
        ∃ t, exec i s = .next t ∧ aborted t 0x06))

/-- RDSR completes with the value of the special register named, WRSR writes FRM or FX with a value the lanes share.
RDSR: D of every executing lane (a pair for the 64-bit registers) takes the value the register has at the issue;
CYCLES is the core's count, in rotation and in a second run the RETIRED count; RETIRED does not count this RDSR; a
secondary twin reads its primary's core, a second run the first one's (log entry 86). WRSR: when every executing lane
reads the same value and it sets no reserved bit, the register named takes it and nothing else changes; a value that
differs between lanes traps NONUNIFORM, one that is not allowed ILLEGAL_OPERAND, with no write. -/
def Obligations.SpecialRegisters : Prop :=
  (∀ (s : State) (p : Focus) (k : Stook) (w : IWord), Issues (.rdsr w) s p k →
    let n := w.imm.toNat
    let d := (s.launchOf k).desc
    let id := k.stookId.toNat
    let core := if k.secondary then ((k.twin.bind s.stook?).map Stook.core).getD (k.rerun.getD k.core) else k.core
    let x (l : Nat) : Lane := s.laneOf p l
    let value (l : Nat) : DWord := match n with
      | 0x00 => BitVec.ofNat 64 l
      | 0x01 => BitVec.ofNat 64 p.sheaf
      | 0x02 => BitVec.ofNat 64 id
      | 0x03 => BitVec.ofNat 64 (id % d.fieldX)
      | 0x04 => BitVec.ofNat 64 (id / d.fieldX % d.fieldY)
      | 0x05 => BitVec.ofNat 64 (id / (d.fieldX * d.fieldY))
      | 0x06 => BitVec.ofNat 64 (d.fieldX * d.fieldY * d.fieldZ)
      | 0x07 => BitVec.ofNat 64 core
      | 0x08 => BitVec.ofNat 64 (core / 216)
      | 0x09 => if d.rotates ∨ k.rerun.isSome = true then (s.here p).retired else (s.core k.core).cycles
      | 0x0a => (s.here p).retired
      | 0x0b => d.seed
      | 0x0c => BitVec.ofNat 64 (8 * d.contain + 2 * d.place + if d.det then 1 else 0)
      | 0x10 => (s.here p).frm.setWidth 64
      | 0x11 => (s.here p).fx.setWidth 64
      | 0x12 => BitVec.ofNat 64 ((if (x l).txrec then 256 else 0) + (x l).txcode.toNat)
      | _ => BitVec.ofNat 64 ((if (x l).tx.locked then 16 else 0) + (x l).tx.depth)
    ∃ t, exec (.rdsr w) s = .next t ∧ LaneResult s t p 1 (decide (9 ≤ n ∧ n ≤ 11)) w.d.toNat value)
    ∧ (∀ (s : State) (p : Focus) (k : Stook) (w : IWord), Issues (.wrsr w) s p k →
    let v (l : Nat) : Word := (s.here p).src 0 w.a l
    let fit (x : Word) : Prop := if w.imm.toNat = 0x10 then x.toNat % 8 ≤ 4 ∧ x.toNat / 8 % 32 = 0 ∧ x.toNat < 512 else x.toNat < 32
    (∀ x, (∀ l, p.lanes.getLsbD l = true → v l = x) →
        (fit x → ∃ t, exec (.wrsr w) s = .next t ∧ (t.here p).frm = (if w.imm.toNat = 0x10 then x else (s.here p).frm)
          ∧ (t.here p).fx = (if w.imm.toNat = 0x10 then (s.here p).fx else x) ∧ PathGoesOn s t p 1 ∧ PathKept s t p
          ∧ (t.here p).retired = (s.here p).retired + 1 ∧ (∀ r l, (t.here p).rv r l = (s.here p).rv r l)
          ∧ (∀ r, (t.here p).rs r = (s.here p).rs r) ∧ (∀ r, (t.here p).rm r = (s.here p).rm r)
          ∧ ∀ a, t.mem.byte a = s.mem.byte a)
        ∧ (¬ fit x → (∀ l, p.lanes.getLsbD l = true → (s.laneOf p l).tx.depth = 0) →
          ∃ t, exec (.wrsr w) s = .next t ∧ Trapped s t p p.lanes 1 .illegalOperand))
      ∧ ((∃ l m, p.lanes.getLsbD l = true ∧ p.lanes.getLsbD m = true ∧ v l ≠ v m) →
        (∀ l, p.lanes.getLsbD l = true → (s.laneOf p l).tx.depth = 0) →
        ∃ t, exec (.wrsr w) s = .next t ∧ Trapped s t p p.lanes 1 .nonuniform))

/-- RAND draws ZMIX of the seed, the lane and its counter; VFREE releases registers, which then read zero. RAND: G is
(STOOKID times sheaves plus SHEAFID) times 32 plus LANEID. When no executing lane's counter wraps with WRAPTRAP set, D
of each lane takes ZMIX(SEED, G, counter) and the counter pair takes one more, modulo 2^64. When all of them would
wrap with WRAPTRAP set, they trap RNG_WRAP and write nothing. VFREE: every register of the range reads zero in each
executing lane; the lanes go on, every other register and all else stays. -/
def Obligations.RandomAndRelease : Prop :=
  (∀ (s : State) (p : Focus) (k : Stook) (w : AWord), Issues (.rand w) s p k →
    let d := (s.launchOf k).desc
    let ctr (l : Nat) : DWord := (s.here p).src64 0 w.a l
    let wraps (l : Nat) : Bool := (s.here p).wrapTrap && ctr l == BitVec.allOnes 64
    let value (l : Nat) : DWord := zmix d.seed (BitVec.ofNat 64 ((k.stookId.toNat * d.sheaves + p.sheaf) * 32 + l)) (ctr l)
    ((∀ l, p.lanes.getLsbD l = true → wraps l = false) →
        ∃ t, exec (.rand w) s = .next t
          ∧ (∀ l, p.lanes.getLsbD l = true → (t.here p).rv w.d.toNat l = (value l).extractLsb' 0 32
              ∧ (t.here p).rv (w.d.toNat + 1) l = (value l).extractLsb' 32 32
              ∧ (t.here p).rv w.a.toNat l = (ctr l + 1).extractLsb' 0 32
              ∧ (t.here p).rv (w.a.toNat + 1) l = (ctr l + 1).extractLsb' 32 32)
          ∧ PathGoesOn s t p (sizeA w) ∧ PathKept s t p
          ∧ SheafFrame s t p (fun r l => laneRegs p.lanes true w.d.toNat r l || laneRegs p.lanes true w.a.toNat r l) noKeys noKeys 0)
      ∧ ((∀ l, p.lanes.getLsbD l = true → wraps l = true ∧ (s.laneOf p l).tx.depth = 0) →
        ∃ t, exec (.rand w) s = .next t ∧ Trapped s t p p.lanes (sizeA w) .rngWrap))
    ∧ (∀ (s : State) (p : Focus) (k : Stook) (w : AWord), Issues (.vfree w) s p k →
    let n := w.opt (aForm 0x186) + 1
    ∃ t, exec (.vfree w) s = .next t
      ∧ (∀ j l, j < n → p.lanes.getLsbD l = true → (t.here p).rv (w.d.toNat + j) l = 0)
      ∧ PathGoesOn s t p (sizeA w) ∧ PathKept s t p
      ∧ SheafFrame s t p (fun r l => p.lanes.getLsbD l && decide (w.d.toNat ≤ r) && decide (r < w.d.toNat + n)) noKeys noKeys 0)

/-- TRAP stops its lanes with SW_TRAP, BKPT parks them where the context is debugged. TRAP: each executing lane
outside a transaction stops with SW_TRAP and the code as DETAIL; a path all in transactions aborts with FAULT. BKPT
with debugging enabled: each executing lane parks with BREAKPOINT and the tag, its transaction left active; otherwise
the lanes go on and nothing happens. -/
def Obligations.SoftwareTraps : Prop :=
  ∀ (s : State) (p : Focus) (k : Stook) (w : IWord),
    (Issues (.trap w) s p k →
      ((∀ l, p.lanes.getLsbD l = true → (s.laneOf p l).tx.depth = 0) →
        ∃ t, exec (.trap w) s = .next t ∧ Trapped s t p p.lanes 1 .swTrap (w.imm.setWidth 32))
      ∧ ((∀ l, p.lanes.getLsbD l = true → 0 < (s.laneOf p l).tx.depth) →
        ∃ t, exec (.trap w) s = .next t ∧ ∀ l, p.lanes.getLsbD l = true → Aborted (s.laneOf p l) (t.laneOf p l) 0x05))
    ∧ (Issues (.bkpt w) s p k →
      ((s.ctx k.ctx).debug = true → ∃ t, exec (.bkpt w) s = .next t ∧ Trapped s t p p.lanes 1 .breakpoint (w.imm.setWidth 32) true)
      ∧ ((s.ctx k.ctx).debug = false → ∃ t, exec (.bkpt w) s = .next t ∧ QuietResult s t p 1))

/-- LAUNCH submits one launch for each lane in ascending order or traps, LAUNCH_ANSWER writes the answer. When every
executing lane's descriptor address is aligned to 64 bytes, inside the address space and readable, one submission for
each lane, in ascending lane order, goes to the controller with its queue and destination; D is pending, the lanes go
on. When every address is misaligned the lanes trap MISALIGNED. LAUNCH_ANSWER: without permission for device-side
launches D takes 0x8000_0003, with a queue above 15 0x8000_0004, otherwise what the controller answers; the submission
is gone. Where the spec is silent this rests on log entry 19, the model's reading. -/
def Obligations.DeviceLaunches : Prop :=
  (∀ (s : State) (p : Focus) (k : Stook) (w : AWord), Issues (.launch w) s p k →
    let va (l : Nat) : Nat := ((s.here p).src64 (w.sregN (aForm 0x185)) w.a l).toNat
    ((∀ l, p.lanes.getLsbD l = true → va l % 64 = 0 ∧ va l + 256 ≤ 2 ^ 55
          ∧ ∃ bs, s.locateRange k.core k.ctx (va l) 256 (va l) { rd := true } = .ok bs) →
        ∃ t, exec (.launch w) s = .next t
          ∧ (∃ rs : List LaunchReq, (t.core k.core).launches = (s.core k.core).launches ++ rs
            ∧ rs.map (fun r => (r.ctx, r.stook, r.sheaf, r.lane, r.va, r.queue, r.dest)) = (lanesOf p.lanes).map (fun l =>
                (k.ctx, p.stook, p.sheaf, l, va l, (s.here p).src (w.sregN (aForm 0x185)) w.b l, w.d))
            ∧ ∀ r ∈ rs, (w.d.toNat, r.id) ∈ (t.laneOf p r.lane).pending)
          ∧ PathGoesOn s t p (sizeA w) ∧ (∀ r l, (t.here p).rv r l = (s.here p).rv r l) ∧ ∀ a, t.mem.byte a = s.mem.byte a)
      ∧ ((∀ l, p.lanes.getLsbD l = true → va l % 64 ≠ 0 ∧ (s.laneOf p l).tx.depth = 0) →
        ∃ t, exec (.launch w) s = .next t ∧ Trapped s t p p.lanes (sizeA w) .misaligned))
    ∧ (∀ (s : State) (core j : Nat) (r : LaunchReq) (k : Stook), s.powered = true → (s.core core).launches[j]? = some r →
    s.stook? r.stook = some k → k.twin = none → r.sheaf < k.sheaves.length → r.lane < 32 →
    ((k.sheaf r.sheaf).lane r.lane).exitIssued = false → s.launchGoes (s.core core) r = true →
    let x : Word := if (s.ctx r.ctx).devlaunch = false then 0x80000003 else if 15 < r.queue.toNat then 0x80000004
      else (s.answerLaunch r).1
    ∃ t, exec (.launchAnswer core j) s = .next t ∧ (t.sheafAt r.stook r.sheaf).rv r.dest.toNat r.lane = x
      ∧ ∀ q ∈ (t.core core).launches, q.id ≠ r.id)

/-- EXIT counts its lanes as exited from its issue; EXIT_COMPLETE ends a lane that awaits nothing. EXIT: each
executing lane has issued its EXIT, its transaction has ended without its writes, its locks and its monitor are given
up, its mask bits stay, and no register or memory changes. EXIT_COMPLETE: a lane with nothing outstanding and no
failed copy is exited; if it was the last of a stook without a twin, the stook is gone. -/
def Obligations.Exits : Prop :=
  (∀ (s : State) (p : Focus) (k : Stook) (w : JWord), Issues (.exit w) s p k →
      ∃ t, exec (.exit w) s = .next t
        ∧ (∀ l, p.lanes.getLsbD l = true → (t.laneOf p l).exitIssued = true ∧ (t.laneOf p l).exited = (s.laneOf p l).exited
            ∧ (t.laneOf p l).pc = (s.laneOf p l).pc ∧ (t.laneOf p l).tx.depth = 0 ∧ (t.laneOf p l).tx.writes = []
            ∧ (t.laneOf p l).monitor = none)
        ∧ (∀ q ∈ t.locks, ¬ (q.holder.stook = p.stook ∧ q.holder.sheaf = p.sheaf ∧ p.lanes.getLsbD q.holder.lane = true))
        ∧ (∀ r l, (t.here p).rv r l = (s.here p).rv r l) ∧ (∀ r, (t.here p).rs r = (s.here p).rs r)
        ∧ (∀ r, (t.here p).rm r = (s.here p).rm r) ∧ (t.here p).retired = (s.here p).retired + 1
        ∧ (∀ l, p.lanes.getLsbD l = false → (t.here p).lane l = (s.here p).lane l) ∧ ∀ a, t.mem.byte a = s.mem.byte a)
    ∧ ∀ (s : State) (r : LaneRef) (k : Stook), s.powered = true → s.stook? r.stook = some k → k.twin = none →
      r.sheaf < k.sheaves.length → r.lane < (k.sheaf r.sheaf).lanes.length → r.lane < 32 →
      s.exitReady r = true → s.failedCopy r = none →
      ∃ t, exec (.exitComplete r) s = .next t ∧ (∀ a, t.mem.byte a = s.mem.byte a)
        ∧ ((∃ i l, i < k.sheaves.length ∧ l < (k.sheaf i).lanes.length ∧ (i, l) ≠ (r.sheaf, r.lane)
              ∧ ((k.sheaf i).lane l).exited = false) → (t.laneAt r).exited = true)
        ∧ ((∀ i l, i < k.sheaves.length → l < (k.sheaf i).lanes.length → (i, l) ≠ (r.sheaf, r.lane) →
              ((k.sheaf i).lane l).exited = true) → t.stook? r.stook = none)

/-- LD, ST, LDF, STF, ATOM, CAS, RED, XRED and XRD through a record, LDS, STS, ATOM and CAS in the scratchpad make one
request for each lane. Through a record outside transactions, in the scratchpad always: when the uniform checks of the
word pass and no lane fails or misses in its own, each executing lane makes one request, in ascending lane order, to
the bytes its access names, with its data and ordering: a store behind those of its sheaf, any other at its core. The
registers a result will write are pending, the lanes go on; all else stays. -/
def Obligations.MemoryWords : Prop :=
  (∀ (s : State) (p : Focus) (k : Stook) (i : Instr) (chk : Stook → Sheaf → List Nat → Except Cause Via) (acc : Sheaf → Via → Access)
    (v : Via) (es : Nat → List (Elem × List ByteLoc)), recordWord i = some (chk, acc) → Issues i s p k → s.plain p →
    chk k (s.here p) s.wroteBefore = .ok v →
    (∀ l, p.lanes.getLsbD l = true → s.judge k (acc (s.here p) v) l = .ok (es l)) →
    ∃ t, exec i s = .next t ∧ RequestsOf s t p k (acc (s.here p) v) es ∧ MemIssued s t p (raisedBy (acc (s.here p) v) p es))
    ∧ (∀ (s : State) (p : Focus) (k : Stook) (i : Instr) (acc : Sheaf → Access) (es : Nat → List (Elem × List ByteLoc)),
    scratchWord i = some acc → Issues i s p k →
    (∀ l, p.lanes.getLsbD l = true → s.judge k (acc (s.here p)) l = .ok (es l)) →
    ∃ t, exec i s = .next t ∧ RequestsOf s t p k (acc (s.here p)) es ∧ MemIssued s t p 0)

/-- The addresses and data of the memory words follow the formulas of R252 to R254 and R246. Element k of LD and ST
lies at index A plus IMM16 plus k times u, u being 1 or, through a RAW record, the width in bytes; through b0 at the
64-bit A plus (IMM16 + k) times the width; in the scratchpad at A plus (IMM16 + k) times the width. ATOM, CAS and RED
name the one element at k = 0; XRED and XRD a byte at A plus IMM16; lane 4q + i of a fragment starts at A plus IMM16
plus q times EXT0 plus i times its portion. The data are the registers of D: one for each element of ST and STS at AF
1 to 3, the lower register first of two for AF 4 and for a record of 64-bit elements at AF 0, three for LG6; AF 5 and
6 convert from F32 and F64 at the rounding mode FRM; ATOM and RED take one operand and CAS two, each of one register
or of two; XRED takes one register; the elements of STF are consecutive fields of the group, from its low end. A
constant as D is every element of ST and STS at AF 1 to 3, and the operand of ATOM, RED and XRED of 32 bits. -/
def Obligations.AccessAddresses : Prop :=
  ∀ (w : MWord) (h : Sheaf) (v : Via) (l : Nat),
    let a : Int := if v.flat then (h.src64 0 w.a l).toNat else (h.src 0 w.a l).toNat
    let o : Int := (h.src 0 w.a l).toNat
    let f := recFmt v.record
    let bytes : Nat := (if 1 ≤ w.af ∧ w.af ≤ 4 then 4 * 2 ^ w.af else fmtBits f) / 8
    let word : Nat := if mwW64 w then 8 else 4
    let reg (j : Nat) : Nat := (h.rv (w.d.toNat + j) l).toNat
    let two (j : Nat) : Nat := reg j + 2 ^ 32 * reg (j + 1)
    let at' (k : Nat) : Int := if v.flat then a + (w.imm + k) * bytes else if f = 0x30 then a + w.imm + k * bytes else a + w.imm + k
    (ldAccess w h v).idx l = (List.range w.vec).map at' ∧ (stAccess w h v).idx l = (List.range w.vec).map at'
      ∧ (ldsAccess w h).idx l = (List.range w.vec).map (fun (k : Nat) => o + (w.imm + k) * (4 * 2 ^ w.af / 8 : Nat))
      ∧ (stsAccess w h).idx l = (ldsAccess w h).idx l
      ∧ (atomAccess w h (some v)).idx l = [a + w.imm * if v.flat then (word : Int) else 1]
      ∧ (casAccess w h (some v)).idx l = (atomAccess w h (some v)).idx l ∧ (redAccess w h v).idx l = (atomAccess w h (some v)).idx l
      ∧ (atomAccess w h none).idx l = [o + w.imm * word] ∧ (casAccess w h none).idx l = [o + w.imm * word]
      ∧ (xredAccess w h v).idx l = [a + w.imm] ∧ (xrdAccess w h v).idx l = [a + w.imm]
      ∧ (let n := fragElems w.sv f
         let per := if w.sv = 2 then 2 else if f = 0x20 then 16 else n
         (ldfAccess w h v).idx l = (List.range n).map (fun (j : Nat) => o + w.imm + (l / 4 * recExt0 v.record + l % 4 * per : Nat) + j)
           ∧ (stfAccess w h v).idx l = (ldfAccess w h v).idx l)
      ∧ (isVReg w.d = true →
          (1 ≤ w.af → w.af ≤ 3 → (stAccess w h v).data l = (List.range w.vec).map reg
              ∧ (stsAccess w h).data l = (List.range w.vec).map reg)
          ∧ (w.af = 4 → (stAccess w h v).data l = ((List.range w.vec).map fun k => two (2 * k))
              ∧ (stsAccess w h).data l = (List.range w.vec).map fun k => two (2 * k))
          ∧ (w.af = 5 → (stAccess w h v).data l = (List.range w.vec).map fun k => (fCvt f 0x12 (h.mode 7) (reg k)).1)
          ∧ (w.af = 6 → (stAccess w h v).data l = (List.range w.vec).map fun k => (fCvt f 0x13 (h.mode 7) (two (2 * k))).1)
          ∧ (w.af = 0 → (stAccess w h v).data l = (List.range w.vec).map fun k =>
              if f = 0x20 then two (3 * k) + 2 ^ 64 * reg (3 * k + 2)
              else if f = 6 ∨ f = 7 ∨ f = 0x13 then two (2 * k) else reg k)
          ∧ (∀ o : Option Via, (atomAccess w h o).data l = [if mwW64 w then two 0 else reg 0]
              ∧ (casAccess w h o).data l = if mwW64 w then [two 0, two 2] else [reg 0, reg 1])
          ∧ (redAccess w h v).data l = [(if mwW64 w then two 0 else reg 0) % 2 ^ (if fmtIsFloat f then fmtBits f else 64)]
          ∧ (xredAccess w h v).data l = [reg 0])
      ∧ (∀ j b, j < fragElems w.sv f → let n := if f = 0x20 then 96 else fmtBits f
          ((stfAccess w h v).data l).length = fragElems w.sv f ∧ ((stfAccess w h v).data l).getD j 0 < 2 ^ n
            ∧ (b < n → (n * j + b) / 32 < fragRegs w.sv f →
                (((stfAccess w h v).data l).getD j 0).testBit b = (h.rv (w.d.toNat + (n * j + b) / 32) l).getLsbD ((n * j + b) % 32)))
      ∧ (isVReg w.d = false → let x := (h.src 0 w.d l).toNat
          (1 ≤ w.af → w.af ≤ 3 → (stAccess w h v).data l = List.replicate w.vec x ∧ (stsAccess w h).data l = List.replicate w.vec x)
          ∧ (mwW64 w = false → (∀ o : Option Via, (atomAccess w h o).data l = [x])
              ∧ (redAccess w h v).data l = [x % 2 ^ (if fmtIsFloat f then fmtBits f else 64)])
          ∧ (xredAccess w h v).data l = [x])

/-- A memory word that fails a uniform check traps its path, lanes that fail their own checks trap, lanes that miss
park. Outside transactions: when a uniform check of a word through a record fails, the whole path traps with its cause
and nothing is accessed; when every lane of a path fails its own checks with one cause, all trap with it at the word,
none performing any part of its access. When only some lanes fail, those trap, and the others make their requests and
go on. When every lane misses the translation of one 64 KiB granule, all park on one fault of that granule, a new one
where none is outstanding, each with its access in the replay buffer. A cause of class 3, which a walk through a
poisoned line meets, stops the lanes at the word without a trap: its fate is the launch's. Where the spec is silent
this rests on log entries 39 and 45, the model's reading. -/
def Obligations.AccessTraps : Prop :=
  (∀ (s : State) (p : Focus) (k : Stook) (i : Instr) (chk : Stook → Sheaf → List Nat → Except Cause Via) (acc : Sheaf → Via → Access),
      recordWord i = some (chk, acc) → Issues i s p k → s.plain p →
      (∀ c, chk k (s.here p) s.wroteBefore = .error c → ∃ t, exec i s = .next t ∧ Trapped s t p p.lanes 2 c)
      ∧ (∀ (v : Via) (c : Cause) (va : Nat → Nat) (lv : Nat), chk k (s.here p) s.wroteBefore = .ok v →
          (∀ l, p.lanes.getLsbD l = true → s.judge k (acc (s.here p) v) l = .error (.trap c (va l) lv)) →
          (c.cls ≠ 3 → ∃ t, exec i s = .next t ∧ Trapped s t p p.lanes 2 c (BitVec.ofNat 32 lv))
            ∧ (c.cls = 3 → ∃ t, exec i s = .next t ∧ (∀ a, t.mem.byte a = s.mem.byte a) ∧ (∀ r l, (t.here p).rv r l = (s.here p).rv r l)
                ∧ (t.here p).queue = (s.here p).queue ∧ (∀ n, (t.core n).reqs = (s.core n).reqs ∧ (t.core n).stores = (s.core n).stores)
                ∧ ∀ l, p.lanes.getLsbD l = true → (t.laneOf p l).pc = (s.laneOf p l).pc
                  ∧ (t.laneOf p l).stop = some { cause := c, fault := 0, resume := (s.laneOf p l).pc + 2 }))
      ∧ (∀ (v : Via) (c : Cause) (va : Nat → Nat) (lv : Nat) (es : Nat → List (Elem × List ByteLoc)) (bad : LaneMask), chk k (s.here p) s.wroteBefore = .ok v → c.cls ≠ 3 → bad &&& ~~~p.lanes = 0 → bad ≠ 0 →
          bad ≠ p.lanes → (∀ l, p.lanes.getLsbD l = true → s.judge k (acc (s.here p) v) l =
            if bad.getLsbD l then .error (.trap c (va l) lv) else .ok (es l)) →
          ∃ t, exec i s = .next t ∧ Stopped s t p bad 2 c (BitVec.ofNat 32 lv)
            ∧ let good : Focus := { p with lanes := p.lanes &&& ~~~bad }
              RequestsOf s t good k (acc (s.here p) v) es ∧ MemWent s t good (raisedBy (acc (s.here p) v) good es)
                ∧ ∀ l, p.lanes.getLsbD l = false → (t.here p).lane l = (s.here p).lane l)
      ∧ (∀ (v : Via) (g : Nat) (va lv : Nat → Nat) (es : Nat → List Elem), chk k (s.here p) s.wroteBefore = .ok v → (∀ l, p.lanes.getLsbD l = true → va l / 65536 = g ∧
            s.judge k (acc (s.here p) v) l = .error (.miss (va l) (lv l) (es l))) →
          ∃ t f, exec i s = .next t
            ∧ (match s.granuleFault k.ctx (g * 65536) with
                | some q => f = q.id ∧ t.faults = s.faults
                | none => f = s.nextFault ∧ ∃ q, t.faults = s.faults ++ [q] ∧ q.id = f ∧ q.cause = .xlateMiss ∧ q.ctx = k.ctx
                    ∧ q.uid = p.stook ∧ q.sheaf = p.sheaf ∧ q.lanes = p.lanes ∧ q.va / 65536 = g ∧ q.kind = (acc (s.here p) v).kind
                    ∧ q.reported = false)
            ∧ (∀ l, p.lanes.getLsbD l = true → Parked s t p k (acc (s.here p) v) 2 f l (es l))
            ∧ t.sent = s.sent ∧ (∀ a, t.mem.byte a = s.mem.byte a) ∧ (∀ r l, (t.here p).rv r l = (s.here p).rv r l)
            ∧ (t.here p).queue = (s.here p).queue ∧ (∀ n, (t.core n).reqs = (s.core n).reqs ∧ (t.core n).stores = (s.core n).stores)
            ∧ (t.here p).retired = (s.here p).retired + 1))
    ∧ ∀ (s : State) (p : Focus) (k : Stook) (i : Instr) (acc : Sheaf → Access) (c : Cause) (va : Nat → Nat) (lv : Nat),
      scratchWord i = some acc → Issues i s p k → s.plain p →
      (∀ l, p.lanes.getLsbD l = true → s.judge k (acc (s.here p)) l = .error (.trap c (va l) lv)) →
      ∃ t, exec i s = .next t ∧ Trapped s t p p.lanes 2 c (BitVec.ofNat 32 lv)

/-- In a transaction LD and ST act on the lane's logs. For a path of one lane in an optimistic transaction and one
element within one DRAM word of this device that neither log holds yet, the logs having room: ST appends a write entry
with the element's bytes; LD.U32 appends a read entry with the word as memory holds it, when nothing on its way to the
word is in front, and writes the element to D. Either way the lane goes on, and memory and the store queue are as
before. -/
def Obligations.TransactionalAccess : Prop :=
  ∀ (s : State) (p : Focus) (k : Stook) (w : MWord) (v : Via) (l : Nat) (e : Elem) (va : Nat) (b : ByteLoc) (js : List (Nat × Nat)),
    let x := s.laneOf p l
    let desc := (s.launchOf k).desc
    let alone (a : Access) : Prop := l < 32 ∧ p.lanes = maskOf [l] ∧ 0 < x.tx.depth ∧ x.tx.locked = false ∧
      State.laneElems { s with free := s.free + 1 } k a true true l = .ok [(e, [])] ∧ e.skip = false ∧ e.side = none ∧
      (∀ q ∈ e.locs, q.peer = none) ∧
      e.txWords = [(va, b, js)] ∧ inNv b.pa = false ∧ logFind x.tx.writes va = none
    (Issues (.st w) s p k → ldCheck false w k (s.here p) s.wroteBefore = .ok v → alone (stAccess w (s.here p) v) →
        x.tx.writes.length < desc.txWrites →
        ∃ t, exec (.st w) s = .next t ∧ GoesOn x (t.laneOf p l) 2 ∧ (∀ a, t.mem.byte a = s.mem.byte a)
          ∧ (t.here p).queue = (s.here p).queue ∧ (∀ r j, (t.here p).rv r j = (s.here p).rv r j)
          ∧ (t.laneOf p l).tx.reads = x.tx.reads
          ∧ ∃ n : LogEntry, (t.laneOf p l).tx.writes = x.tx.writes ++ [n] ∧ n.va = va ∧ n.pa = b.pa ∧ n.lock = false
            ∧ (∀ i, i < 8 → (n.bytes.getLsbD i = true ↔ ∃ j ∈ js, j.2 = i))
            ∧ ∀ j ∈ js, byteOf n.value j.2 = BitVec.ofNat 8 (((stAccess w (s.here p) v).data l).headD 0 >>> (8 * j.1)))
      ∧ (Issues (.ld w) s p k → w.af = 3 → ldCheck true w k (s.here p) s.wroteBefore = .ok v → alone (ldAccess w (s.here p) v) →
        logFind x.tx.reads va = none → x.tx.reads.length < desc.txReads → s.deltas = [] →
        s.wordBusy { stook := p.stook, sheaf := p.sheaf, lane := l } (b.pa / 8) = false → (∀ q ∈ s.locks, q.pa ≠ b.pa) →
        s.sectorCause ((List.range 8).map fun i => { pa := b.pa + i, peer := none, la := false, key := b.key }) .good = none →
        ∃ t, exec (.ld w) s = .next t ∧ GoesOn x (t.laneOf p l) 2 ∧ (∀ a, t.mem.byte a = s.mem.byte a)
          ∧ (t.here p).rv w.d.toNat l = BitVec.ofNat 32 (leNat (js.map fun j => s.mem.byte (b.pa + j.2)))
          ∧ (t.laneOf p l).tx.writes = x.tx.writes
          ∧ ∃ n : LogEntry, (t.laneOf p l).tx.reads = x.tx.reads ++ [n] ∧ n.va = va ∧ n.pa = b.pa
            ∧ n.value = BitVec.ofNat 64 (leNat ((List.range 8).map fun i => s.mem.byte (b.pa + i))))

/-- BRSET installs a record or traps, BRGET reads one, BRINV removes one. BRSET: the record in eight s-registers is
installed in its slot when no check of R79 refuses it; otherwise the path traps RECORD_INVALID with the sub-code as
DETAIL and in TXSTAT, the slot unchanged (in a transaction the lanes abort with FAULT). BRGET: the slot's record goes
to eight s-registers; an unset slot traps RECORD_UNSET. BRINV: the slot is unset. No memory is touched. -/
def Obligations.BufferRecords : Prop :=
  ∀ (s : State) (p : Focus) (k : Stook) (w : MWord) (slot : Nat), w.slotIn (s.here p) = some slot →
    let rec' := (s.here p).recordIn w.d.toNat
    let after (t : State) (n : Nat) : Option (BitVec 256) := ((t.stook? p.stook).getD default).record? n
    (Issues (.brset w) s p k →
      (recordRefusal rec' slot = none → ∃ t, exec (.brset w) s = .next t ∧ MemIssued s t p 0
          ∧ ∀ n, after t n = if n = slot then some rec' else k.record? n)
      ∧ (∀ c, recordRefusal rec' slot = some c →
          (s.plain p → ∃ t, exec (.brset w) s = .next t ∧ Trapped s t p p.lanes 2 .recordInvalid (BitVec.ofNat 32 c)
              ∧ (∀ l, p.lanes.getLsbD l = true → (t.laneOf p l).txrec = true ∧ (t.laneOf p l).txcode = BitVec.ofNat 8 c)
              ∧ ∀ n, after t n = k.record? n)
          ∧ ((∀ l, p.lanes.getLsbD l = true → 0 < (s.laneOf p l).tx.depth) → ∃ t, exec (.brset w) s = .next t
              ∧ (∀ l, p.lanes.getLsbD l = true → Aborted (s.laneOf p l) (t.laneOf p l) 0x05) ∧ ∀ n, after t n = k.record? n)))
    ∧ (Issues (.brget w) s p k →
      (∀ r, k.record? slot = some r → ∃ t, exec (.brget w) s = .next t
          ∧ (∀ j, j < 8 → (t.here p).rs (w.d.toNat + j) = r.extractLsb' (32 * j) 32)
          ∧ PathGoesOn s t p 2 ∧ PathKept s t p
          ∧ SheafFrame s t p noRegs (fun n => decide (w.d.toNat ≤ n ∧ n < w.d.toNat + 8)) noKeys 0)
      ∧ (k.record? slot = none → s.plain p → ∃ t, exec (.brget w) s = .next t ∧ Trapped s t p p.lanes 2 .recordUnset))
    ∧ (Issues (.brinv w) s p k → ∃ t, exec (.brinv w) s = .next t ∧ MemIssued s t p 0
        ∧ ∀ n, after t n = if n = slot then none else k.record? n)

/-- FENCE, PREF and CCTL complete without a register, and order or move copies only. FENCE: the lanes go on; a
release, and an acquire at DURABLE scope behind releases of that scope that no home has performed, marks each lane so
that its next memory instruction waits for what the sheaf, lane and core have in front, at the widest scope asked for;
an acquire makes the lane's outstanding loads acquires at its scope and drops the copies of R143; at DURABLE scope a
release begins a new persist epoch. PREF changes no value. CCTL changes none where no store or delta waits in a core;
DISCARD leaves no copy of the lines it names. -/
def Obligations.FencesAndHints : Prop :=
  (∀ (s : State) (p : Focus) (k : Stook) (w : MWord), Issues (.fence w) s p k →
      let old (l : Nat) := (s.laneOf p l).fence.getD (0, 0, 0)
      let unseen : Bool := (s.seenStores k ++ (s.here p).queue).any Req.persists
      ∃ t, exec (.fence w) s = .next t ∧ MemIssued s t p 0
        ∧ (∀ l, p.lanes.getLsbD l = true →
            (t.laneOf p l).fence = (if w.releases ∨ (w.acquires ∧ w.scope = 6 ∧ unseen) then some (max w.scope (old l).1, w.order ||| (old l).2.1, s.next) else (s.laneOf p l).fence)
            ∧ (t.laneOf p l).epoch = (s.laneOf p l).epoch + if w.releases ∧ w.scope = 6 then 1 else 0)
        ∧ (w.acquires = true → (∀ q ∈ (t.core k.core).reqs, q.stook = p.stook → q.sheaf = p.sheaf → p.lanes.getLsbD q.lane = true →
              q.silent = false → q.acquires = true ∧ w.scope ≤ q.scope)
            ∧ (2 ≤ w.scope → (t.core k.core).cache = []) ∧ (3 ≤ w.scope → (t.die (dieOf k.core)).cache = [])))
    ∧ (∀ (s : State) (p : Focus) (k : Stook) (w : MWord), Issues (.pref w) s p k →
      (∀ v, hintCheck w k (s.here p) s.wroteBefore = .ok v → ∃ t, exec (.pref w) s = .next t ∧ MemIssued s t p 0)
      ∧ (∀ c, hintCheck w k (s.here p) s.wroteBefore = .error c → s.plain p →
          ∃ t, exec (.pref w) s = .next t ∧ Trapped s t p p.lanes 2 c))
    ∧ ∀ (s : State) (p : Focus) (k : Stook) (w : MWord), Issues (.cctl w) s p k →
      (∀ v, hintCheck w k (s.here p) s.wroteBefore = .ok v → ∃ t, exec (.cctl w) s = .next t ∧ PathGoesOn s t p 2
        ∧ (∀ r l, (t.here p).rv r l = (s.here p).rv r l)
        ∧ ((∀ c ∈ s.cores, c.stores = []) → s.deltas = [] → MemIssued s t p 0)
        ∧ (w.sv % 4 = 1 → v.slot ≠ 64 → ∀ pa ∈ hintBytes w k (s.here p) v p { s with free := s.free + 1 },
            (∀ q ∈ (t.core k.core).cache, q.line ≠ lineOf pa) ∧ (∀ q ∈ (t.die (dieOf k.core)).cache, q.line ≠ lineOf pa)
              ∧ ∀ q ∈ (t.die (dieOf k.core)).replicas, q.1 ≠ lineOf pa))
      ∧ (∀ c, hintCheck w k (s.here p) s.wroteBefore = .error c → s.plain p →
          ∃ t, exec (.cctl w) s = .next t ∧ Trapped s t p p.lanes 2 c)

/-- MMA and MMAL issue once for all live lanes, each element decided at once or parked. When the path is every lane
that has not issued EXIT, no element waits in staging and the token has room: MMA answers its tile, C plus the sum of
products by R240 (for I8 the sum modulo 2^32, exited lanes contributing zeros); MMAL, when its records pass R243 and
every scale byte is held in the block-side cache, answers its tile. Elements the fast path leaves undecided go to the
park queue with their operands. Where the spec is silent this rests on log entries 9 and 31, the model's reading. -/
def Obligations.Tiles : Prop :=
  ∀ (s : State) (p : Focus) (k : Stook) (w : AWord), p.lanes = (s.here p).live → (s.here p).ClearBut 0 →
    (Issues (.mma w) s p k → tileBlocked (s.core k.core) (s.here p) (decide (w.fmt (aForm 0x080) ≠ 0)) (w.tok (aForm 0x080)) = false →
      ∃ t, exec (.mma w) s = .next t
        ∧ TileResult s t p k (sizeA w) w.d.toNat (mmaElems w (s.here p) p.lanes)
        ∧ (w.fmt (aForm 0x080) = 0 →
            let at' (r row n : Nat) : Int :=
              if p.lanes.getLsbD (4 * row + n / 4) then (((s.here p).rv r (4 * row + n / 4)).extractLsb' (8 * (n % 4)) 8).toInt else 0
            ∀ l i, p.lanes.getLsbD l = true → i < 2 →
              let c := w.c (aForm 0x080)
              (t.here p).rv (w.d.toNat + i) l = BitVec.ofInt 32
                ((List.range 16).foldl (fun x n => x + at' w.a.toNat (l / 4) n * at' w.b.toNat (2 * (l % 4) + i) n)
                  (if isVReg c then ((s.here p).rv (c.toNat + i) l).toInt else 0))))
    ∧ (Issues (.mmal w) s p k → tileBlocked (s.core k.core) (s.here p) true (w.tok (aForm 0x081)) = false →
      ∀ (xs : List (Nat × Rec × Nat)) (sa sb : List Int), mmalDesc w k (s.here p) = .ok xs →
        (∃ s', s.scalesOf k (xs.getD 0 default) (List.range 32) = .ok (some sa, s')) →
        (∃ s', s.scalesOf k (xs.getD 1 default) (List.range 32) = .ok (some sb, s')) →
        (∀ x ∈ xs, ∀ l, l < 32 → x.2.2 + l / 4 * recExt0 x.2.1 + 16 * (l % 4) + 15 < recCount x.2.1
          ∧ ∃ vas, sideEntry k x.2.1 (recBlock x.2.1 (x.2.2 + l / 4 * recExt0 x.2.1 + 16 * (l % 4) : Nat)) = .ok vas) →
        ∃ t, exec (.mmal w) s = .next t
          ∧ ∃ f, TileResult s t p k (sizeA w) w.d.toNat (mmalElems w (s.here p) p.lanes sa sb f))

/-- FFN writes each lane's result at once, or parks it where its rounding is not decided at once. The lanes of the
path split in two: the one part holds round(f(x)) of the word's format, function and mode in D, FX taking its flags;
each lane of the other has a request in the core's park queue with its operand, format, mode and function, its D
pending. Only F32 and F64 lanes with a finite operand and an inexact result park. The lanes go on, nothing else
changes. Where the spec is silent this rests on log entries 9 and 48, the model's reading. -/
def Obligations.Functions : Prop :=
  ∀ (s : State) (p : Focus) (k : Stook) (w : AWord), Issues (.ffn w) s p k →
    let f := aForm 0x040
    let fmt := w.fmt f
    let wide : Bool := fmt = 0x13
    let arg (l : Nat) : DWord := (s.here p).srcW wide (w.sregN f) w.a l
    let rm := (s.here p).mode (w.rm f)
    let res (l : Nat) : DWord × FlagSet := perElem fmt (fun F x _ _ => ffnElem F (w.opt f) rm x) (arg l) 0 0
    ∃ (t : State) (fast : LaneMask), exec (.ffn w) s = .next t
      ∧ (∀ l, fast.getLsbD l = true → p.lanes.getLsbD l = true)
      ∧ (∀ l, fast.getLsbD l = true → (t.here p).rv w.d.toNat l = (res l).1.extractLsb' 0 32
          ∧ (wide = true → (t.here p).rv (w.d.toNat + 1) l = (res l).1.extractLsb' 32 32))
      ∧ (∀ l, p.lanes.getLsbD l = true → fast.getLsbD l = false → (fmt = 0x12 ∨ fmt = 0x13) ∧ (res l).2.getLsbD 0 = true
          ∧ (∃ b m e, (floatOf fmt).unpack ((arg l).toNat % 2 ^ (floatOf fmt).bits) = .fin b m e)
          ∧ ∃ q ∈ (t.core k.core).park, q.operands = [(arg l).toNat % 2 ^ (floatOf fmt).bits] ∧ q.op = 0x040 ∧ q.fmt = fmt
            ∧ q.rm = rm ∧ q.sel = w.opt f ∧ q.lanes = maskOf [l] ∧ q.dest = w.d ∧ (w.d.toNat, q.id) ∈ (t.laneOf p l).pending)
      ∧ (t.here p).fx = (s.here p).fx ||| (flagsOf fast fun l => (res l).2).setWidth 32
      ∧ (∀ r l, l < 32 → laneRegs fast wide w.d.toNat r l = false → (t.here p).rv r l = (s.here p).rv r l)
      ∧ (∀ r, (t.here p).rs r = (s.here p).rs r) ∧ (∀ r, (t.here p).rm r = (s.here p).rm r) ∧ (t.here p).frm = (s.here p).frm
      ∧ PathGoesOn s t p (sizeA w) ∧ (t.here p).retired = (s.here p).retired + 1 ∧ ∀ a, t.mem.byte a = s.mem.byte a

/-- A parked request takes its entries, goes to the wide unit or the exact stage, and its result to its lanes.
PARK_ENTRY_GRANT: a staged request whose entries are free is queued. WU_ACCEPT and XS_ACCEPT: with room in the unit,
the oldest request of the next core, or of the next cluster, in the round robin is accepted. WU_DECIDE: a request of a
32- or 16-bit format other than MMAL is decided; any is either decided or sent on to the exact stage. XS_DECIDE
decides. A decided request of one live lane writes its result there and is gone. Where the spec is silent this rests
on log entry 9, the model's reading. -/
def Obligations.ParkedRequests : Prop :=
  ∀ (s : State) (core j : Nat) (q : Park), s.powered = true → q ∈ (s.core core).park →
    let sent (t : State) : Prop := (∀ x ∈ (t.core core).park, x.is q = false)
      ∧ ∀ l, q.lanes = maskOf [l] → s.takes q.stook q.sheaf l →
          Delivered s t q.stook q.sheaf l q.target.toNat q.id (q.regs q.result.1) q.result.2
    (((s.core core).park.filter fun x => x.state = 0)[j]? = some q → (s.core core).parkUsed + q.nparts ≤ Config.parkEntries →
        ∃ t, exec (.parkEntryGrant core j) s = .next t ∧ { q with state := 1 } ∈ (t.core core).park
          ∧ (∀ u i r l, (t.sheafAt u i).rv r l = (s.sheafAt u i).rv r l) ∧ ∀ a, t.mem.byte a = s.mem.byte a)
      ∧ (s.unitLoad 2 (fun c => clusterOf c == clusterOf core) < Config.wuCapacity →
        (s.wuOrder (clusterOf core)).findSome? (fun c => ((s.core c).oldestPark false).map fun x => (c, x)) = some (core, q) →
        ∃ t, exec (.wuAccept (clusterOf core)) s = .next t ∧ { q with state := 2, toXs := false } ∈ (t.core core).park
          ∧ t.stooks = s.stooks ∧ t.mem = s.mem)
      ∧ (((s.core core).park.filter fun x => x.state = 2)[j]? = some q →
        ∃ t, exec (.wuDecide core j) s = .next t ∧ (sent t ∨ { q with state := 1, toXs := true } ∈ (t.core core).park)
          ∧ (q.op ≠ 0x081 → q.fmt ≠ 0x13 → sent t))
      ∧ (∀ n, s.unitLoad 3 (fun c => dieOf c == dieOf core) < Config.xsCapacity →
        ((List.range 9).map fun i => ((s.die (dieOf core)).xsNext + i) % 9).findSome?
          (fun i => (s.oldestXs (dieOf core * 9 + i)).map fun x => (i, x)) = some (n, core, q) →
        ∃ t, exec (.xsAccept (dieOf core)) s = .next t ∧ { q with state := 3, toXs := true } ∈ (t.core core).park
          ∧ t.stooks = s.stooks ∧ t.mem = s.mem)
      ∧ (((s.core core).park.filter fun x => x.state = 3)[j]? = some q →
        ∃ t, exec (.xsDecide core j) s = .next t ∧ sent t)

/-- TBEGIN and TBEGINL begin a transaction, nest it, or abort past the seventh level. Each executing lane: outside a
transaction it begins one at depth 1 with empty logs, its target the header of its clause plus IMM16, locked for
TBEGINL with the ticket it holds or, holding none, the next of the device's, lanes drawing in ascending order; inside,
its depth takes one more and nothing else of it changes; at depth 7 it aborts with status 0x0A. No register and no
memory changes. -/
def Obligations.TransactionBegins : Prop :=
  ∀ (s : State) (p : Focus) (k : Stook) (w : MWord) (i : Instr) (locked : Bool),
    ((i = .tbegin w ∧ locked = false) ∨ (i = .tbeginl w ∧ locked = true)) → Issues i s p k →
    let x (l : Nat) : Lane := s.laneOf p l
    let draws (l : Nat) : Bool := p.lanes.getLsbD l && decide ((x l).tx.depth = 0) && locked && decide ((x l).tx.ticket = 0)
    ∃ t, exec i s = .next t ∧ (∀ a, t.mem.byte a = s.mem.byte a) ∧ (∀ r l, (t.here p).rv r l = (s.here p).rv r l)
      ∧ (∀ r, (t.here p).rs r = (s.here p).rs r) ∧ (t.here p).retired = (s.here p).retired + 1
      ∧ (∀ l, p.lanes.getLsbD l = false → (t.here p).lane l = (s.here p).lane l)
      ∧ (∀ l, p.lanes.getLsbD l = true →
          ((x l).tx.depth = 0 → GoesOn (x l) (t.laneOf p l) 2 ∧
            ∃ n, (t.laneOf p l).tx = { (default : TxState) with
                depth := 1, locked := locked, ticket := n, target := (x l).hdr + BitVec.ofInt 32 w.imm }
              ∧ (if draws l then s.nextTicket ≤ n else n = (x l).tx.ticket))
          ∧ (0 < (x l).tx.depth → (x l).tx.depth < 7 → GoesOn (x l) (t.laneOf p l) 2 ∧
            (t.laneOf p l).tx = { (x l).tx with depth := (x l).tx.depth + 1, count := (x l).tx.count + 1 })
          ∧ (7 ≤ (x l).tx.depth → Aborted (x l) (t.laneOf p l) 0x0a))
      ∧ ∀ l m, draws l = true → draws m = true → l < m → (t.laneOf p l).tx.ticket < (t.laneOf p m).tx.ticket

/-- TEND commits the transactions whose reads hold or that are locked, TVAL checks reads, and both abort a lane whose
reads do not hold. TEND, no twin: the lanes take their parts in ascending order. A lane at depth 0 goes on; at a
greater depth than 1 its depth falls; at depth 1, its earlier accesses performed, no other lock on the words of an
optimistic one, no delta waiting, it stores exactly the bytes of its write log when it is locked or every word read
still has its value, ends with status 0 and holds no lock, and otherwise aborts with CONFLICT. D of each lane that
goes on names those lanes. TVAL: a lane outside a transaction or in a locked one goes on, any other when its reads
hold, and aborts otherwise; no memory changes. Of two twins the secondary waits at the word; the primary waits until
its twin does, and then both commit, when their write logs agree; otherwise nothing is stored. Where the spec is
silent this rests on log entry 35, the model's reading. -/
def Obligations.TransactionCommits : Prop :=
  ∀ (s : State) (p : Focus) (k : Stook) (w : AWord),
    (∀ m i g d, ((s.here p).lane m).hold = some (.commit i g d) → g < s.next) → s.deltas = [] →
    let ref (l : Nat) : LaneRef := { stook := p.stook, sheaf := p.sheaf, lane := l }
    let x (l : Nat) : TxState := (s.laneOf p l).tx
    let words (l : Nat) (wr : Bool) : List Nat := ((x l).reads ++ if wr then (x l).writes else []).map LogEntry.pa
    let open' (l : Nat) (wr : Bool) : Prop := s.released (ref l) 3 s.next = true
      ∧ ((x l).locked = false → ∀ q ∈ s.locks, q.pa ∉ words l wr)
      ∧ (wr = true → (∀ e ∈ (x l).writes, inNv e.pa = false) ∨ s.persistGoes k.core [(p.stook, p.sheaf, l, (s.laneOf p l).epoch)] = true)
    let done (t : State) (l : Nat) (i : Instr) : Prop := GoesOn (s.laneOf p l) (t.laneOf p l) i.size ∧ (t.laneOf p l).hold = none
    let free (t : State) (l : Nat) : Prop := ∀ q ∈ t.locks, q.holder ≠ ref l
    let waits (t : State) (l : Nat) : Prop := (t.laneOf p l).hold = some (.commit (.tend w) s.next false) ∧ (t.laneOf p l).pc = (s.laneOf p l).pc
      ∧ (t.laneOf p l).tx = { x l with count := (x l).count + 1 } ∧ ∀ a, t.mem.byte a = s.mem.byte a
    (Issues (.tend w) s p k → k.twin = none → (∀ l, p.lanes.getLsbD l = true → (x l).depth = 1 → open' l true) →
      let r := commitTurns x (lanesOf p.lanes) s.mem.byte
      ∃ t, exec (.tend w) s = .next t ∧ (∀ a, t.mem.byte a = r.2 a)
        ∧ (∀ l, p.lanes.getLsbD l = true → (x l).depth = 1 → free t l)
        ∧ (∀ l ∈ r.1, done t l (.tend w) ∧ (isVReg w.d = true → (t.here p).rv w.d.toNat l = maskOf r.1)
            ∧ ((x l).depth = 0 → (t.laneOf p l).tx = x l)
            ∧ ((x l).depth = 1 → (t.laneOf p l).tx = default ∧ (t.laneOf p l).txrec = false ∧ (t.laneOf p l).txcode = 0)
            ∧ (1 < (x l).depth → (t.laneOf p l).tx = { x l with depth := (x l).depth - 1, count := (x l).count + 1 }))
        ∧ ∀ l, p.lanes.getLsbD l = true → l ∉ r.1 → Aborted (s.laneOf p l) (t.laneOf p l) 0x01)
    ∧ (Issues (.tval w) s p k → k.twin = none →
      (∀ l, p.lanes.getLsbD l = true → (x l).depth ≠ 0 → (x l).locked = false → open' l false) →
      ∃ t, exec (.tval w) s = .next t ∧ (∀ a, t.mem.byte a = s.mem.byte a) ∧ ∀ l, p.lanes.getLsbD l = true →
        ((x l).depth = 0 ∨ (x l).locked = true ∨ (x l).holdsIn s.mem.byte = true → done t l (.tval w)
            ∧ (t.laneOf p l).tx = { x l with count := (x l).count + if (x l).depth = 0 then 0 else 1 })
          ∧ ((x l).depth ≠ 0 → (x l).locked = false → free t l
            ∧ ((x l).holdsIn s.mem.byte = false → Aborted (s.laneOf p l) (t.laneOf p l) 0x01)))
    ∧ ∀ (l u : Nat) (kt : Stook), Issues (.tend w) s p k → l < 32 → p.lanes = maskOf [l] → k.twin = some u → s.stook? u = some kt →
      (x l).depth = 1 → let y := s.laneAt { ref l with stook := u }
      (k.secondary = true ∨ (∀ i g, y.hold ≠ some (.commit i g false)) → ∃ t, exec (.tend w) s = .next t ∧ waits t l)
        ∧ (∀ g, k.secondary = false → y.hold = some (.commit (.tend w) g false) → u ≠ p.stook → open' l true →
          (sameWrites (x l) y.tx = true → (x l).locked = true ∨ (x l).holdsIn s.mem.byte = true →
            ∃ t, exec (.tend w) s = .next t ∧ done t l (.tend w) ∧ (t.laneOf p l).tx = default
              ∧ (t.laneAt { ref l with stook := u }).tx = default
              ∧ (t.laneAt { ref l with stook := u }).hold = some (.commit (.tend w) g true)
              ∧ ∀ a, t.mem.byte a = (x l).over s.mem.byte a)
          ∧ (sameWrites (x l) y.tx = false → ∃ t, exec (.tend w) s = .next t ∧ ∀ a, t.mem.byte a = s.mem.byte a))

/-- TABORT aborts with its code, TSTAT reads the status, and the time limits on locks abort with CONFLICT. TABORT:
each lane in a transaction aborts with status 0x80 plus the low 7 bits of A, every other lane goes on. TSTAT: D takes
LOCKED, DEPTH, REC and CODE of each lane, then REC and CODE are cleared when asked. COMMIT_LOCK_TIMEOUT: a lane that
holds commit locks aborts with CONFLICT and gives them up. LOCKED_ACCESS_TIMEOUT: so does a lane whose locked
transaction keeps an access waiting. -/
def Obligations.TransactionAborts : Prop :=
  (∀ (s : State) (p : Focus) (k : Stook) (w : AWord), Issues (.tabort w) s p k →
      ∃ t, exec (.tabort w) s = .next t ∧ (∀ a, t.mem.byte a = s.mem.byte a) ∧ (∀ r l, (t.here p).rv r l = (s.here p).rv r l)
        ∧ (t.here p).retired = (s.here p).retired + 1
        ∧ ∀ l, p.lanes.getLsbD l = true →
          (0 < (s.laneOf p l).tx.depth → Aborted (s.laneOf p l) (t.laneOf p l) (0x80 + (srcA 0x0e3 w (s.here p) l).toNat % 128)
            ∧ ∀ q ∈ t.locks, q.holder ≠ { stook := p.stook, sheaf := p.sheaf, lane := l })
          ∧ ((s.laneOf p l).tx.depth = 0 → GoesOn (s.laneOf p l) (t.laneOf p l) (sizeA w)))
    ∧ (∀ (s : State) (p : Focus) (k : Stook) (w : AWord), Issues (.tstat w) s p k →
      let x (l : Nat) : Lane := s.laneOf p l
      let clear : Bool := w.opt (aForm 0x0e5) = 1
      ∃ t, exec (.tstat w) s = .next t
        ∧ (∀ l, p.lanes.getLsbD l = true → (t.here p).rv w.d.toNat l = BitVec.ofNat 32
            ((if (x l).tx.locked then 2 ^ 20 else 0) + (x l).tx.depth * 2 ^ 16 + (if (x l).txrec then 2 ^ 8 else 0) + (x l).txcode.toNat))
        ∧ (∀ l, p.lanes.getLsbD l = true → (t.laneOf p l).txrec = ((x l).txrec && !clear)
            ∧ (t.laneOf p l).txcode = if clear then 0 else (x l).txcode)
        ∧ PathGoesOn s t p (sizeA w) ∧ SheafFrame s t p (laneRegs p.lanes false w.d.toNat) noKeys noKeys 0)
    ∧ (∀ (s : State) (r : LaneRef) (i : Instr) (g : Nat), s.powered = true → (s.laneAt r).hold = some (.commit i g false) →
      r.lane < 32 → (∃ q ∈ s.locks, q.commit = true ∧ q.holder = r) →
      (∀ m j d, m ≠ r.lane → ((s.sheafAt r.stook r.sheaf).lane m).hold ≠ some (.commit j g d)) →
      ∃ t, exec (.commitLockTimeout r) s = .next t ∧ Aborted (s.laneAt r) (t.laneAt r) 0x01
        ∧ (∀ q ∈ t.locks, q.holder ≠ r) ∧ ∀ a, t.mem.byte a = s.mem.byte a)
    ∧ ∀ (s : State) (core j : Nat) (q : Req) (r : LaneRef), s.powered = true → core ≠ Config.numCores → (s.core core).homeList[j]? = some q →
      q.performed = false → q.spad = false → s.lockHolders (q.words.filterMap fun w => if w.2.isNone then some w.1 else none)
        (some { stook := q.stook, sheaf := q.sheaf, lane := q.lane }) = [r] → r.lane < 32 → s.takes r.stook r.sheaf r.lane →
      0 < (s.laneAt r).tx.depth →
      ∃ t, exec (.lockedAccessTimeout core j) s = .next t ∧ (t.laneAt r).tx.depth = 0 ∧ (t.laneAt r).txcode = 0x01
        ∧ ∀ q ∈ t.locks, q.holder ≠ r

/-- CPY, CPYG and CPYS give their command to the engine and wait for it, or trap. When every check of R308 passes, one
command with the word's descriptor, its rounding mode resolved, records, origins, lanes and ordering joins the core's,
its ranges locked if an entry of the table is free, and the lanes wait at the word; no register and no memory changes.
When a check fails, the path traps with its cause and no command is made. That RETIRED counts a word that is held at
its issue is log entry 6, a reading of R116. -/
def Obligations.CopyCommands : Prop :=
  ∀ (s : State) (p : Focus) (k : Stook) (w : MWord) (i : Instr) (kind : Nat),
    ((i = .cpy w ∧ kind = 0) ∨ (i = .cpyg w ∧ kind = 1) ∨ (i = .cpys w ∧ kind = 2)) → Issues i s p k →
    let h := s.here p
    let x := h.copyDesc w
    (∀ c, copyCheck k h kind w = some c → ∃ t, exec i s = .next t ∧ Trapped s t p p.lanes 2 c
        ∧ (t.core k.core).copies = (s.core k.core).copies)
      ∧ (copyCheck k h kind w = none → (∀ y ∈ (s.core k.core).copies, y.id < s.next) →
        ∃ t c, exec i s = .next t ∧ (t.core k.core).copies = (s.core k.core).copies ++ [c]
          ∧ c.kind = kind ∧ c.state = 0 ∧ c.cursor = 0 ∧ c.lanes = p.lanes ∧ c.stook = p.stook ∧ c.sheaf = p.sheaf ∧ c.id = s.next
          ∧ c.ctl &&& 0xFF1FFFFF = x.ctl &&& 0xFF1FFFFF ∧ c.ctl.toNat / 2 ^ 21 % 8 = h.mode (ctlRm x.ctl) % 8 ∧ c.shape = x.shape ∧ c.sorg = x.sorg + w.imm ∧ c.dorg = x.dorg ∧ c.iorg = x.iorg
          ∧ some c.srcRec = (w.slotIn h).bind k.record? ∧ (ctlDcb x.ctl = false → some c.dstRec = k.record? (ctlDslot x.ctl))
          ∧ (kind ≠ 0 → some c.idxRec = k.record? (ctlIslot x.ctl)) ∧ c.rm = h.mode (ctlRm x.ctl) ∧ c.scope = w.scope ∧ c.rel = w.releases
          ∧ c.ranges = (if (s.core k.core).locksUsed < Config.copyEntries then c.lockRanges else [])
          ∧ c.writes = [] ∧ (∀ l, p.lanes.getLsbD l = true → LaneHeld (s.laneOf p l) (t.laneOf p l) (.copy c.id))
          ∧ (∀ r l, (t.here p).rv r l = (s.here p).rv r l) ∧ (∀ r, (t.here p).rs r = (s.here p).rs r)
          ∧ (t.here p).retired = (s.here p).retired + 1 ∧ ∀ a, t.mem.byte a = s.mem.byte a)

/-- COPY_ACCEPT lets the lanes go on, COPY_CHUNK moves exactly its elements, word by word. COPY_ACCEPT: a command that
has its entry, and a free slot when it fills a buffer, is accepted; its lanes go on behind the word, the slot is
claimed, and it runs unless an earlier lock holds it. COPY_CHUNK: a running copy whose chunk can be read has the
chunk's stores in hand, one for each aligned word and together exactly its bytes, or its bytes in the scratchpad; each
further one gives a store in hand to the core, the last moving the cursor past the chunk; after the last element the
copy is complete and its ranges are free. A chunk that fails fails the copy; one that misses stops it with its fault.
Where the spec is silent this rests on log entry 10, the model's reading. -/
def Obligations.CopiesRun : Prop :=
  (∀ (s : State) (core j : Nat) (x : Copy) (k : Stook), s.powered = true → (s.core core).command? j = some x →
      (∀ y ∈ (s.core core).copies, y.id = x.id → y = x) → s.stook? x.stook = some k → k.twin = none → s.canAccept x = true →
      let b := (k.cbuf? (ctlCbuf x.ctl)).getD default
      let slot := if ctlDcb x.ctl then some (b.claim, b.offset + b.claim * b.slotBytes) else none
      ∃ t, exec (.copyAccept core j) s = .next t ∧ (∀ a, t.mem.byte a = s.mem.byte a)
        ∧ { x with state := if (s.core core).lockedOut x then 1 else 2, cbSlot := slot } ∈ (t.core core).copies
        ∧ (ctlDcb x.ctl = true → ((t.stook? x.stook).getD default).cbuf? (ctlCbuf x.ctl)
            = some { b with free := b.free - 1, claim := (b.claim + 1) % b.slots })
        ∧ ∀ l, x.lanes.getLsbD l = true → s.takes x.stook x.sheaf l → ((s.sheafAt x.stook x.sheaf).lane l).hold = some (.copy x.id) →
            GoesOn ((s.sheafAt x.stook x.sheaf).lane l) ((t.sheafAt x.stook x.sheaf).lane l) 2
              ∧ ((t.sheafAt x.stook x.sheaf).lane l).hold = none)
    ∧ (∀ (s : State) (core j n : Nat) (c : Copy) (k : Stook), s.powered = true → (s.core core).running[j]? = some c →
      s.stook? c.stook = some k → k.secondary = false → s.copyGoes c = true → c.writes = [] →
      let m := s.wholeChunk k c 16 (min (max 1 ((n + c.unit - 1) / c.unit) * c.unit) (c.total - c.cursor))
      let scratch (u : State) (a : Nat) : Byte := Bank.get ((u.stook? c.stook).getD default).scratch a
      (c.cursor < c.total →
        (∀ w, s.chunk k c m = .ok w → s.sectorCause (w.reads.map Prod.fst) .good = none → s.chunkGoes w = true →
          (∀ q ∈ s.cores, q.deltas = []) → (∀ q ∈ s.dies, q.deltas = []) → (w.spad.map Prod.fst).Nodup →
          ∃ t, exec (.copyChunk core j n .good) s = .next t ∧ (∀ a, t.mem.byte a = s.mem.byte a)
            ∧ (∀ q ∈ w.spad, scratch t q.1 = q.2) ∧ (∀ a, a ∉ w.spad.map Prod.fst → scratch t a = scratch s a)
            ∧ (w.glob ≠ [] → { c with writes := c.stores w, taking := m, flags := c.flags ||| w.flags } ∈ (t.core core).copies)
            ∧ (w.glob = [] → c.cursor + m < c.total →
                { c with cursor := c.cursor + m, flags := c.flags ||| w.flags, taking := 0 } ∈ (t.core core).copies))
        ∧ (∀ x, s.chunk k c m = .error (.fail x) → ∃ t, exec (.copyChunk core j n .good) s = .next t
            ∧ (∀ y ∈ (t.core core).copies, y.id = c.id → y.state = 5 ∧ y.fcause = some x ∧ y.ranges = [])
            ∧ (∀ a, t.mem.byte a = s.mem.byte a) ∧ ∀ a, scratch t a = scratch s a)
        ∧ (∀ va lv kind, s.chunk k c m = .error (.miss va lv kind) → ∃ t f, exec (.copyChunk core j n .good) s = .next t
            ∧ f ∈ t.faults ∧ f.ctx = c.ctx ∧ f.va / 65536 = va / 65536 ∧ { c with state := 3, fault := f.id } ∈ (t.core core).copies
            ∧ ∀ a, t.mem.byte a = s.mem.byte a))
      ∧ (c.cursor = c.total → s.copyReleased c = true → (c.scope = 6 → s.deltas = []) → ∃ t, exec (.copyChunk core j n .good) s = .next t
          ∧ (∀ y ∈ (t.core core).copies, y.id = c.id → y.state = 4 ∧ y.ranges = [])
          ∧ (∀ a, t.mem.byte a = s.mem.byte a) ∧ ∀ a, scratch t a = scratch s a))
    ∧ (∀ (s : State) (core j n : Nat) (c : Copy) (k : Stook), s.powered = true → (s.core core).running[j]? = some c →
      s.stook? c.stook = some k → s.copyGoes c = true → c.writes ≠ [] → (c.scope = 6 → s.deltas = []) →
      ∃ t x, exec (.copyChunk core j n .good) s = .next t ∧ x < c.writes.length ∧ (∀ a, t.mem.byte a = s.mem.byte a)
        ∧ (t.core core).stores = (s.core core).stores ++ [{ c.writes.getD x default with id := s.next, born := s.next }]
        ∧ (1 < c.writes.length → { c with writes := c.writes.eraseIdx x } ∈ (t.core core).copies)
        ∧ (c.writes.length = 1 → c.cursor + c.taking < c.total →
            { c with writes := [], cursor := c.cursor + c.taking, taking := 0 } ∈ (t.core core).copies))
    ∧ ∀ (c : Copy) (w : ChunkWrites), (w.glob.map fun q => q.2.1).Nodup →
      (∀ q ∈ w.glob, ∃ r ∈ c.stores w, ∃ (e : Elem) (n : Nat), r.op = .store ∧ r.elems = [e] ∧ e.locs[n]? = some q.2.1
          ∧ (leBytes e.n (r.data.headD 0))[n]? = some q.2.2)
        ∧ (∀ r ∈ c.stores w, ∀ e ∈ r.elems, ∀ b ∈ e.locs, b ∈ w.glob.map fun q => q.2.1)
        ∧ (∀ r ∈ c.stores w, ∃ n d, r.words = [(n, d)])
        ∧ (c.stores w).Pairwise fun a b => a.meets b = false

/-- CWAIT lets a lane go on when its copies are complete and holds it while one runs. With g the group of the word, or
all: when every copy of g of every executing lane is complete, the lanes go on behind the word and the copies are told
to them; when each lane has one that has not ended, all are held at the word. No register and no memory changes. That
RETIRED counts a word that is held at its issue is log entry 6, a reading of R116. -/
def Obligations.CopyWaits : Prop :=
  ∀ (s : State) (p : Focus) (k : Stook) (w : AWord), Issues (.cwait w) s p k →
    let o := w.opt (aForm 0x108)
    let g : Option Nat := if o / 8 = 1 then none else some (o % 8)
    let cs (l : Nat) : List Copy := s.awaited { stook := p.stook, sheaf := p.sheaf, lane := l } g
    let same (t : State) : Prop := (∀ r l, (t.here p).rv r l = (s.here p).rv r l) ∧ (∀ r, (t.here p).rs r = (s.here p).rs r)
      ∧ (t.here p).retired = (s.here p).retired + 1 ∧ ∀ a, t.mem.byte a = s.mem.byte a
    ((∀ l, p.lanes.getLsbD l = true → ∀ c ∈ cs l, c.state = 4) →
        ∃ t, exec (.cwait w) s = .next t ∧ PathGoesOn s t p 2 ∧ same t
          ∧ (∀ l, p.lanes.getLsbD l = true → (t.laneOf p l).hold = none)
          ∧ ∀ l, p.lanes.getLsbD l = true → ∀ c ∈ cs l, ∀ y ∈ (t.core k.core).copies, y.id = c.id → y.undelivered.getLsbD l = false)
      ∧ ((∀ l, p.lanes.getLsbD l = true → ∃ c ∈ cs l, c.state ≤ 3) →
        ∃ t, exec (.cwait w) s = .next t ∧ same t ∧ ∀ l, p.lanes.getLsbD l = true → LaneHeld (s.laneOf p l) (t.laneOf p l) (.cwait g))

/-- CBINIT, CBACQ and CBREL keep a buffer's counters and ring, hold or trap. CBINIT sets the geometry of its
s-register and empties the ring, once no earlier copy into the buffer runs; a ring outside the allotment traps BOUNDS.
CBACQ takes the next filled slot: D of each lane holds its offset, FILLED falls, HELD rises, ACQ moves on; with none
filled the lanes are held; an uninitialised buffer traps CB_STATE. CBREL frees the oldest slot held; with none held it
traps CB_STATE. No memory changes. That RETIRED counts a word that is held at its issue is log entry 6, a reading of
R116. -/
def Obligations.CircularBuffers : Prop :=
  ∀ (s : State) (p : Focus) (k : Stook) (w : AWord),
    (∀ m i g, ((s.here p).lane m).hold = some (.cbacq i g) ∨ (∃ x, ((s.here p).lane m).hold = some (.cbinit i x g)) → g < s.next) →
    let buf (t : State) (n : Nat) : Option CBuf := ((t.stook? p.stook).getD default).cbuf? n
    let same (t : State) : Prop := (∀ r, (t.here p).rs r = (s.here p).rs r) ∧ (t.here p).retired = (s.here p).retired + 1
      ∧ ∀ a, t.mem.byte a = s.mem.byte a
    (Issues (.cbinit w) s p k →
      let n := w.opt (aForm 0x110)
      let x := (s.here p).rs (w.sregN (aForm 0x110))
      let b : CBuf := cbGeometry x
      b.slots = x.toNat % 256 + 1 ∧ b.slotBytes = (x.toNat / 256 % 512 + 1) * 128 ∧ b.offset = x.toNat / 2 ^ 17 % 4096 * 128
        ∧ b.free = b.slots ∧ b.filled = 0 ∧ b.held = 0 ∧ b.claim = 0 ∧ b.acq = 0 ∧ b.rel = 0
        ∧ (spadInside k (s.launchOf k).desc b.offset ((b.slots * b.slotBytes : Nat) : Int) = false →
            ∃ t, exec (.cbinit w) s = .next t ∧ Trapped s t p p.lanes (sizeA w) .bounds)
        ∧ (spadInside k (s.launchOf k).desc b.offset ((b.slots * b.slotBytes : Nat) : Int) = true → s.bufferBusy k n s.next = false →
            ∃ t, exec (.cbinit w) s = .next t ∧ PathGoesOn s t p (sizeA w) ∧ same t ∧ buf t n = some b
              ∧ ∀ m, m ≠ n → buf t m = k.cbuf? m))
    ∧ (Issues (.cbacq w) s p k → ∀ b, k.cbuf? (w.opt (aForm 0x111)) = some b →
      (b.slots = 0 → ∃ t, exec (.cbacq w) s = .next t ∧ Trapped s t p p.lanes (sizeA w) .cbState)
      ∧ (0 < b.slots → 0 < b.filled → ∃ t, exec (.cbacq w) s = .next t ∧ PathGoesOn s t p (sizeA w) ∧ same t
          ∧ (∀ l, p.lanes.getLsbD l = true → (t.here p).rv w.d.toNat l = BitVec.ofNat 32 (b.offset + b.acq * b.slotBytes))
          ∧ buf t (w.opt (aForm 0x111)) = some { b with filled := b.filled - 1, held := b.held + 1, acq := (b.acq + 1) % b.slots })
      ∧ (0 < b.slots → b.filled = 0 → ∃ t, exec (.cbacq w) s = .next t ∧ same t ∧ buf t (w.opt (aForm 0x111)) = some b
          ∧ ∀ l, p.lanes.getLsbD l = true → LaneHeld (s.laneOf p l) (t.laneOf p l) (.cbacq (.cbacq w) s.next)))
    ∧ (Issues (.cbrel w) s p k → ∀ b, k.cbuf? (w.opt (aForm 0x112)) = some b →
      (b.slots = 0 ∨ b.held = 0 → ∃ t, exec (.cbrel w) s = .next t ∧ Trapped s t p p.lanes (sizeA w) .cbState
          ∧ buf t (w.opt (aForm 0x112)) = some b)
      ∧ (0 < b.slots → 0 < b.held → ∃ t, exec (.cbrel w) s = .next t ∧ PathGoesOn s t p (sizeA w) ∧ same t
          ∧ (∀ r l, (t.here p).rv r l = (s.here p).rv r l)
          ∧ buf t (w.opt (aForm 0x112)) = some { b with rel := (b.rel + 1) % b.slots, free := b.free + 1, held := b.held - 1 }))

/-- PBAR.ORD and PBAR.SYNC begin a new persist epoch, and a PBAR.SYNC ends when its writes are durable. Each executing
lane's epoch takes one more and the lanes go on. PBAR.SYNC marks each lane that has stored to the NV tier since its
last one, and no other; PBAR_SYNC_COMPLETE clears the mark of a lane none of whose earlier NV writes is still to be
performed, with no delta waiting. No register and no memory changes. Where the spec is silent this rests on log entry
11, the model's reading. -/
def Obligations.PersistBarriers : Prop :=
  (∀ (s : State) (p : Focus) (k : Stook) (w : MWord) (i : Instr) (sync : Bool),
      ((i = .pbarOrd w ∧ sync = false) ∨ (i = .pbarSync w ∧ sync = true)) → Issues i s p k →
      let x (l : Nat) : Lane := s.laneOf p l
      ∃ t, exec i s = .next t ∧ PathGoesOn s t p 2 ∧ (t.here p).retired = (s.here p).retired + 1
        ∧ (∀ l, p.lanes.getLsbD l = true → (t.laneOf p l).epoch = (x l).epoch + 1 ∧ (t.laneOf p l).nvSince = (x l).nvSince
            ∧ ((t.laneOf p l).persist = (x l).persist ∨ (sync = true ∧ (x l).nvSince = true))
            ∧ (sync = true → (x l).nvSince = true → (t.laneOf p l).persist ≠ []))
        ∧ (∀ r l, (t.here p).rv r l = (s.here p).rv r l) ∧ (∀ r, (t.here p).rs r = (s.here p).rs r)
        ∧ (∀ l, p.lanes.getLsbD l = false → (t.here p).lane l = (s.here p).lane l) ∧ ∀ a, t.mem.byte a = s.mem.byte a)
    ∧ ∀ (s : State) (r : LaneRef), s.powered = true → s.takes r.stook r.sheaf r.lane → (s.laneAt r).persist ≠ [] →
      (∀ c ∈ s.cores, c.deltas = []) → (∀ c ∈ s.dies, c.deltas = []) → s.persistDone r = true →
      ∃ t, exec (.pbarSyncComplete r) s = .next t ∧ (t.laneAt r).persist = [] ∧ (t.laneAt r).nvSince = false
        ∧ (t.laneAt r).pc = (s.laneAt r).pc ∧ ∀ a, t.mem.byte a = s.mem.byte a

/-- CLAUSE_FETCH enters a clause, waits or traps at its header; ROTATION_STEP gives every considered sheaf its turn,
or waits. CLAUSE_FETCH of a path at a header, no stop asked for: when the checks of R30 pass, no waited-for token
counts, no register of the clause is pending and none it reads is spilled, every lane is inside the clause, its end at
header plus 1 plus COUNT, its latches empty, and the path is in focus; a token that counts leaves the state as it is;
a failed check traps at the header. ROTATION_STEP of a core whose issued work is done: the position moves on when no
sheaf is considered, and with one step counted when none of those considered must wait, each giving its turn to the
first of its ready paths and the next of the same class; it stays when one must. Where the spec is silent this rests
on log entries 29 and 33, the model's reading. -/
def Obligations.ClauseFetch : Prop :=
  (∀ (s : State) (p : Focus) (k : Stook) (a : Word), s.powered = true → s.stook? p.stook = some k → p.sheaf < k.sheaves.length →
      p.lanes ≠ 0 → (∀ l, p.lanes.getLsbD l = true → l < (k.sheaf p.sheaf).lanes.length ∧ (s.laneOf p l).running = true
        ∧ (s.laneOf p l).inside = false ∧ (s.laneOf p l).pc = a) →
      let L := s.launchOf k
      let h := k.sheaf p.sheaf
      let hd := L.code.getD a.toNat 0
      let i : Instr := .clauseFetch { stook := p.stook, sheaf := p.sheaf, lanes := p.lanes }
      k.stopping = 0 → L.ending = none → k.stopAll = false → a ∉ L.breakpoints → L.codeStop a.toNat = none →
      (∀ ws, fetchCheck L.code k h a.toNat = .ok ws →
          ((∃ t, t < 6 ∧ hdrWaits hd t = true ∧ h.tokenCount t ≠ 0) → exec i s = .next s)
          ∧ ((∀ t, t < 6 → hdrWaits hd t = true → h.tokenCount t = 0) → (∀ r ∈ (clauseRegs h k ws).1, r ∉ h.spilled) →
            (∀ l, p.lanes.getLsbD l = true → ∀ q ∈ (s.laneOf p l).pending,
              q.1 ∉ (clauseRegs h k ws).1 ∧ q.1 ∉ (clauseRegs h k ws).2.1) →
            ∃ t, exec i s = .next t ∧ t.focus = some p
              ∧ (∀ l, p.lanes.getLsbD l = true → (t.laneOf p l).inside = true ∧ (t.laneOf p l).pc = a + 1 ∧ (t.laneOf p l).hdr = a
                  ∧ (t.laneOf p l).fin = a + 1 + BitVec.ofNat 32 (hdrCount hd) ∧ (t.laneOf p l).cls = hdrClass hd
                  ∧ (t.laneOf p l).latches = [] ∧ (t.laneOf p l).tx = (s.laneOf p l).tx)
              ∧ (∀ l, p.lanes.getLsbD l = false → (t.here p).lane l = (s.here p).lane l)
              ∧ (∀ r l, (t.here p).rv r l = (s.here p).rv r l) ∧ ∀ b, t.mem.byte b = s.mem.byte b))
        ∧ (∀ c, fetchCheck L.code k h a.toNat = .error c → s.plain p → ∃ t, exec i s = .next t ∧ Trapped s t p p.lanes 0 c))
    ∧ ∀ (s t0 : State) (core : Nat), s.powered = true →
      (∃ k ∈ s.stooksOn core, (s.launchOf k).desc.rotates = true ∧ k.sheaves.all Sheaf.spent = false) →
      s.midStep core = false → s.frozen core = false → s.memoryDone core = true → s.takeOn core Config.placesPerCore = some t0 →
      let pos := (t0.core core).rotation
      let on := t0.considered core pos
      (on = [] → ∃ t, exec (.rotationStep core) s = .next t ∧ (t.core core).rotation = (pos + 1) % 8
          ∧ (t.core core).steps = (t0.core core).steps ∧ t.turn = t0.turn)
        ∧ (on ≠ [] → t0.stalls core on = true → ∃ t, exec (.rotationStep core) s = .next t ∧ (t.core core).rotation = pos ∧ t.turn = t0.turn)
        ∧ (on ≠ [] → t0.stalls core on = false → ∃ t, exec (.rotationStep core) s = .next t ∧ (t.core core).rotation = (pos + 1) % 8
          ∧ (t.core core).steps = (t0.core core).steps + 1 ∧ (∀ a, t.mem.byte a = t0.mem.byte a)
          ∧ t.turn = t0.turn ++ on.flatMap fun x =>
              (issuing (((x.1.sheaf x.2).paths (t0.launchOf x.1).code x.1).filter fun q => t0.pathReady x.1 x.2 q)).map fun q =>
                { stook := x.1.uid, sheaf := x.2, lanes := q.lanes })

/-- A store drains to its core, a request acts at its home, a result reaches its lane, a table entry arrives.
STORE_QUEUE_DRAIN: of the oldest store of a sheaf whose earlier accesses are performed one aligned word leaves the
queue: to its core's stores, of a twin or a second run to those held, or, of the scratchpad, into its bytes; a store
of one word leaves whole. A twin's store that reaches its compare point within is left out. HOME_REQUEST of one
element with no delta waiting: the bytes of the element, and no others, take the value the operation gives; the result
is the old value (for XRD the rounded cell; of a load of one word with nothing in front of it; of the scratchpad its
bytes); a plain integer RED or XRED leaves its delta at the core instead. LOAD_RESPONSE writes the result's registers.
BSC_FILL puts the entry's bytes in the block-side cache. Where the spec is silent this rests on log entry 46, the
model's reading. -/
def Obligations.MemoryEvents : Prop :=
  (∀ (s : State) (u i : Nat) (k : Stook) (q : Req) (rest : List Req), s.powered = true → s.stook? u = some k → i < k.sheaves.length →
      (k.sheaf i).queue = q :: rest → s.drainable u i = true → k.takes q = q.elems.length →
      (∀ (x : Elem × Nat) (left : List (Elem × Nat)), q.parts = x :: left →
        ∃ t, exec (.storeQueueDrain u i) s = .next t ∧ (∀ a, t.mem.byte a = s.mem.byte a)
          ∧ (t.sheafAt u i).queue = (if left = [] then rest else { q with early := true, elems := left.map Prod.fst, data := left.map Prod.snd } :: rest)
          ∧ (∃ n d, ∀ b ∈ x.1.locs, b.pa / 8 = n ∧ b.peer = d)
          ∧ (q.spad = false →
              let r : Req := { q with id := s.next, early := q.early || !left.isEmpty, elems := [x.1], data := [x.2] }
              (k.twin = none → k.rerun = none → (t.core k.core).stores = (s.core k.core).stores ++ [r])
                ∧ (k.twin ≠ none ∨ k.rerun ≠ none → (t.core k.core).stores = (s.core k.core).stores
                    ∧ ((t.stook? u).map Stook.heldStores) = some (k.heldStores ++ [r])))
          ∧ (q.spad = true → (x.1.locs.map ByteLoc.pa).Nodup → x.1.skip = false →
            let scratch (x : State) (a : Nat) : Byte := Bank.get ((x.stook? u).getD default).scratch a
            (∀ j b, x.1.locs[j]? = some b → scratch t b.pa = (leBytes x.1.locs.length x.2).getD j 0)
              ∧ ∀ a, a ∉ x.1.locs.map ByteLoc.pa → scratch t a = scratch s a))
        ∧ ∀ (e : Elem) (d : Nat) (b : ByteLoc) (bs : List ByteLoc), q.elems = [e] → q.data = [d] → e.skip = false → e.locs = b :: bs →
          e.n = e.locs.length → e.locs.Nodup → (∀ c ∈ bs, c.pa / 8 = b.pa / 8 ∧ c.peer = b.peer) →
          ∃ x, q.parts = [x] ∧ x.1.locs = e.locs ∧ x.1.skip = false ∧ leBytes e.n x.2 = leBytes e.n d)
    ∧ (∀ (s : State) (core j : Nat) (r : Req) (e : Elem), s.powered = true → (s.core core).homeList[j]? = some r →
      s.requestReady core r = true → s.needsTwin r = false → r.spad = false → r.elems = [e] → e.skip = false →
      (∀ b ∈ e.locs, b.peer = none) → (e.locs.map ByteLoc.pa).Nodup → (∀ c ∈ s.cores, c.deltas = []) →
      (∀ c ∈ s.dies, c.deltas = []) → s.sectorCause r.locs .good = none →
      (r.op = .load → e.known = List.replicate e.locs.length none ∧ (∃ n, ∀ b ∈ e.locs, b.pa / 8 = n)
        ∧ ∃ k, s.stook? r.stook = some k ∧ k.core = core ∧ ∀ b ∈ e.locs, s.front k r b = none ∧ s.copyByte core r (8 * (b.pa / 8)) = none) →
      let old := leNat (e.locs.map fun b => s.mem.byte b.pa)
      let d := r.data.headD 0
      let w := e.width
      let fold (f : Nat) : Nat := match f with
        | 0 => (old + d) % 2 ^ w
        | 1 => old &&& d
        | 2 => old ||| d
        | 3 => old ^^^ d
        | 4 => if signedOf w old ≤ signedOf w d then old else d
        | 5 => if signedOf w d ≤ signedOf w old then old else d
        | 6 => min old d
        | _ => max old d
      let new : Option Nat := match r.op with
        | .load => none
        | .store => some d
        | .atom f => some (if f = 3 then d else fold f)
        | .cas => if old = d then some (r.data.getD 1 0) else none
        | .red f flt rm => some (if flt then redFloat e.fmt f rm old d else fold f)
        | .xred x => some (packCell ((unpackCell old).add (xredValue x d).1 (xredValue x d).2.1 (xredValue x d).2.2.1 (xredValue x d).2.2.2))
        | .xrd clr _ => if clr then some 0 else none
      let res : Nat := match r.op with | .xrd _ f => (xrdResult f old).1 | _ => old
      ∃ t, exec (.homeRequest core j .good) s = .next t
        ∧ (r.updateOnly = false → ∀ v, new = some v →
            (∀ n b, e.locs[n]? = some b → t.mem.byte b.pa = (leBytes e.locs.length v).getD n 0)
              ∧ ∀ a, a ∉ e.locs.map ByteLoc.pa → t.mem.byte a = s.mem.byte a)
        ∧ (r.updateOnly = true ∨ new = none → ∀ a, t.mem.byte a = s.mem.byte a)
        ∧ (r.updateOnly = true → r.delta e d ∈ (t.core core).deltas)
        ∧ (r.silent = false → r ∈ (s.core core).reqs → ∃ q ∈ (t.core core).reqs, q.id = r.id ∧ q.performed = true ∧ q.result = [res])
        ∧ (r.silent = true → ∀ q ∈ (t.core core).homeList, q.id ≠ r.id))
    ∧ (∀ (s : State) (core j : Nat) (r : Req) (e : Elem) (k : Stook), s.powered = true → (s.core core).reqs[j]? = some r →
      s.requestReady core r = true → r.spad = true → r.op = .load → r.elems = [e] → e.skip = false →
      e.known = List.replicate e.locs.length none → (∃ n, ∀ b ∈ e.locs, b.pa / 8 = n ∧ b.peer = none) → s.stook? r.stook = some k →
      (k.sheaf r.sheaf).queue = [] →
      ∃ t, exec (.homeRequest core j .good) s = .next t ∧ (∀ a, t.mem.byte a = s.mem.byte a)
        ∧ ∃ q ∈ (t.core core).reqs, q.id = r.id ∧ q.performed = true
          ∧ q.result = [leNat (e.locs.map fun b => Bank.get k.scratch b.pa)])
    ∧ (∀ (s : State) (core j : Nat) (r : Req), s.powered = true → (s.core core).reqs[j]? = some r → r.performed = true →
      s.takes r.stook r.sheaf r.lane →
      ∃ t, exec (.loadResponse core j) s = .next t ∧ (∀ q ∈ (t.core core).reqs, q.id ≠ r.id)
        ∧ Delivered s t r.stook r.sheaf r.lane r.dest.toNat r.id r.regs.1 r.regs.2)
    ∧ ∀ (s : State) (core j : Nat) (b : BscEntry), s.powered = true →
      ((s.core core).bsc.filter fun x => x.entry.isNone)[j]? = some b → s.sectorCause b.locs .good = none → b.live = true →
      s.fillWaits core b = false → (∀ x ∈ b.locs, x.peer = none
        ∧ ∀ r ∈ (s.core core).stores ++ s.stooks.flatMap Stook.heldStores, r.storeByte x = none) →
      ∃ t, exec (.bscFill core j) s = .next t ∧ { b with entry := some (b.locs.map fun x => s.homeByte x.pa) } ∈ (t.core core).bsc
        ∧ (∀ u i r l, (t.sheafAt u i).rv r l = (s.sheafAt u i).rv r l) ∧ ∀ a, t.mem.byte a = s.mem.byte a

/-- A walk that ends in a leaf enters it in both TLBs; firmware retries a fault whose page is now there, and reports
any other once. PAGE_WALK for a VALID context: a leaf is in the TLB of the core and in that of its cluster, every
other TLB as it was; a walk that ends in a cause changes nothing. FAULT_SERVICE of a fault not yet reported: where the
walk still fails or the leaf forbids the access, the fault is reported and stays outstanding; where it permits it and
no access waits in a replay buffer or a save image, the fault is over without a report, no TLB holds its page, its
copies go on. No memory changes. The moment of a walk and which entry a full TLB loses are the model's choices (log
entries 21 and 64). -/
def Obligations.WalksAndReports : Prop :=
  (∀ (s : State) (core ctx : Nat) (va : DWord), s.powered = true → core < Config.numCores → (s.ctx ctx).valid = true → va.toNat < 2 ^ 55 →
      (∀ l e, s.walk ctx va.toNat = .leaf l e →
        let x : TlbEntry := { ctx := ctx, level := l, vpn := va.toNat >>> leafBits l, leaf := e }
        ∃ t, exec (.pageWalk core ctx va) s = .next t ∧ x ∈ (t.core core).tlb ∧ x ∈ t.clusterTlb core
          ∧ (∀ n, n ≠ core → t.core n = s.core n) ∧ { t.core core with tlb := (s.core core).tlb } = s.core core
          ∧ (∀ n, clusterOf n ≠ clusterOf core → t.clusterTlb n = s.clusterTlb n)
          ∧ t = { s with cores := t.cores, clusterTlbs := t.clusterTlbs })
        ∧ ∀ c l, s.walk ctx va.toNat = .fail c l → exec (.pageWalk core ctx va) s = .next s)
    ∧ ∀ (s : State) (f : FaultRec), s.powered = true → s.fault? f.id = some f → f.reported = false → f.resolved = false →
      ((∀ l e, s.walk f.ctx f.va = .leaf l e → s.permit f.ctx f.kind.need e ≠ none) →
        ∃ t, exec (.faultService f.id) s = .next t ∧ t.fault? f.id = some { f with reported := true }
          ∧ (∀ id, id ≠ f.id → t.fault? id = s.fault? id)
          ∧ t = { s with faults := t.faults, sent := s.sent ++ [.faultReport f.pack] })
        ∧ ∀ l e, s.walk f.ctx f.va = .leaf l e → s.permit f.ctx f.kind.need e = none → s.savedWaits f.id = false →
          (∀ c ∈ s.cores, ∀ r ∈ c.replay, r.fault ≠ f.id) →
          ∃ t, exec (.faultService f.id) s = .next t ∧ t.sent = s.sent ∧ Retried s t f

/-- FAULT_ACK with RETRY ends a fault and re-issues what waits on it, with NOMAP it stops it. An acknowledgement of a
fault that is outstanding no more is answered with DETAIL 1, RETRY or NOMAP of one that is not replayable with
0x800000F3, and neither does more. RETRY with nothing parked: the fault is over, its page leaves every TLB, its copies
go on. RETRY with one load parked, whose page now permits it and no byte of which a copy has locked: the lane goes on
and the load is at its core, at the bytes the leaf gives. NOMAP with one access parked: its lane stops at its word
with NO_MAPPING, reported, its registers awaited no more. Where the spec is silent this rests on log entries 17 and
21, the model's choices. -/
def Obligations.FaultRetries : Prop :=
  (∀ (s : State) (h : MsgHdr) (id : Word), InTurn s h 8 false →
      (s.fault? id = none ∨ ∃ f, s.fault? id = some f ∧ (f.ctx ≠ h.context ∨ f.reported = false ∨ f.resolved = true)) →
      (∃ t, exec (.faultAckRetry h id) s = .next t ∧ Answered s t h 0 1) ∧ ∃ t, exec (.faultAckNomap h id) s = .next t ∧ Answered s t h 0 1)
    ∧ ∀ (s : State) (h : MsgHdr) (f : FaultRec), InTurn s h 8 false → s.fault? f.id = some f → f.ctx = h.context → f.reported = true →
      f.resolved = false →
      (f.cls ≠ 0 → (∃ t, exec (.faultAckRetry h f.id) s = .next t ∧ Answered s t h 0x800000F3 0)
          ∧ ∃ t, exec (.faultAckNomap h f.id) s = .next t ∧ Answered s t h 0x800000F3 0)
        ∧ (f.cls = 0 → s.savedWaits f.id = false → (∀ c ∈ s.cores, ∀ e ∈ c.replay, e.fault ≠ f.id) →
            ∃ t, exec (.faultAckRetry h f.id) s = .next t ∧ .response h.context h.tag 0 0 [] ∈ t.sent ∧ Retried s t f)
        ∧ (∀ (core : Nat) (e : Replay) (k : Stook) (x : Elem) (l : Nat) (lf : DWord), f.cls = 0 →
            (∀ n, (s.core n).replay.filter (fun e => e.fault == f.id) = if n = core then [e] else []) → s.stook? e.req.stook = some k → k.core = core →
            e.kind = .read → e.req.op = .load → e.req.spad = false → e.req.tx = false → e.req.opcode ≠ 0x14c → e.req.opcode ≠ 0x185 →
            e.req.elems = [x] → x.skip = false → x.side = none → x.va / 65536 = f.va / 65536 → x.va % 65536 + x.n ≤ 65536 →
            s.rangeLocked k false x.va x.n = false →
            s.walk f.ctx x.va = .leaf l lf → k.ctx = f.ctx → s.permit f.ctx { rd := true } lf = none →
            ∃ t, exec (.faultAckRetry h f.id) s = .next t
              ∧ (t.laneAt { stook := e.req.stook, sheaf := e.req.sheaf, lane := e.req.lane }).stop = none
              ∧ ∃ q ∈ (t.core core).reqs, q.stook = e.req.stook ∧ q.sheaf = e.req.sheaf ∧ q.lane = e.req.lane ∧ q.opcode = e.req.opcode
                ∧ q.dest = e.req.dest ∧ q.elems.map (fun y => (y.va, y.locs)) = [(x.va, (List.range x.n).map fun j =>
                    { pa := leafPa l lf x.va + j, peer := if ptePEER lf then some (ptePEERDEV lf) else none, la := pteLA lf, key := pteKEY lf })])
        ∧ ∀ (core : Nat) (e : Replay) (k : Stook) (g : Stop), f.cls = 0 →
            (∀ n, (s.core n).replay.filter (fun e => e.fault == f.id) = if n = core then [e] else []) →
            (∀ c ∈ s.cores, ∀ y ∈ c.copies, y.fault ≠ f.id) → (∀ n ∈ s.launches, n.codeFaults = []) →
            (∀ k ∈ s.stooks, ∀ v ∈ k.sheaves, ∀ x ∈ v.lanes, match x.hold with | some (.tile _) => False | _ => True) →
            s.stook? e.req.stook = some k → e.req.sheaf < k.sheaves.length → e.req.lane < 32 →
            e.req.lane < (k.sheaf e.req.sheaf).lanes.length →
            let r : LaneRef := { stook := e.req.stook, sheaf := e.req.sheaf, lane := e.req.lane }
            (s.laneAt r).stop = some g → (s.laneAt r).tx.depth = 0 →
            ∃ t, exec (.faultAckNomap h f.id) s = .next t
              ∧ ∃ n ∈ t.faults, n.cause = .noMapping ∧ n.lanes = maskOf [e.req.lane] ∧ .faultReport n.pack ∈ t.sent
                ∧ (t.laneAt r).stop = some { cause := .noMapping, fault := n.id, resume := g.resume }
                ∧ (t.laneAt r).pc = (s.laneAt r).pc ∧ ∀ q ∈ (t.laneAt r).pending, q.2 ≠ e.req.id

/-- FAULT_ACK with RESUME lets a stopped lane go on, with END_LAUNCH or END_CONTEXT it ends what the fault belongs to.
An acknowledgement of a fault that is outstanding no more is answered with DETAIL 1; RESUME of a replayable or
containment event, of one at a header or without lanes with 0x800000F3; neither does more. RESUME: a lane stopped
inside its clause goes on behind its word, its latches invalid, its transaction as it was, no register and no memory
changed. END_LAUNCH marks the fault's launch to end in state 6, and no other; END_CONTEXT marks every launch of the
context that runs, which stays VALID. The DETAIL 1 for a fault not yet reported, or of another context, is log entry
17, the model's choice. -/
def Obligations.FaultEnds : Prop :=
  (∀ (s : State) (h : MsgHdr) (id : Word), InTurn s h 8 false →
      (s.fault? id = none ∨ ∃ f, s.fault? id = some f ∧ (f.ctx ≠ h.context ∨ f.reported = false ∨ f.resolved = true)) →
      ∀ i ∈ [Instr.faultAckResume h id, .faultAckEndLaunch h id, .faultAckEndContext h id], ∃ t, exec i s = .next t ∧ Answered s t h 0 1)
    ∧ ∀ (s : State) (h : MsgHdr) (f : FaultRec), InTurn s h 8 false → s.fault? f.id = some f → f.ctx = h.context → f.reported = true →
      f.resolved = false →
      (f.cls = 0 ∨ f.cls = 3 ∨ f.header = true ∨ f.lanes = 0 →
          ∃ t, exec (.faultAckResume h f.id) s = .next t ∧ Answered s t h 0x800000F3 0)
        ∧ (∀ (l : Nat) (g : Stop), f.cls = 1 ∨ f.cls = 2 → f.header = false → f.lanes.getLsbD l = true →
            let r : LaneRef := { stook := f.uid, sheaf := f.sheaf, lane := l }
            let x := s.laneAt r
            x.stop = some g → g.fault = f.id → x.exitIssued = false → x.inside = true → g.resume ≠ x.pc →
            ∃ t, exec (.faultAckResume h f.id) s = .next t ∧ t.fault? f.id = none ∧ (t.laneAt r).stop = none ∧ (t.laneAt r).pc = g.resume
              ∧ (t.laneAt r).latches = [] ∧ (t.laneAt r).tx = x.tx ∧ (t.laneAt r).inside = (g.resume != x.fin)
              ∧ (∀ v n m, (t.sheafAt f.uid f.sheaf).rv n m = (s.sheafAt f.uid f.sheaf).rv n m ∧ t.mem.byte v = s.mem.byte v))
        ∧ (∀ L : Launch, s.launch? f.ctx f.launch = some L → L.state ≤ 3 → L.recorded = false → L.ending = none →
            ∃ t, exec (.faultAckEndLaunch h f.id) s = .next t ∧ t.launch? f.ctx f.launch = some { L with ending := some 6 }
              ∧ (∀ M ∈ s.launches, M.ctx ≠ f.ctx ∨ M.id ≠ f.launch → M ∈ t.launches)
              ∧ Answered { s with launches := t.launches } t h 0 0)
        ∧ ∃ t, exec (.faultAckEndContext h f.id) s = .next t ∧ (t.ctx f.ctx).valid = true
            ∧ (∀ L ∈ s.launches, L.ctx = f.ctx → L.state ≤ 3 → L.recorded = false → L.ending = none → { L with ending := some 6 } ∈ t.launches)
            ∧ (∀ M ∈ s.launches, M.ctx ≠ f.ctx → M ∈ t.launches) ∧ Answered { s with launches := t.launches } t h 0 0

/-- A stook is placed for the first launch in the order of arbitration; refills, quanta, the watchdog, PREEMPT and
RESTORE. STOOK_PLACEMENT on a core with room for the launch that every other ready one follows in priority and turn
places that launch's next stook: its sheaves on free slots, 32 lanes each at their role's entry, the parameters in
their scalar registers, the core's cached copies discarded; with no room for the only ready launch nothing changes.
REGISTER_REFILL binds a spilled register, its values as they were. QUANTUM_EXPIRY asks the stook to stop when another
of its launch waits and its image has room, which is kept for it. WATCHDOG_EXPIRY reports and ends in state 5 a launch
that has used its limit, and no other. PREEMPT asks the stooks of a launch to stop, or answers why not; RESTORE puts
the saved ones ahead of the unplaced, those of a quantum too. Where the spec is silent this rests on log entries 22
and 30, the model's choices. -/
def Obligations.StooksPlaced : Prop :=
  (∀ (s : State) (core : Nat) (l : Launch), s.powered = true → core < Config.numCores → (∀ x ∈ s.launches, x.desc.depStrict = false) →
      l ∈ s.launches → s.ready l = true → s.launch? l.ctx l.id = some l → l.code ≠ [] → core ∈ l.eligible → l.saved = [] →
      l.desc.place ≠ 1 → l.desc.det = false → l.desc.contain ≠ 2 → l.nextStook < l.desc.stooks → (∀ x ∈ s.launches, s.toRerun x = []) →
      (s.room core l = true →
        (∀ x ∈ s.launches, s.ready x = true → x ≠ l →
          s.priority x < s.priority l ∨ (s.priority x = s.priority l ∧ s.turnOf l < s.turnOf x)) →
        ∃ t k, exec (.stookPlacement core) s = .next t ∧ t.stooks = s.stooks ++ [k] ∧ k.ctx = l.ctx ∧ k.launch = l.id
          ∧ k.stookId = BitVec.ofNat 32 l.nextStook ∧ k.core = core ∧ k.sheaves.length = l.desc.sheaves
          ∧ (∀ i, i < l.desc.sheaves → (k.sheaf i).slot ∈ s.freeSlots core ∧ (k.sheaf i).s = l.desc.paramRegs ∧ (k.sheaf i).lanes.length = 32
              ∧ ∀ m, m < 32 → ((k.sheaf i).lane m).running = true ∧ ((k.sheaf i).lane m).inside = false
                ∧ ((k.sheaf i).lane m).pc = BitVec.ofNat 32 (l.desc.roleOf i).2.2)
          ∧ k.records = l.records.map (fun r => (r.slot, r.record)) ∧ (t.core core).cache = []
          ∧ t.launch? l.ctx l.id = some { l with nextStook := l.nextStook + 1, state := if l.nextStook + 1 < l.desc.stooks then 2 else 3 }
          ∧ ∀ a, t.mem.byte a = s.mem.byte a)
        ∧ (s.room core l = false → (∀ x ∈ s.launches, s.ready x = true → x = l) → exec (.stookPlacement core) s = .next s))
    ∧ (∀ (s : State) (u i r l : Nat), s.powered = true → (r, 0) ∈ ((s.sheafAt u i).lane l).pending → r ∈ (s.sheafAt u i).spilled →
      r ∉ (s.sheafAt u i).bound →
      ∃ t, exec (.registerRefill u i r) s = .next t ∧ r ∈ (t.sheafAt u i).bound ∧ r ∉ (t.sheafAt u i).spilled
        ∧ (∀ x ∈ (t.sheafAt u i).lanes, (r, 0) ∉ x.pending) ∧ (∀ n m, (t.sheafAt u i).rv n m = (s.sheafAt u i).rv n m)
        ∧ ∀ a, t.mem.byte a = s.mem.byte a)
    ∧ (∀ (s : State) (u : Nat) (k : Stook), s.powered = true → s.stooks.filter (fun x => x.uid == u) = [k] → (∀ x ∈ s.stooks, x.twin ≠ some u) →
      let l := s.launchOf k
      l.desc.rotates = false → l.desc.place = 2 → l.desc.quantum ≤ k.resident → l.unplaced = true → l.ending = none → k.stopping = 0 →
      (s.spillRoom k.ctx (s.imageSize k) = true → ∃ t, exec (.quantumExpiry u) s = .next t
          ∧ t.stook? u = some { k with stopping := 1, reserve := s.imageSize k }
          ∧ (∀ v, v ≠ u → t.stook? v = s.stook? v) ∧ t = { s with stooks := t.stooks })
        ∧ (s.spillRoom k.ctx (s.imageSize k) = false → exec (.quantumExpiry u) s = .next s))
    ∧ (∀ (s : State) (c : Nat) (id : Word) (l : Launch), s.powered = true → s.launch? c id = some l →
      (s.watching l = true → l.recorded = false → 1024 * l.desc.watchdog ≤ l.watched →
        ∃ t f, exec (.watchdogExpiry c id) s = .next t ∧ t.launch? c id = some { l with ending := some 5 } ∧ t.faults = s.faults ++ [f]
          ∧ t.sent = s.sent ++ [.faultReport f.pack] ∧ f.cause = .watchdog ∧ f.ctx = c ∧ f.launch = id ∧ f.lanes = 0 ∧ f.pc = 0
          ∧ f.kind = .none)
        ∧ (s.watching l = false ∨ l.watched < 1024 * l.desc.watchdog → exec (.watchdogExpiry c id) s = .next s))
    ∧ (∀ (s : State) (h : MsgHdr) (id : Word), InTurn s h 8 false → id ≠ BitVec.allOnes 32 →
      (s.launch? h.context id = none → ∃ t, exec (.preempt h id) s = .next t ∧ Answered s t h 0x800000F7 0)
        ∧ ∀ l, s.launch? h.context id = some l → l.ending = none →
          let ks := s.stooks.filter fun k => k.ctx == h.context && k.launch == id
          let total := (ks.filter fun k => k.stopping = 0).foldl (fun n k => n + s.imageSize k) 0
          (ks = [] → ∃ t, exec (.preempt h id) s = .next t ∧ Answered s t h 0 0)
            ∧ (ks ≠ [] → s.spillRoom h.context total = false → ∃ t, exec (.preempt h id) s = .next t ∧ Answered s t h 0x800000F4 0)
            ∧ (ks ≠ [] → s.spillRoom h.context total = true →
                ∃ t, exec (.preempt h id) s = .next t ∧ TurnPassed s t h ∧ t.sent = s.sent ∧ t.launch? h.context id = some { l with held := true }
                  ∧ (∀ k ∈ ks, k.stopping = 0 → { k with stopping := 1, reserve := s.imageSize k } ∈ t.stooks)
                  ∧ t.pending = s.pending ++ [{ hdr := h, cancel := false, launches := [id], count := 0 }]))
    ∧ ∀ (s : State) (h : MsgHdr) (id : Word), InTurn s h 8 false →
      (s.launch? h.context id = none → ∃ t, exec (.restore h id) s = .next t ∧ Answered s t h 0x800000F7 0)
        ∧ ∀ l, s.launch? h.context id = some l →
          (4 ≤ l.state → ∃ t, exec (.restore h id) s = .next t ∧ Answered s t h 0 0)
            ∧ (l.state ≤ 3 → ∃ t, exec (.restore h id) s = .next t
                ∧ t.launch? h.context id = some { l with held := false, saved := l.saved.map fun v => { v with first := true } }
                ∧ .response h.context h.tag 0 (BitVec.ofNat 32 l.saved.length) [] ∈ t.sent)

/-- SUBMIT, CANCEL, QUERY, an unknown TYPE, a missing SEQ. SUBMIT of a descriptor that passes the checks of R353 is
answered with the launch's identifier and queues it; a queue number above 15, a full queue, a wrong VERSION, a
reserved bit and an empty field are answered as R346 and R353 say, and queue nothing. CANCEL marks a launch that has
not ended to end in state 6, its answer to follow; QUERY tells the state. TELEMETRY_QUERY, and a QUERY of the device
as a whole, answer the 71 telemetry entries. An unknown TYPE is answered 0x800000F1, in a context that is not VALID
0x800000F0; a DEBUG, KEYLOAD or FWUPDATE with an OP that is not listed, and a FAULT_ACK of an outstanding fault with
an ACTION that is not, 0x800000F3. A SEQ that stays missing: the lowest-numbered arrived request is answered
0x800000F5 with the missing SEQ, and the turn passes behind it. That DETAIL bit 8 of a QUERY tells of a launch which a
PREEMPT holds alone, where R374 says a saved launch, is log entry 17, the model's choice; so is log entry 83 for the
queue word. Where the spec is silent this rests on log entries 13, 14 and 53, the model's choices too. -/
def Obligations.LaunchMessages : Prop :=
  (∀ (s : State) (h : MsgHdr) (queue : DWord) (desc : BitVec 2048), InTurn s h 264 false →
      let d := parseDesc (leBytes 256 desc.toNat)
      let detail (code : Nat) : Word := BitVec.ofNat 32 (code * 256)
      let full := Config.launchesPerQueue ≤ (s.launches.filter fun l => l.ctx == h.context && l.queue == queue.toNat && l.state ≤ 3).length
      (16 ≤ queue.toNat → queue.toNat < 256 → ∃ t, exec (.submit h queue desc) s = .next t ∧ Answered s t h 0x80000004 0)
        ∧ (256 ≤ queue.toNat → ∃ t, exec (.submit h queue desc) s = .next t ∧ Answered s t h 0x800000F2 0)
        ∧ (queue.toNat < 16 → full → ∃ t, exec (.submit h queue desc) s = .next t ∧ Answered s t h 0x80000001 0)
        ∧ (queue.toNat < 16 → ¬ full →
            (d.version ≠ 1 → ∃ t, exec (.submit h queue desc) s = .next t ∧ Answered s t h 0x80000002 (detail 1))
            ∧ (d.version = 1 → d.reserved = true → ∃ t, exec (.submit h queue desc) s = .next t ∧ Answered s t h 0x80000002 (detail 2))
            ∧ (d.version = 1 → d.reserved = false → d.fieldX = 0 →
                ∃ t, exec (.submit h queue desc) s = .next t ∧ Answered s t h 0x80000002 (detail 3))
            ∧ ∀ (rb cb : List Byte), (d.recCount = 0 ∧ rb = [] ∨ s.nodeRead h.context d.recVa { rd := true } (40 * min d.recCount 63) = .ok rb) →
                (d.cbufCount = 0 ∧ cb = [] ∨ s.nodeRead h.context d.cbufVa { rd := true } (8 * min d.cbufCount 16) = .ok cb) →
                s.refusal h.context d (some (if d.recCount = 0 then [] else parseRecords d rb))
                  (some (if d.cbufCount = 0 then [] else parseCbufs d cb)) = none →
                ∃ t l, exec (.submit h queue desc) s = .next t ∧ t.launches = s.launches ++ [l] ∧ l.ctx = h.context
                  ∧ l.id = BitVec.ofNat 32 (s.ctx h.context).nextId ∧ l.queue = queue.toNat ∧ l.desc = d ∧ l.state = 0 ∧ l.nextStook = 0
                  ∧ (t.ctx h.context).nextId = (s.ctx h.context).nextId + 1 ∧ (t.ctx h.context).seq = h.seq + 1
                  ∧ t.sent = s.sent ++ [.response h.context h.tag l.id 0 []] ∧ ∀ a, t.mem.byte a = s.mem.byte a))
    ∧ (∀ (s : State) (h : MsgHdr) (id : Word), InTurn s h 8 false →
      (s.launch? h.context id = none → ∀ i ∈ [Instr.cancel h id, .query h id], ∃ t, exec i s = .next t ∧ Answered s t h 0x800000F7 0)
        ∧ ∀ l, s.launch? h.context id = some l →
          (4 ≤ l.state → ∃ t, exec (.cancel h id) s = .next t ∧ Answered s t h 0 (BitVec.ofNat 32 l.state))
            ∧ (l.state ≤ 3 → l.recorded = false → l.ending = none → ∃ t, exec (.cancel h id) s = .next t ∧ TurnPassed s t h ∧ t.sent = s.sent
                ∧ t.launch? h.context id = some { l with ending := some 6 }
                ∧ t.pending = s.pending ++ [{ hdr := h, cancel := true, launches := [id], count := 0 }])
            ∧ ∃ t, exec (.query h id) s = .next t ∧ Answered s t h 0 (BitVec.ofNat 32 (
                (if l.held = true ∧ l.saved ≠ [] ∧ l.state ≤ 3 then 256
                 else if l.state = 0 ∧ s.oldestInQueue l = true ∧ s.depsEnded l = false then 1 else l.state)
                + if l.noSnap = true then 512 else 0)))
    ∧ (∀ (s : State) (h : MsgHdr), InTurn s h 8 true →
      (h.context ≠ 255 → ∃ t, exec (.telemetryQuery h) s = .next t ∧ Answered s t h 0x800000F0 0)
        ∧ (h.context = 255 → ∀ i, (i = .telemetryQuery h ∨ ∃ id, i = .query h id) →
            ∃ t data, exec i s = .next t ∧ Answered s.countTelemetry t h 0 0 data ∧ data.length = 568
            ∧ let entry (n : Nat) : Nat := leNat ((data.drop (8 * n)).take 8)
              entry 0 = s.svc.telemSeq % 2 ^ 64 ∧ entry 2 = s.svc.powerMw % 2 ^ 64 ∧ entry 3 = s.svc.clockMHz % 2 ^ 64
              ∧ (∀ n ∈ [4, 8, 9, 10, 11, 12, 13, 14, 16, 17, 18, 19], entry n = (Bank.get s.svc.counters n).toNat)
              ∧ entry 15 = s.svc.quarantined.length % 2 ^ 64))
    ∧ (∀ (s : State) (h : MsgHdr) (type op : Byte) (arg : Word),
      (type.toNat ∉ [0x0a, 0x0b, 0x0c, 0x0d] →
        (InTurn s h h.length true → ∃ t, exec (.unknownMessageType h ⟨type, op, arg⟩) s = .next t ∧ Answered s t h 0x800000F1 0)
          ∧ (s.powered = true → s.svc.heldReset = false → h.seq = (s.ctx h.context).seq → (∀ x ∈ s.transfers, x.hdr.context ≠ h.context) →
              h.context ≠ 255 → (64 ≤ h.context ∨ (s.ctx h.context).valid = false) →
              ((s.ctx h.context).valid = true ∨ ∀ l ∈ s.launches, l.ctx = h.context → 4 ≤ l.state) →
              ∃ t, exec (.unknownMessageType h ⟨type, op, arg⟩) s = .next t ∧ Answered s t h 0x800000F0 0))
        ∧ (InTurn s h 16 false → ∃ t, exec (.unknownMessageType h ⟨0x0a, op, arg⟩) s = .next t ∧ Answered s t h 0x800000F3 0)
        ∧ (InTurn s h 136 false → ∃ t, exec (.unknownMessageType h ⟨0x0b, op, arg⟩) s = .next t ∧ Answered s t h 0x800000F3 0)
        ∧ (InTurn s h h.length true → ∃ t, exec (.unknownMessageType h ⟨0x0c, op, arg⟩) s = .next t ∧ Answered s t h 0x800000F3 0)
        ∧ (InTurn s h 8 false →
            (s.fault? arg = none → ∃ t, exec (.unknownMessageType h ⟨0x0d, op, arg⟩) s = .next t ∧ Answered s t h 0 1)
            ∧ ∀ f, s.fault? arg = some f → f.ctx = h.context → f.reported = true → f.resolved = false →
                ∃ t, exec (.unknownMessageType h ⟨0x0d, op, arg⟩) s = .next t ∧ Answered s t h 0x800000F3 0))
    ∧ ∀ (s : State) (c : Nat) (m : MsgHdr × Instr), s.powered = true → m ∈ s.inbox → m.1.context = c → m.1.seq ≠ (s.ctx c).seq →
      (∀ x ∈ s.inbox, x.1.context = c → x ≠ m → (m.1.seq - (s.ctx c).seq).toNat < (x.1.seq - (s.ctx c).seq).toNat) →
      ∃ t, exec (.seqGapTimeout c) s = .next t ∧ TurnPassed s t m.1 ∧ m ∉ t.inbox
        ∧ t.sent = s.sent ++ [.response c m.1.tag 0x800000F5 (s.ctx c).seq []]
        ∧ (∀ x ∈ s.inbox, x ≠ m → x ∈ t.inbox ∨ x.2 ∈ t.agenda)

/-- MEMREAD, MEMWRITE, the settings block, CTXSET, PEERCFG. MEMREAD and MEMWRITE begin with the first aligned word of
their range, if the word can be performed, and each further execution performs the next: a MEMREAD keeps the bytes, a
MEMWRITE stores them and no other changes; behind the last word the request is answered, a MEMREAD with the bytes,
padded. A byte that cannot be located ends either with its cause and the bytes done before it; a virtual access of the
device as a whole, a malformed block and a LENGTH that does not match are refused; what is written to the non-volatile
tier is answered once it is durable. A write of the settings block that is within the limits takes effect; one that
sets a reserved bit or a CAP outside 3,000 to 6,000 changes nothing. CTXSET writes the context record and drops the
context's TLB entries, or is refused as R350 says. PEERCFG configures the links while nothing is resident. Where the
spec is silent this rests on log entries 12, 15, 16 and 54, the model's choices. -/
def Obligations.MemoryMessages : Prop :=
  (∀ (s : State) (h : MsgHdr) (b : MemBlock) (data : List Byte), InTurn s h h.length true →
      (h.length ≠ 24 → ∃ t, exec (.memread h b) s = .next t ∧ Answered s t h 0x800000F2 0)
        ∧ (h.length ≠ 24 + (b.size.toNat + 7) / 8 * 8 → ∃ t, exec (.memwrite h b data) s = .next t ∧ Answered s t h 0x800000F2 0))
    ∧ (∀ (s : State) (h : MsgHdr) (b : MemBlock), InTurn s h 24 true →
      let n := b.size.toNat
      (blockOk b = false → ∃ t, exec (.memread h b) s = .next t ∧ Answered s t h 0x800000F2 0)
        ∧ (blockOk b = true → b.mode = 0 → h.context = 255 → ∃ t, exec (.memread h b) s = .next t ∧ Answered s t h 0x800000F0 0)
        ∧ (blockOk b = true → h.context < 64 ∨ b.mode = 1 → inSettings h b = false → ∀ (loc : Nat → ByteLoc) (m : Nat) (c : Option Cause),
            (∀ j, j < m → s.msgByte h.context (b.mode.getLsbD 0) false (b.addr.toNat + j) = .ok (loc j) ∧ (loc j).peer = none) →
            (c = none ∧ m = n ∨ ∃ e, c = some e ∧ m < n ∧ s.msgByte h.context (b.mode.getLsbD 0) false (b.addr.toNat + m) = .error e) →
            (∀ e, c = some e → m = 0 → ∃ t, exec (.memread h b) s = .next t ∧ Answered s t h 0x800000F6 (BitVec.ofNat 32 e.code))
              ∧ ∀ w rest, wordRuns ((List.range m).map fun j => (loc j, 0)) = w :: rest → s.deltas = [] → s.wordGoes w = true →
                ∃ t, exec (.memread h b) s = .next t ∧ TurnPassed s t h
                  ∧ Moved s t { hdr := h, req := .memread h b, left := w :: rest, got := [], done := 0, units := [], cause := c } w rest false)
        ∧ (h.context = 255 → b.mode = 1 → b.addr.toNat = 0x800000000000 → n = 64 →
            ∃ t data, exec (.memread h b) s = .next t ∧ Answered s t h 0 0 data ∧ data.length = 64
              ∧ leNat (data.take 2) = s.svc.settings.cap % 2 ^ 13 ∧ leNat ((data.drop 6).take 2) = s.svc.settings.telemMs % 2 ^ 16))
    ∧ (∀ (s : State) (h : MsgHdr) (b : MemBlock) (data : List Byte), InTurn s h (24 + (b.size.toNat + 7) / 8 * 8) true →
      data.length = b.size.toNat →
      (blockOk b = false → ∃ t, exec (.memwrite h b data) s = .next t ∧ Answered s t h 0x800000F2 0)
        ∧ (blockOk b = true → b.mode = 0 → h.context = 255 → ∃ t, exec (.memwrite h b data) s = .next t ∧ Answered s t h 0x800000F0 0)
        ∧ (blockOk b = true → h.context < 64 ∨ b.mode = 1 → inSettings h b = false → ∀ (loc : Nat → ByteLoc) (m : Nat) (c : Option Cause),
            (∀ j, j < m → s.msgByte h.context (b.mode.getLsbD 0) true (b.addr.toNat + j) = .ok (loc j) ∧ (loc j).peer = none) →
            (c = none ∧ m = b.size.toNat
              ∨ ∃ e, c = some e ∧ m < b.size.toNat ∧ s.msgByte h.context (b.mode.getLsbD 0) true (b.addr.toNat + m) = .error e) →
            (∀ e, c = some e → m = 0 → ∃ t, exec (.memwrite h b data) s = .next t ∧ Answered s t h 0x800000F6 (BitVec.ofNat 32 e.code))
              ∧ ∀ w rest, wordRuns (((List.range m).map loc).zip data) = w :: rest → s.deltas = [] → s.locks = [] →
                s.wordGoes w = true → (w.map fun q => q.1.pa).Nodup →
                ∃ t, exec (.memwrite h b data) s = .next t ∧ TurnPassed s t h
                  ∧ Moved s t { hdr := h, req := .memwrite h b data, left := w :: rest, got := [], done := 0, units := [], cause := c } w rest true))
    ∧ (∀ (s : State) (i : Instr) (wr : Bool) (x : Transfer) (w : List (ByteLoc × Byte)) (rest : List (List (ByteLoc × Byte))),
      (∃ b, i = .memread x.hdr b ∧ wr = false ∨ ∃ d, i = .memwrite x.hdr b d ∧ wr = true) → s.powered = true →
      s.transfers.find? (fun y => y.hdr == x.hdr && y.req == i) = some x →
      (x.left = w :: rest → (∀ q ∈ w, q.1.peer = none) → s.deltas = [] → s.locks = [] → s.wordGoes w = true → (w.map fun q => q.1.pa).Nodup →
        ∃ t, exec i s = .next t ∧ Moved s t x w rest wr)
      ∧ (x.left = [] → (∀ n ∈ x.units, s.isVolatile n = false) →
        ∃ t, exec i s = .next t ∧ (∀ y ∈ t.transfers, y.hdr ≠ x.hdr) ∧ t.mem = s.mem ∧ t.sent = s.sent ++ [x.answer]))
    ∧ (∀ (s : State) (h : MsgHdr) (b : MemBlock), InTurn s h 88 true → h.context = 255 → b.mode = 1 → b.addr.toNat = 0x800000000000 →
      b.size.toNat = 64 →
      (∀ c : Settings, 3000 ≤ c.cap → c.cap ≤ 6000 → c.partLog ≤ 4 → (c.telemMs = 0 ∨ (10 ≤ c.telemMs ∧ c.telemMs ≤ 60000)) →
          c.snapPool.length = 16 → c.nvQuota.length = 16 → (∀ x ∈ c.snapPool ++ c.nvQuota, x < 256) →
          c.nvQuota.foldl (fun a b => a + b) 0 ≤ 128 →
          ((∀ x ∈ s.contexts, x.2.valid = false) →
            ∃ t, exec (.settingsWrite h b (leBytes 64 c.pack.toNat)) s = .next t
              ∧ Answered { s with svc := { s.svc with settings := c } } t h 0 0)
          ∧ (∀ x ∈ s.contexts, x.1 ≠ 255 → x.2.valid = true → c.partLog ≠ s.svc.settings.partLog →
            ∃ t, exec (.settingsWrite h b (leBytes 64 c.pack.toNat)) s = .next t ∧ Answered s t h 0x800000F4 0))
        ∧ ∀ x : BitVec 512, x.extractLsb' 13 19 ≠ 0 ∨ x.extractLsb' 64 192 ≠ 0 ∨ (x.extractLsb' 0 13).toNat < 3000
            ∨ 6000 < (x.extractLsb' 0 13).toNat →
          ∃ t, exec (.settingsWrite h b (leBytes 64 x.toNat)) s = .next t ∧ Answered s t h 0x800000F3 0)
    ∧ (∀ (s : State) (h : MsgHdr) (rec : BitVec 512), s.powered = true → s.svc.heldReset = false → h.seq = (s.ctx h.context).seq →
      (∀ x ∈ s.transfers, x.hdr.context ≠ h.context) → h.length = 64 →
      let part := (rec.extractLsb' 128 4).toNat
      let bad := ctxRecordBad rec
      let busy := ∃ l ∈ s.launches, l.ctx = h.context ∧ l.state ≤ 3
      let old := s.ctx h.context
      (h.context = 255 ∨ old.valid = true ∨ ∀ l ∈ s.launches, l.ctx = h.context → 4 ≤ l.state) →
      let moves := (old.valid = true ∧ rec.getLsbD 136 = false) ∨ (rec.extractLsb' 0 64).toNat ≠ old.ptroot ∨ part ≠ old.partition
        ∨ (rec.extractLsb' 192 64).toNat ≠ old.spillVa
      (64 ≤ h.context ∨ 2 ^ s.svc.settings.partLog ≤ part → ∃ t, exec (.ctxset h rec) s = .next t ∧ Answered s t h 0x800000F0 0)
        ∧ (h.context < 64 → part < 2 ^ s.svc.settings.partLog →
            (bad = true → ∃ t, exec (.ctxset h rec) s = .next t ∧ Answered s t h 0x800000F3 0)
            ∧ (bad = false → busy → moves → ∃ t, exec (.ctxset h rec) s = .next t ∧ Answered s t h 0x800000F4 0)
            ∧ (bad = false → ¬ (busy ∧ moves) → ∃ t, exec (.ctxset h rec) s = .next t
                ∧ .response h.context h.tag 0 0 [] ∈ t.sent
                ∧ (t.ctx h.context).valid = rec.getLsbD 136 ∧ (t.ctx h.context).ptroot = (rec.extractLsb' 0 64).toNat
                ∧ (t.ctx h.context).partition = part ∧ (t.ctx h.context).devlaunch = rec.getLsbD 137
                ∧ (t.ctx h.context).debug = rec.getLsbD 138 ∧ (t.ctx h.context).qprio = rec.extractLsb' 144 48
                ∧ (t.ctx h.context).spillVa = (rec.extractLsb' 192 64).toNat ∧ (t.ctx h.context).spillBytes = (rec.extractLsb' 256 64).toNat
                ∧ (t.ctx h.context).seq = h.seq + 1 ∧ (∀ n, n ≠ h.context → t.ctx n = s.ctx n)
                ∧ (∀ c ∈ t.cores, ∀ e ∈ c.tlb, e.ctx ≠ h.context) ∧ (∀ p ∈ t.clusterTlbs, ∀ e ∈ p.2, e.ctx ≠ h.context) ∧ ∀ a, t.mem.byte a = s.mem.byte a)))
    ∧ ∀ (s : State) (h : MsgHdr) (cfg : BitVec 4160), InTurn s h 520 true →
      let bad := h.context ≠ 255 ∨ cfg.extractLsb' 7 25 ≠ 0 ∨ cfg.extractLsb' 44 20 ≠ 0 ∨ cfg.extractLsb' 4144 16 ≠ 0
        ∨ 83 < (cfg.extractLsb' 0 7).toNat
      (bad → ∃ t, exec (.peercfg h cfg) s = .next t ∧ Answered s t h 0x800000F3 0)
        ∧ (¬ bad → s.stooks ≠ [] → ∃ t, exec (.peercfg h cfg) s = .next t ∧ Answered s t h 0x800000F4 0)
        ∧ (¬ bad → s.stooks = [] → ∃ t, exec (.peercfg h cfg) s = .next t ∧ t.svc.devid = (cfg.extractLsb' 0 7).toNat
            ∧ t.svc.domain = (cfg.extractLsb' 32 12).toNat ∧ t.svc.enable = (cfg.extractLsb' 64 48).toNat
            ∧ (∀ p, p < 84 → (assoc? t.svc.routes p).getD 0 = (cfg.extractLsb' (112 + 48 * p) 48).toNat)
            ∧ (∀ n, n < 48 → ∃ l, t.svc.links.find? (fun l => l.num == n) = some l ∧ l.up = cfg.getLsbD (64 + n))
            ∧ .response h.context h.tag 0 0 [] ∈ t.sent ∧ t.mem = s.mem)

/-- The six DEBUG messages. In a context without DEBUG each is refused; one of a launch never assigned is answered
0x800000F7. SETBP and CLRBP hold and remove a breakpoint, with the answers to the edge cases. STOPALL asks a resident
stook to stop. RELEASE and STEP let the stopped lanes of a sheaf, or of the stook, go on behind their words, single-
stepped or not. DUMP writes the image of a stopped stook, beginning with its MAGIC, and the stook stays; it is refused
while a path runs, at an unaligned offset and without room. Where the spec is silent this rests on log entries 16 and
23, the model's choices. -/
def Obligations.DebugMessages : Prop :=
  (∀ (s : State) (h : MsgHdr) (id a b : Word), InTurn s h 16 false →
      let all := [Instr.setbp h id a b, .clrbp h id a b, .stopall h id a b, .release h id a b, .step h id a b, .dump h id a b]
      ((s.ctx h.context).debug = false → ∀ i ∈ all, ∃ t, exec i s = .next t ∧ Answered s t h 0x800000F3 0)
        ∧ ((s.ctx h.context).debug = true → s.launch? h.context id = none → ∀ i ∈ all, ∃ t, exec i s = .next t ∧ Answered s t h 0x800000F7 0)
        ∧ ∀ l, (s.ctx h.context).debug = true → s.launch? h.context id = some l →
          (l.desc.codeWords ≤ a.toNat → ∃ t, exec (.setbp h id a b) s = .next t ∧ Answered s t h 0x800000F3 3)
            ∧ (a.toNat < l.desc.codeWords → a ∈ l.breakpoints → ∃ t, exec (.setbp h id a b) s = .next t ∧ Answered s t h 0 2)
            ∧ (a.toNat < l.desc.codeWords → a ∉ l.breakpoints → 8 ≤ l.breakpoints.length →
                ∃ t, exec (.setbp h id a b) s = .next t ∧ Answered s t h 0x800000F3 1)
            ∧ (a.toNat < l.desc.codeWords → a ∉ l.breakpoints → l.breakpoints.length < 8 →
                ∃ t, exec (.setbp h id a b) s = .next t ∧ t.launch? h.context id = some { l with breakpoints := l.breakpoints ++ [a] }
                  ∧ t.sent = s.sent ++ [.response h.context h.tag 0 0 []] ∧ TurnPassed s t h)
            ∧ (a ∉ l.breakpoints → ∃ t, exec (.clrbp h id a b) s = .next t ∧ Answered s t h 0 1)
            ∧ (a ∈ l.breakpoints → ∃ t m, exec (.clrbp h id a b) s = .next t ∧ t.launch? h.context id = some m ∧ a ∉ m.breakpoints
                ∧ (∀ x, x ≠ a → (x ∈ m.breakpoints ↔ x ∈ l.breakpoints)) ∧ t.sent = s.sent ++ [.response h.context h.tag 0 0 []]
                ∧ TurnPassed s t h)
            ∧ (s.debugStook h.context id a = none → ∀ i ∈ [Instr.stopall h id a b, .release h id a b, .step h id a b, .dump h id a b],
                ∃ t, exec i s = .next t ∧ Answered s t h 0x800000F3 0))
    ∧ ∀ (s : State) (h : MsgHdr) (id a b : Word) (l : Launch) (k : Stook), InTurn s h 16 false → (s.ctx h.context).debug = true →
      s.launch? h.context id = some l → s.debugStook h.context id a = some k → s.stook? k.uid = some k →
      (∃ t, exec (.stopall h id a b) s = .next t ∧ t.stook? k.uid = some { k with stopAll := true }
          ∧ (∀ v, v ≠ k.uid → t.stook? v = s.stook? v) ∧ t.sent = s.sent ++ [.response h.context h.tag 0 0 []] ∧ t.mem = s.mem)
        ∧ (b ≠ BitVec.allOnes 32 → k.sheaves.length ≤ b.toNat → ∀ i ∈ [Instr.release h id a b, .step h id a b],
            ∃ t, exec i s = .next t ∧ Answered s t h 0x800000F3 0)
        ∧ (∀ (single : Bool) (n m : Nat) (g : Stop), n < k.sheaves.length → m < 32 → m < (k.sheaf n).lanes.length →
            (b = BitVec.ofNat 32 n ∧ n < 32 ∨ b = BitVec.allOnes 32) →
            let x := (k.sheaf n).lane m
            x.stop = some g → g.cause ≠ .xlateMiss → x.exitIssued = false →
            ∃ t, exec (if single then .step h id a b else .release h id a b) s = .next t
              ∧ .response h.context h.tag 0 0 [] ∈ t.sent
              ∧ (let y := (t.sheafAt k.uid n).lane m
                 y.stop = none ∧ y.pc = g.resume ∧ y.latches = [] ∧ y.tx = x.tx ∧ y.stepping = single ∧ y.credit = single)
              ∧ (b = BitVec.allOnes 32 → (t.stook? k.uid).any (fun k => !k.stopAll) = true)
              ∧ (∀ r c, (t.sheafAt k.uid n).rv r c = (s.sheafAt k.uid n).rv r c) ∧ t.mem = s.mem)
        ∧ (k.allStopped = false → ∃ t, exec (.dump h id a b) s = .next t ∧ Answered s t h 0x800000F4 0)
        ∧ (k.allStopped = true → b.toNat % 65536 ≠ 0 ∨ (s.ctx h.context).spillBytes < b.toNat + s.imageSize k →
            ∃ t, exec (.dump h id a b) s = .next t ∧ Answered s t h 0x800000F3 0)
        ∧ (k.allStopped = true → b.toNat % 65536 = 0 → b.toNat + s.imageSize k ≤ (s.ctx h.context).spillBytes →
            s.deltas = [] → ∀ loc : Nat → ByteLoc,
            let image := s.imageOf k
            (∀ j, j < image.length → s.nodeLocate h.context ((s.ctx h.context).spillVa + b.toNat + j) { wr := true } = .ok (loc j)
              ∧ (loc j).peer = none) →
            ((List.range image.length).map fun j => (loc j).pa).Nodup →
            ∃ t, exec (.dump h id a b) s = .next t ∧ t.stooks.map Stook.uid = s.stooks.map Stook.uid
              ∧ t.sent = s.sent ++ [.response h.context h.tag 0 0 []]
              ∧ image.take 4 = leBytes 4 0x4D495653 ∧ (image.drop 8).take 8 = leBytes 4 id.toNat ++ leBytes 4 a.toNat
              ∧ (∀ j, j < image.length → t.mem.byte (loc j).pa = image.getD j 0)
              ∧ ∀ v, (∀ j, j < image.length → v ≠ (loc j).pa) → t.mem.byte v = s.mem.byte v)

/-- KEYLOAD, the firmware banks and ATTEST. KEYLOAD of slot 0 or above 127, or with a reserved bit, and of a slot that
a resident or saved launch maps, is refused; a wrap that fails is answered 0x80000002 with DETAIL 1 and installs
nothing; otherwise the slot holds the unwrapped key for the sending context alone, or no key, and no cache holds a
line that was written under the old one. FWUPDATE and ATTEST with a CONTEXT other than 0xFF are refused whatever their
LENGTH, and with 0xFF and another LENGTH; BEGIN clears the inactive bank, DATA writes its bytes there, COMMIT marks a
bank that verifies as pending or says what fails; the running bank keeps its bytes. ATTEST answers a report of 376
bytes with its MAGIC, the nonce, the device's key, the digest and the SVN of the running image, the fused SVN, the
loaded slots and the partitions at their offsets, and changes nothing. The cryptographic functions are uninterpreted.
Where the spec is silent this rests on log entries 16, 24 and 41, the model's choices. -/
def Obligations.SecurityMessages : Prop :=
  (∀ (s : State) (h : MsgHdr) (slot : Byte) (rsv : BitVec 48) (epk : BitVec 448) (wkey : BitVec 576), InTurn s h 136 false →
      (s.contexts.map Prod.fst).Nodup →
      let load : Instr := .keyloadLoad h slot rsv epk wkey
      let erase : Instr := .keyloadErase h slot rsv epk wkey
      let others (t : State) : Prop := ∀ n c, n ≠ slot.toNat → t.keyLoaded c n = s.keyLoaded c n ∧ t.keyBytes n = s.keyBytes n
      let idle : Prop := s.deltas = [] ∧ ∀ c ∈ s.cores, ∀ q ∈ c.stores, ∀ b ∈ q.locs, b.key ≠ slot.toNat
      let dropped (t : State) : Prop := idle → t.mem = s.mem ∧ (s.keyBytes slot.toNat ≠ [] → ∀ p ∈ s.lineKeys, p.2 = s.keyBytes slot.toNat →
        (∀ c ∈ t.cores, ∀ b ∈ c.cache, b.line ≠ p.1) ∧ ∀ d ∈ t.dies, ∀ b ∈ d.cache, b.line ≠ p.1)
      (slot = 0 ∨ 128 ≤ slot.toNat ∨ rsv ≠ 0 → ∀ i ∈ [load, erase], ∃ t, exec i s = .next t ∧ Answered s t h 0x800000F3 0)
        ∧ (slot ≠ 0 → slot.toNat < 128 → rsv = 0 →
            (s.slotInUse slot.toNat = true → (∃ t, exec load s = .next t ∧ Answered s t h 0x800000F4 0)
              ∧ (epk = 0 → wkey = 0 → ∃ t, exec erase s = .next t ∧ Answered s t h 0x800000F4 0))
            ∧ (s.slotInUse slot.toNat = false →
                (unwrapKey slot epk wkey = none → ∃ t, exec load s = .next t ∧ Answered s t h 0x80000002 1)
                ∧ (∀ key, unwrapKey slot epk wkey = some key → ∃ t, exec load s = .next t ∧ .response h.context h.tag 0 0 [] ∈ t.sent
                    ∧ t.keyBytes slot.toNat = key ∧ (∀ c, t.keyLoaded c slot.toNat = true ↔ c = h.context) ∧ others t ∧ dropped t)
                ∧ (epk = 0 → wkey = 0 → ∃ t, exec erase s = .next t ∧ .response h.context h.tag 0 0 [] ∈ t.sent
                    ∧ (∀ c, t.keyLoaded c slot.toNat = false) ∧ others t ∧ dropped t))))
    ∧ (∀ (s : State) (h : MsgHdr) (x : DWord) (data : List Byte) (nonce : BitVec 256), s.powered = true → h.seq = (s.ctx h.context).seq →
      (∀ x ∈ s.transfers, x.hdr.context ≠ h.context) → h.context ≠ 255 →
      ((s.ctx h.context).valid = true ∨ ∀ l ∈ s.launches, l.ctx = h.context → 4 ≤ l.state) →
      ∀ i ∈ [Instr.fwupdateBegin h x, .fwupdateData h x data, .fwupdateCommit h, .attest h nonce],
        ∃ t, exec i s = .next t ∧ Answered s t h 0x800000F3 0)
    ∧ ∀ (s : State) (h : MsgHdr), s.powered = true → h.seq = (s.ctx h.context).seq →
      (∀ x ∈ s.transfers, x.hdr.context ≠ h.context) → h.context = 255 → s.svc.banks.length = 2 →
      s.svc.running < 2 →
      let spare := 1 - s.svc.running
      let image := s.svc.bank spare
      let signed := Config.ed448Verify (image.take 0x50) ((image.drop 0x50).take 114)
      let whole := padTo 64 ((image.drop 0x10).take 64) = Config.shake256 ((image.drop 256).take (fieldAt image 0xc 4)) 64
      (∀ (x : DWord) (data : List Byte) (nonce : BitVec 256),
        ∀ i ∈ [(Instr.fwupdateBegin h x, 16), (.fwupdateData h x data, 16 + data.length), (.fwupdateCommit h, 8), (.attest h nonce, 40)],
        h.length ≠ i.2 → ∃ t, exec i.1 s = .next t ∧ Answered s t h 0x800000F2 0)
        ∧ (∀ x : DWord, h.length = 16 → x.toNat < 2 ^ 32 → ∃ t, exec (.fwupdateBegin h x) s = .next t ∧ t.svc.bank spare = []
          ∧ t.svc.bank s.svc.running = s.svc.bank s.svc.running ∧ t.svc.pendingBank = none ∧ t.svc.running = s.svc.running
          ∧ .response 255 h.tag 0 0 [] ∈ t.sent)
        ∧ (∀ (x : DWord) (data : List Byte), h.length = 16 + data.length → x.toNat < 2 ^ 32 →
            ∃ t, exec (.fwupdateData h x data) s = .next t ∧ ((t.svc.bank spare).drop x.toNat).take data.length = data
              ∧ (∀ j, j < x.toNat ∨ x.toNat + data.length ≤ j → (t.svc.bank spare).getD j 0 = image.getD j 0)
              ∧ t.svc.bank s.svc.running = s.svc.bank s.svc.running ∧ t.svc.running = s.svc.running ∧ .response 255 h.tag 0 0 [] ∈ t.sent)
        ∧ (h.length = 8 →
            (signed = false → ∃ t, exec (.fwupdateCommit h) s = .next t ∧ Answered s t h 0x80000002 1)
            ∧ (signed = true → ¬ whole → ∃ t, exec (.fwupdateCommit h) s = .next t ∧ Answered s t h 0x80000002 2)
            ∧ (signed = true → whole → fieldAt image 8 4 < s.svc.fusedSvn →
                ∃ t, exec (.fwupdateCommit h) s = .next t ∧ Answered s t h 0x80000002 3)
            ∧ (signed = true → whole → s.svc.fusedSvn ≤ fieldAt image 8 4 → ∃ t, exec (.fwupdateCommit h) s = .next t
                ∧ Answered { s with svc := { s.svc with pendingBank := some spare } } t h 0 0))
        ∧ (h.length = 40 → ∀ nonce : BitVec 256, ∃ t data, exec (.attest h nonce) s = .next t ∧ Answered s t h 0 0 data
            ∧ data.length = 376 ∧ data.take 8 = leBytes 4 0x5441535A ++ leBytes 2 1 ++ leBytes 2 0
            ∧ (data.drop 8).take 32 = leBytes 32 nonce.toNat
            ∧ (data.drop 0x28).take 57 = fixTo 57 Config.identityKey ∧ (data.drop 0x68).take 56 = fixTo 56 Config.devicePublicKey
            ∧ (data.drop 0xA0).take 64 = fixTo 64 (fwDigest (s.svc.bank s.svc.running))
            ∧ (data.drop 0xE0).take 4 = leBytes 4 (fwSvn (s.svc.bank s.svc.running)) ∧ (data.drop 0xE4).take 4 = leBytes 4 s.svc.fusedSvn
            ∧ (data.drop 0xF8).take 1 = leBytes 1 (2 ^ s.svc.settings.partLog))

/-- Power windows move the clock, loss of power leaves what is durable, power-up boots a bank that passes and
recovers. POWER_WINDOW moves two demands, of power and of heat, as R395 says, and the clock follows the lower.
POWER_LOSS and THERMAL_TRIP leave no power, no context, no launch and nothing in DRAM; with the buffers drained and
nothing volatile NV and the completion records are as they were; a write that had reached no buffer is lost, and a
byte that no staged write lies on stays in any case. A temperature in its limits changes nothing. POWER_UP verifies
the pending bank, or else the one that ran, and then the other: the first that passes boots and raises the fused SVN
to its own; it rolls back a snapshot whose launch's record did not persist, with the keys and the poison of its lines,
keeps one whose did, and reports. With no bank that passes the device is held in reset and sends nothing. Where the
spec is silent this rests on log entries 25 and 26, the model's choices. -/
def Obligations.PowerStates : Prop :=
  (∀ (s : State) (mw mdeg : Nat), s.powered = true → s.svc.heldReset = false →
      let moves (above below : Prop) (mhz n mhz' n' : Nat) : Prop := (above → mhz' = max 300 (mhz - 25) ∧ n' = 0)
        ∧ (¬ above → ¬ below → mhz' = mhz ∧ n' = 0) ∧ (¬ above → below → n < 99 → mhz' = mhz ∧ n' = n + 1)
        ∧ (¬ above → below → 99 ≤ n → mhz' = min 600 (mhz + 25) ∧ n' = 0)
      ∃ t, exec (.powerWindow mw mdeg) s = .next t ∧ t = { s with svc := t.svc } ∧ t.svc.powerMw = mw ∧ t.svc.hottest = mdeg
        ∧ moves (s.svc.settings.cap * 1000 < mw) (mw < (s.svc.settings.cap - 200) * 1000) s.svc.powerMHz s.svc.coolWindows t.svc.powerMHz
            t.svc.coolWindows
        ∧ moves (100000 < mdeg) (mdeg ≤ 100000) s.svc.heatMHz s.svc.mildWindows t.svc.heatMHz t.svc.mildWindows
        ∧ t.svc.clockMHz = min t.svc.powerMHz t.svc.heatMHz
        ∧ (t.svc.clockMHz < s.svc.clockMHz → Bank.get t.svc.counters 4 = Bank.get s.svc.counters 4 + 1)
        ∧ (s.svc.clockMHz ≤ t.svc.clockMHz → t.svc.counters = s.svc.counters))
    ∧ (∀ (s : State) (drained : Bool), s.powered = true →
      let outside (a : Nat) (x : Staged) : Prop := a < x.pa ∨ x.pa + x.media.length ≤ a
      let off (t : State) : Prop := t.powered = false ∧ t.contexts = [] ∧ t.launches = [] ∧ t.stooks = [] ∧ t.staging = [] ∧ t.volatile = []
        ∧ t.svc.keys = [] ∧ t.svc.settings = Settings.reset ∧ t.snapshots = s.snapshots.filter (fun x => x.la && x.durable)
        ∧ t.svc.banks = s.svc.banks ∧ t.svc.running = s.svc.running ∧ t.svc.fusedSvn = s.svc.fusedSvn ∧ t.svc.heldReset = s.svc.heldReset
        ∧ t.svc.poison = s.svc.poison ∧ t.svc.quarantined = s.svc.quarantined
        ∧ (∀ a, a < 2 ^ 41 → t.mem.byte a = 0)
        ∧ (t.svc.holdupOk = true → s.volatile = [] → t.completions = s.completions ∧ ∀ a, 2 ^ 41 ≤ a → t.mem.byte a = s.mem.byte a)
        ∧ (∀ a, 2 ^ 41 ≤ a → (∀ x ∈ s.staging, outside a x) → t.mem.byte a = s.mem.byte a)
        ∧ (t.svc.holdupOk = true → ∀ x ∈ s.staging, ∀ b, s.isVolatile x.unit = true → x.record = none → x.media = [b] → 2 ^ 41 ≤ x.pa →
            (∀ y ∈ s.staging, y ≠ x → y.pa ≠ x.pa ∧ outside x.pa y) → t.mem.byte x.pa = b)
      (∃ t, exec (.powerLoss drained) s = .next t ∧ off t ∧ t.svc.holdupOk = drained ∧ t.svc.thermalTrip = false)
        ∧ ∀ die mdeg, (die < 16 → 110000 < mdeg → ∃ t, exec (.thermalTrip die mdeg) s = .next t ∧ off t ∧ t.svc.thermalTrip = true)
          ∧ (mdeg ≤ 110000 → exec (.thermalTrip die mdeg) s = .next s))
    ∧ ∀ (s : State) (ok : Bool), s.powered = false →
      let first := s.svc.pendingBank.getD s.svc.running
      let passes (n : Nat) : Prop := s.svc.bankFault (s.svc.bank n) = none
      let boots (n : Nat) : Prop := ∃ t, exec (.powerUp ok) s = .next t ∧ t.powered = true ∧ t.svc.running = n ∧ t.svc.pendingBank = none
        ∧ t.svc.heldReset = false ∧ t.svc.fusedSvn = max s.svc.fusedSvn (fwSvn (s.svc.bank n)) ∧ t.svc.stagingShare = !ok ∧ t.snapshots = []
        ∧ (∃ es, t.sent = s.sent ++ [.recoveryReport es] ∧ es.length = 64)
        ∧ ∀ x, s.snapshots = [x] →
          let done := ∃ c, assoc? s.completions x.ctx = some c ∧ c.valid = true ∧ x.seq ≤ c.seq
          (done → t.mem = s.mem ∧ t.lineKeys = s.lineKeys ∧ t.svc.poison = s.svc.poison)
            ∧ (¬ done → (∀ c ∈ x.old, c.1 / 65536 = x.granule) → Bank.wf x.old = true →
                (∀ a, t.mem.byte a = if a / 65536 = x.granule then Bank.get x.old a else s.mem.byte a)
                ∧ (∀ p, p ∈ t.lineKeys ↔ p ∈ x.keys ∨ (p ∈ s.lineKeys ∧ p.1 / 1024 ≠ x.granule))
                ∧ ∀ l, l ∈ t.svc.poison ↔ l ∈ x.poison ∨ (l ∈ s.svc.poison ∧ l / 1024 ≠ x.granule))
      (passes first → boots first) ∧ (¬ passes first → passes (1 - first) → boots (1 - first))
        ∧ (¬ passes first → ¬ passes (1 - first) →
          exec (.powerUp ok) s = .next { s with powered := true, svc := { s.svc with heldReset := true } })

/-- The staging buffers drain unit by unit, a snapshot holds its granule, a completion record is written before its
launch ends. STAGING_DRAIN lets the oldest unit that stands in a stack's buffer reach the media, and no other.
LA_SNAPSHOT and GRANULE_SNAPSHOT: a snapshot that a write of the launch waits for takes the granule's bytes, the keys
and the poison of its lines, and a frame of the partition's pool where one needs it; a full pool leaves it out and
marks the launch; one that nothing waits for changes nothing. LA_COMPLETION_RECORD of a launch-atomic launch with
nothing left to do and nothing volatile, whose turn it is and whose record has room, writes the record to its stack's
buffer; while a write of it is volatile or the record has no room it waits; the next execution releases the snapshots
and the launch has completed. No memory changes. Where the spec is silent this rests on log entry 26, the model's
choice. -/
def Obligations.StorageEvents : Prop :=
  (∀ (s : State) (stack : Nat), s.powered = true → ∃ t, exec (.stagingDrain stack) s = .next t ∧ t = { s with staging := t.staging }
      ∧ (∀ x ∈ t.staging, x ∈ s.staging)
      ∧ ((∀ x ∈ s.staging, x.stack = stack → s.isVolatile x.unit = true) → t = s)
      ∧ ∀ x, s.staging.find? (fun x => x.stack == stack && !s.isVolatile x.unit) = some x →
        (∀ y ∈ t.staging, y.stack ≠ stack ∨ y.unit ≠ x.unit) ∧ ∀ y ∈ s.staging, y.stack ≠ stack ∨ y.unit ≠ x.unit → y ∈ t.staging)
    ∧ (∀ (s : State) (c : Nat) (id : Word) (g : Nat) (la : Bool) (l : Launch), s.powered = true → s.launch? c id = some l →
      let i : Instr := if la then .laSnapshot c id g else .granuleSnapshot c id g
      (s.snapWanted c id g la = false → exec i s = .next s)
        ∧ (s.snapWanted c id g la = true → la = true ∨ 2 ^ 40 ≤ g * 65536 ∨ s.snapRoom c = true →
            ∃ t x, exec i s = .next t ∧ t = { s with snapshots := (s.snapshots.filter fun y =>
                !(y.claim && y.granule == g && y.ctx == c && y.launch == id)) ++ [x] }
              ∧ x.granule = g ∧ x.ctx = c ∧ x.launch = id ∧ x.la = la
              ∧ x.durable = la ∧ x.used = false ∧ x.seq = l.seqLa.getD 0 ∧ (∀ a, a / 65536 = g → Bank.get x.old a = s.mem.byte a)
              ∧ (∀ p, p ∈ x.keys ↔ p ∈ s.lineKeys ∧ p.1 / 1024 = g) ∧ (∀ n, n ∈ x.poison ↔ n ∈ s.svc.poison ∧ n / 1024 = g)
              ∧ x.frame = if la = false ∧ g * 65536 < 2 ^ 40 then s.poolFrame c else none)
        ∧ (s.snapWanted c id g la = true → la = false → g * 65536 < 2 ^ 40 → s.snapRoom c = false →
            ∃ t, exec i s = .next t ∧ t.snapshots = s.snapshots ∧ t.launch? c id = some { l with noSnap := true }))
    ∧ ∀ (s : State) (c : Nat) (id : Word) (l : Launch), s.powered = true → s.launch? c id = some l → l.desc.la = true → l.state = 3 →
      (l.recorded = false → s.allDone l = true → s.deltas = [] →
        (∀ x ∈ s.launches, x.ctx = c → x.state ≤ 3 → x.recorded = false → x.id ≠ id → ∀ q, x.seqLa = some q → l.seqLa.getD 0 ≤ q) →
        let late := s.volatile.any fun v => v.of c id
        (late = false → s.stagingRoom (c % 4) 16 = true →
          ∃ t r, exec (.laCompletionRecord c id) s = .next t ∧ t.launch? c id = some { l with recorded := true }
            ∧ assoc? t.completions c = some { seq := l.seqLa.getD 0, launch := id, valid := true }
            ∧ t.staging = s.staging ++ [r] ∧ r.stack = c % 4 ∧ t.snapshots = s.snapshots ∧ t.sent = s.sent ∧ t.mem = s.mem)
          ∧ (late = true ∨ s.stagingRoom (c % 4) 16 = false → exec (.laCompletionRecord c id) s = .next s))
        ∧ (l.recorded = true → l.avoid = [] →
          ∃ t m, exec (.laCompletionRecord c id) s = .next t ∧ t.launch? c id = some m ∧ m.state = 4
            ∧ (∀ x ∈ t.snapshots, x.ctx ≠ c ∨ x.launch ≠ id) ∧ (l.desc.notify = true → .done c id 4 ∈ t.sent)
            ∧ t.completions = s.completions ∧ t.mem = s.mem)

/-- Comparing twins and samples, scrubbing, background work, telemetry, the links. WATERMARK_COMPARE of twins that are
both compared: equal windows let the primary's held stores go and begin a new window in both, and at the end of both
the twins go; windows that differ, and TWIN_TIMEOUT, are a WATERMARK error, which a launch replays. A second run that
comes to a word it must not execute has the verdict abandoned, and the word does nothing. SAMPLE_CHECK records a
verdict of its second run that agrees or is abandoned; after a difference it runs a stook of an uncontained launch
once more, with the clusters of both runs named, and ends in SAMPLE_MISMATCH else, which ends the context of an
uncontained launch and is replayed by a contained one; a verdict no run has given changes nothing. SCRUB counts and
retires what it finds, a frame of DRAM only where its stack has a spare left, a cluster after a lasting error of its
memory. CALIBRATION changes nothing, NV_WEAR_MANAGEMENT the gauge alone. TELEMETRY_TICK sends the entries, unless
telemetry is off. In fail-over mode a failed port gives way to the other; retransmissions and retrains are counted; a
link that is down stays down. Where the spec is silent this rests on log entries 18, 27, 28, 73, 85 and 86, the
model's choices. -/
def Obligations.IntegrityAndLinks : Prop :=
  (∀ (s : State) (u v : Nat) (k kt : Stook), s.powered = true → s.stook? u = some k → s.stook? v = some kt → u ≠ v → k.secondary = false →
      k.twin = some v → kt.twin = some u → s.comparing k = true → s.comparing kt = true →
      let equal := k.window = kt.window ∧ k.windowStores = kt.windowStores
      (equal → k.full = kt.full → k.atEnd = false → kt.atEnd = false →
        ∃ t, exec (.watermarkCompare u v) s = .next t ∧ (t.core k.core).stores = (s.core k.core).stores ++ k.heldStores
          ∧ (∀ x, x ≠ k.core → t.core x = s.core x)
          ∧ (∀ p ∈ [(u, k), (v, kt)], ∃ y, t.stook? p.1 = some y ∧ y = { p.2 with
              window := 0, windowStores := 0, heldStores := [], passPoint := p.2.passPoint || (p.2.atPoint && p.2.drained) })
          ∧ t.mem = s.mem)
        ∧ (equal → k.atEnd = true → kt.atEnd = true → ∃ t, exec (.watermarkCompare u v) s = .next t ∧ t.stook? u = none ∧ t.stook? v = none)
        ∧ ∀ l, s.launch? k.ctx k.launch = some l → l.running = true → l.ending = none → l.desc.contain = 2 → l.noSnap = false →
          l.recorded = false → l.attempts = 0 → l.peerWritten = false → ¬ (k.atEnd = true ∧ kt.atEnd = true) →
          ¬ (equal ∧ k.full = kt.full ∧ k.atEnd = kt.atEnd) →
          ∃ t, exec (.watermarkCompare u v) s = .next t ∧ Replays t k.ctx k.launch .watermark ∧ t.mem = s.mem)
    ∧ (∀ (s : State) (u v : Nat) (k kt : Stook) (l : Launch), s.powered = true → s.stook? u = some k → k.twin = some v → s.stook? v = some kt →
      (s.comparing k = true → s.comparing kt = false → s.launch? k.ctx k.launch = some l → l.running = true → l.ending = none →
        l.desc.contain = 2 → l.noSnap = false → l.recorded = false → l.attempts = 0 → l.peerWritten = false →
        ∃ t, exec (.twinTimeout u) s = .next t ∧ Replays t k.ctx k.launch .watermark)
        ∧ (s.comparing k = false ∨ s.comparing kt = true → exec (.twinTimeout u) s = .next s))
    ∧ (∀ (s : State) (p : Focus) (k : Stook) (l : Launch) (i : Instr), AtWord s p k → i.isWord = true →
      issueCheck i k (k.sheaf p.sheaf) p.lanes = none → ownOk i k (k.sheaf p.sheaf) = true →
      (∀ n, p.lanes.getLsbD n = true → ((k.sheaf p.sheaf).lane n).tx.depth = 0) → k.rerun.isSome = true → endsRerun i = true →
      s.launch? k.ctx k.launch = some l → (∀ x ∈ l.verdicts, x.1 ≠ k.stookId) →
      ∃ t, exec i s = .next t ∧ t.launch? k.ctx k.launch = some { l with verdicts := l.verdicts ++ [(k.stookId, .abandoned, k.core)] }
        ∧ t = { s with focus := none, launches := t.launches })
    ∧ (∀ (s : State) (c : Nat) (id st : Word) (l : Launch) (d : DWord) (n core core2 : Nat) (w v : SampleVerdict), s.powered = true →
      s.launch? c id = some l → l.digests.find? (fun x => x.1 == st) = some (st, d, n, core) → l.state ≤ 3 → l.ending = none →
      l.desc.sampled st.toNat = true → st ∉ l.checked → l.verdicts.find? (fun x => x.1 == st) = some (st, w, core2) →
      (∀ k ∈ s.stooks, k.ctx = c → k.launch = id → k.stookId = st → k.rerun = none) →
      let left := l.verdicts.filter fun x => x.1 != st
      let agrees := w = .abandoned ∨ w = .ran d n
      (v ≠ w → exec (.sampleCheck c id st v) s = .next s)
        ∧ (agrees → v = w → ∃ t, exec (.sampleCheck c id st v) s = .next t ∧ t = { s with launches := t.launches, svc := t.svc }
            ∧ t.launch? c id = some { l with checked := l.checked ++ [st], verdicts := left }
            ∧ Bank.get t.svc.counters 17 = Bank.get s.svc.counters 17 + if w = .abandoned then 1 else 0)
        ∧ (¬ agrees → v = w → l.desc.contain = 0 → st ∉ l.rerun → ∃ t m, exec (.sampleCheck c id st v) s = .next t
            ∧ t = { s with launches := t.launches } ∧ t.launch? c id = some m
            ∧ m = { l with verdicts := left, rerun := l.rerun ++ [st], avoid := m.avoid } ∧ clusterOf core ∈ m.avoid ∧ clusterOf core2 ∈ m.avoid)
        ∧ (¬ agrees → v = w → l.desc.contain = 0 → st ∈ l.rerun → l.running = true → ∃ t m, exec (.sampleCheck c id st v) s = .next t
            ∧ t.launch? c id = some m ∧ m.ending = (if l.recorded then none else some 7) ∧ (t.ctx c).valid = false
            ∧ ∃ f : FaultRec, Post.faultReport f.pack ∈ t.sent ∧ f.cause = .sampleMismatch ∧ f.detail = 0)
        ∧ (¬ agrees → v = w → l.desc.contain ≠ 0 → l.noSnap = false → l.attempts = 0 → l.peerWritten = false → l.running = true →
            l.recorded = false → ∃ t, exec (.sampleCheck c id st v) s = .next t ∧ Replays t c id .sampleMismatch))
    ∧ (∀ (s : State) (c : Nat) (id st : Word) (l : Launch) (d : DWord) (n core : Nat), s.powered = true → s.launch? c id = some l →
      l.digests.find? (fun x => x.1 == st) = some (st, d, n, core) → l.state ≤ 3 → l.ending = none → l.desc.sampled st.toNat = true →
      st ∉ l.checked → (∀ x ∈ l.verdicts, x.1 ≠ st) →
      let run (k : Stook) : Prop := k ∈ s.stooks ∧ k.ctx = c ∧ k.launch = id ∧ k.stookId = st ∧ k.rerun.isSome = true
      (∀ d' n', exec (.sampleCheck c id st (.ran d' n')) s = .next s)
        ∧ ((∀ k, run k → k.heldStores = []) → exec (.sampleCheck c id st .abandoned) s = .next s)
        ∧ ∀ k, run k → k.heldStores ≠ [] → ∃ t m, exec (.sampleCheck c id st .abandoned) s = .next t ∧ t.launch? c id = some m ∧ st ∈ m.checked
            ∧ Bank.get t.svc.counters 17 = Bank.get s.svc.counters 17 + 1 ∧ t.mem = s.mem)
    ∧ (∀ (s : State) (pa : Nat) (r : SectorRead), s.powered = true → inDram pa = true ∨ inNv pa = true →
      let counter (t : State) (n : Nat) : DWord := Bank.get t.svc.counters n - Bank.get s.svc.counters n
      ∃ t, exec (.scrub pa r) s = .next t ∧ t = { s with svc := t.svc }
        ∧ (r = .good → t = s) ∧ (r = .corrected → counter t 8 = 1) ∧ (r = .eccTransient ∨ r = .sramTransient → counter t 9 = 1)
        ∧ (r = .eccLasting → pa / 64 ∈ t.svc.poison ∧ counter t 10 = 1
            ∧ (pa < 2 ^ 40 → let n := pa / 4096 % 16
                let used := (s.svc.remapped.filter fun f => f < 2 ^ 24 && f / 2 ^ 20 = n).length
                (used < Config.spareFrames n → n * 2 ^ 20 + pa / 2 ^ 20 ∈ t.svc.remapped ∧ counter t 11 = 1)
                  ∧ (Config.spareFrames n ≤ used → t.svc.remapped = s.svc.remapped ∧ counter t 11 = 0))
            ∧ (2 ^ 41 ≤ pa → pa / 65536 ∈ t.svc.remapped ∧ counter t 12 = 1))
        ∧ (r = .integrityTransient ∨ r = .integrityLasting → counter t 13 = 1) ∧ (r = .integrityLasting → pa / 64 ∈ t.svc.poison)
        ∧ (r ≠ .sramLasting → t.svc.quarantined = s.svc.quarantined)
        ∧ (r = .sramLasting → clusterOf (pa / 4096 % 16 * Config.coresPerDie) ∈ t.svc.quarantined ∧ counter t 10 = 1 ∧ t.svc.poison = s.svc.poison))
    ∧ (∀ (s : State) (n permille : Nat), s.powered = true → exec (.calibration n) s = .next s
      ∧ (n < 4 → ∃ t, exec (.nvWearManagement n permille) s = .next t ∧ t.svc.wear = max s.svc.wear permille
          ∧ t = { s with svc := { s.svc with wear := t.svc.wear } })
      ∧ (s.svc.settings.telemMs = 0 → exec .telemetryTick s = .next s)
      ∧ (s.svc.settings.telemMs ≠ 0 → s.svc.heldReset = false → ∃ t es, exec .telemetryTick s = .next t ∧ t.sent = s.sent ++ [.telemetry es]
          ∧ es.length = 71 ∧ es.getD 3 0 = BitVec.ofNat 64 s.svc.clockMHz ∧ t.svc.telemSeq = s.svc.telemSeq + 1))
    ∧ ∀ (s : State) (n : Nat), s.powered = true →
      (∃ t, exec (.controlPortFailover n) s = .next t ∧ t.svc.workingPort = (if s.svc.bonded = false ∧ n = s.svc.workingPort then 1 - n else s.svc.workingPort)
          ∧ t = { s with svc := { s.svc with workingPort := t.svc.workingPort } })
        ∧ (n < 2 → ∃ t, exec (.controlFrameRetransmit n) s = .next t
            ∧ t = { s with svc := { s.svc with portRetransmits := s.svc.portRetransmits + 1 } })
        ∧ ∀ l, s.svc.links.find? (fun x => x.num == n) = some l →
          let link (t : State) : Option Link := t.svc.links.find? fun x => x.num == n
          (∃ t, exec (.peerFrameRetransmit n) s = .next t ∧ link t = some { l with retransmits := l.retransmits + 1 })
            ∧ (l.up = false → ∀ ok, ∃ t, exec (.linkRetrain n ok) s = .next t ∧ link t = some l)
            ∧ (l.up = true → ∃ t, exec (.linkRetrain n true) s = .next t ∧ link t = some { l with retrains := l.retrains + 1 })
            ∧ (l.up = true → l.failures < 2 → ∃ t, exec (.linkRetrain n false) s = .next t
                ∧ link t = some { l with retrains := l.retrains + 1, failures := l.failures + 1 })

/-- A step runs the instruction that stands at the path in focus, or the event that is due. When the words at the PC
of the path in focus decode to an instruction, step is exec of that instruction at that state; so it is at a state
made by withFetchWord, for the instruction the host's word decodes to. When no path is in focus, no turn is left and
nothing follows from the state alone, step is exec of the event at the head of the agenda; without power the agenda
alone goes on. -/
def Obligations.StepRunsInstruction : Prop :=
  (∀ (s : State) (p : Focus) (k : Stook) (l : Nat) (i : Instr) (rest : List Word), s.focus = some p → s.stook? p.stook = some k →
      (lanesOf p.lanes).head? = some l →
      decode ((s.launchOf k).code.drop ((k.sheaf p.sheaf).lane l).pc.toNat) = .ok (i, rest) → step s = exec i s)
    ∧ (∀ (s : State) (nbits w : Nat) (i : Instr), decodeTableWord nbits w = some i →
      step (s.withFetchWord nbits w) = exec i (s.withFetchWord nbits w))
    ∧ ∀ (s : State) (i : Instr) (rest : List Instr), s.focus = none → s.agenda = i :: rest → agendaItem i = true →
      (s.powered = true → s.turn = [] → s.settle.differs s = false → step s = exec i { s with agenda := rest })
        ∧ (s.powered = false → step s = exec i { s with agenda := rest })

/-- Worked encodings of the spec decode to their instructions. The words that 01, 02, 08, 09, 11 and 14 write out bit
by bit decode to the instructions they stand for, fields as listed there. -/
def Obligations.WordsDecoded : Prop :=
  decode [0x11748104] = .ok (.fmul { d := 0x74, n := true, a := 0x01, b := 0x02, ext := none }, [])
    ∧ decode [0x11847007, 0x0A12E000] = .ok (.ffma { d := 0x04, n := false, a := 0x70, b := 0x03, ext := some 0x0A12E000 }, [])
    ∧ decode [0x18810105] = .ok (.shlImm { d := 0x01, n := false, a := 0x01, imm := 5 }, [])
    ∧ decode [0x000101EA] = .ok (.iadd { d := 0x01, n := false, a := 0x01, b := 0x75, ext := none }, [])
    ∧ decode [0x64020105, 0x00400000]
      = .ok (.ld { d := 0x02, n := false, a := 0x01, slot := 1, s := false, x := true, me := 0x00400000 }, [])
    ∧ decode [0x1D030006] = .ok (.brv { cls := 0, a := 0x03, off := 6 }, [])
    ∧ decode [0xBF800000] = .ok (.exit { cls := 5, off := 0 }, [])
    ∧ decode [0x0D057400, 0x3F800000] = .ok (.movw { d := 0x05, n := false, a := 0x74, imm := 0 } 0x3F800000, [])
    ∧ decode [0xA0747402] = .ok (.join { d := 0x74, n := false, a := 0x74, imm := 2 }, [])
    ∧ decode [0x68060211, 0x78600000]
      = .ok (.atom { d := 0x06, n := false, a := 0x02, slot := 4, s := false, x := true, me := 0x78600000 }, [])

/-- Decoding and encoding agree for every instruction word. The words of a well-formed instruction decode to it, with
every operand at every value, whatever follows them; and whatever the decoder reads is a well-formed instruction whose
words stand at the front of what it read. -/
def Obligations.EncodingAgrees : Prop :=
  (∀ i : Instr, WellFormed i = true → i.isWord = true → encode i ≠ [] ∧ ∀ rest : List Word, decode (encode i ++ rest) = .ok (i, rest))
    ∧ ∀ (ws rest : List Word) (i : Instr), decode ws = .ok (i, rest) → WellFormed i = true ∧ i.isWord = true ∧ encode i ++ rest = ws

/-- Every step keeps the canonical form of memory. From every state whose memory is in its canonical form, addresses
strictly rising and no byte zero listed, a step that answers a next state leaves it so. Where the spec is silent this
rests on log entry 2, the model's choices. -/
def Obligations.MemoryKeepsItsForm : Prop :=
  Kept fun s => s.mem.wf = true

/-- What power-up leaves. At power-up every field of every context record is 0 and no context is VALID, every key slot
is empty, the settings block holds CAP 6,000, TELEM_MS 1,000 and else zeros, nothing is resident or queued, and memory
has its canonical form. The clock at 600 MHz and the zeros of memory are the model's (log entries 2 and 3). -/
def Obligations.ResetState : Prop :=
  (∀ n, (State.reset.ctx n).valid = false ∧ (State.reset.ctx n).ptroot = 0 ∧ (State.reset.ctx n).partition = 0 ∧ (State.reset.ctx n).devlaunch = false
      ∧ (State.reset.ctx n).debug = false ∧ (State.reset.ctx n).qprio = 0 ∧ (State.reset.ctx n).spillVa = 0 ∧ (State.reset.ctx n).spillBytes = 0)
    ∧ (∀ c n, n ≠ 0 → State.reset.keyLoaded c n = false) ∧ (∀ c, State.reset.keyLoaded c 0 = true)
    ∧ State.reset.svc.settings.pack = BitVec.ofNat 512 (6000 + 1000 * 2 ^ 48)
    ∧ State.reset.powered = true ∧ State.reset.launches = [] ∧ State.reset.stooks = [] ∧ State.reset.faults = []
    ∧ State.reset.svc.clockMHz = 600 ∧ State.reset.mem.wf = true ∧ ∀ a, State.reset.mem.byte a = 0

/-- No step of the device stops. Every step of every state answers a next state: an encoding that is not assigned, a
failed check, a lane that misses its page and a device without power all have a next state, and neither a fault nor a
refusal of the model is ever met. Which agent acts next in a step is the model's choice (log entry 1). -/
def Obligations.StepNeverStops : Prop :=
  ∀ s : State, ∃ t, step s = .next t
end

