-- ==== Sys2Proof/Laws/Bank.lean ====
section
/-! SUPPORT. Laws of banks: a read after a write, and the canonical form that every operation keeps. -/

namespace Sys2Proof.Machine

/-! ### Read after write -/

theorem Bank.get_erase_self {w : Nat} (b : Bank w) (n : Nat) : Bank.get (Bank.erase b n) n = 0#w := by
  induction b with
  | nil => rfl
  | cons p t ih => obtain ⟨k, v⟩ := p; by_cases h : k = n <;> simp [Bank.erase, Bank.get, h, ih]

theorem Bank.get_erase_ne {w : Nat} (b : Bank w) {n m : Nat} (hm : m ≠ n) :
    Bank.get (Bank.erase b n) m = Bank.get b m := by
  induction b with
  | nil => rfl
  | cons p t ih =>
    obtain ⟨k, v⟩ := p
    by_cases h : k = n
    · subst h; simp [Bank.erase, Bank.get, ih, hm.symm]
    · simp [Bank.erase, Bank.get, h, ih]

/-- A read of the key written gives the value written. -/
@[simp] theorem Bank.get_set_self {w : Nat} (b : Bank w) (n : Nat) (x : BitVec w) : Bank.get (Bank.set b n x) n = x := by
  induction b with
  | nil => by_cases h : x = 0#w <;> simp [Bank.set, Bank.get, h]
  | cons p t ih =>
    obtain ⟨k, v⟩ := p
    by_cases h : k < n
    · simp [Bank.set, Bank.get, h, ih, Nat.ne_of_lt h]
    · by_cases hx : x = 0#w
      · rw [Bank.set, if_neg h, if_pos hx, Bank.get_erase_self, hx]
      · rw [Bank.set, if_neg h, if_neg hx, Bank.get, if_pos rfl]

/-- A write leaves every other key alone. -/
theorem Bank.get_set_ne {w : Nat} (b : Bank w) {n m : Nat} (hm : m ≠ n) (x : BitVec w) :
    Bank.get (Bank.set b n x) m = Bank.get b m := by
  induction b with
  | nil => by_cases h : x = 0#w <;> simp [Bank.set, Bank.get, h, Ne.symm hm]
  | cons p t ih =>
    obtain ⟨k, v⟩ := p
    by_cases h : k < n
    · simp [Bank.set, Bank.get, h, ih]
    · by_cases hx : x = 0#w
      · rw [Bank.set, if_neg h, if_pos hx, Bank.get_erase_ne _ hm]
      · rw [Bank.set, if_neg h, if_neg hx, Bank.get, if_neg hm.symm, Bank.get_erase_ne _ hm]

theorem Bank.get_set {w : Nat} (b : Bank w) (n m : Nat) (x : BitVec w) :
    Bank.get (Bank.set b n x) m = if m = n then x else Bank.get b m := by
  by_cases h : m = n
  · rw [if_pos h, h, Bank.get_set_self]
  · rw [if_neg h, Bank.get_set_ne _ h]

/-! ### The canonical form -/

/-- The canonical form as one statement about the list. -/
def Bank.Canon {w : Nat} (b : Bank w) : Prop := b.Pairwise (fun p q => p.1 < q.1) ∧ ∀ p ∈ b, p.2 ≠ 0#w

theorem Bank.wf_iff {w : Nat} (b : Bank w) : Bank.wf b = true ↔ Bank.Canon b := by
  induction b with
  | nil => simp [Bank.wf, Bank.Canon]
  | cons p t ih =>
    obtain ⟨k, v⟩ := p
    cases t with
    | nil => simp [Bank.wf, Bank.Canon]
    | cons q t =>
      obtain ⟨k', v'⟩ := q
      simp only [Bank.wf, Bool.and_eq_true, decide_eq_true_eq, bne_iff_ne, ih, Bank.Canon, List.pairwise_cons,
        List.mem_cons, forall_eq_or_imp]
      constructor
      · rintro ⟨⟨h0, h1⟩, ⟨h2, h3⟩, h4, h5⟩
        exact ⟨⟨⟨h1, fun a ha => Nat.lt_trans h1 (h2 a ha)⟩, h2, h3⟩, h0, h4, h5⟩
      · rintro ⟨⟨⟨h1, -⟩, h2, h3⟩, h0, h4, h5⟩
        exact ⟨⟨h0, h1⟩, ⟨h2, h3⟩, h4, h5⟩

theorem Bank.wf_filter {w : Nat} {b : Bank w} (h : Bank.wf b = true) (p : Nat × BitVec w → Bool) :
    Bank.wf (b.filter p) = true := by
  rw [Bank.wf_iff] at h ⊢
  exact ⟨h.1.sublist List.filter_sublist, fun q hq => h.2 q ((List.mem_filter.1 hq).1)⟩

theorem Bank.erase_eq {w : Nat} (b : Bank w) (n : Nat) : Bank.erase b n = b.filter fun p => p.1 ≠ n := by
  induction b with
  | nil => rfl
  | cons p t ih => obtain ⟨k, v⟩ := p; by_cases h : k = n <;> simp [Bank.erase, h, ih]

theorem Bank.wf_clear {w : Nat} {b : Bank w} (h : Bank.wf b = true) (lo hi : Nat) : Bank.wf (Bank.clear b lo hi) = true :=
  Bank.wf_filter h _

theorem Bank.mem_set {w : Nat} {b : Bank w} {n : Nat} {x : BitVec w} {q : Nat × BitVec w} (h : q ∈ Bank.set b n x) :
    q ∈ b ∨ (q = (n, x) ∧ x ≠ 0#w) := by
  induction b with
  | nil =>
    by_cases hx : x = 0#w
    · simp [Bank.set, hx] at h
    · simp only [Bank.set, if_neg hx, List.mem_singleton] at h; exact .inr ⟨h, hx⟩
  | cons p t ih =>
    obtain ⟨k, v⟩ := p
    by_cases hk : k < n
    · simp only [Bank.set, if_pos hk, List.mem_cons] at h
      rcases h with rfl | h
      · exact .inl (List.mem_cons_self ..)
      · exact (ih h).imp (List.mem_cons_of_mem _) id
    · by_cases hx : x = 0#w
      · simp only [Bank.set, if_neg hk, if_pos hx] at h
        rw [Bank.erase_eq] at h; exact .inl (List.mem_filter.1 h).1
      · simp only [Bank.set, if_neg hk, if_neg hx, List.mem_cons] at h
        rcases h with h | h
        · exact .inr ⟨h, hx⟩
        · rw [Bank.erase_eq] at h; exact .inl (List.mem_filter.1 h).1

/-- A write keeps the canonical form. -/
theorem Bank.wf_set {w : Nat} {b : Bank w} (h : Bank.wf b = true) (n : Nat) (x : BitVec w) :
    Bank.wf (Bank.set b n x) = true := by
  rw [Bank.wf_iff] at h ⊢
  refine ⟨?_, fun q hq => ?_⟩
  · induction b with
    | nil => by_cases hx : x = 0#w <;> simp [Bank.set, hx]
    | cons p t ih =>
      obtain ⟨k, v⟩ := p
      have ht : Bank.Canon t := ⟨(List.pairwise_cons.1 h.1).2, fun q hq => h.2 q (List.mem_cons_of_mem _ hq)⟩
      have hr := (List.pairwise_cons.1 h.1).1
      have he : Bank.Canon (Bank.erase ((k, v) :: t) n) := by
        rw [← Bank.wf_iff, Bank.erase_eq]; exact Bank.wf_filter ((Bank.wf_iff _).2 h) _
      by_cases hk : k < n
      · rw [Bank.set, if_pos hk, List.pairwise_cons]
        refine ⟨fun q hq => ?_, ih ht⟩
        rcases Bank.mem_set hq with hq | ⟨rfl, -⟩
        · exact hr q hq
        · exact hk
      · by_cases hx : x = 0#w
        · rw [Bank.set, if_neg hk, if_pos hx]; exact he.1
        · rw [Bank.set, if_neg hk, if_neg hx, List.pairwise_cons]
          refine ⟨fun q hq => ?_, he.1⟩
          rw [Bank.erase_eq, List.mem_filter] at hq
          have hne : q.1 ≠ n := by simpa using hq.2
          rcases List.mem_cons.1 hq.1 with rfl | hq
          · exact Nat.lt_of_le_of_ne (Nat.not_lt.1 hk) hne.symm
          · exact Nat.lt_of_le_of_lt (Nat.not_lt.1 hk) (hr q hq)
  · rcases Bank.mem_set hq with hq | ⟨rfl, hx⟩
    · exact h.2 q hq
    · exact hx

theorem Bank.wf_splice {w : Nat} {b : Bank w} (h : Bank.wf b = true) (a : Nat) (xs : List (BitVec w)) :
    Bank.wf (Bank.splice b a xs) = true := by
  induction xs generalizing b a with
  | nil => exact h
  | cons x xs ih => exact ih (Bank.wf_set h a x) (a + 1)

/-! ### Memory -/

/-- Every operation on memory keeps its canonical form. -/
theorem Memory.wf_put {m : Memory} (h : m.wf = true) (a : Nat) (x : Byte) : (m.put a x).wf = true := Bank.wf_set h a x

theorem Memory.byte_put (m : Memory) (a b : Nat) (x : Byte) : (m.put a x).byte b = if b = a then x else m.byte b :=
  Bank.get_set m a b x

theorem Memory.wf_splice {m : Memory} (h : m.wf = true) (a : Nat) (xs : List Byte) : Memory.wf (Bank.splice m a xs) = true :=
  Bank.wf_splice h a xs

theorem Memory.wf_filter {m : Memory} (h : m.wf = true) (p : Nat × Byte → Bool) : Memory.wf (m.filter p) = true :=
  Bank.wf_filter h p

end Sys2Proof.Machine
end

