-- ==== Sys2Proof/Laws/State.lean ====
section
/-! SUPPORT. What each update of the state does to each field: one lemma per field and update, so that no proof unfolds a
record update. -/

namespace Sys2Proof.Machine

open Sys2Proof

/-! ### A stook replaced -/

@[simp] theorem State.modStook_powered (s : State) (u : Nat) (f : Stook → Stook) : (s.modStook u f).powered = s.powered := rfl
@[simp] theorem State.modStook_mem (s : State) (u : Nat) (f : Stook → Stook) : (s.modStook u f).mem = s.mem := rfl
@[simp] theorem State.modStook_staging (s : State) (u : Nat) (f : Stook → Stook) : (s.modStook u f).staging = s.staging := rfl
@[simp] theorem State.modStook_volatile (s : State) (u : Nat) (f : Stook → Stook) : (s.modStook u f).volatile = s.volatile := rfl
@[simp] theorem State.modStook_barrier (s : State) (u : Nat) (f : Stook → Stook) : (s.modStook u f).barrier = s.barrier := rfl
@[simp] theorem State.modStook_snapshots (s : State) (u : Nat) (f : Stook → Stook) : (s.modStook u f).snapshots = s.snapshots := rfl
@[simp] theorem State.modStook_completions (s : State) (u : Nat) (f : Stook → Stook) : (s.modStook u f).completions = s.completions := rfl
@[simp] theorem State.modStook_lineKeys (s : State) (u : Nat) (f : Stook → Stook) : (s.modStook u f).lineKeys = s.lineKeys := rfl
@[simp] theorem State.modStook_locks (s : State) (u : Nat) (f : Stook → Stook) : (s.modStook u f).locks = s.locks := rfl
@[simp] theorem State.modStook_contexts (s : State) (u : Nat) (f : Stook → Stook) : (s.modStook u f).contexts = s.contexts := rfl
@[simp] theorem State.modStook_launches (s : State) (u : Nat) (f : Stook → Stook) : (s.modStook u f).launches = s.launches := rfl
@[simp] theorem State.modStook_stooks (s : State) (u : Nat) (f : Stook → Stook) : (s.modStook u f).stooks = s.stooks.map fun k => if k.uid == u then f k else k := rfl
@[simp] theorem State.modStook_cores (s : State) (u : Nat) (f : Stook → Stook) : (s.modStook u f).cores = s.cores := rfl
@[simp] theorem State.modStook_dies (s : State) (u : Nat) (f : Stook → Stook) : (s.modStook u f).dies = s.dies := rfl
@[simp] theorem State.modStook_clusterTlbs (s : State) (u : Nat) (f : Stook → Stook) : (s.modStook u f).clusterTlbs = s.clusterTlbs := rfl
@[simp] theorem State.modStook_wuNext (s : State) (u : Nat) (f : Stook → Stook) : (s.modStook u f).wuNext = s.wuNext := rfl
@[simp] theorem State.modStook_faults (s : State) (u : Nat) (f : Stook → Stook) : (s.modStook u f).faults = s.faults := rfl
@[simp] theorem State.modStook_nextFault (s : State) (u : Nat) (f : Stook → Stook) : (s.modStook u f).nextFault = s.nextFault := rfl
@[simp] theorem State.modStook_nextTicket (s : State) (u : Nat) (f : Stook → Stook) : (s.modStook u f).nextTicket = s.nextTicket := rfl
@[simp] theorem State.modStook_lastServed (s : State) (u : Nat) (f : Stook → Stook) : (s.modStook u f).lastServed = s.lastServed := rfl
@[simp] theorem State.modStook_inbox (s : State) (u : Nat) (f : Stook → Stook) : (s.modStook u f).inbox = s.inbox := rfl
@[simp] theorem State.modStook_transfers (s : State) (u : Nat) (f : Stook → Stook) : (s.modStook u f).transfers = s.transfers := rfl
@[simp] theorem State.modStook_pending (s : State) (u : Nat) (f : Stook → Stook) : (s.modStook u f).pending = s.pending := rfl
@[simp] theorem State.modStook_sent (s : State) (u : Nat) (f : Stook → Stook) : (s.modStook u f).sent = s.sent := rfl
@[simp] theorem State.modStook_svc (s : State) (u : Nat) (f : Stook → Stook) : (s.modStook u f).svc = s.svc := rfl
@[simp] theorem State.modStook_agenda (s : State) (u : Nat) (f : Stook → Stook) : (s.modStook u f).agenda = s.agenda := rfl
@[simp] theorem State.modStook_focus (s : State) (u : Nat) (f : Stook → Stook) : (s.modStook u f).focus = s.focus := rfl
@[simp] theorem State.modStook_turn (s : State) (u : Nat) (f : Stook → Stook) : (s.modStook u f).turn = s.turn := rfl
@[simp] theorem State.modStook_scan (s : State) (u : Nat) (f : Stook → Stook) : (s.modStook u f).scan = s.scan := rfl
@[simp] theorem State.modStook_free (s : State) (u : Nat) (f : Stook → Stook) : (s.modStook u f).free = s.free := rfl
@[simp] theorem State.modStook_next (s : State) (u : Nat) (f : Stook → Stook) : (s.modStook u f).next = s.next := rfl

/-! ### A sheaf replaced -/

@[simp] theorem State.modSheaf_powered (s : State) (u i : Nat) (f : Sheaf → Sheaf) : (s.modSheaf u i f).powered = s.powered := rfl
@[simp] theorem State.modSheaf_mem (s : State) (u i : Nat) (f : Sheaf → Sheaf) : (s.modSheaf u i f).mem = s.mem := rfl
@[simp] theorem State.modSheaf_staging (s : State) (u i : Nat) (f : Sheaf → Sheaf) : (s.modSheaf u i f).staging = s.staging := rfl
@[simp] theorem State.modSheaf_volatile (s : State) (u i : Nat) (f : Sheaf → Sheaf) : (s.modSheaf u i f).volatile = s.volatile := rfl
@[simp] theorem State.modSheaf_barrier (s : State) (u i : Nat) (f : Sheaf → Sheaf) : (s.modSheaf u i f).barrier = s.barrier := rfl
@[simp] theorem State.modSheaf_snapshots (s : State) (u i : Nat) (f : Sheaf → Sheaf) : (s.modSheaf u i f).snapshots = s.snapshots := rfl
@[simp] theorem State.modSheaf_completions (s : State) (u i : Nat) (f : Sheaf → Sheaf) : (s.modSheaf u i f).completions = s.completions := rfl
@[simp] theorem State.modSheaf_lineKeys (s : State) (u i : Nat) (f : Sheaf → Sheaf) : (s.modSheaf u i f).lineKeys = s.lineKeys := rfl
@[simp] theorem State.modSheaf_locks (s : State) (u i : Nat) (f : Sheaf → Sheaf) : (s.modSheaf u i f).locks = s.locks := rfl
@[simp] theorem State.modSheaf_contexts (s : State) (u i : Nat) (f : Sheaf → Sheaf) : (s.modSheaf u i f).contexts = s.contexts := rfl
@[simp] theorem State.modSheaf_launches (s : State) (u i : Nat) (f : Sheaf → Sheaf) : (s.modSheaf u i f).launches = s.launches := rfl
@[simp] theorem State.modSheaf_stooks (s : State) (u i : Nat) (f : Sheaf → Sheaf) : (s.modSheaf u i f).stooks = s.stooks.map fun k => if k.uid == u then k.modSheaf i f else k := rfl
@[simp] theorem State.modSheaf_cores (s : State) (u i : Nat) (f : Sheaf → Sheaf) : (s.modSheaf u i f).cores = s.cores := rfl
@[simp] theorem State.modSheaf_dies (s : State) (u i : Nat) (f : Sheaf → Sheaf) : (s.modSheaf u i f).dies = s.dies := rfl
@[simp] theorem State.modSheaf_clusterTlbs (s : State) (u i : Nat) (f : Sheaf → Sheaf) : (s.modSheaf u i f).clusterTlbs = s.clusterTlbs := rfl
@[simp] theorem State.modSheaf_wuNext (s : State) (u i : Nat) (f : Sheaf → Sheaf) : (s.modSheaf u i f).wuNext = s.wuNext := rfl
@[simp] theorem State.modSheaf_faults (s : State) (u i : Nat) (f : Sheaf → Sheaf) : (s.modSheaf u i f).faults = s.faults := rfl
@[simp] theorem State.modSheaf_nextFault (s : State) (u i : Nat) (f : Sheaf → Sheaf) : (s.modSheaf u i f).nextFault = s.nextFault := rfl
@[simp] theorem State.modSheaf_nextTicket (s : State) (u i : Nat) (f : Sheaf → Sheaf) : (s.modSheaf u i f).nextTicket = s.nextTicket := rfl
@[simp] theorem State.modSheaf_lastServed (s : State) (u i : Nat) (f : Sheaf → Sheaf) : (s.modSheaf u i f).lastServed = s.lastServed := rfl
@[simp] theorem State.modSheaf_inbox (s : State) (u i : Nat) (f : Sheaf → Sheaf) : (s.modSheaf u i f).inbox = s.inbox := rfl
@[simp] theorem State.modSheaf_transfers (s : State) (u i : Nat) (f : Sheaf → Sheaf) : (s.modSheaf u i f).transfers = s.transfers := rfl
@[simp] theorem State.modSheaf_pending (s : State) (u i : Nat) (f : Sheaf → Sheaf) : (s.modSheaf u i f).pending = s.pending := rfl
@[simp] theorem State.modSheaf_sent (s : State) (u i : Nat) (f : Sheaf → Sheaf) : (s.modSheaf u i f).sent = s.sent := rfl
@[simp] theorem State.modSheaf_svc (s : State) (u i : Nat) (f : Sheaf → Sheaf) : (s.modSheaf u i f).svc = s.svc := rfl
@[simp] theorem State.modSheaf_agenda (s : State) (u i : Nat) (f : Sheaf → Sheaf) : (s.modSheaf u i f).agenda = s.agenda := rfl
@[simp] theorem State.modSheaf_focus (s : State) (u i : Nat) (f : Sheaf → Sheaf) : (s.modSheaf u i f).focus = s.focus := rfl
@[simp] theorem State.modSheaf_turn (s : State) (u i : Nat) (f : Sheaf → Sheaf) : (s.modSheaf u i f).turn = s.turn := rfl
@[simp] theorem State.modSheaf_scan (s : State) (u i : Nat) (f : Sheaf → Sheaf) : (s.modSheaf u i f).scan = s.scan := rfl
@[simp] theorem State.modSheaf_free (s : State) (u i : Nat) (f : Sheaf → Sheaf) : (s.modSheaf u i f).free = s.free := rfl
@[simp] theorem State.modSheaf_next (s : State) (u i : Nat) (f : Sheaf → Sheaf) : (s.modSheaf u i f).next = s.next := rfl

/-! ### A lane replaced -/

@[simp] theorem State.modLane_powered (s : State) (r : LaneRef) (f : Lane → Lane) : (s.modLane r f).powered = s.powered := rfl
@[simp] theorem State.modLane_mem (s : State) (r : LaneRef) (f : Lane → Lane) : (s.modLane r f).mem = s.mem := rfl
@[simp] theorem State.modLane_staging (s : State) (r : LaneRef) (f : Lane → Lane) : (s.modLane r f).staging = s.staging := rfl
@[simp] theorem State.modLane_volatile (s : State) (r : LaneRef) (f : Lane → Lane) : (s.modLane r f).volatile = s.volatile := rfl
@[simp] theorem State.modLane_barrier (s : State) (r : LaneRef) (f : Lane → Lane) : (s.modLane r f).barrier = s.barrier := rfl
@[simp] theorem State.modLane_snapshots (s : State) (r : LaneRef) (f : Lane → Lane) : (s.modLane r f).snapshots = s.snapshots := rfl
@[simp] theorem State.modLane_completions (s : State) (r : LaneRef) (f : Lane → Lane) : (s.modLane r f).completions = s.completions := rfl
@[simp] theorem State.modLane_lineKeys (s : State) (r : LaneRef) (f : Lane → Lane) : (s.modLane r f).lineKeys = s.lineKeys := rfl
@[simp] theorem State.modLane_locks (s : State) (r : LaneRef) (f : Lane → Lane) : (s.modLane r f).locks = s.locks := rfl
@[simp] theorem State.modLane_contexts (s : State) (r : LaneRef) (f : Lane → Lane) : (s.modLane r f).contexts = s.contexts := rfl
@[simp] theorem State.modLane_launches (s : State) (r : LaneRef) (f : Lane → Lane) : (s.modLane r f).launches = s.launches := rfl
@[simp] theorem State.modLane_cores (s : State) (r : LaneRef) (f : Lane → Lane) : (s.modLane r f).cores = s.cores := rfl
@[simp] theorem State.modLane_dies (s : State) (r : LaneRef) (f : Lane → Lane) : (s.modLane r f).dies = s.dies := rfl
@[simp] theorem State.modLane_clusterTlbs (s : State) (r : LaneRef) (f : Lane → Lane) : (s.modLane r f).clusterTlbs = s.clusterTlbs := rfl
@[simp] theorem State.modLane_wuNext (s : State) (r : LaneRef) (f : Lane → Lane) : (s.modLane r f).wuNext = s.wuNext := rfl
@[simp] theorem State.modLane_faults (s : State) (r : LaneRef) (f : Lane → Lane) : (s.modLane r f).faults = s.faults := rfl
@[simp] theorem State.modLane_nextFault (s : State) (r : LaneRef) (f : Lane → Lane) : (s.modLane r f).nextFault = s.nextFault := rfl
@[simp] theorem State.modLane_nextTicket (s : State) (r : LaneRef) (f : Lane → Lane) : (s.modLane r f).nextTicket = s.nextTicket := rfl
@[simp] theorem State.modLane_lastServed (s : State) (r : LaneRef) (f : Lane → Lane) : (s.modLane r f).lastServed = s.lastServed := rfl
@[simp] theorem State.modLane_inbox (s : State) (r : LaneRef) (f : Lane → Lane) : (s.modLane r f).inbox = s.inbox := rfl
@[simp] theorem State.modLane_transfers (s : State) (r : LaneRef) (f : Lane → Lane) : (s.modLane r f).transfers = s.transfers := rfl
@[simp] theorem State.modLane_pending (s : State) (r : LaneRef) (f : Lane → Lane) : (s.modLane r f).pending = s.pending := rfl
@[simp] theorem State.modLane_sent (s : State) (r : LaneRef) (f : Lane → Lane) : (s.modLane r f).sent = s.sent := rfl
@[simp] theorem State.modLane_svc (s : State) (r : LaneRef) (f : Lane → Lane) : (s.modLane r f).svc = s.svc := rfl
@[simp] theorem State.modLane_agenda (s : State) (r : LaneRef) (f : Lane → Lane) : (s.modLane r f).agenda = s.agenda := rfl
@[simp] theorem State.modLane_focus (s : State) (r : LaneRef) (f : Lane → Lane) : (s.modLane r f).focus = s.focus := rfl
@[simp] theorem State.modLane_turn (s : State) (r : LaneRef) (f : Lane → Lane) : (s.modLane r f).turn = s.turn := rfl
@[simp] theorem State.modLane_scan (s : State) (r : LaneRef) (f : Lane → Lane) : (s.modLane r f).scan = s.scan := rfl
@[simp] theorem State.modLane_free (s : State) (r : LaneRef) (f : Lane → Lane) : (s.modLane r f).free = s.free := rfl
@[simp] theorem State.modLane_next (s : State) (r : LaneRef) (f : Lane → Lane) : (s.modLane r f).next = s.next := rfl

/-! ### A context replaced -/

@[simp] theorem State.modCtx_powered (s : State) (n : Nat) (f : Context → Context) : (s.modCtx n f).powered = s.powered := rfl
@[simp] theorem State.modCtx_mem (s : State) (n : Nat) (f : Context → Context) : (s.modCtx n f).mem = s.mem := rfl
@[simp] theorem State.modCtx_staging (s : State) (n : Nat) (f : Context → Context) : (s.modCtx n f).staging = s.staging := rfl
@[simp] theorem State.modCtx_volatile (s : State) (n : Nat) (f : Context → Context) : (s.modCtx n f).volatile = s.volatile := rfl
@[simp] theorem State.modCtx_barrier (s : State) (n : Nat) (f : Context → Context) : (s.modCtx n f).barrier = s.barrier := rfl
@[simp] theorem State.modCtx_snapshots (s : State) (n : Nat) (f : Context → Context) : (s.modCtx n f).snapshots = s.snapshots := rfl
@[simp] theorem State.modCtx_completions (s : State) (n : Nat) (f : Context → Context) : (s.modCtx n f).completions = s.completions := rfl
@[simp] theorem State.modCtx_lineKeys (s : State) (n : Nat) (f : Context → Context) : (s.modCtx n f).lineKeys = s.lineKeys := rfl
@[simp] theorem State.modCtx_locks (s : State) (n : Nat) (f : Context → Context) : (s.modCtx n f).locks = s.locks := rfl
@[simp] theorem State.modCtx_contexts (s : State) (n : Nat) (f : Context → Context) : (s.modCtx n f).contexts = assocSet s.contexts n (f (s.ctx n)) := rfl
@[simp] theorem State.modCtx_launches (s : State) (n : Nat) (f : Context → Context) : (s.modCtx n f).launches = s.launches := rfl
@[simp] theorem State.modCtx_stooks (s : State) (n : Nat) (f : Context → Context) : (s.modCtx n f).stooks = s.stooks := rfl
@[simp] theorem State.modCtx_cores (s : State) (n : Nat) (f : Context → Context) : (s.modCtx n f).cores = s.cores := rfl
@[simp] theorem State.modCtx_dies (s : State) (n : Nat) (f : Context → Context) : (s.modCtx n f).dies = s.dies := rfl
@[simp] theorem State.modCtx_clusterTlbs (s : State) (n : Nat) (f : Context → Context) : (s.modCtx n f).clusterTlbs = s.clusterTlbs := rfl
@[simp] theorem State.modCtx_wuNext (s : State) (n : Nat) (f : Context → Context) : (s.modCtx n f).wuNext = s.wuNext := rfl
@[simp] theorem State.modCtx_faults (s : State) (n : Nat) (f : Context → Context) : (s.modCtx n f).faults = s.faults := rfl
@[simp] theorem State.modCtx_nextFault (s : State) (n : Nat) (f : Context → Context) : (s.modCtx n f).nextFault = s.nextFault := rfl
@[simp] theorem State.modCtx_nextTicket (s : State) (n : Nat) (f : Context → Context) : (s.modCtx n f).nextTicket = s.nextTicket := rfl
@[simp] theorem State.modCtx_lastServed (s : State) (n : Nat) (f : Context → Context) : (s.modCtx n f).lastServed = s.lastServed := rfl
@[simp] theorem State.modCtx_inbox (s : State) (n : Nat) (f : Context → Context) : (s.modCtx n f).inbox = s.inbox := rfl
@[simp] theorem State.modCtx_transfers (s : State) (n : Nat) (f : Context → Context) : (s.modCtx n f).transfers = s.transfers := rfl
@[simp] theorem State.modCtx_pending (s : State) (n : Nat) (f : Context → Context) : (s.modCtx n f).pending = s.pending := rfl
@[simp] theorem State.modCtx_sent (s : State) (n : Nat) (f : Context → Context) : (s.modCtx n f).sent = s.sent := rfl
@[simp] theorem State.modCtx_svc (s : State) (n : Nat) (f : Context → Context) : (s.modCtx n f).svc = s.svc := rfl
@[simp] theorem State.modCtx_agenda (s : State) (n : Nat) (f : Context → Context) : (s.modCtx n f).agenda = s.agenda := rfl
@[simp] theorem State.modCtx_focus (s : State) (n : Nat) (f : Context → Context) : (s.modCtx n f).focus = s.focus := rfl
@[simp] theorem State.modCtx_turn (s : State) (n : Nat) (f : Context → Context) : (s.modCtx n f).turn = s.turn := rfl
@[simp] theorem State.modCtx_scan (s : State) (n : Nat) (f : Context → Context) : (s.modCtx n f).scan = s.scan := rfl
@[simp] theorem State.modCtx_free (s : State) (n : Nat) (f : Context → Context) : (s.modCtx n f).free = s.free := rfl
@[simp] theorem State.modCtx_next (s : State) (n : Nat) (f : Context → Context) : (s.modCtx n f).next = s.next := rfl

/-! ### A launch replaced -/

@[simp] theorem State.modLaunch_powered (s : State) (c : Nat) (id : Word) (f : Launch → Launch) : (s.modLaunch c id f).powered = s.powered := rfl
@[simp] theorem State.modLaunch_mem (s : State) (c : Nat) (id : Word) (f : Launch → Launch) : (s.modLaunch c id f).mem = s.mem := rfl
@[simp] theorem State.modLaunch_staging (s : State) (c : Nat) (id : Word) (f : Launch → Launch) : (s.modLaunch c id f).staging = s.staging := rfl
@[simp] theorem State.modLaunch_volatile (s : State) (c : Nat) (id : Word) (f : Launch → Launch) : (s.modLaunch c id f).volatile = s.volatile := rfl
@[simp] theorem State.modLaunch_barrier (s : State) (c : Nat) (id : Word) (f : Launch → Launch) : (s.modLaunch c id f).barrier = s.barrier := rfl
@[simp] theorem State.modLaunch_snapshots (s : State) (c : Nat) (id : Word) (f : Launch → Launch) : (s.modLaunch c id f).snapshots = s.snapshots := rfl
@[simp] theorem State.modLaunch_completions (s : State) (c : Nat) (id : Word) (f : Launch → Launch) : (s.modLaunch c id f).completions = s.completions := rfl
@[simp] theorem State.modLaunch_lineKeys (s : State) (c : Nat) (id : Word) (f : Launch → Launch) : (s.modLaunch c id f).lineKeys = s.lineKeys := rfl
@[simp] theorem State.modLaunch_locks (s : State) (c : Nat) (id : Word) (f : Launch → Launch) : (s.modLaunch c id f).locks = s.locks := rfl
@[simp] theorem State.modLaunch_contexts (s : State) (c : Nat) (id : Word) (f : Launch → Launch) : (s.modLaunch c id f).contexts = s.contexts := rfl
@[simp] theorem State.modLaunch_launches (s : State) (c : Nat) (id : Word) (f : Launch → Launch) : (s.modLaunch c id f).launches = s.launches.map fun l => if l.ctx == c && l.id == id then f l else l := rfl
@[simp] theorem State.modLaunch_stooks (s : State) (c : Nat) (id : Word) (f : Launch → Launch) : (s.modLaunch c id f).stooks = s.stooks := rfl
@[simp] theorem State.modLaunch_cores (s : State) (c : Nat) (id : Word) (f : Launch → Launch) : (s.modLaunch c id f).cores = s.cores := rfl
@[simp] theorem State.modLaunch_dies (s : State) (c : Nat) (id : Word) (f : Launch → Launch) : (s.modLaunch c id f).dies = s.dies := rfl
@[simp] theorem State.modLaunch_clusterTlbs (s : State) (c : Nat) (id : Word) (f : Launch → Launch) : (s.modLaunch c id f).clusterTlbs = s.clusterTlbs := rfl
@[simp] theorem State.modLaunch_wuNext (s : State) (c : Nat) (id : Word) (f : Launch → Launch) : (s.modLaunch c id f).wuNext = s.wuNext := rfl
@[simp] theorem State.modLaunch_faults (s : State) (c : Nat) (id : Word) (f : Launch → Launch) : (s.modLaunch c id f).faults = s.faults := rfl
@[simp] theorem State.modLaunch_nextFault (s : State) (c : Nat) (id : Word) (f : Launch → Launch) : (s.modLaunch c id f).nextFault = s.nextFault := rfl
@[simp] theorem State.modLaunch_nextTicket (s : State) (c : Nat) (id : Word) (f : Launch → Launch) : (s.modLaunch c id f).nextTicket = s.nextTicket := rfl
@[simp] theorem State.modLaunch_lastServed (s : State) (c : Nat) (id : Word) (f : Launch → Launch) : (s.modLaunch c id f).lastServed = s.lastServed := rfl
@[simp] theorem State.modLaunch_inbox (s : State) (c : Nat) (id : Word) (f : Launch → Launch) : (s.modLaunch c id f).inbox = s.inbox := rfl
@[simp] theorem State.modLaunch_transfers (s : State) (c : Nat) (id : Word) (f : Launch → Launch) : (s.modLaunch c id f).transfers = s.transfers := rfl
@[simp] theorem State.modLaunch_pending (s : State) (c : Nat) (id : Word) (f : Launch → Launch) : (s.modLaunch c id f).pending = s.pending := rfl
@[simp] theorem State.modLaunch_sent (s : State) (c : Nat) (id : Word) (f : Launch → Launch) : (s.modLaunch c id f).sent = s.sent := rfl
@[simp] theorem State.modLaunch_svc (s : State) (c : Nat) (id : Word) (f : Launch → Launch) : (s.modLaunch c id f).svc = s.svc := rfl
@[simp] theorem State.modLaunch_agenda (s : State) (c : Nat) (id : Word) (f : Launch → Launch) : (s.modLaunch c id f).agenda = s.agenda := rfl
@[simp] theorem State.modLaunch_focus (s : State) (c : Nat) (id : Word) (f : Launch → Launch) : (s.modLaunch c id f).focus = s.focus := rfl
@[simp] theorem State.modLaunch_turn (s : State) (c : Nat) (id : Word) (f : Launch → Launch) : (s.modLaunch c id f).turn = s.turn := rfl
@[simp] theorem State.modLaunch_scan (s : State) (c : Nat) (id : Word) (f : Launch → Launch) : (s.modLaunch c id f).scan = s.scan := rfl
@[simp] theorem State.modLaunch_free (s : State) (c : Nat) (id : Word) (f : Launch → Launch) : (s.modLaunch c id f).free = s.free := rfl
@[simp] theorem State.modLaunch_next (s : State) (c : Nat) (id : Word) (f : Launch → Launch) : (s.modLaunch c id f).next = s.next := rfl

/-! ### A core replaced -/

@[simp] theorem State.modCore_powered (s : State) (n : Nat) (f : Core → Core) : (s.modCore n f).powered = s.powered := by unfold State.modCore; split <;> rfl
@[simp] theorem State.modCore_mem (s : State) (n : Nat) (f : Core → Core) : (s.modCore n f).mem = s.mem := by unfold State.modCore; split <;> rfl
@[simp] theorem State.modCore_staging (s : State) (n : Nat) (f : Core → Core) : (s.modCore n f).staging = s.staging := by unfold State.modCore; split <;> rfl
@[simp] theorem State.modCore_volatile (s : State) (n : Nat) (f : Core → Core) : (s.modCore n f).volatile = s.volatile := by unfold State.modCore; split <;> rfl
@[simp] theorem State.modCore_barrier (s : State) (n : Nat) (f : Core → Core) : (s.modCore n f).barrier = s.barrier := by unfold State.modCore; split <;> rfl
@[simp] theorem State.modCore_snapshots (s : State) (n : Nat) (f : Core → Core) : (s.modCore n f).snapshots = s.snapshots := by unfold State.modCore; split <;> rfl
@[simp] theorem State.modCore_completions (s : State) (n : Nat) (f : Core → Core) : (s.modCore n f).completions = s.completions := by unfold State.modCore; split <;> rfl
@[simp] theorem State.modCore_lineKeys (s : State) (n : Nat) (f : Core → Core) : (s.modCore n f).lineKeys = s.lineKeys := by unfold State.modCore; split <;> rfl
@[simp] theorem State.modCore_locks (s : State) (n : Nat) (f : Core → Core) : (s.modCore n f).locks = s.locks := by unfold State.modCore; split <;> rfl
@[simp] theorem State.modCore_contexts (s : State) (n : Nat) (f : Core → Core) : (s.modCore n f).contexts = s.contexts := by unfold State.modCore; split <;> rfl
@[simp] theorem State.modCore_launches (s : State) (n : Nat) (f : Core → Core) : (s.modCore n f).launches = s.launches := by unfold State.modCore; split <;> rfl
@[simp] theorem State.modCore_stooks (s : State) (n : Nat) (f : Core → Core) : (s.modCore n f).stooks = s.stooks := by unfold State.modCore; split <;> rfl
@[simp] theorem State.modCore_dies (s : State) (n : Nat) (f : Core → Core) : (s.modCore n f).dies = s.dies := by unfold State.modCore; split <;> rfl
@[simp] theorem State.modCore_clusterTlbs (s : State) (n : Nat) (f : Core → Core) : (s.modCore n f).clusterTlbs = s.clusterTlbs := by unfold State.modCore; split <;> rfl
@[simp] theorem State.modCore_wuNext (s : State) (n : Nat) (f : Core → Core) : (s.modCore n f).wuNext = s.wuNext := by unfold State.modCore; split <;> rfl
@[simp] theorem State.modCore_faults (s : State) (n : Nat) (f : Core → Core) : (s.modCore n f).faults = s.faults := by unfold State.modCore; split <;> rfl
@[simp] theorem State.modCore_nextFault (s : State) (n : Nat) (f : Core → Core) : (s.modCore n f).nextFault = s.nextFault := by unfold State.modCore; split <;> rfl
@[simp] theorem State.modCore_nextTicket (s : State) (n : Nat) (f : Core → Core) : (s.modCore n f).nextTicket = s.nextTicket := by unfold State.modCore; split <;> rfl
@[simp] theorem State.modCore_lastServed (s : State) (n : Nat) (f : Core → Core) : (s.modCore n f).lastServed = s.lastServed := by unfold State.modCore; split <;> rfl
@[simp] theorem State.modCore_inbox (s : State) (n : Nat) (f : Core → Core) : (s.modCore n f).inbox = s.inbox := by unfold State.modCore; split <;> rfl
@[simp] theorem State.modCore_transfers (s : State) (n : Nat) (f : Core → Core) : (s.modCore n f).transfers = s.transfers := by unfold State.modCore; split <;> rfl
@[simp] theorem State.modCore_pending (s : State) (n : Nat) (f : Core → Core) : (s.modCore n f).pending = s.pending := by unfold State.modCore; split <;> rfl
@[simp] theorem State.modCore_sent (s : State) (n : Nat) (f : Core → Core) : (s.modCore n f).sent = s.sent := by unfold State.modCore; split <;> rfl
@[simp] theorem State.modCore_svc (s : State) (n : Nat) (f : Core → Core) : (s.modCore n f).svc = s.svc := by unfold State.modCore; split <;> rfl
@[simp] theorem State.modCore_agenda (s : State) (n : Nat) (f : Core → Core) : (s.modCore n f).agenda = s.agenda := by unfold State.modCore; split <;> rfl
@[simp] theorem State.modCore_focus (s : State) (n : Nat) (f : Core → Core) : (s.modCore n f).focus = s.focus := by unfold State.modCore; split <;> rfl
@[simp] theorem State.modCore_turn (s : State) (n : Nat) (f : Core → Core) : (s.modCore n f).turn = s.turn := by unfold State.modCore; split <;> rfl
@[simp] theorem State.modCore_scan (s : State) (n : Nat) (f : Core → Core) : (s.modCore n f).scan = s.scan := by unfold State.modCore; split <;> rfl
@[simp] theorem State.modCore_free (s : State) (n : Nat) (f : Core → Core) : (s.modCore n f).free = s.free := by unfold State.modCore; split <;> rfl
@[simp] theorem State.modCore_next (s : State) (n : Nat) (f : Core → Core) : (s.modCore n f).next = s.next := by unfold State.modCore; split <;> rfl

/-! ### A die replaced -/

@[simp] theorem State.modDie_powered (s : State) (n : Nat) (f : Die → Die) : (s.modDie n f).powered = s.powered := by unfold State.modDie; split <;> rfl
@[simp] theorem State.modDie_mem (s : State) (n : Nat) (f : Die → Die) : (s.modDie n f).mem = s.mem := by unfold State.modDie; split <;> rfl
@[simp] theorem State.modDie_staging (s : State) (n : Nat) (f : Die → Die) : (s.modDie n f).staging = s.staging := by unfold State.modDie; split <;> rfl
@[simp] theorem State.modDie_volatile (s : State) (n : Nat) (f : Die → Die) : (s.modDie n f).volatile = s.volatile := by unfold State.modDie; split <;> rfl
@[simp] theorem State.modDie_barrier (s : State) (n : Nat) (f : Die → Die) : (s.modDie n f).barrier = s.barrier := by unfold State.modDie; split <;> rfl
@[simp] theorem State.modDie_snapshots (s : State) (n : Nat) (f : Die → Die) : (s.modDie n f).snapshots = s.snapshots := by unfold State.modDie; split <;> rfl
@[simp] theorem State.modDie_completions (s : State) (n : Nat) (f : Die → Die) : (s.modDie n f).completions = s.completions := by unfold State.modDie; split <;> rfl
@[simp] theorem State.modDie_lineKeys (s : State) (n : Nat) (f : Die → Die) : (s.modDie n f).lineKeys = s.lineKeys := by unfold State.modDie; split <;> rfl
@[simp] theorem State.modDie_locks (s : State) (n : Nat) (f : Die → Die) : (s.modDie n f).locks = s.locks := by unfold State.modDie; split <;> rfl
@[simp] theorem State.modDie_contexts (s : State) (n : Nat) (f : Die → Die) : (s.modDie n f).contexts = s.contexts := by unfold State.modDie; split <;> rfl
@[simp] theorem State.modDie_launches (s : State) (n : Nat) (f : Die → Die) : (s.modDie n f).launches = s.launches := by unfold State.modDie; split <;> rfl
@[simp] theorem State.modDie_stooks (s : State) (n : Nat) (f : Die → Die) : (s.modDie n f).stooks = s.stooks := by unfold State.modDie; split <;> rfl
@[simp] theorem State.modDie_cores (s : State) (n : Nat) (f : Die → Die) : (s.modDie n f).cores = s.cores := by unfold State.modDie; split <;> rfl
@[simp] theorem State.modDie_clusterTlbs (s : State) (n : Nat) (f : Die → Die) : (s.modDie n f).clusterTlbs = s.clusterTlbs := by unfold State.modDie; split <;> rfl
@[simp] theorem State.modDie_wuNext (s : State) (n : Nat) (f : Die → Die) : (s.modDie n f).wuNext = s.wuNext := by unfold State.modDie; split <;> rfl
@[simp] theorem State.modDie_faults (s : State) (n : Nat) (f : Die → Die) : (s.modDie n f).faults = s.faults := by unfold State.modDie; split <;> rfl
@[simp] theorem State.modDie_nextFault (s : State) (n : Nat) (f : Die → Die) : (s.modDie n f).nextFault = s.nextFault := by unfold State.modDie; split <;> rfl
@[simp] theorem State.modDie_nextTicket (s : State) (n : Nat) (f : Die → Die) : (s.modDie n f).nextTicket = s.nextTicket := by unfold State.modDie; split <;> rfl
@[simp] theorem State.modDie_lastServed (s : State) (n : Nat) (f : Die → Die) : (s.modDie n f).lastServed = s.lastServed := by unfold State.modDie; split <;> rfl
@[simp] theorem State.modDie_inbox (s : State) (n : Nat) (f : Die → Die) : (s.modDie n f).inbox = s.inbox := by unfold State.modDie; split <;> rfl
@[simp] theorem State.modDie_transfers (s : State) (n : Nat) (f : Die → Die) : (s.modDie n f).transfers = s.transfers := by unfold State.modDie; split <;> rfl
@[simp] theorem State.modDie_pending (s : State) (n : Nat) (f : Die → Die) : (s.modDie n f).pending = s.pending := by unfold State.modDie; split <;> rfl
@[simp] theorem State.modDie_sent (s : State) (n : Nat) (f : Die → Die) : (s.modDie n f).sent = s.sent := by unfold State.modDie; split <;> rfl
@[simp] theorem State.modDie_svc (s : State) (n : Nat) (f : Die → Die) : (s.modDie n f).svc = s.svc := by unfold State.modDie; split <;> rfl
@[simp] theorem State.modDie_agenda (s : State) (n : Nat) (f : Die → Die) : (s.modDie n f).agenda = s.agenda := by unfold State.modDie; split <;> rfl
@[simp] theorem State.modDie_focus (s : State) (n : Nat) (f : Die → Die) : (s.modDie n f).focus = s.focus := by unfold State.modDie; split <;> rfl
@[simp] theorem State.modDie_turn (s : State) (n : Nat) (f : Die → Die) : (s.modDie n f).turn = s.turn := by unfold State.modDie; split <;> rfl
@[simp] theorem State.modDie_scan (s : State) (n : Nat) (f : Die → Die) : (s.modDie n f).scan = s.scan := by unfold State.modDie; split <;> rfl
@[simp] theorem State.modDie_free (s : State) (n : Nat) (f : Die → Die) : (s.modDie n f).free = s.free := by unfold State.modDie; split <;> rfl
@[simp] theorem State.modDie_next (s : State) (n : Nat) (f : Die → Die) : (s.modDie n f).next = s.next := by unfold State.modDie; split <;> rfl

/-! ### A message sent -/

@[simp] theorem State.post_powered (s : State) (p : Post) : (s.post p).powered = s.powered := rfl
@[simp] theorem State.post_mem (s : State) (p : Post) : (s.post p).mem = s.mem := rfl
@[simp] theorem State.post_staging (s : State) (p : Post) : (s.post p).staging = s.staging := rfl
@[simp] theorem State.post_volatile (s : State) (p : Post) : (s.post p).volatile = s.volatile := rfl
@[simp] theorem State.post_barrier (s : State) (p : Post) : (s.post p).barrier = s.barrier := rfl
@[simp] theorem State.post_snapshots (s : State) (p : Post) : (s.post p).snapshots = s.snapshots := rfl
@[simp] theorem State.post_completions (s : State) (p : Post) : (s.post p).completions = s.completions := rfl
@[simp] theorem State.post_lineKeys (s : State) (p : Post) : (s.post p).lineKeys = s.lineKeys := rfl
@[simp] theorem State.post_locks (s : State) (p : Post) : (s.post p).locks = s.locks := rfl
@[simp] theorem State.post_contexts (s : State) (p : Post) : (s.post p).contexts = s.contexts := rfl
@[simp] theorem State.post_launches (s : State) (p : Post) : (s.post p).launches = s.launches := rfl
@[simp] theorem State.post_stooks (s : State) (p : Post) : (s.post p).stooks = s.stooks := rfl
@[simp] theorem State.post_cores (s : State) (p : Post) : (s.post p).cores = s.cores := rfl
@[simp] theorem State.post_dies (s : State) (p : Post) : (s.post p).dies = s.dies := rfl
@[simp] theorem State.post_clusterTlbs (s : State) (p : Post) : (s.post p).clusterTlbs = s.clusterTlbs := rfl
@[simp] theorem State.post_wuNext (s : State) (p : Post) : (s.post p).wuNext = s.wuNext := rfl
@[simp] theorem State.post_faults (s : State) (p : Post) : (s.post p).faults = s.faults := rfl
@[simp] theorem State.post_nextFault (s : State) (p : Post) : (s.post p).nextFault = s.nextFault := rfl
@[simp] theorem State.post_nextTicket (s : State) (p : Post) : (s.post p).nextTicket = s.nextTicket := rfl
@[simp] theorem State.post_lastServed (s : State) (p : Post) : (s.post p).lastServed = s.lastServed := rfl
@[simp] theorem State.post_inbox (s : State) (p : Post) : (s.post p).inbox = s.inbox := rfl
@[simp] theorem State.post_transfers (s : State) (p : Post) : (s.post p).transfers = s.transfers := rfl
@[simp] theorem State.post_pending (s : State) (p : Post) : (s.post p).pending = s.pending := rfl
@[simp] theorem State.post_sent (s : State) (p : Post) : (s.post p).sent = s.sent ++ [p] := rfl
@[simp] theorem State.post_svc (s : State) (p : Post) : (s.post p).svc = s.svc := rfl
@[simp] theorem State.post_agenda (s : State) (p : Post) : (s.post p).agenda = s.agenda := rfl
@[simp] theorem State.post_focus (s : State) (p : Post) : (s.post p).focus = s.focus := rfl
@[simp] theorem State.post_turn (s : State) (p : Post) : (s.post p).turn = s.turn := rfl
@[simp] theorem State.post_scan (s : State) (p : Post) : (s.post p).scan = s.scan := rfl
@[simp] theorem State.post_free (s : State) (p : Post) : (s.post p).free = s.free := rfl
@[simp] theorem State.post_next (s : State) (p : Post) : (s.post p).next = s.next := rfl

/-! ### Locks given up -/

@[simp] theorem State.unlock_powered (s : State) (u i : Nat) (m : LaneMask) : (s.unlock u i m).powered = s.powered := rfl
@[simp] theorem State.unlock_mem (s : State) (u i : Nat) (m : LaneMask) : (s.unlock u i m).mem = s.mem := rfl
@[simp] theorem State.unlock_staging (s : State) (u i : Nat) (m : LaneMask) : (s.unlock u i m).staging = s.staging := rfl
@[simp] theorem State.unlock_volatile (s : State) (u i : Nat) (m : LaneMask) : (s.unlock u i m).volatile = s.volatile := rfl
@[simp] theorem State.unlock_barrier (s : State) (u i : Nat) (m : LaneMask) : (s.unlock u i m).barrier = s.barrier := rfl
@[simp] theorem State.unlock_snapshots (s : State) (u i : Nat) (m : LaneMask) : (s.unlock u i m).snapshots = s.snapshots := rfl
@[simp] theorem State.unlock_completions (s : State) (u i : Nat) (m : LaneMask) : (s.unlock u i m).completions = s.completions := rfl
@[simp] theorem State.unlock_lineKeys (s : State) (u i : Nat) (m : LaneMask) : (s.unlock u i m).lineKeys = s.lineKeys := rfl
@[simp] theorem State.unlock_contexts (s : State) (u i : Nat) (m : LaneMask) : (s.unlock u i m).contexts = s.contexts := rfl
@[simp] theorem State.unlock_launches (s : State) (u i : Nat) (m : LaneMask) : (s.unlock u i m).launches = s.launches := rfl
@[simp] theorem State.unlock_stooks (s : State) (u i : Nat) (m : LaneMask) : (s.unlock u i m).stooks = s.stooks := rfl
@[simp] theorem State.unlock_cores (s : State) (u i : Nat) (m : LaneMask) : (s.unlock u i m).cores = s.cores := rfl
@[simp] theorem State.unlock_dies (s : State) (u i : Nat) (m : LaneMask) : (s.unlock u i m).dies = s.dies := rfl
@[simp] theorem State.unlock_clusterTlbs (s : State) (u i : Nat) (m : LaneMask) : (s.unlock u i m).clusterTlbs = s.clusterTlbs := rfl
@[simp] theorem State.unlock_wuNext (s : State) (u i : Nat) (m : LaneMask) : (s.unlock u i m).wuNext = s.wuNext := rfl
@[simp] theorem State.unlock_faults (s : State) (u i : Nat) (m : LaneMask) : (s.unlock u i m).faults = s.faults := rfl
@[simp] theorem State.unlock_nextFault (s : State) (u i : Nat) (m : LaneMask) : (s.unlock u i m).nextFault = s.nextFault := rfl
@[simp] theorem State.unlock_nextTicket (s : State) (u i : Nat) (m : LaneMask) : (s.unlock u i m).nextTicket = s.nextTicket := rfl
@[simp] theorem State.unlock_lastServed (s : State) (u i : Nat) (m : LaneMask) : (s.unlock u i m).lastServed = s.lastServed := rfl
@[simp] theorem State.unlock_inbox (s : State) (u i : Nat) (m : LaneMask) : (s.unlock u i m).inbox = s.inbox := rfl
@[simp] theorem State.unlock_transfers (s : State) (u i : Nat) (m : LaneMask) : (s.unlock u i m).transfers = s.transfers := rfl
@[simp] theorem State.unlock_pending (s : State) (u i : Nat) (m : LaneMask) : (s.unlock u i m).pending = s.pending := rfl
@[simp] theorem State.unlock_sent (s : State) (u i : Nat) (m : LaneMask) : (s.unlock u i m).sent = s.sent := rfl
@[simp] theorem State.unlock_svc (s : State) (u i : Nat) (m : LaneMask) : (s.unlock u i m).svc = s.svc := rfl
@[simp] theorem State.unlock_agenda (s : State) (u i : Nat) (m : LaneMask) : (s.unlock u i m).agenda = s.agenda := rfl
@[simp] theorem State.unlock_focus (s : State) (u i : Nat) (m : LaneMask) : (s.unlock u i m).focus = s.focus := rfl
@[simp] theorem State.unlock_turn (s : State) (u i : Nat) (m : LaneMask) : (s.unlock u i m).turn = s.turn := rfl
@[simp] theorem State.unlock_scan (s : State) (u i : Nat) (m : LaneMask) : (s.unlock u i m).scan = s.scan := rfl
@[simp] theorem State.unlock_free (s : State) (u i : Nat) (m : LaneMask) : (s.unlock u i m).free = s.free := rfl
@[simp] theorem State.unlock_next (s : State) (u i : Nat) (m : LaneMask) : (s.unlock u i m).next = s.next := rfl

/-! ### A sheaf of a stook -/

@[simp] theorem Stook.modSheaf_uid (k : Stook) (i : Nat) (f : Sheaf → Sheaf) : (k.modSheaf i f).uid = k.uid := rfl
@[simp] theorem Stook.modSheaf_ctx (k : Stook) (i : Nat) (f : Sheaf → Sheaf) : (k.modSheaf i f).ctx = k.ctx := rfl
@[simp] theorem Stook.modSheaf_launch (k : Stook) (i : Nat) (f : Sheaf → Sheaf) : (k.modSheaf i f).launch = k.launch := rfl
@[simp] theorem Stook.modSheaf_stookId (k : Stook) (i : Nat) (f : Sheaf → Sheaf) : (k.modSheaf i f).stookId = k.stookId := rfl
@[simp] theorem Stook.modSheaf_core (k : Stook) (i : Nat) (f : Sheaf → Sheaf) : (k.modSheaf i f).core = k.core := rfl
@[simp] theorem Stook.modSheaf_place (k : Stook) (i : Nat) (f : Sheaf → Sheaf) : (k.modSheaf i f).place = k.place := rfl
@[simp] theorem Stook.modSheaf_scratch (k : Stook) (i : Nat) (f : Sheaf → Sheaf) : (k.modSheaf i f).scratch = k.scratch := rfl
@[simp] theorem Stook.modSheaf_scratchBytes (k : Stook) (i : Nat) (f : Sheaf → Sheaf) : (k.modSheaf i f).scratchBytes = k.scratchBytes := rfl
@[simp] theorem Stook.modSheaf_barriers (k : Stook) (i : Nat) (f : Sheaf → Sheaf) : (k.modSheaf i f).barriers = k.barriers := rfl
@[simp] theorem Stook.modSheaf_cbufs (k : Stook) (i : Nat) (f : Sheaf → Sheaf) : (k.modSheaf i f).cbufs = k.cbufs := rfl
@[simp] theorem Stook.modSheaf_records (k : Stook) (i : Nat) (f : Sheaf → Sheaf) : (k.modSheaf i f).records = k.records := rfl
@[simp] theorem Stook.modSheaf_sheaves (k : Stook) (i : Nat) (f : Sheaf → Sheaf) : (k.modSheaf i f).sheaves = k.sheaves.modify i f := rfl
@[simp] theorem Stook.modSheaf_resident (k : Stook) (i : Nat) (f : Sheaf → Sheaf) : (k.modSheaf i f).resident = k.resident := rfl
@[simp] theorem Stook.modSheaf_stopAll (k : Stook) (i : Nat) (f : Sheaf → Sheaf) : (k.modSheaf i f).stopAll = k.stopAll := rfl
@[simp] theorem Stook.modSheaf_stopping (k : Stook) (i : Nat) (f : Sheaf → Sheaf) : (k.modSheaf i f).stopping = k.stopping := rfl
@[simp] theorem Stook.modSheaf_reserve (k : Stook) (i : Nat) (f : Sheaf → Sheaf) : (k.modSheaf i f).reserve = k.reserve := rfl
@[simp] theorem Stook.modSheaf_secondary (k : Stook) (i : Nat) (f : Sheaf → Sheaf) : (k.modSheaf i f).secondary = k.secondary := rfl
@[simp] theorem Stook.modSheaf_twin (k : Stook) (i : Nat) (f : Sheaf → Sheaf) : (k.modSheaf i f).twin = k.twin := rfl
@[simp] theorem Stook.modSheaf_window (k : Stook) (i : Nat) (f : Sheaf → Sheaf) : (k.modSheaf i f).window = k.window := rfl
@[simp] theorem Stook.modSheaf_digest (k : Stook) (i : Nat) (f : Sheaf → Sheaf) : (k.modSheaf i f).digest = k.digest := rfl
@[simp] theorem Stook.modSheaf_stores (k : Stook) (i : Nat) (f : Sheaf → Sheaf) : (k.modSheaf i f).stores = k.stores := rfl
@[simp] theorem Stook.modSheaf_windowStores (k : Stook) (i : Nat) (f : Sheaf → Sheaf) : (k.modSheaf i f).windowStores = k.windowStores := rfl
@[simp] theorem Stook.modSheaf_atPoint (k : Stook) (i : Nat) (f : Sheaf → Sheaf) : (k.modSheaf i f).atPoint = k.atPoint := rfl
@[simp] theorem Stook.modSheaf_passPoint (k : Stook) (i : Nat) (f : Sheaf → Sheaf) : (k.modSheaf i f).passPoint = k.passPoint := rfl
@[simp] theorem Stook.modSheaf_heldStores (k : Stook) (i : Nat) (f : Sheaf → Sheaf) : (k.modSheaf i f).heldStores = k.heldStores := rfl
@[simp] theorem Stook.modSheaf_rerun (k : Stook) (i : Nat) (f : Sheaf → Sheaf) : (k.modSheaf i f).rerun = k.rerun := rfl

/-! ### A barrier -/

@[simp] theorem Stook.setBarrier_uid (k : Stook) (n : Nat) (b : Barrier) : (k.setBarrier n b).uid = k.uid := rfl
@[simp] theorem Stook.setBarrier_ctx (k : Stook) (n : Nat) (b : Barrier) : (k.setBarrier n b).ctx = k.ctx := rfl
@[simp] theorem Stook.setBarrier_launch (k : Stook) (n : Nat) (b : Barrier) : (k.setBarrier n b).launch = k.launch := rfl
@[simp] theorem Stook.setBarrier_stookId (k : Stook) (n : Nat) (b : Barrier) : (k.setBarrier n b).stookId = k.stookId := rfl
@[simp] theorem Stook.setBarrier_core (k : Stook) (n : Nat) (b : Barrier) : (k.setBarrier n b).core = k.core := rfl
@[simp] theorem Stook.setBarrier_place (k : Stook) (n : Nat) (b : Barrier) : (k.setBarrier n b).place = k.place := rfl
@[simp] theorem Stook.setBarrier_scratch (k : Stook) (n : Nat) (b : Barrier) : (k.setBarrier n b).scratch = k.scratch := rfl
@[simp] theorem Stook.setBarrier_scratchBytes (k : Stook) (n : Nat) (b : Barrier) : (k.setBarrier n b).scratchBytes = k.scratchBytes := rfl
@[simp] theorem Stook.setBarrier_barriers (k : Stook) (n : Nat) (b : Barrier) : (k.setBarrier n b).barriers = assocSet k.barriers n b := rfl
@[simp] theorem Stook.setBarrier_cbufs (k : Stook) (n : Nat) (b : Barrier) : (k.setBarrier n b).cbufs = k.cbufs := rfl
@[simp] theorem Stook.setBarrier_records (k : Stook) (n : Nat) (b : Barrier) : (k.setBarrier n b).records = k.records := rfl
@[simp] theorem Stook.setBarrier_sheaves (k : Stook) (n : Nat) (b : Barrier) : (k.setBarrier n b).sheaves = k.sheaves := rfl
@[simp] theorem Stook.setBarrier_resident (k : Stook) (n : Nat) (b : Barrier) : (k.setBarrier n b).resident = k.resident := rfl
@[simp] theorem Stook.setBarrier_stopAll (k : Stook) (n : Nat) (b : Barrier) : (k.setBarrier n b).stopAll = k.stopAll := rfl
@[simp] theorem Stook.setBarrier_stopping (k : Stook) (n : Nat) (b : Barrier) : (k.setBarrier n b).stopping = k.stopping := rfl
@[simp] theorem Stook.setBarrier_reserve (k : Stook) (n : Nat) (b : Barrier) : (k.setBarrier n b).reserve = k.reserve := rfl
@[simp] theorem Stook.setBarrier_secondary (k : Stook) (n : Nat) (b : Barrier) : (k.setBarrier n b).secondary = k.secondary := rfl
@[simp] theorem Stook.setBarrier_twin (k : Stook) (n : Nat) (b : Barrier) : (k.setBarrier n b).twin = k.twin := rfl
@[simp] theorem Stook.setBarrier_window (k : Stook) (n : Nat) (b : Barrier) : (k.setBarrier n b).window = k.window := rfl
@[simp] theorem Stook.setBarrier_digest (k : Stook) (n : Nat) (b : Barrier) : (k.setBarrier n b).digest = k.digest := rfl
@[simp] theorem Stook.setBarrier_stores (k : Stook) (n : Nat) (b : Barrier) : (k.setBarrier n b).stores = k.stores := rfl
@[simp] theorem Stook.setBarrier_windowStores (k : Stook) (n : Nat) (b : Barrier) : (k.setBarrier n b).windowStores = k.windowStores := rfl
@[simp] theorem Stook.setBarrier_atPoint (k : Stook) (n : Nat) (b : Barrier) : (k.setBarrier n b).atPoint = k.atPoint := rfl
@[simp] theorem Stook.setBarrier_passPoint (k : Stook) (n : Nat) (b : Barrier) : (k.setBarrier n b).passPoint = k.passPoint := rfl
@[simp] theorem Stook.setBarrier_heldStores (k : Stook) (n : Nat) (b : Barrier) : (k.setBarrier n b).heldStores = k.heldStores := rfl
@[simp] theorem Stook.setBarrier_rerun (k : Stook) (n : Nat) (b : Barrier) : (k.setBarrier n b).rerun = k.rerun := rfl

/-! ### A circular buffer -/

@[simp] theorem Stook.setCbuf_uid (k : Stook) (n : Nat) (b : CBuf) : (k.setCbuf n b).uid = k.uid := rfl
@[simp] theorem Stook.setCbuf_ctx (k : Stook) (n : Nat) (b : CBuf) : (k.setCbuf n b).ctx = k.ctx := rfl
@[simp] theorem Stook.setCbuf_launch (k : Stook) (n : Nat) (b : CBuf) : (k.setCbuf n b).launch = k.launch := rfl
@[simp] theorem Stook.setCbuf_stookId (k : Stook) (n : Nat) (b : CBuf) : (k.setCbuf n b).stookId = k.stookId := rfl
@[simp] theorem Stook.setCbuf_core (k : Stook) (n : Nat) (b : CBuf) : (k.setCbuf n b).core = k.core := rfl
@[simp] theorem Stook.setCbuf_place (k : Stook) (n : Nat) (b : CBuf) : (k.setCbuf n b).place = k.place := rfl
@[simp] theorem Stook.setCbuf_scratch (k : Stook) (n : Nat) (b : CBuf) : (k.setCbuf n b).scratch = k.scratch := rfl
@[simp] theorem Stook.setCbuf_scratchBytes (k : Stook) (n : Nat) (b : CBuf) : (k.setCbuf n b).scratchBytes = k.scratchBytes := rfl
@[simp] theorem Stook.setCbuf_barriers (k : Stook) (n : Nat) (b : CBuf) : (k.setCbuf n b).barriers = k.barriers := rfl
@[simp] theorem Stook.setCbuf_cbufs (k : Stook) (n : Nat) (b : CBuf) : (k.setCbuf n b).cbufs = assocSet k.cbufs n b := rfl
@[simp] theorem Stook.setCbuf_records (k : Stook) (n : Nat) (b : CBuf) : (k.setCbuf n b).records = k.records := rfl
@[simp] theorem Stook.setCbuf_sheaves (k : Stook) (n : Nat) (b : CBuf) : (k.setCbuf n b).sheaves = k.sheaves := rfl
@[simp] theorem Stook.setCbuf_resident (k : Stook) (n : Nat) (b : CBuf) : (k.setCbuf n b).resident = k.resident := rfl
@[simp] theorem Stook.setCbuf_stopAll (k : Stook) (n : Nat) (b : CBuf) : (k.setCbuf n b).stopAll = k.stopAll := rfl
@[simp] theorem Stook.setCbuf_stopping (k : Stook) (n : Nat) (b : CBuf) : (k.setCbuf n b).stopping = k.stopping := rfl
@[simp] theorem Stook.setCbuf_reserve (k : Stook) (n : Nat) (b : CBuf) : (k.setCbuf n b).reserve = k.reserve := rfl
@[simp] theorem Stook.setCbuf_secondary (k : Stook) (n : Nat) (b : CBuf) : (k.setCbuf n b).secondary = k.secondary := rfl
@[simp] theorem Stook.setCbuf_twin (k : Stook) (n : Nat) (b : CBuf) : (k.setCbuf n b).twin = k.twin := rfl
@[simp] theorem Stook.setCbuf_window (k : Stook) (n : Nat) (b : CBuf) : (k.setCbuf n b).window = k.window := rfl
@[simp] theorem Stook.setCbuf_digest (k : Stook) (n : Nat) (b : CBuf) : (k.setCbuf n b).digest = k.digest := rfl
@[simp] theorem Stook.setCbuf_stores (k : Stook) (n : Nat) (b : CBuf) : (k.setCbuf n b).stores = k.stores := rfl
@[simp] theorem Stook.setCbuf_windowStores (k : Stook) (n : Nat) (b : CBuf) : (k.setCbuf n b).windowStores = k.windowStores := rfl
@[simp] theorem Stook.setCbuf_atPoint (k : Stook) (n : Nat) (b : CBuf) : (k.setCbuf n b).atPoint = k.atPoint := rfl
@[simp] theorem Stook.setCbuf_passPoint (k : Stook) (n : Nat) (b : CBuf) : (k.setCbuf n b).passPoint = k.passPoint := rfl
@[simp] theorem Stook.setCbuf_heldStores (k : Stook) (n : Nat) (b : CBuf) : (k.setCbuf n b).heldStores = k.heldStores := rfl
@[simp] theorem Stook.setCbuf_rerun (k : Stook) (n : Nat) (b : CBuf) : (k.setCbuf n b).rerun = k.rerun := rfl

/-! ### Lanes -/

@[simp] theorem Sheaf.modLanes_lanes (h : Sheaf) (m : LaneMask) (f : Nat → Lane → Lane) : (h.modLanes m f).lanes = h.lanes.mapIdx fun l x => if m.getLsbD l then f l x else x := rfl
@[simp] theorem Sheaf.modLanes_v (h : Sheaf) (m : LaneMask) (f : Nat → Lane → Lane) : (h.modLanes m f).v = h.v := rfl
@[simp] theorem Sheaf.modLanes_s (h : Sheaf) (m : LaneMask) (f : Nat → Lane → Lane) : (h.modLanes m f).s = h.s := rfl
@[simp] theorem Sheaf.modLanes_m (h : Sheaf) (m : LaneMask) (f : Nat → Lane → Lane) : (h.modLanes m f).m = h.m := rfl
@[simp] theorem Sheaf.modLanes_frm (h : Sheaf) (m : LaneMask) (f : Nat → Lane → Lane) : (h.modLanes m f).frm = h.frm := rfl
@[simp] theorem Sheaf.modLanes_fx (h : Sheaf) (m : LaneMask) (f : Nat → Lane → Lane) : (h.modLanes m f).fx = h.fx := rfl
@[simp] theorem Sheaf.modLanes_retired (h : Sheaf) (m : LaneMask) (f : Nat → Lane → Lane) : (h.modLanes m f).retired = h.retired := rfl
@[simp] theorem Sheaf.modLanes_issues (h : Sheaf) (m : LaneMask) (f : Nat → Lane → Lane) : (h.modLanes m f).issues = h.issues := rfl
@[simp] theorem Sheaf.modLanes_bound (h : Sheaf) (m : LaneMask) (f : Nat → Lane → Lane) : (h.modLanes m f).bound = h.bound := rfl
@[simp] theorem Sheaf.modLanes_spilled (h : Sheaf) (m : LaneMask) (f : Nat → Lane → Lane) : (h.modLanes m f).spilled = h.spilled := rfl
@[simp] theorem Sheaf.modLanes_freed (h : Sheaf) (m : LaneMask) (f : Nat → Lane → Lane) : (h.modLanes m f).freed = h.freed := rfl
@[simp] theorem Sheaf.modLanes_role (h : Sheaf) (m : LaneMask) (f : Nat → Lane → Lane) : (h.modLanes m f).role = h.role := rfl
@[simp] theorem Sheaf.modLanes_budget (h : Sheaf) (m : LaneMask) (f : Nat → Lane → Lane) : (h.modLanes m f).budget = h.budget := rfl
@[simp] theorem Sheaf.modLanes_slot (h : Sheaf) (m : LaneMask) (f : Nat → Lane → Lane) : (h.modLanes m f).slot = h.slot := rfl
@[simp] theorem Sheaf.modLanes_age (h : Sheaf) (m : LaneMask) (f : Nat → Lane → Lane) : (h.modLanes m f).age = h.age := rfl
@[simp] theorem Sheaf.modLanes_yielded (h : Sheaf) (m : LaneMask) (f : Nat → Lane → Lane) : (h.modLanes m f).yielded = h.yielded := rfl
@[simp] theorem Sheaf.modLanes_queue (h : Sheaf) (m : LaneMask) (f : Nat → Lane → Lane) : (h.modLanes m f).queue = h.queue := rfl

/-! ### A lane -/

@[simp] theorem Sheaf.modLane_lanes (h : Sheaf) (l : Nat) (f : Lane → Lane) : (h.modLane l f).lanes = h.lanes.modify l f := rfl
@[simp] theorem Sheaf.modLane_v (h : Sheaf) (l : Nat) (f : Lane → Lane) : (h.modLane l f).v = h.v := rfl
@[simp] theorem Sheaf.modLane_s (h : Sheaf) (l : Nat) (f : Lane → Lane) : (h.modLane l f).s = h.s := rfl
@[simp] theorem Sheaf.modLane_m (h : Sheaf) (l : Nat) (f : Lane → Lane) : (h.modLane l f).m = h.m := rfl
@[simp] theorem Sheaf.modLane_frm (h : Sheaf) (l : Nat) (f : Lane → Lane) : (h.modLane l f).frm = h.frm := rfl
@[simp] theorem Sheaf.modLane_fx (h : Sheaf) (l : Nat) (f : Lane → Lane) : (h.modLane l f).fx = h.fx := rfl
@[simp] theorem Sheaf.modLane_retired (h : Sheaf) (l : Nat) (f : Lane → Lane) : (h.modLane l f).retired = h.retired := rfl
@[simp] theorem Sheaf.modLane_issues (h : Sheaf) (l : Nat) (f : Lane → Lane) : (h.modLane l f).issues = h.issues := rfl
@[simp] theorem Sheaf.modLane_bound (h : Sheaf) (l : Nat) (f : Lane → Lane) : (h.modLane l f).bound = h.bound := rfl
@[simp] theorem Sheaf.modLane_spilled (h : Sheaf) (l : Nat) (f : Lane → Lane) : (h.modLane l f).spilled = h.spilled := rfl
@[simp] theorem Sheaf.modLane_freed (h : Sheaf) (l : Nat) (f : Lane → Lane) : (h.modLane l f).freed = h.freed := rfl
@[simp] theorem Sheaf.modLane_role (h : Sheaf) (l : Nat) (f : Lane → Lane) : (h.modLane l f).role = h.role := rfl
@[simp] theorem Sheaf.modLane_budget (h : Sheaf) (l : Nat) (f : Lane → Lane) : (h.modLane l f).budget = h.budget := rfl
@[simp] theorem Sheaf.modLane_slot (h : Sheaf) (l : Nat) (f : Lane → Lane) : (h.modLane l f).slot = h.slot := rfl
@[simp] theorem Sheaf.modLane_age (h : Sheaf) (l : Nat) (f : Lane → Lane) : (h.modLane l f).age = h.age := rfl
@[simp] theorem Sheaf.modLane_yielded (h : Sheaf) (l : Nat) (f : Lane → Lane) : (h.modLane l f).yielded = h.yielded := rfl
@[simp] theorem Sheaf.modLane_queue (h : Sheaf) (l : Nat) (f : Lane → Lane) : (h.modLane l f).queue = h.queue := rfl

/-! ### A scalar register -/

@[simp] theorem Sheaf.ws_lanes (h : Sheaf) (n : Nat) (x : Word) : (h.ws n x).lanes = h.lanes := rfl
@[simp] theorem Sheaf.ws_v (h : Sheaf) (n : Nat) (x : Word) : (h.ws n x).v = h.v := rfl
@[simp] theorem Sheaf.ws_s (h : Sheaf) (n : Nat) (x : Word) : (h.ws n x).s = Bank.set h.s n x := rfl
@[simp] theorem Sheaf.ws_m (h : Sheaf) (n : Nat) (x : Word) : (h.ws n x).m = h.m := rfl
@[simp] theorem Sheaf.ws_frm (h : Sheaf) (n : Nat) (x : Word) : (h.ws n x).frm = h.frm := rfl
@[simp] theorem Sheaf.ws_fx (h : Sheaf) (n : Nat) (x : Word) : (h.ws n x).fx = h.fx := rfl
@[simp] theorem Sheaf.ws_retired (h : Sheaf) (n : Nat) (x : Word) : (h.ws n x).retired = h.retired := rfl
@[simp] theorem Sheaf.ws_issues (h : Sheaf) (n : Nat) (x : Word) : (h.ws n x).issues = h.issues := rfl
@[simp] theorem Sheaf.ws_bound (h : Sheaf) (n : Nat) (x : Word) : (h.ws n x).bound = h.bound := rfl
@[simp] theorem Sheaf.ws_spilled (h : Sheaf) (n : Nat) (x : Word) : (h.ws n x).spilled = h.spilled := rfl
@[simp] theorem Sheaf.ws_freed (h : Sheaf) (n : Nat) (x : Word) : (h.ws n x).freed = h.freed := rfl
@[simp] theorem Sheaf.ws_role (h : Sheaf) (n : Nat) (x : Word) : (h.ws n x).role = h.role := rfl
@[simp] theorem Sheaf.ws_budget (h : Sheaf) (n : Nat) (x : Word) : (h.ws n x).budget = h.budget := rfl
@[simp] theorem Sheaf.ws_slot (h : Sheaf) (n : Nat) (x : Word) : (h.ws n x).slot = h.slot := rfl
@[simp] theorem Sheaf.ws_age (h : Sheaf) (n : Nat) (x : Word) : (h.ws n x).age = h.age := rfl
@[simp] theorem Sheaf.ws_yielded (h : Sheaf) (n : Nat) (x : Word) : (h.ws n x).yielded = h.yielded := rfl
@[simp] theorem Sheaf.ws_queue (h : Sheaf) (n : Nat) (x : Word) : (h.ws n x).queue = h.queue := rfl

/-! ### A mask register -/

@[simp] theorem Sheaf.wm_lanes (h : Sheaf) (n : Nat) (x : LaneMask) : (h.wm n x).lanes = h.lanes := rfl
@[simp] theorem Sheaf.wm_v (h : Sheaf) (n : Nat) (x : LaneMask) : (h.wm n x).v = h.v := rfl
@[simp] theorem Sheaf.wm_s (h : Sheaf) (n : Nat) (x : LaneMask) : (h.wm n x).s = h.s := rfl
@[simp] theorem Sheaf.wm_m (h : Sheaf) (n : Nat) (x : LaneMask) : (h.wm n x).m = Bank.set h.m n x := rfl
@[simp] theorem Sheaf.wm_frm (h : Sheaf) (n : Nat) (x : LaneMask) : (h.wm n x).frm = h.frm := rfl
@[simp] theorem Sheaf.wm_fx (h : Sheaf) (n : Nat) (x : LaneMask) : (h.wm n x).fx = h.fx := rfl
@[simp] theorem Sheaf.wm_retired (h : Sheaf) (n : Nat) (x : LaneMask) : (h.wm n x).retired = h.retired := rfl
@[simp] theorem Sheaf.wm_issues (h : Sheaf) (n : Nat) (x : LaneMask) : (h.wm n x).issues = h.issues := rfl
@[simp] theorem Sheaf.wm_bound (h : Sheaf) (n : Nat) (x : LaneMask) : (h.wm n x).bound = h.bound := rfl
@[simp] theorem Sheaf.wm_spilled (h : Sheaf) (n : Nat) (x : LaneMask) : (h.wm n x).spilled = h.spilled := rfl
@[simp] theorem Sheaf.wm_freed (h : Sheaf) (n : Nat) (x : LaneMask) : (h.wm n x).freed = h.freed := rfl
@[simp] theorem Sheaf.wm_role (h : Sheaf) (n : Nat) (x : LaneMask) : (h.wm n x).role = h.role := rfl
@[simp] theorem Sheaf.wm_budget (h : Sheaf) (n : Nat) (x : LaneMask) : (h.wm n x).budget = h.budget := rfl
@[simp] theorem Sheaf.wm_slot (h : Sheaf) (n : Nat) (x : LaneMask) : (h.wm n x).slot = h.slot := rfl
@[simp] theorem Sheaf.wm_age (h : Sheaf) (n : Nat) (x : LaneMask) : (h.wm n x).age = h.age := rfl
@[simp] theorem Sheaf.wm_yielded (h : Sheaf) (n : Nat) (x : LaneMask) : (h.wm n x).yielded = h.yielded := rfl
@[simp] theorem Sheaf.wm_queue (h : Sheaf) (n : Nat) (x : LaneMask) : (h.wm n x).queue = h.queue := rfl

/-! ### A vector register of a lane -/

@[simp] theorem Sheaf.wv_lanes (h : Sheaf) (r l : Nat) (x : Word) : (h.wv r l x).lanes = h.lanes := rfl
@[simp] theorem Sheaf.wv_v (h : Sheaf) (r l : Nat) (x : Word) : (h.wv r l x).v = Bank.set h.v (32 * r + l) x := rfl
@[simp] theorem Sheaf.wv_s (h : Sheaf) (r l : Nat) (x : Word) : (h.wv r l x).s = h.s := rfl
@[simp] theorem Sheaf.wv_m (h : Sheaf) (r l : Nat) (x : Word) : (h.wv r l x).m = h.m := rfl
@[simp] theorem Sheaf.wv_frm (h : Sheaf) (r l : Nat) (x : Word) : (h.wv r l x).frm = h.frm := rfl
@[simp] theorem Sheaf.wv_fx (h : Sheaf) (r l : Nat) (x : Word) : (h.wv r l x).fx = h.fx := rfl
@[simp] theorem Sheaf.wv_retired (h : Sheaf) (r l : Nat) (x : Word) : (h.wv r l x).retired = h.retired := rfl
@[simp] theorem Sheaf.wv_issues (h : Sheaf) (r l : Nat) (x : Word) : (h.wv r l x).issues = h.issues := rfl
@[simp] theorem Sheaf.wv_bound (h : Sheaf) (r l : Nat) (x : Word) : (h.wv r l x).bound = h.bound := rfl
@[simp] theorem Sheaf.wv_spilled (h : Sheaf) (r l : Nat) (x : Word) : (h.wv r l x).spilled = h.spilled := rfl
@[simp] theorem Sheaf.wv_freed (h : Sheaf) (r l : Nat) (x : Word) : (h.wv r l x).freed = h.freed := rfl
@[simp] theorem Sheaf.wv_role (h : Sheaf) (r l : Nat) (x : Word) : (h.wv r l x).role = h.role := rfl
@[simp] theorem Sheaf.wv_budget (h : Sheaf) (r l : Nat) (x : Word) : (h.wv r l x).budget = h.budget := rfl
@[simp] theorem Sheaf.wv_slot (h : Sheaf) (r l : Nat) (x : Word) : (h.wv r l x).slot = h.slot := rfl
@[simp] theorem Sheaf.wv_age (h : Sheaf) (r l : Nat) (x : Word) : (h.wv r l x).age = h.age := rfl
@[simp] theorem Sheaf.wv_yielded (h : Sheaf) (r l : Nat) (x : Word) : (h.wv r l x).yielded = h.yielded := rfl
@[simp] theorem Sheaf.wv_queue (h : Sheaf) (r l : Nat) (x : Word) : (h.wv r l x).queue = h.queue := rfl

/-! ### RETIRED -/

@[simp] theorem Sheaf.count_lanes (h : Sheaf) : (h.count).lanes = h.lanes := rfl
@[simp] theorem Sheaf.count_v (h : Sheaf) : (h.count).v = h.v := rfl
@[simp] theorem Sheaf.count_s (h : Sheaf) : (h.count).s = h.s := rfl
@[simp] theorem Sheaf.count_m (h : Sheaf) : (h.count).m = h.m := rfl
@[simp] theorem Sheaf.count_frm (h : Sheaf) : (h.count).frm = h.frm := rfl
@[simp] theorem Sheaf.count_fx (h : Sheaf) : (h.count).fx = h.fx := rfl
@[simp] theorem Sheaf.count_retired (h : Sheaf) : (h.count).retired = h.retired + 1 := rfl
@[simp] theorem Sheaf.count_issues (h : Sheaf) : (h.count).issues = h.issues := rfl
@[simp] theorem Sheaf.count_bound (h : Sheaf) : (h.count).bound = h.bound := rfl
@[simp] theorem Sheaf.count_spilled (h : Sheaf) : (h.count).spilled = h.spilled := rfl
@[simp] theorem Sheaf.count_freed (h : Sheaf) : (h.count).freed = h.freed := rfl
@[simp] theorem Sheaf.count_role (h : Sheaf) : (h.count).role = h.role := rfl
@[simp] theorem Sheaf.count_budget (h : Sheaf) : (h.count).budget = h.budget := rfl
@[simp] theorem Sheaf.count_slot (h : Sheaf) : (h.count).slot = h.slot := rfl
@[simp] theorem Sheaf.count_age (h : Sheaf) : (h.count).age = h.age := rfl
@[simp] theorem Sheaf.count_yielded (h : Sheaf) : (h.count).yielded = h.yielded := rfl
@[simp] theorem Sheaf.count_queue (h : Sheaf) : (h.count).queue = h.queue := rfl

/-! ### FX -/

@[simp] theorem Sheaf.raise_lanes (h : Sheaf) (f : BitVec 5) : (h.raise f).lanes = h.lanes := rfl
@[simp] theorem Sheaf.raise_v (h : Sheaf) (f : BitVec 5) : (h.raise f).v = h.v := rfl
@[simp] theorem Sheaf.raise_s (h : Sheaf) (f : BitVec 5) : (h.raise f).s = h.s := rfl
@[simp] theorem Sheaf.raise_m (h : Sheaf) (f : BitVec 5) : (h.raise f).m = h.m := rfl
@[simp] theorem Sheaf.raise_frm (h : Sheaf) (f : BitVec 5) : (h.raise f).frm = h.frm := rfl
@[simp] theorem Sheaf.raise_fx (h : Sheaf) (f : BitVec 5) : (h.raise f).fx = h.fx ||| f.setWidth 32 := rfl
@[simp] theorem Sheaf.raise_retired (h : Sheaf) (f : BitVec 5) : (h.raise f).retired = h.retired := rfl
@[simp] theorem Sheaf.raise_issues (h : Sheaf) (f : BitVec 5) : (h.raise f).issues = h.issues := rfl
@[simp] theorem Sheaf.raise_bound (h : Sheaf) (f : BitVec 5) : (h.raise f).bound = h.bound := rfl
@[simp] theorem Sheaf.raise_spilled (h : Sheaf) (f : BitVec 5) : (h.raise f).spilled = h.spilled := rfl
@[simp] theorem Sheaf.raise_freed (h : Sheaf) (f : BitVec 5) : (h.raise f).freed = h.freed := rfl
@[simp] theorem Sheaf.raise_role (h : Sheaf) (f : BitVec 5) : (h.raise f).role = h.role := rfl
@[simp] theorem Sheaf.raise_budget (h : Sheaf) (f : BitVec 5) : (h.raise f).budget = h.budget := rfl
@[simp] theorem Sheaf.raise_slot (h : Sheaf) (f : BitVec 5) : (h.raise f).slot = h.slot := rfl
@[simp] theorem Sheaf.raise_age (h : Sheaf) (f : BitVec 5) : (h.raise f).age = h.age := rfl
@[simp] theorem Sheaf.raise_yielded (h : Sheaf) (f : BitVec 5) : (h.raise f).yielded = h.yielded := rfl
@[simp] theorem Sheaf.raise_queue (h : Sheaf) (f : BitVec 5) : (h.raise f).queue = h.queue := rfl

/-! ### Lanes past their word -/

@[simp] theorem Sheaf.nextLanes_lanes (h : Sheaf) (m : LaneMask) (n : Nat) (q : Nat → Option Word) : (h.nextLanes m n q).lanes = h.lanes.mapIdx fun l x => if m.getLsbD l then x.next n (q l) else x := rfl
@[simp] theorem Sheaf.nextLanes_v (h : Sheaf) (m : LaneMask) (n : Nat) (q : Nat → Option Word) : (h.nextLanes m n q).v = h.v := rfl
@[simp] theorem Sheaf.nextLanes_s (h : Sheaf) (m : LaneMask) (n : Nat) (q : Nat → Option Word) : (h.nextLanes m n q).s = h.s := rfl
@[simp] theorem Sheaf.nextLanes_m (h : Sheaf) (m : LaneMask) (n : Nat) (q : Nat → Option Word) : (h.nextLanes m n q).m = h.m := rfl
@[simp] theorem Sheaf.nextLanes_frm (h : Sheaf) (m : LaneMask) (n : Nat) (q : Nat → Option Word) : (h.nextLanes m n q).frm = h.frm := rfl
@[simp] theorem Sheaf.nextLanes_fx (h : Sheaf) (m : LaneMask) (n : Nat) (q : Nat → Option Word) : (h.nextLanes m n q).fx = h.fx := rfl
@[simp] theorem Sheaf.nextLanes_retired (h : Sheaf) (m : LaneMask) (n : Nat) (q : Nat → Option Word) : (h.nextLanes m n q).retired = h.retired := rfl
@[simp] theorem Sheaf.nextLanes_issues (h : Sheaf) (m : LaneMask) (n : Nat) (q : Nat → Option Word) : (h.nextLanes m n q).issues = h.issues := rfl
@[simp] theorem Sheaf.nextLanes_bound (h : Sheaf) (m : LaneMask) (n : Nat) (q : Nat → Option Word) : (h.nextLanes m n q).bound = h.bound := rfl
@[simp] theorem Sheaf.nextLanes_spilled (h : Sheaf) (m : LaneMask) (n : Nat) (q : Nat → Option Word) : (h.nextLanes m n q).spilled = h.spilled := rfl
@[simp] theorem Sheaf.nextLanes_freed (h : Sheaf) (m : LaneMask) (n : Nat) (q : Nat → Option Word) : (h.nextLanes m n q).freed = h.freed := rfl
@[simp] theorem Sheaf.nextLanes_role (h : Sheaf) (m : LaneMask) (n : Nat) (q : Nat → Option Word) : (h.nextLanes m n q).role = h.role := rfl
@[simp] theorem Sheaf.nextLanes_budget (h : Sheaf) (m : LaneMask) (n : Nat) (q : Nat → Option Word) : (h.nextLanes m n q).budget = h.budget := rfl
@[simp] theorem Sheaf.nextLanes_slot (h : Sheaf) (m : LaneMask) (n : Nat) (q : Nat → Option Word) : (h.nextLanes m n q).slot = h.slot := rfl
@[simp] theorem Sheaf.nextLanes_age (h : Sheaf) (m : LaneMask) (n : Nat) (q : Nat → Option Word) : (h.nextLanes m n q).age = h.age := rfl
@[simp] theorem Sheaf.nextLanes_yielded (h : Sheaf) (m : LaneMask) (n : Nat) (q : Nat → Option Word) : (h.nextLanes m n q).yielded = h.yielded := rfl
@[simp] theorem Sheaf.nextLanes_queue (h : Sheaf) (m : LaneMask) (n : Nat) (q : Nat → Option Word) : (h.nextLanes m n q).queue = h.queue := rfl

/-! ### A lane at another header -/

@[simp] theorem Lane.goto_age (x : Lane) (t : Word) : (x.goto t).age = x.age := rfl
@[simp] theorem Lane.goto_exitIssued (x : Lane) (t : Word) : (x.goto t).exitIssued = x.exitIssued := rfl
@[simp] theorem Lane.goto_exited (x : Lane) (t : Word) : (x.goto t).exited = x.exited := rfl
@[simp] theorem Lane.goto_stop (x : Lane) (t : Word) : (x.goto t).stop = x.stop := rfl
@[simp] theorem Lane.goto_hold (x : Lane) (t : Word) : (x.goto t).hold = x.hold := rfl
@[simp] theorem Lane.goto_issue (x : Lane) (t : Word) : (x.goto t).issue = x.issue := rfl
@[simp] theorem Lane.goto_withdrawn (x : Lane) (t : Word) : (x.goto t).withdrawn = x.withdrawn := rfl
@[simp] theorem Lane.goto_stepping (x : Lane) (t : Word) : (x.goto t).stepping = x.stepping := rfl
@[simp] theorem Lane.goto_yields (x : Lane) (t : Word) : (x.goto t).yields = x.yields := rfl
@[simp] theorem Lane.goto_pending (x : Lane) (t : Word) : (x.goto t).pending = x.pending := rfl
@[simp] theorem Lane.goto_fence (x : Lane) (t : Word) : (x.goto t).fence = x.fence := rfl
@[simp] theorem Lane.goto_persist (x : Lane) (t : Word) : (x.goto t).persist = x.persist := rfl
@[simp] theorem Lane.goto_epoch (x : Lane) (t : Word) : (x.goto t).epoch = x.epoch := rfl
@[simp] theorem Lane.goto_nvSince (x : Lane) (t : Word) : (x.goto t).nvSince = x.nvSince := rfl
@[simp] theorem Lane.goto_after (x : Lane) (t : Word) : (x.goto t).after = x.after := rfl
@[simp] theorem Lane.goto_monitor (x : Lane) (t : Word) : (x.goto t).monitor = x.monitor := rfl
@[simp] theorem Lane.goto_wake (x : Lane) (t : Word) : (x.goto t).wake = x.wake := rfl
@[simp] theorem Lane.goto_tx (x : Lane) (t : Word) : (x.goto t).tx = x.tx := rfl
@[simp] theorem Lane.goto_txrec (x : Lane) (t : Word) : (x.goto t).txrec = x.txrec := rfl
@[simp] theorem Lane.goto_txcode (x : Lane) (t : Word) : (x.goto t).txcode = x.txcode := rfl

@[simp] theorem Lane.goto_pc (x : Lane) (t : Word) : (x.goto t).pc = t := rfl
@[simp] theorem Lane.goto_inside (x : Lane) (t : Word) : (x.goto t).inside = false := rfl

/-! ### A lane past its word -/

@[simp] theorem Lane.next_age (x : Lane) (n : Nat) (q : Option Word) : (x.next n q).age = x.age := by unfold Lane.next; dsimp only; split <;> rfl
@[simp] theorem Lane.next_exitIssued (x : Lane) (n : Nat) (q : Option Word) : (x.next n q).exitIssued = x.exitIssued := by unfold Lane.next; dsimp only; split <;> rfl
@[simp] theorem Lane.next_exited (x : Lane) (n : Nat) (q : Option Word) : (x.next n q).exited = x.exited := by unfold Lane.next; dsimp only; split <;> rfl
@[simp] theorem Lane.next_stop (x : Lane) (n : Nat) (q : Option Word) : (x.next n q).stop = x.stop := by unfold Lane.next; dsimp only; split <;> rfl
@[simp] theorem Lane.next_hold (x : Lane) (n : Nat) (q : Option Word) : (x.next n q).hold = x.hold := by unfold Lane.next; dsimp only; split <;> rfl
@[simp] theorem Lane.next_issue (x : Lane) (n : Nat) (q : Option Word) : (x.next n q).issue = x.issue := by unfold Lane.next; dsimp only; split <;> rfl
@[simp] theorem Lane.next_withdrawn (x : Lane) (n : Nat) (q : Option Word) : (x.next n q).withdrawn = x.withdrawn := by unfold Lane.next; dsimp only; split <;> rfl
@[simp] theorem Lane.next_stepping (x : Lane) (n : Nat) (q : Option Word) : (x.next n q).stepping = x.stepping := by unfold Lane.next; dsimp only; split <;> rfl
@[simp] theorem Lane.next_yields (x : Lane) (n : Nat) (q : Option Word) : (x.next n q).yields = x.yields := by unfold Lane.next; dsimp only; split <;> rfl
@[simp] theorem Lane.next_pending (x : Lane) (n : Nat) (q : Option Word) : (x.next n q).pending = x.pending := by unfold Lane.next; dsimp only; split <;> rfl
@[simp] theorem Lane.next_fence (x : Lane) (n : Nat) (q : Option Word) : (x.next n q).fence = x.fence := by unfold Lane.next; dsimp only; split <;> rfl
@[simp] theorem Lane.next_persist (x : Lane) (n : Nat) (q : Option Word) : (x.next n q).persist = x.persist := by unfold Lane.next; dsimp only; split <;> rfl
@[simp] theorem Lane.next_epoch (x : Lane) (n : Nat) (q : Option Word) : (x.next n q).epoch = x.epoch := by unfold Lane.next; dsimp only; split <;> rfl
@[simp] theorem Lane.next_nvSince (x : Lane) (n : Nat) (q : Option Word) : (x.next n q).nvSince = x.nvSince := by unfold Lane.next; dsimp only; split <;> rfl
@[simp] theorem Lane.next_after (x : Lane) (n : Nat) (q : Option Word) : (x.next n q).after = x.after := by unfold Lane.next; dsimp only; split <;> rfl
@[simp] theorem Lane.next_monitor (x : Lane) (n : Nat) (q : Option Word) : (x.next n q).monitor = x.monitor := by unfold Lane.next; dsimp only; split <;> rfl
@[simp] theorem Lane.next_wake (x : Lane) (n : Nat) (q : Option Word) : (x.next n q).wake = x.wake := by unfold Lane.next; dsimp only; split <;> rfl
@[simp] theorem Lane.next_tx (x : Lane) (n : Nat) (q : Option Word) : (x.next n q).tx = x.tx := by unfold Lane.next; dsimp only; split <;> rfl
@[simp] theorem Lane.next_txrec (x : Lane) (n : Nat) (q : Option Word) : (x.next n q).txrec = x.txrec := by unfold Lane.next; dsimp only; split <;> rfl
@[simp] theorem Lane.next_txcode (x : Lane) (n : Nat) (q : Option Word) : (x.next n q).txcode = x.txcode := by unfold Lane.next; dsimp only; split <;> rfl

@[simp] theorem Lane.next_pc (x : Lane) (n : Nat) (q : Option Word) : (x.next n q).pc = x.pc + BitVec.ofNat 32 n := by
  unfold Lane.next; dsimp only; split <;> rfl

end Sys2Proof.Machine
end

