-- ==== Sys2Proof/Laws/Access.lean ====
section
/-! SUPPORT. Reading the state after an update of one stook, sheaf, lane, core, context or launch. -/

namespace Sys2Proof.Machine

open Sys2Proof

/-! ### Masks -/

theorem mem_lanesOf {m : LaneMask} {l : Nat} : l ∈ lanesOf m ↔ m.getLsbD l = true := by
  unfold lanesOf
  rw [List.mem_filter, List.mem_range]
  exact ⟨fun h => h.2, fun h => ⟨BitVec.lt_of_getLsbD h, h⟩⟩

theorem getLsbD_maskOf (ls : List Nat) (l : Nat) : (maskOf ls).getLsbD l = (decide (l < 32) && decide (l ∈ ls)) := by
  have key (ls : List Nat) (m : LaneMask) : (ls.foldl (fun m l => m ||| (1#32 <<< l)) m).getLsbD l
      = (m.getLsbD l || (decide (l < 32) && decide (l ∈ ls))) := by
    induction ls generalizing m with
    | nil => simp
    | cons a t ih =>
      rw [List.foldl_cons, ih, BitVec.getLsbD_or, BitVec.getLsbD_shiftLeft, Bool.or_assoc]
      congr 1
      by_cases h32 : l < 32
      · rcases Nat.lt_trichotomy l a with h | h | h
        · simp [h32, h, Nat.ne_of_lt h]
        · subst h; simp [h32]
        · have : (1#32).getLsbD (l - a) = false := by
            rw [BitVec.getLsbD_one]; simp; omega
          simp [h32, this, Nat.ne_of_gt h]
      · simp [h32]
  rw [maskOf, key]; simp

theorem getLsbD_maskFilter (m : LaneMask) (p : Nat → Bool) (l : Nat) :
    (maskFilter m p).getLsbD l = (m.getLsbD l && p l) := by
  rw [maskFilter, getLsbD_maskOf]
  by_cases h : m.getLsbD l = true
  · have h32 : l < 32 := BitVec.lt_of_getLsbD h
    by_cases hp : p l = true
    · simp only [List.mem_filter, mem_lanesOf, h, hp, h32, and_self, decide_true, Bool.and_self]
    · simp [List.mem_filter, mem_lanesOf, h, Bool.eq_false_iff.2 hp]
  · simp only [List.mem_filter, mem_lanesOf, Bool.eq_false_iff.2 h, Bool.false_eq_true, false_and, decide_false, Bool.and_false,
      Bool.false_and]

theorem maskFilter_eq_zero {m : LaneMask} {p : Nat → Bool} (h : ∀ l, m.getLsbD l = true → p l = false) :
    maskFilter m p = 0 := by
  apply BitVec.eq_of_getLsbD_eq
  intro l _
  rw [getLsbD_maskFilter]
  by_cases hm : m.getLsbD l = true
  · simp [h l hm]
  · simp [Bool.eq_false_iff.2 hm]

/-! ### Lists by key -/

/-- The first element with a key, after those with a key are replaced and keep it. -/
theorem find?_map_key {α : Type} (key : α → Nat) (f : α → α) (n m : Nat) (hf : ∀ a, key a = n → key (f a) = n) (l : List α) :
    (l.map fun a => if (key a == n) = true then f a else a).find? (fun a => key a == m)
      = (l.find? fun a => key a == m).map fun a => if m = n then f a else a := by
  induction l with
  | nil => rfl
  | cons a t ih =>
    rw [List.map_cons, List.find?_cons, List.find?_cons]
    by_cases ha : key a = n
    · by_cases hm : n = m
      · simp only [ha, beq_self_eq_true, if_true, hf a ha, hm, Option.map_some]
      · simp only [ha, beq_self_eq_true, if_true, hf a ha, beq_eq_false_iff_ne.2 hm]; exact ih
    · by_cases hm : key a = m
      · have : ¬ m = n := fun e => ha (hm.trans e)
        simp only [hm, beq_eq_false_iff_ne.2 this, beq_self_eq_true, Bool.false_eq_true, if_false, Option.map_some, this]
      · simp only [beq_eq_false_iff_ne.2 ha, Bool.false_eq_true, if_false, beq_eq_false_iff_ne.2 hm]; exact ih

theorem find?_none_of_any {α : Type} {p : α → Bool} {l : List α} (h : ¬ l.any p = true) : l.find? p = none := by
  rw [List.find?_eq_none]; intro c hc hcn; exact h (List.any_eq_true.2 ⟨c, hc, hcn⟩)

/-! ### Stooks and sheaves -/

theorem State.stook?_uid {s : State} {u : Nat} {k : Stook} (h : s.stook? u = some k) : k.uid = u := by
  have := List.find?_some h; simpa using this

theorem State.stook?_modStook (s : State) (u v : Nat) (f : Stook → Stook) (hf : ∀ k, (f k).uid = k.uid) :
    (s.modStook u f).stook? v = (s.stook? v).map fun k => if v = u then f k else k := by
  unfold State.stook?
  rw [State.modStook_stooks, find?_map_key Stook.uid f u v fun a ha => (hf a).trans ha]

theorem State.stook?_modSheaf (s : State) (u v i : Nat) (f : Sheaf → Sheaf) :
    (s.modSheaf u i f).stook? v = (s.stook? v).map fun k => if v = u then k.modSheaf i f else k :=
  State.stook?_modStook s u v _ fun _ => rfl

theorem Stook.sheaf_modSheaf (k : Stook) (i j : Nat) (f : Sheaf → Sheaf) :
    (k.modSheaf i f).sheaf j = if j = i ∧ i < k.sheaves.length then f (k.sheaf i) else k.sheaf j := by
  unfold Stook.sheaf Stook.modSheaf
  rw [List.getD_eq_getElem?_getD, List.getD_eq_getElem?_getD, List.getElem?_modify]
  by_cases h : i = j
  · subst h
    by_cases hl : i < k.sheaves.length
    · simp [hl]
    · simp [hl]
  · have : ¬ j = i := fun e => h e.symm
    simp [h, this]

theorem State.sheafAt_modSheaf_ne (s : State) {u v i j : Nat} (f : Sheaf → Sheaf) (h : (v, j) ≠ (u, i)) :
    (s.modSheaf u i f).sheafAt v j = s.sheafAt v j := by
  unfold State.sheafAt
  rw [State.stook?_modSheaf]
  cases s.stook? v with
  | none => rfl
  | some k =>
    by_cases hv : v = u
    · subst hv
      have hj : ¬ j = i := fun e => h (by rw [e])
      simp [Stook.sheaf_modSheaf, hj]
    · simp [hv]

theorem State.sheafAt_modSheaf_self {s : State} {u i : Nat} {k : Stook} (hk : s.stook? u = some k)
    (hi : i < k.sheaves.length) (f : Sheaf → Sheaf) : (s.modSheaf u i f).sheafAt u i = f (k.sheaf i) := by
  unfold State.sheafAt
  rw [State.stook?_modSheaf, hk]
  simp [Stook.sheaf_modSheaf, hi]

theorem State.sheafAt_of {s : State} {u : Nat} {k : Stook} (hk : s.stook? u = some k) (i : Nat) :
    s.sheafAt u i = k.sheaf i := by unfold State.sheafAt; rw [hk]; rfl

/-! ### Lanes -/

theorem Sheaf.lane_modLanes (h : Sheaf) (m : LaneMask) (f : Nat → Lane → Lane) (l : Nat) :
    (h.modLanes m f).lane l = if m.getLsbD l = true ∧ l < h.lanes.length then f l (h.lane l) else h.lane l := by
  unfold Sheaf.lane
  rw [Sheaf.modLanes_lanes, List.getD_eq_getElem?_getD, List.getD_eq_getElem?_getD, List.getElem?_mapIdx]
  by_cases hl : l < h.lanes.length
  · by_cases hm : m.getLsbD l = true
    · simp [hl, hm]
    · simp [hl, hm]
  · simp [hl]

theorem Sheaf.lane_nextLanes (h : Sheaf) (m : LaneMask) (n : Nat) (q : Nat → Option Word) (l : Nat) :
    (h.nextLanes m n q).lane l
      = if m.getLsbD l = true ∧ l < h.lanes.length then (h.lane l).next n (q l) else h.lane l :=
  Sheaf.lane_modLanes h m _ l

theorem Sheaf.lane_congr {h g : Sheaf} (e : h.lanes = g.lanes) (l : Nat) : h.lane l = g.lane l := by
  unfold Sheaf.lane; rw [e]

theorem Sheaf.modLanes_length (h : Sheaf) (m : LaneMask) (f : Nat → Lane → Lane) :
    (h.modLanes m f).lanes.length = h.lanes.length := by simp

/-! ### Registers -/

theorem Sheaf.rv_wv (h : Sheaf) {r l r' l' : Nat} (hl : l < 32) (hl' : l' < 32) (x : Word) :
    (h.wv r l x).rv r' l' = if r' = r ∧ l' = l then x else h.rv r' l' := by
  unfold Sheaf.rv Sheaf.wv
  rw [Bank.get_set]
  by_cases e : r' = r ∧ l' = l
  · rw [if_pos e, if_pos (by rw [e.1, e.2])]
  · rw [if_neg e, if_neg (fun c => e ⟨by omega, by omega⟩)]

theorem Sheaf.rs_ws (h : Sheaf) (n m : Nat) (x : Word) : (h.ws n x).rs m = if m = n then x else h.rs m := Bank.get_set ..
theorem Sheaf.rm_wm (h : Sheaf) (n m : Nat) (x : LaneMask) : (h.wm n x).rm m = if m = n then x else h.rm m := Bank.get_set ..

theorem Sheaf.rv_congr {h g : Sheaf} (e : h.v = g.v) (r l : Nat) : h.rv r l = g.rv r l := by unfold Sheaf.rv; rw [e]
theorem Sheaf.rs_congr {h g : Sheaf} (e : h.s = g.s) (n : Nat) : h.rs n = g.rs n := by unfold Sheaf.rs; rw [e]
theorem Sheaf.rm_congr {h g : Sheaf} (e : h.m = g.m) (n : Nat) : h.rm n = g.rm n := by unfold Sheaf.rm; rw [e]

/-! ### Cores, contexts, launches -/

theorem State.core_modCore (s : State) (n m : Nat) (f : Core → Core) (hf : ∀ c, (f c).num = c.num) :
    (s.modCore n f).core m = if m = n then f (s.core n) else s.core m := by
  unfold State.core State.modCore
  split
  · next h =>
    dsimp only
    rw [find?_map_key Core.num f n m fun a ha => (hf a).trans ha]
    by_cases hm : m = n
    · subst hm
      obtain ⟨c, hc⟩ := Option.isSome_iff_exists.1 (List.find?_isSome.2 (List.any_eq_true.1 h))
      simp [hc]
    · simp [hm]
  · next h =>
    dsimp only
    rw [List.find?_append, List.find?_cons, hf]
    by_cases hm : m = n
    · subst hm; simp [find?_none_of_any h]
    · simp [hm, beq_eq_false_iff_ne.2 (Ne.symm hm)]

theorem assoc_assocSet {α : Type} [Inhabited α] (l : List (Nat × α)) (n m : Nat) (x : α) :
    assoc (assocSet l n x) m = if m = n then x else assoc l m := by
  have key : (assocSet l n x).find? (fun p => p.1 == m)
      = if m = n then some (n, x) else l.find? fun p => p.1 == m := by
    unfold assocSet
    split
    · next h =>
      rw [find?_map_key (fun p : Nat × α => p.1) (fun _ => (n, x)) n m fun _ _ => rfl]
      by_cases hm : m = n
      · subst hm
        obtain ⟨c, hc⟩ := Option.isSome_iff_exists.1 (List.find?_isSome.2 (List.any_eq_true.1 h))
        simp [hc]
      · simp [hm]
    · next h =>
      rw [List.find?_append, List.find?_cons]
      by_cases hm : m = n
      · subst hm; simp [find?_none_of_any h]
      · simp [hm, beq_eq_false_iff_ne.2 (Ne.symm hm)]
  unfold assoc
  rw [key]
  by_cases hm : m = n <;> simp [hm]

theorem State.ctx_modCtx (s : State) (n m : Nat) (f : Context → Context) :
    (s.modCtx n f).ctx m = if m = n then f (s.ctx n) else s.ctx m := assoc_assocSet ..

end Sys2Proof.Machine
end

