-- ==== Sys2Proof/Laws/Issue.lean ====
section
/-! SUPPORT. What the frame of an instruction word does, said once (Machine/Ops.lean, `issueWord`): when its word issues,
the word answers the next state its effect gives, over a state that differs from the old one in the path's place, the
counts of its transactions and the registers bound. -/

namespace Sys2Proof.Machine

open Sys2Proof

/-! ### Binding registers -/

/-- A state that differs in the registers a sheaf has bound, and in what a spill does to the context and the launch. -/
structure Touch (s t : State) (u i : Nat) : Prop where
  device : t = { s with stooks := t.stooks, contexts := t.contexts, launches := t.launches, faults := t.faults,
                        nextFault := t.nextFault, sent := t.sent }
  aside : Aside s t
  sheaves : ∃ f : Sheaf → Sheaf, (∀ h, f h = { h with bound := (f h).bound, spilled := (f h).spilled, freed := (f h).freed })
    ∧ t.stooks = (s.modSheaf u i f).stooks

theorem State.modSheaf_id_stooks (s : State) (u i : Nat) : (s.modSheaf u i fun h => h).stooks = s.stooks := by
  have key (k : Stook) : k.modSheaf i (fun h => h) = k := by
    unfold Stook.modSheaf
    have : k.sheaves.modify i (fun h => h) = k.sheaves := List.modify_id i k.sheaves
    rw [this]
  simp [key]

theorem Aside.refl (s : State) : Aside s s := ⟨fun _ => rfl, rfl, ⟨[], by simp⟩, ⟨[], by simp⟩⟩

theorem Aside.trans {s t r : State} (a : Aside s t) (b : Aside t r) : Aside s r := by
  obtain ⟨f, hf⟩ := a.faults
  obtain ⟨g, hg⟩ := b.faults
  obtain ⟨m, hm⟩ := a.sent
  obtain ⟨n, hn⟩ := b.sent
  exact ⟨fun n => (b.contexts n).trans (a.contexts n), b.launches.trans a.launches,
    ⟨f ++ g, by rw [hg, hf, List.append_assoc]⟩, ⟨m ++ n, by rw [hn, hm, List.append_assoc]⟩⟩

/-- Two states with the same contexts, launches, faults and messages. -/
theorem Aside.of_eq {s t : State} (c : t.contexts = s.contexts) (l : t.launches = s.launches) (f : t.faults = s.faults)
    (m : t.sent = s.sent) : Aside s t :=
  ⟨fun n => by unfold State.ctx; rw [c], by rw [l], ⟨[], by simp [f]⟩, ⟨[], by simp [m]⟩⟩

theorem Touch.refl (s : State) (u i : Nat) : Touch s s u i :=
  ⟨rfl, Aside.refl s, fun h => h, fun _ => rfl, (State.modSheaf_id_stooks s u i).symm⟩

theorem State.modSheaf_modSheaf_stooks (s t : State) (u i : Nat) (f g : Sheaf → Sheaf)
    (h : t.stooks = (s.modSheaf u i f).stooks) : (t.modSheaf u i g).stooks = (s.modSheaf u i (g ∘ f)).stooks := by
  rw [State.modSheaf_stooks, h, State.modSheaf_stooks, State.modSheaf_stooks, List.map_map]
  refine List.map_congr_left fun k _ => ?_
  by_cases hu : k.uid == u
  · simp only [Function.comp, hu, if_true, Stook.modSheaf_uid]
    unfold Stook.modSheaf
    simp only [List.modify_modify_eq]
  · simp only [Function.comp, hu, Bool.false_eq_true, if_false]

theorem Touch.trans {s t r : State} {u i : Nat} (a : Touch s t u i) (b : Touch t r u i) : Touch s r u i := by
  obtain ⟨f, hf, ef⟩ := a.sheaves
  obtain ⟨g, hg, eg⟩ := b.sheaves
  refine ⟨?_, a.aside.trans b.aside, g ∘ f, fun h => ?_, eg.trans (State.modSheaf_modSheaf_stooks s t u i f g ef)⟩
  · rw [b.device, a.device]
  · rw [Function.comp, hg (f h), hf h]

theorem Touch.modSheaf {s : State} {u i : Nat} (f : Sheaf → Sheaf)
    (hf : ∀ h, f h = { h with bound := (f h).bound, spilled := (f h).spilled, freed := (f h).freed }) :
    Touch s (s.modSheaf u i f) u i :=
  ⟨rfl, Aside.of_eq rfl rfl rfl rfl, f, hf, rfl⟩

theorem Touch.of_stooks {s t : State} {u i : Nat} (e : t.stooks = s.stooks)
    (d : t = { s with stooks := t.stooks, contexts := t.contexts, launches := t.launches, faults := t.faults,
                      nextFault := t.nextFault, sent := t.sent }) (a : Aside s t) : Touch s t u i :=
  ⟨d, a, fun h => h, fun _ => rfl, e.trans (State.modSheaf_id_stooks s u i).symm⟩

theorem State.failLaunch_aside (s : State) (c : Nat) (id : Word) (cause : Cause) (code : Nat) :
    Aside s (s.failLaunch c id cause code) := by
  unfold State.failLaunch
  split
  · refine ⟨fun n => rfl, ?_, ⟨_, rfl⟩, ⟨_, rfl⟩⟩
    unfold State.endLaunch State.modLaunch
    rw [List.map_map]
    refine List.map_congr_left fun l _ => ?_
    simp only [Function.comp]
    split
    · split <;> rfl
    · rfl
  · exact Aside.refl s

theorem State.spillUsed_aside (s : State) (c : Nat) (f : Nat → Nat) : Aside s (s.modCtx c fun c => { c with spillUsed := f c.spillUsed }) := by
  refine ⟨fun m => ?_, rfl, ⟨[], by simp⟩, ⟨[], by simp⟩⟩
  rw [State.ctx_modCtx]
  split
  · next h => subst h; rfl
  · rfl

theorem State.failLaunch_touch (s : State) (c : Nat) (id : Word) (cause : Cause) (code u i : Nat) :
    Touch s (s.failLaunch c id cause code) u i := by
  have a := State.failLaunch_aside s c id cause code
  unfold State.failLaunch at a ⊢
  split at a
  · rw [if_pos ‹_›]; exact Touch.of_stooks rfl rfl a
  · rw [if_neg ‹_›]; exact Touch.refl s u i

theorem State.unspill_touch (s : State) (c n u i : Nat) : Touch s (s.unspill c n) u i := by
  unfold State.unspill
  split
  · exact Touch.refl s u i
  · exact Touch.of_stooks rfl rfl (State.spillUsed_aside s c fun x => x - 128 * n)

theorem State.bindReg_touch (s : State) (u i r : Nat) (m : LaneMask) : Touch s (s.bindReg u i r m) u i := by
  unfold State.bindReg
  extract_lets a k h room h' b c
  have ha : Touch s a u i := Touch.modSheaf _ fun _ => rfl
  have hb : Touch s b u i := ha.trans (Touch.modSheaf _ fun _ => rfl)
  split
  · exact ha.trans (Touch.modSheaf _ fun _ => rfl)
  · split
    · exact hb.trans (State.unspill_touch ..)
    · split
      · exact hb
      · split
        · exact hb.trans (Touch.of_stooks rfl rfl (State.spillUsed_aside b _ fun x => x + 128))
        · exact hb.trans (State.failLaunch_touch ..)

theorem State.touchRegs_touch (s : State) (u i : Nat) (m : LaneMask) (rs ws : List Nat) :
    Touch s (s.touchRegs u i m rs ws) u i := by
  unfold State.touchRegs
  extract_lets a
  have ha : Touch s a u i := Touch.modSheaf _ fun _ => rfl
  clear_value a
  induction ws generalizing a with
  | nil => exact ha
  | cons r ws ih => exact ih _ (ha.trans (State.bindReg_touch ..))

/-! ### A word that issues -/

/-- A lane as its word's effect finds it. -/
def Lane.issued (x : Lane) (writes : List Nat) : Lane :=
  { x with tx := { x.tx with count := if 0 < x.tx.depth then x.tx.count + 1 else x.tx.count }, wrote := x.wrote ++ writes }

/-- The state a word's effect acts on: the path's place is taken from the focus, its lanes' transactions count the
instruction, registers are bound. -/
structure Prepared (s t : State) (p : Focus) (k : Stook) (writes : List Nat) : Prop where
  device : t = { s with focus := none, stooks := t.stooks, contexts := t.contexts, launches := t.launches,
                        faults := t.faults, nextFault := t.nextFault, sent := t.sent }
  aside : Aside s t
  stooks : ∀ u, (t.stook? u).map (fun k => { k with sheaves := [] }) = (s.stook? u).map fun k => { k with sheaves := [] }
  others : ∀ u i, (u, i) ≠ (p.stook, p.sheaf) → t.sheafAt u i = s.sheafAt u i
  stook : ∃ k', t.stook? p.stook = some k' ∧ p.sheaf < k'.sheaves.length ∧ k'.sheaves.length = k.sheaves.length
  here : t.here p = { s.here p with lanes := (t.here p).lanes, bound := (t.here p).bound, spilled := (t.here p).spilled,
                                    freed := (t.here p).freed }
  lanesIn : ∀ l, p.lanes.getLsbD l = true → (t.here p).lane l = ((s.here p).lane l).issued writes
  lanesOut : ∀ l, p.lanes.getLsbD l = false → (t.here p).lane l = (s.here p).lane l
  length : (t.here p).lanes.length = (s.here p).lanes.length

theorem State.abortLanes_zero (s : State) (u i code : Nat) : s.abortLanes u i 0 code = s := by
  unfold State.abortLanes; exact if_pos rfl

theorem Sheaf.getLsbD_inTx (h : Sheaf) (m : LaneMask) (l : Nat) :
    (h.inTx m).getLsbD l = (m.getLsbD l && decide (0 < (h.lane l).tx.depth)) := getLsbD_maskFilter ..

/-- A sheaf of one stook replaced, with what else a spill changes. -/
theorem prepared_of {s t : State} {p : Focus} {k : Stook} {writes : List Nat} {f : Sheaf → Sheaf}
    (hk : s.stook? p.stook = some k) (hi : p.sheaf < k.sheaves.length)
    (dev : t = { s with focus := none, stooks := t.stooks, contexts := t.contexts, launches := t.launches,
                        faults := t.faults, nextFault := t.nextFault, sent := t.sent })
    (as : Aside s t) (st : t.stooks = (s.modSheaf p.stook p.sheaf f).stooks)
    (hf : f (k.sheaf p.sheaf) = { k.sheaf p.sheaf with
      lanes := (f (k.sheaf p.sheaf)).lanes, bound := (f (k.sheaf p.sheaf)).bound,
      spilled := (f (k.sheaf p.sheaf)).spilled, freed := (f (k.sheaf p.sheaf)).freed })
    (li : ∀ l, p.lanes.getLsbD l = true → (f (k.sheaf p.sheaf)).lane l = ((k.sheaf p.sheaf).lane l).issued writes)
    (lo : ∀ l, p.lanes.getLsbD l = false → (f (k.sheaf p.sheaf)).lane l = (k.sheaf p.sheaf).lane l)
    (len : (f (k.sheaf p.sheaf)).lanes.length = (k.sheaf p.sheaf).lanes.length) : Prepared s t p k writes := by
  have hq (u : Nat) : t.stook? u = (s.modSheaf p.stook p.sheaf f).stook? u := by unfold State.stook?; rw [st]
  have hs (u i : Nat) : t.sheafAt u i = (s.modSheaf p.stook p.sheaf f).sheafAt u i := by unfold State.sheafAt; rw [hq]
  have hh : t.here p = f (k.sheaf p.sheaf) := by
    unfold State.here; rw [hs, State.sheafAt_modSheaf_self hk hi]
  have h0 : s.here p = k.sheaf p.sheaf := State.sheafAt_of hk _
  refine ⟨dev, as, fun u => ?_, fun u i hne => ?_, ⟨k.modSheaf p.sheaf f, ?_, ?_, ?_⟩, ?_, ?_, ?_, ?_⟩
  · rw [hq, State.stook?_modSheaf]
    cases s.stook? u with
    | none => rfl
    | some k' => simp only [Option.map_some]; split <;> rfl
  · rw [hs, State.sheafAt_modSheaf_ne _ _ hne]
  · rw [hq, State.stook?_modSheaf, hk]; simp
  · simpa using hi
  · simp
  · rw [hh, h0]; exact hf
  · rw [hh, h0]; exact li
  · rw [hh, h0]; exact lo
  · rw [hh, h0]; exact len

theorem Issues.spent {i : Instr} {s : State} {p : Focus} {k : Stook} (H : Issues i s p k) :
    (maskFilter ((k.sheaf p.sheaf).inTx p.lanes) fun l => Config.txBudget ≤ ((k.sheaf p.sheaf).lane l).tx.count) = 0 := by
  refine maskFilter_eq_zero fun l hl => ?_
  rw [Sheaf.getLsbD_inTx, Bool.and_eq_true, decide_eq_true_eq] at hl
  exact decide_eq_false (Nat.not_le.2 (H.tx l hl.1 hl.2).1)

theorem Issues.refused {i : Instr} {s : State} {p : Focus} {k : Stook} (H : Issues i s p k) :
    (if refusedInTx i = true then (k.sheaf p.sheaf).inTx p.lanes &&& ~~~(0 : LaneMask) else 0) = 0 := by
  split
  · next hr =>
    apply BitVec.eq_of_getLsbD_eq
    intro l _
    by_cases hl : ((k.sheaf p.sheaf).inTx p.lanes).getLsbD l = true
    · have hl' := hl
      rw [Sheaf.getLsbD_inTx, Bool.and_eq_true, decide_eq_true_eq] at hl'
      exact absurd hr (by rw [(H.tx l hl'.1 hl'.2).2]; decide)
    · simp [Bool.eq_false_iff.2 hl]
  · rfl

theorem mask_minus_zero (m : LaneMask) : m &&& ~~~(0 : LaneMask) = m := by
  rw [show ~~~(0 : LaneMask) = BitVec.allOnes 32 by decide, BitVec.and_allOnes]

/-- A word that issues answers the next state of its effect. -/
theorem issueWord_next {i : Instr} {s : State} {p : Focus} {k : Stook} (H : Issues i s p k)
    (act : Focus → State → State) :
    ∃ t, issueWord i s act = .next (act p t) ∧ Prepared s t p k (footprint i (k.sheaf p.sheaf) k).2 := by
  unfold issueWord
  rw [H.focus]
  dsimp only
  rw [H.stook]
  dsimp only
  rw [H.checks]
  dsimp only
  rw [H.spent, State.abortLanes_zero, H.refused, State.abortLanes_zero, mask_minus_zero, mask_minus_zero, if_neg H.some',
    if_neg (by rw [H.own]; decide), if_neg (by rw [H.second]; decide)]
  refine ⟨_, rfl, ?_⟩
  generalize hF : (fun h : Sheaf => Sheaf.modLanes (Sheaf.modLanes h _ _) _ _) = F
  obtain ⟨dev, as, g, hg, eg⟩ := State.touchRegs_touch (State.modSheaf { s with focus := none } p.stook p.sheaf F) p.stook p.sheaf
    p.lanes (footprint i (k.sheaf p.sheaf) k).1 (bindsOf i (footprint i (k.sheaf p.sheaf) k).2)
  have len (h : Sheaf) : (g h).lanes = h.lanes := by rw [hg]
  refine prepared_of H.stook H.sheaf ?_ (Aside.trans (t := State.modSheaf { s with focus := none } p.stook p.sheaf F) (Aside.of_eq rfl rfl rfl rfl) as)
    (eg.trans (State.modSheaf_modSheaf_stooks s (State.modSheaf { s with focus := none } p.stook p.sheaf F) p.stook p.sheaf F g rfl))
    ?_ ?_ ?_ ?_
  · rw [dev]; rfl
  · rw [Function.comp, hg, ← hF]; rfl
  · intro l hl
    have e := H.lanes l hl
    rw [Function.comp, Sheaf.lane_congr (len _), ← hF]
    dsimp only
    have hx : ((k.sheaf p.sheaf).inTx p.lanes &&& p.lanes).getLsbD l = decide (0 < ((k.sheaf p.sheaf).lane l).tx.depth) := by
      rw [BitVec.getLsbD_and, Sheaf.getLsbD_inTx, hl, Bool.true_and, Bool.and_true]
    rw [Sheaf.lane_modLanes, if_pos ⟨hl, by simpa using e⟩, Sheaf.lane_modLanes]
    by_cases hd : 0 < ((k.sheaf p.sheaf).lane l).tx.depth
    · rw [if_pos ⟨hx.trans (decide_eq_true hd), e⟩, Lane.issued, if_pos hd]
    · rw [if_neg (fun c => hd (of_decide_eq_true (hx.symm.trans c.1))), Lane.issued, if_neg hd]
  · intro l hl
    rw [Function.comp, Sheaf.lane_congr (len _), ← hF]
    dsimp only
    rw [Sheaf.lane_modLanes, if_neg (by simp [hl]), Sheaf.lane_modLanes, if_neg (by rw [BitVec.getLsbD_and, hl]; simp)]
  · rw [Function.comp, len, ← hF]; simp


end Sys2Proof.Machine
end

