-- ==== Sys2Proof/Laws/Result.lean ====
section
/-! SUPPORT. From the sheaf a word leaves to what a claim says of it: the frame of a word that acts on its own sheaf, and
the three shapes of a result (Safety.lean). -/

namespace Sys2Proof.Machine

open Sys2Proof

/-! ### What the prepared state keeps -/

section
variable {s t : State} {p : Focus} {k : Stook} {ws : List Nat} (P : Prepared s t p k ws)
include P

theorem Prepared.rv (r l : Nat) : (t.here p).rv r l = (s.here p).rv r l := by rw [P.here]; rfl
theorem Prepared.rs (n : Nat) : (t.here p).rs n = (s.here p).rs n := by rw [P.here]; rfl
theorem Prepared.rm (n : Nat) : (t.here p).rm n = (s.here p).rm n := by rw [P.here]; rfl
theorem Prepared.frm : (t.here p).frm = (s.here p).frm := by rw [P.here]
theorem Prepared.fx : (t.here p).fx = (s.here p).fx := by rw [P.here]
theorem Prepared.retired : (t.here p).retired = (s.here p).retired := by rw [P.here]
theorem Prepared.queue : (t.here p).queue = (s.here p).queue := by rw [P.here]
theorem Prepared.issues : (t.here p).issues = (s.here p).issues := by rw [P.here]

theorem Prepared.latches (l : Nat) : ((t.here p).lane l).latches = ((s.here p).lane l).latches := by
  by_cases h : p.lanes.getLsbD l = true
  · rw [P.lanesIn l h]; rfl
  · rw [P.lanesOut l (Bool.eq_false_iff.2 h)]

/-- A source reads in the prepared state what it read before (R19, R23). -/
theorem Prepared.src (sr : Nat) (c : OpCode7) (l : Nat) : (t.here p).src sr c l = (s.here p).src sr c l := by
  unfold Sheaf.src; rw [P.rv, P.latches, P.rs]

theorem Prepared.src64 (sr : Nat) (c : OpCode7) (l : Nat) : (t.here p).src64 sr c l = (s.here p).src64 sr c l := by
  unfold Sheaf.src64; rw [P.rv, P.rv, P.rs, P.rs]

theorem Prepared.srcW (wide : Bool) (sr : Nat) (c : OpCode7) (l : Nat) :
    (t.here p).srcW wide sr c l = (s.here p).srcW wide sr c l := by unfold Sheaf.srcW; rw [P.src, P.src64]

theorem Prepared.ssrc (c : OpCode7) : (t.here p).ssrc c = (s.here p).ssrc c := by unfold Sheaf.ssrc; rw [P.rs]
theorem Prepared.ssrcW (wide : Bool) (c : OpCode7) : (t.here p).ssrcW wide c = (s.here p).ssrcW wide c := by
  unfold Sheaf.ssrcW Sheaf.ssrc64; rw [P.ssrc, P.rs, P.rs]

theorem Prepared.mode (rm : Nat) : (t.here p).mode rm = (s.here p).mode rm := by unfold Sheaf.mode; rw [P.frm]

/-- The sheaf of the path after a change of it. -/
theorem Prepared.here_modSheaf (g : Sheaf → Sheaf) : (t.modSheaf p.stook p.sheaf g).here p = g (t.here p) := by
  obtain ⟨k', hk, hi, -⟩ := P.stook
  unfold State.here
  rw [State.sheafAt_modSheaf_self hk hi, State.sheafAt_of hk]

theorem LaneKept.of_next (l n : Nat) (q : Option Word) (h : p.lanes.getLsbD l = true) :
    LaneKept ((s.here p).lane l) (((t.here p).lane l).next n q) := by
  rw [P.lanesIn l h]
  constructor <;> simp [Lane.issued]

/-- The frame of a word that changes its own sheaf by `g`. -/
theorem Prepared.frameBy {vec : Nat → Nat → Bool} {sc mk : Nat → Bool} {flags : BitVec 5} (g : Sheaf → Sheaf)
    (hv : ∀ r l, l < 32 → vec r l = false → (g (t.here p)).rv r l = (t.here p).rv r l)
    (hs : ∀ m, sc m = false → (g (t.here p)).rs m = (t.here p).rs m)
    (hm : ∀ m, mk m = false → (g (t.here p)).rm m = (t.here p).rm m)
    (hr : (g (t.here p)).frm = (t.here p).frm) (hx : (g (t.here p)).fx = (t.here p).fx ||| flags.setWidth 32)
    (hc : (g (t.here p)).retired = (t.here p).retired + 1) (hq : (g (t.here p)).queue = (t.here p).queue)
    (hlo : ∀ l, p.lanes.getLsbD l = false → (g (t.here p)).lane l = (t.here p).lane l) :
    SheafFrame s (t.modSheaf p.stook p.sheaf g) p vec sc mk flags := by
  have e := P.here_modSheaf g
  refine
    { mem := fun a => ?_, device := ?_, aside := P.aside.trans (Aside.of_eq rfl rfl rfl rfl), stooks := fun u => ?_, others := fun u i h => ?_,
      vregs := fun r l h32 h => ?_, sregs := fun m h => ?_, masks := fun m h => ?_, frm := ?_, fx := ?_, retired := ?_,
      queue := ?_, lanesOut := fun l h => ?_ }
  · rw [State.modSheaf_mem, P.device]
  · exact (congrArg (fun x : State => x.modSheaf p.stook p.sheaf g) P.device).trans (by
      have hn : t.next = s.next := by have := congrArg State.next P.device; exact this
      have hn' : (t.modSheaf p.stook p.sheaf g).next = s.next := hn
      have hf : t.free = s.free := by have := congrArg State.free P.device; exact this
      have hf' : (t.modSheaf p.stook p.sheaf g).free = s.free := hf
      rw [hn', hf']; rfl)
  · rw [State.stook?_modSheaf, ← P.stooks u]
    cases t.stook? u with
    | none => rfl
    | some k' => simp only [Option.map_some]; split <;> rfl
  · rw [State.sheafAt_modSheaf_ne _ _ h, P.others u i h]
  · rw [e, hv r l h32 h, P.rv]
  · rw [e, hs m h, P.rs]
  · rw [e, hm m h, P.rm]
  · rw [e, hr, P.frm]
  · rw [e, hx, P.fx]
  · rw [e, hc, P.retired]
  · rw [e, hq, P.queue]
  · rw [e, hlo l h, P.lanesOut l h]

/-- The frame of a word that changes its own sheaf by `g` and goes on. -/
theorem Prepared.frame {vec : Nat → Nat → Bool} {sc mk : Nat → Bool} {flags : BitVec 5} (g : Sheaf → Sheaf) (n : Nat)
    (q : Nat → Option Word)
    (hv : ∀ r l, l < 32 → vec r l = false → (g (t.here p)).rv r l = (t.here p).rv r l)
    (hs : ∀ m, sc m = false → (g (t.here p)).rs m = (t.here p).rs m)
    (hm : ∀ m, mk m = false → (g (t.here p)).rm m = (t.here p).rm m)
    (hr : (g (t.here p)).frm = (t.here p).frm) (hx : (g (t.here p)).fx = (t.here p).fx ||| flags.setWidth 32)
    (hc : (g (t.here p)).retired = (t.here p).retired + 1) (hq : (g (t.here p)).queue = (t.here p).queue)
    (hl : (g (t.here p)).lanes = ((t.here p).nextLanes p.lanes n q).lanes) :
    SheafFrame s (t.modSheaf p.stook p.sheaf g) p vec sc mk flags := by
  refine P.frameBy g hv hs hm hr hx hc hq fun l h => ?_
  rw [Sheaf.lane_congr hl, Sheaf.lane_nextLanes, if_neg (by simp [h])]

/-- What the lanes of the path keep when they go on. -/
theorem Prepared.kept (g : Sheaf → Sheaf) (n : Nat) (q : Nat → Option Word)
    (hl : (g (t.here p)).lanes = ((t.here p).nextLanes p.lanes n q).lanes)
    (hlen : ∀ l, p.lanes.getLsbD l = true → l < (t.here p).lanes.length) : PathKept s (t.modSheaf p.stook p.sheaf g) p := by
  intro l h
  rw [P.here_modSheaf, Sheaf.lane_congr hl, Sheaf.lane_nextLanes, if_pos ⟨h, hlen l h⟩]
  exact LaneKept.of_next P l n (q l) h

theorem Prepared.tokens (g : Sheaf → Sheaf) (hi : (g (t.here p)).issues = (t.here p).issues) :
    TokensKept s (t.modSheaf p.stook p.sheaf g) p := by
  unfold TokensKept; rw [P.here_modSheaf, hi, P.issues]

/-- The lanes of the path go on behind the word. -/
theorem Prepared.goesOn (g : Sheaf → Sheaf) (n : Nat) (q : Nat → Option Word)
    (hl : (g (t.here p)).lanes = ((t.here p).nextLanes p.lanes n q).lanes)
    (hlen : ∀ l, p.lanes.getLsbD l = true → l < (t.here p).lanes.length) :
    PathGoesOn s (t.modSheaf p.stook p.sheaf g) p n ∧ Latches s (t.modSheaf p.stook p.sheaf g) p q := by
  have e (l : Nat) (h : p.lanes.getLsbD l = true) : ((t.modSheaf p.stook p.sheaf g).here p).lane l
      = (((s.here p).lane l).issued ws).next n (q l) := by
    rw [P.here_modSheaf g, Sheaf.lane_congr hl, Sheaf.lane_nextLanes, if_pos ⟨h, hlen l h⟩, P.lanesIn l h]
  constructor
  · intro l h
    rw [e l h]
    generalize (s.here p).lane l = x
    by_cases hf : x.pc + BitVec.ofNat 32 n = x.fin
    · constructor
      · simp [Lane.issued]
      · simp [Lane.next, Lane.issued, hf, Lane.goto]
      · simp [Lane.next, Lane.issued, hf, Lane.goto]
    · constructor
      · simp [Lane.issued]
      · simp [Lane.next, Lane.issued, hf]
      · simp [Lane.next, Lane.issued, hf]
  · intro l h
    rw [e l h]
    generalize (s.here p).lane l = x
    intro h1 _ h3
    by_cases hf : x.pc + BitVec.ofNat 32 n = x.fin
    · simp [Lane.next, Lane.issued, hf, Lane.goto] at h1
    · simp [Lane.next, Lane.issued, hf, h3]

end

/-! ### Results -/

theorem Sheaf.writeLanes_fields (h : Sheaf) (m : LaneMask) (wide : Bool) (r : Nat) (f : Nat → DWord) :
    h.writeLanes m wide r f = { h with v := (h.writeLanes m wide r f).v } := by
  unfold Sheaf.writeLanes
  induction lanesOf m generalizing h with
  | nil => rfl
  | cons a t ih => rw [List.foldl_cons, ih]; cases wide <;> rfl

/-- A vector register after the results of the lanes of a mask are written. -/
theorem Sheaf.rv_writeLanes (h : Sheaf) (m : LaneMask) (wide : Bool) (d : Nat) (f : Nat → DWord) (r l : Nat) (hl : l < 32) :
    (h.writeLanes m wide d f).rv r l
      = if m.getLsbD l = true ∧ r = d then loW (f l)
        else if m.getLsbD l = true ∧ wide = true ∧ r = d + 1 then hiW (f l) else h.rv r l := by
  have key (ls : List Nat) (hls : ∀ a ∈ ls, a < 32) (g : Sheaf) :
      (ls.foldl (fun g l => g.wvW wide d l (f l)) g).rv r l
        = if l ∈ ls ∧ r = d then loW (f l) else if l ∈ ls ∧ wide = true ∧ r = d + 1 then hiW (f l) else g.rv r l := by
    induction ls generalizing g with
    | nil => simp
    | cons a t ih =>
      rw [List.foldl_cons, ih (fun b hb => hls b (List.mem_cons_of_mem _ hb))]
      have ha := hls a (List.mem_cons_self ..)
      have hw : (g.wvW wide d a (f a)).rv r l
          = if l = a ∧ r = d then loW (f l) else if l = a ∧ wide = true ∧ r = d + 1 then hiW (f l) else g.rv r l := by
        unfold Sheaf.wvW
        cases wide with
        | false =>
          rw [if_neg Bool.false_ne_true, Sheaf.rv_wv _ ha hl]
          by_cases e : r = d ∧ l = a
          · rw [if_pos e, if_pos ⟨e.2, e.1⟩, e.2]
          · rw [if_neg e, if_neg (fun c => e ⟨c.2, c.1⟩), if_neg (by simp)]
        | true =>
          rw [if_pos rfl, Sheaf.rv_wv _ ha hl, Sheaf.rv_wv _ ha hl]
          by_cases ea : l = a
          · subst ea
            by_cases e1 : r = d + 1
            · subst e1; simp
            · simp [e1]
          · simp [ea]
      rw [hw]
      by_cases ht : l ∈ t
      · simp only [ht, List.mem_cons, or_true, true_and]
        by_cases e1 : r = d
        · simp [e1]
        · by_cases e2 : wide = true ∧ r = d + 1
          · simp [e2]
          · simp [e1, e2]
      · simp [ht, List.mem_cons]
  unfold Sheaf.writeLanes
  rw [key _ (fun a ha => BitVec.lt_of_getLsbD (mem_lanesOf.1 ha))]
  simp only [mem_lanesOf]

theorem lanesLe {i : Instr} {s t : State} {p : Focus} {k : Stook} {ws : List Nat} (H : Issues i s p k)
    (P : Prepared s t p k ws) (l : Nat) (h : p.lanes.getLsbD l = true) : l < (t.here p).lanes.length := by
  rw [P.length, State.here, State.sheafAt_of H.stook]; exact H.lanes l h

/-- A word that writes one vector result per lane. -/
theorem vectorResult_of {i : Instr} {s t : State} {p : Focus} {k : Stook} {ws : List Nat} (H : Issues i s p k)
    (P : Prepared s t p k ws) {n : Nat} {write wide : Bool} {d : Nat} {value : Nat → DWord} {flags : BitVec 5} {g : Sheaf → Sheaf}
    (hg : g (t.here p) = (((if write then (t.here p).writeLanes p.lanes wide d value else t.here p).raise flags).nextLanes
      p.lanes n fun l => if wide then none else some (loW (value l))).count) :
    VectorResult s (t.modSheaf p.stook p.sheaf g) p n write wide d value flags := by
  let h1 : Sheaf := if write then (t.here p).writeLanes p.lanes wide d value else t.here p
  have e1 : h1 = { t.here p with v := h1.v } := by
    show (if write = true then _ else _) = _
    cases write with
    | true => exact Sheaf.writeLanes_fields ..
    | false => rfl
  have eg : g (t.here p) = ((h1.raise flags).nextLanes p.lanes n fun l => if wide then none else some (loW (value l))).count := hg
  have hl : (g (t.here p)).lanes = ((t.here p).nextLanes p.lanes n fun l => if wide then none else some (loW (value l))).lanes := by
    rw [eg, e1]; rfl
  have hv (r l : Nat) : (g (t.here p)).rv r l = h1.rv r l := by rw [eg]; rfl
  have go := P.goesOn g n _ hl (lanesLe H P)
  refine ⟨fun hw l h => ?_, fun hw hwide l h => ?_, go.2, go.1, P.kept g n _ hl (lanesLe H P), P.tokens g ?_, ?_⟩
  · rw [P.here_modSheaf, hv]
    show (if write = true then _ else _ : Sheaf).rv d l = _
    rw [if_pos hw, Sheaf.rv_writeLanes _ _ _ _ _ _ _ (BitVec.lt_of_getLsbD h), if_pos ⟨h, rfl⟩]; rfl
  · rw [P.here_modSheaf, hv]
    show (if write = true then _ else _ : Sheaf).rv (d + 1) l = _
    rw [if_pos hw, Sheaf.rv_writeLanes _ _ _ _ _ _ _ (BitVec.lt_of_getLsbD h), if_neg (by omega), if_pos ⟨h, hwide, rfl⟩]; rfl
  · rw [eg, e1]; rfl
  · refine P.frame g n _ (fun r l h32 h => ?_) ?_ ?_ ?_ ?_ ?_ ?_ hl
    · rw [hv]
      show (if write = true then _ else _ : Sheaf).rv r l = _
      by_cases hw : write = true
      · rw [if_pos hw] at h ⊢
        rw [Sheaf.rv_writeLanes _ _ _ _ _ _ _ h32]
        unfold laneRegs at h
        rw [if_neg, if_neg]
        · rintro ⟨a, b, c⟩; simp [a, b, c] at h
        · rintro ⟨a, b⟩; simp [a, b] at h
      · rw [if_neg hw]
    · intro m _; rw [eg, e1]; rfl
    · intro m _; rw [eg, e1]; rfl
    all_goals (rw [eg, e1]; rfl)

/-- A word that writes one scalar result. -/
theorem scalarResult_of {i : Instr} {s t : State} {p : Focus} {k : Stook} {ws : List Nat} (H : Issues i s p k)
    (P : Prepared s t p k ws) {n : Nat} {wide : Bool} {d : Nat} {value : DWord} {g : Sheaf → Sheaf}
    (hg : g (t.here p) = (((t.here p).wsW wide d value).nextLanes p.lanes n fun _ => none).count) :
    ScalarResult s (t.modSheaf p.stook p.sheaf g) p n wide d value := by
  have hl : (g (t.here p)).lanes = ((t.here p).nextLanes p.lanes n fun _ => none).lanes := by
    rw [hg]; cases wide <;> rfl
  have hs (m : Nat) : (g (t.here p)).rs m = ((t.here p).wsW wide d value).rs m := by rw [hg]; rfl
  have go := P.goesOn g n _ hl (lanesLe H P)
  refine ⟨?_, fun hw => ?_, go.2, go.1, P.kept g n _ hl (lanesLe H P), P.tokens g ?_, ?_⟩
  · rw [P.here_modSheaf, hs]
    cases wide with
    | false => rw [Sheaf.wsW, if_neg Bool.false_ne_true, Sheaf.rs_ws, if_pos rfl]; rfl
    | true => rw [Sheaf.wsW, if_pos rfl, Sheaf.rs_ws, if_neg (by omega), Sheaf.rs_ws, if_pos rfl]; rfl
  · rw [P.here_modSheaf, hs, Sheaf.wsW, if_pos hw, Sheaf.rs_ws, if_pos rfl]; rfl
  · rw [hg]; cases wide <;> rfl
  · refine P.frame g n _ (fun r l h32 h => ?_) (fun m h => ?_) ?_ ?_ ?_ ?_ ?_ hl
    · rw [hg]; cases wide <;> rfl
    · rw [hs]
      unfold oneKey at h
      have h1 : ¬ m = d := by rintro rfl; simp at h
      cases wide with
      | false => rw [Sheaf.wsW, if_neg Bool.false_ne_true, Sheaf.rs_ws, if_neg h1]
      | true =>
        have h2 : ¬ m = (d + 1) % 64 := by rintro rfl; simp at h
        rw [Sheaf.wsW, if_pos rfl, Sheaf.rs_ws, if_neg h2, Sheaf.rs_ws, if_neg h1]
    · intro m _; rw [hg]; cases wide <;> rfl
    · rw [hg]; cases wide <;> rfl
    · rw [hg]; cases wide <;> simp [Sheaf.wsW]
    all_goals (rw [hg]; cases wide <;> rfl)

/-- A word without a result. -/
theorem quietResult_of {i : Instr} {s t : State} {p : Focus} {k : Stook} {ws : List Nat} (H : Issues i s p k)
    (P : Prepared s t p k ws) {n : Nat} {g f : Sheaf → Sheaf} (hg : ∀ h, g h = ((f h).nextLanes p.lanes n fun _ => none).count)
    (hf : ∀ h, f h = { h with yielded := (f h).yielded, bound := (f h).bound, spilled := (f h).spilled, freed := (f h).freed }) :
    QuietResult s (t.modSheaf p.stook p.sheaf g) p n := by
  have hl : (g (t.here p)).lanes = ((t.here p).nextLanes p.lanes n fun _ => none).lanes := by rw [hg, hf]; rfl
  have go := P.goesOn g n _ hl (lanesLe H P)
  refine ⟨go.2, go.1, P.kept g n _ hl (lanesLe H P), P.tokens g ?_, ?_⟩
  · rw [hg, hf]; rfl
  · refine P.frame g n _ (fun r l h32 h => ?_) (fun m h => ?_) (fun m h => ?_) ?_ ?_ ?_ ?_ hl
    · rw [hg, hf]; rfl
    · rw [hg, hf]; rfl
    · rw [hg, hf]; rfl
    · rw [hg, hf]; rfl
    · rw [hg, hf]; simp
    · rw [hg, hf]; rfl
    · rw [hg, hf]; rfl

/-- A word that writes a mask register. -/
theorem maskResult_of {i : Instr} {s t : State} {p : Focus} {k : Stook} {ws : List Nat} (H : Issues i s p k)
    (P : Prepared s t p k ws) {n d : Nat} {value : LaneMask} {flags : BitVec 5} {g : Sheaf → Sheaf}
    (hg : g (t.here p) = ((((t.here p).wm d value).raise flags).nextLanes p.lanes n fun _ => none).count) :
    MaskResult s (t.modSheaf p.stook p.sheaf g) p n d value flags := by
  have hl : (g (t.here p)).lanes = ((t.here p).nextLanes p.lanes n fun _ => none).lanes := by rw [hg]; rfl
  have hs (m : Nat) : (g (t.here p)).rm m = ((t.here p).wm d value).rm m := by rw [hg]; rfl
  have go := P.goesOn g n _ hl (lanesLe H P)
  refine ⟨?_, go.2, go.1, P.kept g n _ hl (lanesLe H P), P.tokens g ?_, ?_⟩
  · rw [P.here_modSheaf, hs, Sheaf.rm_wm, if_pos rfl]
  · rw [hg]; rfl
  · refine P.frame g n _ (fun r l h32 h => ?_) (fun m h => ?_) (fun m h => ?_) ?_ ?_ ?_ ?_ hl
    · rw [hg]; rfl
    · rw [hg]; rfl
    · rw [hs, Sheaf.rm_wm, if_neg (by rintro rfl; simp [oneKey] at h)]
    all_goals (rw [hg]; rfl)

end Sys2Proof.Machine
end

