-- ==== Sys2Proof/Laws/Alu.lean ====
section
/-! SUPPORT. What a VALU word does when it issues, said once for every operation (Machine/Integer.lean). -/

namespace Sys2Proof.Machine

open Sys2Proof

@[simp] theorem Sheaf.raise_zero (h : Sheaf) : h.raise 0#5 = h := by
  cases h; simp [Sheaf.raise]

@[simp] theorem loW_setWidth (x : Word) : loW (x.setWidth 64) = x := by
  unfold loW; apply BitVec.eq_of_getLsbD_eq; intro i hi; simp [hi]; omega

theorem valuLane_prepared {s t : State} {p : Focus} {k : Stook} {ws : List Nat} (P : Prepared s t p k ws) (op : Nat) (w : AWord)
    (f : AluFn) (l : Nat) : valuLane op w f (t.here p) l = valuLane op w f (s.here p) l := by
  unfold valuLane; simp only [P.srcW, P.mode]

/-- A VALU word in the vector domain: each lane's result, the flags of all, the place behind the word. -/
theorem valuWord_vector {op : Nat} {i : Instr} {w : AWord} {s : State} {p : Focus} {k : Stook} (H : Issues i s p k)
    (hs : w.scal (aForm op) = false) (f : AluFn) :
    ∃ t, valuWord op i w f s = .next t ∧
      VectorResult s t p (sizeA w) (!w.n) (valuWideD op w) w.d.toNat (fun l => (valuLane op w f (s.here p) l).1)
        (flagsOf p.lanes fun l => (valuLane op w f (s.here p) l).2) := by
  obtain ⟨t, e, P⟩ := issueWord_next H fun p s => s.modSheaf p.stook p.sheaf (valuEff op w f p.lanes)
  refine ⟨_, e, vectorResult_of H P ?_⟩
  simp only [valuEff, hs, Bool.false_eq_true, if_false, valuLane_prepared P]
  cases w.n <;> simp

/-- A VALU word in the scalar domain: once for its sheaf. -/
theorem valuWord_scalar {op : Nat} {i : Instr} {w : AWord} {s : State} {p : Focus} {k : Stook} (H : Issues i s p k)
    (hs : w.scal (aForm op) = true) (f : AluFn) :
    ∃ t, valuWord op i w f s = .next t ∧
      ScalarResult s t p (sizeA w) (valuWideD op w) w.d.toNat
        (f ((s.here p).mode (w.rm (aForm op))) ((s.here p).ssrcW (valuWide op (w.fmt (aForm op)) (w.opt (aForm op))).1 w.a)
          ((s.here p).ssrcW (valuWide op (w.fmt (aForm op)) (w.opt (aForm op))).2.1 w.b) 0).1 := by
  obtain ⟨t, e, P⟩ := issueWord_next H fun p s => s.modSheaf p.stook p.sheaf (valuEff op w f p.lanes)
  refine ⟨_, e, scalarResult_of H P ?_⟩
  simp only [valuEff, hs, if_true, P.ssrcW, P.mode]

/-- A compare into a mask: the bits of the executing lanes follow the relation, the others stay. -/
theorem compareWord_mask {op : Nat} {i : Instr} {w : AWord} {s : State} {p : Focus} {k : Stook} (H : Issues i s p k)
    (hm : w.toMask (aForm op) = true) (f : AluFn) :
    ∃ t, compareWord op i w f s = .next t ∧
      MaskResult s t p (sizeA w) w.d.toNat
        (((s.here p).rm w.d.toNat &&& ~~~p.lanes) ||| maskFilter p.lanes fun l => (valuLane op w f (s.here p) l).1 != 0)
        (flagsOf p.lanes fun l => (valuLane op w f (s.here p) l).2) := by
  obtain ⟨t, e, P⟩ := issueWord_next H fun p s => s.modSheaf p.stook p.sheaf
    (if w.toMask (aForm op) then maskEff op w f p.lanes else valuEff op w f p.lanes)
  refine ⟨_, e, maskResult_of H P ?_⟩
  simp only [hm, maskEff, compareMask, if_true, valuLane_prepared P, P.rm]

theorem compareWord_vector {op : Nat} {i : Instr} {w : AWord} {s : State} {p : Focus} {k : Stook} (H : Issues i s p k)
    (hm : w.toMask (aForm op) = false) (hs : w.scal (aForm op) = false) (f : AluFn) :
    ∃ t, compareWord op i w f s = .next t ∧
      VectorResult s t p (sizeA w) (!w.n) (valuWideD op w) w.d.toNat (fun l => (valuLane op w f (s.here p) l).1)
        (flagsOf p.lanes fun l => (valuLane op w f (s.here p) l).2) := by
  simp only [compareWord, hm, Bool.false_eq_true, if_false]
  exact valuWord_vector H hs f

theorem compareWord_scalar {op : Nat} {i : Instr} {w : AWord} {s : State} {p : Focus} {k : Stook} (H : Issues i s p k)
    (hm : w.toMask (aForm op) = false) (hs : w.scal (aForm op) = true) (f : AluFn) :
    ∃ t, compareWord op i w f s = .next t ∧
      ScalarResult s t p (sizeA w) (valuWideD op w) w.d.toNat
        (f ((s.here p).mode (w.rm (aForm op))) ((s.here p).ssrcW (valuWide op (w.fmt (aForm op)) (w.opt (aForm op))).1 w.a)
          ((s.here p).ssrcW (valuWide op (w.fmt (aForm op)) (w.opt (aForm op))).2.1 w.b) 0).1 := by
  simp only [compareWord, hm, Bool.false_eq_true, if_false]
  exact valuWord_scalar H hs f

/-- A vector immediate form. -/
theorem immWord_next {i : Instr} {w : IWord} {s : State} {p : Focus} {k : Stook} (H : Issues i s p k) (f : Word → Word) :
    ∃ t, immWord i w f s = .next t ∧
      VectorResult s t p i.size (!w.n) false w.d.toNat (fun l => (f ((s.here p).src 0 w.a l)).setWidth 64) 0 := by
  obtain ⟨t, e, P⟩ := issueWord_next H fun p s => s.modSheaf p.stook p.sheaf (immEff w i.size f p.lanes)
  refine ⟨_, e, vectorResult_of H P ?_⟩
  unfold immEff
  simp only [P.src]
  cases w.n <;> simp

/-- An effect on the sheaf alone. -/
theorem sheafWord_next {i : Instr} {s : State} {p : Focus} {k : Stook} (H : Issues i s p k) (eff : LaneMask → Sheaf → Sheaf) :
    ∃ t t', sheafWord i s eff = .next t' ∧ Prepared s t p k (footprint i (k.sheaf p.sheaf) k).2
      ∧ t' = t.modSheaf p.stook p.sheaf fun h => ((eff p.lanes h).nextLanes p.lanes i.size fun _ => none).count := by
  obtain ⟨t, e, P⟩ := issueWord_next H fun p s => s.modSheaf p.stook p.sheaf fun h =>
    ((eff p.lanes h).nextLanes p.lanes i.size fun _ => none).count
  exact ⟨t, _, e, P, rfl⟩

/-- A scalar immediate form. -/
theorem scalarImmWord_next {i : Instr} {w : IWord} {s : State} {p : Focus} {k : Stook} (H : Issues i s p k) (f : Word → Word) :
    ∃ t, scalarImmWord i w f s = .next t ∧
      ScalarResult s t p i.size false w.d.toNat ((f ((s.here p).ssrc w.a)).setWidth 64) := by
  obtain ⟨t, t', e, P, rfl⟩ := sheafWord_next H fun _ h => h.ws w.d.toNat (f (h.ssrc w.a))
  refine ⟨_, e, scalarResult_of H P ?_⟩
  simp only [P.ssrc, Sheaf.wsW, Bool.false_eq_true, if_false]
  simp

/-- A word that writes a mask register at issue. -/
theorem maskWord_next {i : Instr} {s : State} {p : Focus} {k : Stook} (H : Issues i s p k) (d : Nat)
    (f : LaneMask → Sheaf → LaneMask) (hf : ∀ {t ws}, Prepared s t p k ws → f p.lanes (t.here p) = f p.lanes (s.here p)) :
    ∃ t, maskWord i s (fun E h => h.wm d (f E h)) = .next t ∧ MaskResult s t p i.size d (f p.lanes (s.here p)) 0 := by
  obtain ⟨t, t', e, P, rfl⟩ := sheafWord_next H fun E h => h.wm d (f E h)
  refine ⟨_, e, maskResult_of H P ?_⟩
  simp only [hf P]
  simp

/-! ### Whole families -/

theorem flagsOf_zero (m : LaneMask) : flagsOf m (fun _ => 0#5) = 0#5 := by
  unfold flagsOf
  induction lanesOf m with
  | nil => rfl
  | cons a t ih => rw [List.foldl_cons]; simpa using ih

/-- A check list that finds nothing has every test true. -/
theorem firstFail_none {l : List (Bool × Cause)} (h : firstFail l = none) : ∀ x ∈ l, x.1 = true := by
  induction l with
  | nil => simp
  | cons a t ih =>
    obtain ⟨b, c⟩ := a
    cases b with
    | false => simp [firstFail] at h
    | true => simp only [firstFail, if_true] at h; simpa using ih h

/-- A VALU word that issues has a format of its set (R207). -/
theorem checkValu_fmt {op : Nat} {w : AWord} {h : Sheaf} {E : LaneMask} (ho : op ≠ 0x02a) (hc : checkValu op w h E = none) :
    (aForm op).fmts.contains (w.fmt (aForm op)) = true := by
  unfold checkValu at hc
  have := firstFail_none hc
  simp only [List.mem_cons, List.not_mem_nil, or_false, forall_eq_or_imp, forall_eq, if_neg ho] at this
  exact (Bool.and_eq_true _ _ ▸ this.2.2.1).1

/-- A word over a 32-bit operation without flags. -/
theorem vectorOp_of {op : Nat} {i : AWord → Instr} {g f : AWord → Word → Word → Word → Word} (ho : op ≠ 0x02a)
    (he : ∀ w, exec (i w) = valuWord op (i w) w (alu32 (g w))) (hc : ∀ w k h E, issueCheck (i w) k h E = checkValu op w h E)
    (hw : ∀ fmt opt, valuWide op fmt opt = (false, false, false, false))
    (hf : ∀ w a b c, (aForm op).fmts.contains (w.fmt (aForm op)) = true → g w a b c = f w a b c) :
    VectorOp op i f := by
  intro s p k w H hs
  obtain ⟨t, e, R⟩ := valuWord_vector H hs (alu32 (g w))
  refine ⟨t, by rw [he]; exact e, ?_⟩
  have hm := checkValu_fmt ho (by rw [← hc]; exact H.checks)
  have hv (l : Nat) : valuLane op w (alu32 (g w)) (s.here p) l
      = ((f w (srcA op w (s.here p) l) (srcB op w (s.here p) l) (srcC op w (s.here p) l)).setWidth 64, 0) := by
    simp [valuLane, hw, alu32, Sheaf.srcW, hf _ _ _ _ hm, srcA, srcB, srcC]
  have hd : valuWideD op w = false := by unfold valuWideD; rw [hw]
  simp only [hv, hd] at R
  rwa [show flagsOf p.lanes (fun _ => (0 : FlagSet)) = 0 from flagsOf_zero _] at R

theorem scalarOp_of {op : Nat} {i : AWord → Instr} {g : AWord → Word → Word → Word → Word} {f : AWord → Word → Word → Word}
    (he : ∀ w, exec (i w) = valuWord op (i w) w (alu32 (g w)))
    (hw : ∀ fmt opt, valuWide op fmt opt = (false, false, false, false)) (hf : ∀ w a b, g w a b 0 = f w a b) :
    ScalarOp op i f := by
  intro s p k w H hs
  obtain ⟨t, e, R⟩ := valuWord_scalar H hs (alu32 (g w))
  refine ⟨t, by rw [he]; exact e, ?_⟩
  have hd : valuWideD op w = false := by unfold valuWideD; rw [hw]
  have h0 : loW 0 = 0 := by decide
  simpa only [hw, hd, alu32, Sheaf.ssrcW, Bool.false_eq_true, if_false, loW_setWidth, h0, hf] using R

theorem aluOp_of {op : Nat} {i : AWord → Instr} {f : AWord → AluFn} (he : ∀ w, exec (i w) = valuWord op (i w) w (f w)) :
    AluOp op i f := by
  intro s p k w H hs
  obtain ⟨t, e, R⟩ := valuWord_vector H hs (f w)
  exact ⟨t, by rw [he]; exact e, R⟩

theorem immOp_of {i : IWord → Instr} {n : Nat} {f : IWord → Word → Word} (he : ∀ w, exec (i w) = immWord (i w) w (f w))
    (hn : ∀ w, (i w).size = n) : ImmOp i n f := by
  intro s p k w H
  obtain ⟨t, e, R⟩ := immWord_next H (f w)
  exact ⟨t, by rw [he]; exact e, by rwa [hn] at R⟩

theorem scalarImmOp_of {i : IWord → Instr} {n : Nat} {f : IWord → Word → Word}
    (he : ∀ w, exec (i w) = scalarImmWord (i w) w (f w)) (hn : ∀ w, (i w).size = n) : ScalarImmOp i n f := by
  intro s p k w H
  obtain ⟨t, e, R⟩ := scalarImmWord_next H (f w)
  exact ⟨t, by rw [he]; exact e, by rwa [hn] at R⟩

/-! ### The operations, as the rules write them -/

/-- The operands of the words below 0x1A are single registers. -/
theorem valuWide_narrow {op : Nat} (h : op < 0x01a) (fmt opt : Nat) : valuWide op fmt opt = (false, false, false, false) := by
  unfold valuWide
  rw [if_neg (by omega), if_neg (by omega), if_neg (by omega), if_neg]
  simp; omega

/-- FMT of an integer word is I32 or U32, and I32 is signed (R63, R207). -/
theorem signedFmt_of {op : Nat} {w : AWord} (h : fmtsI.contains (w.fmt (aForm op)) = true) :
    signedFmt op w = decide (w.fmt (aForm op) = 4) := by
  have : w.fmt (aForm op) = 4 ∨ w.fmt (aForm op) = 5 := by simpa [fmtsI] using h
  unfold signedFmt fmtSigned; rcases this with h | h <;> rw [h] <;> decide

theorem opShl_eq (a : Word) (n : Nat) : opShl a n = a <<< n := by
  unfold opShl; split
  · rfl
  · next h => apply BitVec.eq_of_getLsbD_eq; intro i hi; rw [BitVec.getLsbD_shiftLeft]; simp; omega

theorem opShr_eq (a : Word) (n : Nat) : opShr a n = a >>> n := by
  unfold opShr; split
  · rfl
  · next h => apply BitVec.eq_of_getLsbD_eq; intro i hi; rw [BitVec.getLsbD_ushiftRight, BitVec.getLsbD_of_ge a (n + i) (by omega)]; simp

theorem opSar_eq (a : Word) (n : Nat) : opSar a n = a.sshiftRight n := by
  unfold opSar; split
  · rfl
  · next h =>
    apply BitVec.eq_of_getLsbD_eq; intro i hi
    have hn : ¬ n + i < 32 := by omega
    rw [BitVec.getLsbD_sshiftRight, if_neg hn]
    by_cases hm : a.msb = true
    · rw [if_pos hm, hm, BitVec.getLsbD_allOnes]; simp [hi]
    · rw [if_neg hm, Bool.eq_false_iff.2 hm]; simp

theorem opRotl_eq (a : Word) (n : Nat) : opRotl a n = (a <<< (n % 32)) ||| (a >>> (32 - n % 32)) := by
  unfold opRotl; rw [BitVec.rotateLeft_def]; simp

theorem opIabs_eq (a : Word) : opIabs a = if a.toInt < 0 then 0 - a else a := by
  unfold opIabs; rw [BitVec.msb_eq_toInt]; simp

theorem opImulh_signed (a b : Word) : opImulh true a b = (a.signExtend 64 * b.signExtend 64).extractLsb' 32 32 := by
  unfold opImulh asInt
  simp only [if_true]
  apply BitVec.eq_of_toNat_eq
  rw [BitVec.extractLsb'_toNat]
  have ha : (a.signExtend 64).toInt = a.toInt := BitVec.toInt_signExtend_of_le (by decide)
  have hb : (b.signExtend 64).toInt = b.toInt := BitVec.toInt_signExtend_of_le (by decide)
  have h : (a.signExtend 64 * b.signExtend 64) = BitVec.ofInt 64 (a.toInt * b.toInt) := by
    apply BitVec.eq_of_toInt_eq; rw [BitVec.toInt_mul, ha, hb, BitVec.toInt_ofInt]
  rw [h, BitVec.toNat_ofInt, BitVec.toNat_ofInt, Nat.shiftRight_eq_div_pow]
  generalize a.toInt * b.toInt = x
  omega

theorem opImulh_unsigned (a b : Word) : opImulh false a b = (a.setWidth 64 * b.setWidth 64).extractLsb' 32 32 := by
  unfold opImulh asInt
  simp only [Bool.false_eq_true, if_false]
  apply BitVec.eq_of_toNat_eq
  rw [BitVec.extractLsb'_toNat, BitVec.toNat_mul, BitVec.toNat_setWidth, BitVec.toNat_setWidth, BitVec.toNat_ofInt,
    Nat.shiftRight_eq_div_pow]
  have ha := a.isLt
  have hb := b.isLt
  rw [Nat.mod_eq_of_lt (by omega : a.toNat < 2 ^ 64), Nat.mod_eq_of_lt (by omega : b.toNat < 2 ^ 64)]
  have : a.toNat * b.toNat < 2 ^ 32 * 2 ^ 32 := Nat.mul_lt_mul'' ha hb
  have e : ((a.toNat : Int) * b.toNat) = ((a.toNat * b.toNat : Nat) : Int) := by simp
  rw [e]
  generalize a.toNat * b.toNat = x at *
  omega

end Sys2Proof.Machine
end

