-- ==== Sys2Proof/Laws/Control.lean ====
section
/-! SUPPORT. What a control transfer does when it issues (Machine/Control.lean). -/

namespace Sys2Proof.Machine

open Sys2Proof

theorem LaneKept.of_goto {s t : State} {p : Focus} {k : Stook} {ws : List Nat} (P : Prepared s t p k ws) (l : Nat) (a : Word)
    (h : p.lanes.getLsbD l = true) : LaneKept ((s.here p).lane l) (((t.here p).lane l).goto a) := by
  rw [P.lanesIn l h]
  constructor <;> simp [Lane.issued]

/-- A transfer that writes the vector registers `vec` of its lanes first. -/
theorem transferWord_next {i : Instr} {s : State} {p : Focus} {k : Stook} (H : Issues i s p k) {target : Sheaf → Nat → Word}
    {tgt : Nat → Word} {pre : LaneMask → Sheaf → Sheaf} {vec : Nat → Nat → Bool}
    (ht : ∀ {t ws}, Prepared s t p k ws → ∀ l, p.lanes.getLsbD l = true → target (t.here p) l = tgt l)
    (hp : ∀ h, pre p.lanes h = { h with v := (pre p.lanes h).v })
    (hv : ∀ h r l, l < 32 → vec r l = false → (pre p.lanes h).rv r l = h.rv r l) :
    ∃ t t', transferWord i s target pre = .next t' ∧ Prepared s t p k (footprint i (k.sheaf p.sheaf) k).2
      ∧ (∀ r l, (t'.here p).rv r l = (pre p.lanes (t.here p)).rv r l) ∧ TransferResult s t' p vec tgt := by
  obtain ⟨t, e, P⟩ := issueWord_next H fun p s => s.modSheaf p.stook p.sheaf fun h =>
    ((pre p.lanes h).modLanes p.lanes fun l x => x.goto (target h l)).count
  refine ⟨t, _, e, P, fun r l => ?_, fun l h => ?_, fun l h => ?_, P.tokens _ ?_, ?_⟩
  · rw [P.here_modSheaf]; rfl
  · have hl : l < (pre p.lanes (t.here p)).lanes.length := by rw [hp]; exact lanesLe H P l h
    have e : ((t.modSheaf p.stook p.sheaf fun h => ((pre p.lanes h).modLanes p.lanes fun l x => x.goto (target h l)).count).here
        p).lane l = ((pre p.lanes (t.here p)).lane l).goto (target (t.here p) l) := by
      rw [P.here_modSheaf]
      show ((pre p.lanes (t.here p)).modLanes p.lanes fun l x => x.goto (target (t.here p) l)).lane l = _
      rw [Sheaf.lane_modLanes, if_pos ⟨h, hl⟩]
    rw [e, ht P l h]; exact ⟨rfl, rfl⟩
  · have hl : l < (pre p.lanes (t.here p)).lanes.length := by rw [hp]; exact lanesLe H P l h
    rw [P.here_modSheaf]
    show LaneKept _ (((pre p.lanes (t.here p)).modLanes p.lanes fun l x => x.goto (target (t.here p) l)).lane l)
    rw [Sheaf.lane_modLanes, if_pos ⟨h, hl⟩, hp]
    exact LaneKept.of_goto P l _ h
  · rw [hp]; rfl
  · refine P.frameBy _ (fun r l h32 h => hv _ r l h32 h) ?_ ?_ ?_ ?_ ?_ ?_ (fun l h => ?_)
    · intro m _; rw [hp]; rfl
    · intro m _; rw [hp]; rfl
    · rw [hp]; rfl
    · rw [hp]; simp
    · rw [hp]; rfl
    · rw [hp]; rfl
    · show ((pre p.lanes (t.here p)).modLanes p.lanes fun l x => x.goto (target (t.here p) l)).lane l = _
      rw [Sheaf.lane_modLanes, if_neg (by simp [h]), hp]; rfl

theorem Prepared.hdr {s t : State} {p : Focus} {k : Stook} {ws : List Nat} (P : Prepared s t p k ws) (l : Nat) :
    ((t.here p).lane l).hdr = ((s.here p).lane l).hdr := by
  by_cases h : p.lanes.getLsbD l = true
  · rw [P.lanesIn l h]; rfl
  · rw [P.lanesOut l (Bool.eq_false_iff.2 h)]

theorem Prepared.fin {s t : State} {p : Focus} {k : Stook} {ws : List Nat} (P : Prepared s t p k ws) (l : Nat) :
    ((t.here p).lane l).fin = ((s.here p).lane l).fin := by
  by_cases h : p.lanes.getLsbD l = true
  · rw [P.lanesIn l h]; rfl
  · rw [P.lanesOut l (Bool.eq_false_iff.2 h)]

end Sys2Proof.Machine
end

