-- ==== Sys2Proof/Laws/Messages.lean ====
section
/-! SUPPORT. Requests of the control node (20 R346, R347): a request whose turn it is is performed with its context's turn
moved on, and what it answers then is the whole of what changes beside. -/

namespace Sys2Proof.Machine

open Sys2Proof

/-- The state in which a request acts: its context's turn has moved on. -/
def State.turned (s : State) (h : MsgHdr) : State := s.modCtx h.context fun c => { c with seq := c.seq + 1 }

@[simp] theorem State.turned_ctx (s : State) (h : MsgHdr) (n : Nat) :
    (s.turned h).ctx n = if n = h.context then { s.ctx n with seq := (s.ctx n).seq + 1 } else s.ctx n := by
  unfold State.turned
  rw [State.ctx_modCtx]
  split
  · next e => rw [e]
  · rfl

/-- The next request of a context moves from the inbox to the agenda; nothing else changes. -/
theorem State.nextMessage_same (s : State) (c : Nat) :
    s.nextMessage c = { s with inbox := (s.nextMessage c).inbox, agenda := (s.nextMessage c).agenda } := by
  unfold State.nextMessage
  split <;> rfl

theorem State.nextMessage_ctx (s : State) (c n : Nat) : (s.nextMessage c).ctx n = s.ctx n := by
  rw [State.nextMessage_same]; rfl

/-- Every request of the inbox stays there or goes to the agenda. -/
theorem State.nextMessage_inbox {s : State} {c : Nat} {x : MsgHdr × Instr} (h : x ∈ s.inbox) :
    x ∈ (s.nextMessage c).inbox ∨ x.2 ∈ (s.nextMessage c).agenda := by
  unfold State.nextMessage
  split
  · next m _ =>
    by_cases e : x = m
    · exact .inr (by rw [e]; exact List.mem_cons_self ..)
    · exact .inl (List.mem_filter.2 ⟨h, by simpa using e⟩)
  · exact .inl h

/-- No transfer of the context is under way. -/
theorem InTurn.goes {s : State} {h : MsgHdr} {len : Nat} {dev : Bool} (I : InTurn s h len dev) : s.messageGoes h.context = true := by
  have ht : (s.transfers.any fun x => x.hdr.context == h.context) = false :=
    List.any_eq_false.2 fun x hx => by simpa using I.idle x hx
  unfold State.messageGoes
  rcases I.sender with ⟨_, hc⟩ | ⟨_, hv⟩
  · rw [ht, decide_eq_true hc]; rfl
  · rw [ht, hv]; simp

/-- A request in its turn is performed. -/
theorem message_next {s : State} {h : MsgHdr} {len : Nat} {dev : Bool} {i : Instr} (I : InTurn s h len dev) (act : State → State) :
    message s h i (if dev then 1 else 0) len act = .next ((act (s.turned h)).nextMessage h.context) := by
  have hv : ((s.turned h).ctx h.context).valid = (s.ctx h.context).valid := by simp
  have hok : ((if dev then 1 else 0) = 2 || if h.context = 255 then decide ((if dev then 1 else 0) = 1)
      else decide (h.context < 64) && ((s.turned h).ctx h.context).valid) = true := by
    rw [hv]
    rcases I.sender with ⟨hd, hc⟩ | ⟨hl, hc⟩
    · subst hd; simp [hc]
    · have hn : h.context ≠ 255 := by omega
      rw [if_neg hn]; simp [hl, hc]
  unfold message event State.request
  have ht : (h.seq == (s.ctx h.context).seq) = true := by simp [I.turn]
  simp only [I.powered, I.booted, if_true, Bool.false_eq_true, if_false, ht, I.goes, Bool.and_self, I.length, bne_self_eq_false]
  refine congrArg _ (congrArg (State.nextMessage · h.context) ?_)
  show (if (!_) = true then _ else act (s.turned h)) = _
  rw [if_neg]
  intro hf
  rw [Bool.not_eq_true', ← Bool.not_eq_true] at hf
  exact hf hok

/-- An answer of a request, and what the effect before it left. -/
theorem Answered.of {u v : State} {h : MsgHdr} {st d : Word} {data : List Byte} (hv : v = u.turned h)
    (hs : h.seq = (u.ctx h.context).seq) : Answered u ((v.reply h st d data).nextMessage h.context) h st d data := by
  subst hv
  have hc (n : Nat) : (((u.turned h).reply h st d data).nextMessage h.context).ctx n = (u.turned h).ctx n := by
    rw [State.nextMessage_ctx]; rfl
  refine { turn := ?_, record := fun n => ?_, turns := fun n hn => ?_, same := ?_ }
  · rw [hc]; simp [hs]
  · rw [hc, State.turned_ctx]; split <;> rfl
  · rw [hc, State.turned_ctx, if_neg hn]
  · rw [State.nextMessage_same]; rfl

/-- A request in its turn that only answers. -/
theorem message_answers {s : State} {h : MsgHdr} {len : Nat} {dev : Bool} {i : Instr} (I : InTurn s h len dev)
    {act : State → State} {st d : Word} {data : List Byte} {u : State}
    (hu : u.contexts = s.contexts)
    (e : act (s.turned h) = (u.turned h).reply h st d data) :
    ∃ t, message s h i (if dev then 1 else 0) len act = .next t ∧ Answered u t h st d data :=
  ⟨_, message_next I act, by rw [e]; exact Answered.of rfl (by rw [I.turn]; unfold State.ctx; rw [hu])⟩

end Sys2Proof.Machine
end

