-- ==== Sys2Proof/Laws/PerInstr.lean ====
section
/-! SUPPORT. The family `Encoding`, one lemma per constructor of `Instr`: the words of a well-formed instruction decode
to it, whatever follows them (01 R10 to R18, 02 R38 to R45). -/

namespace Sys2Proof.Laws.Encoding

open Sys2Proof

/-- The words of a well-formed instruction decode to it and leave the words after them. An event has no words. -/
def Statement (i : Instr) : Prop :=
  WellFormed i = true → encode i ≠ [] → ∀ rest : List Word, decode (encode i ++ rest) = .ok (i, rest)

/-! ### Fields of packed words -/

section Pack
variable (op : Nat)

theorem packA_op (w : AWord) : (packA op w).extractLsb' 23 9 = BitVec.ofNat 9 op := by
  unfold packA
  repeat rw [BitVec.extractLsb'_append_eq_of_le (by decide)]
  simp

theorem packI_op (w : IWord) : (packI op w).extractLsb' 23 9 = BitVec.ofNat 9 op := by
  unfold packI
  repeat rw [BitVec.extractLsb'_append_eq_of_le (by decide)]
  simp

theorem packM_op (w : MWord) : (packM op w).extractLsb' 23 9 = BitVec.ofNat 9 op := by
  unfold packM
  repeat rw [BitVec.extractLsb'_append_eq_of_le (by decide)]
  simp

theorem unpackA_packA (w : AWord) : unpackA (packA op w) w.ext = w := by
  have hd : (packA op w).extractLsb' 16 7 = w.d := by
    unfold packA
    repeat rw [BitVec.extractLsb'_append_eq_of_le (by decide)]
    rw [BitVec.extractLsb'_append_eq_of_add_le (by decide)]; simp
  have ha : (packA op w).extractLsb' 8 7 = w.a := by
    unfold packA
    repeat rw [BitVec.extractLsb'_append_eq_of_le (by decide)]
    rw [BitVec.extractLsb'_append_eq_of_add_le (by decide)]; simp
  have hb : (packA op w).extractLsb' 1 7 = w.b := by
    unfold packA
    rw [BitVec.extractLsb'_append_eq_of_le (by decide), BitVec.extractLsb'_append_eq_of_add_le (by decide)]; simp
  have hn : (packA op w).getLsbD 15 = w.n := by
    unfold packA bit1
    repeat rw [BitVec.getLsbD_append]
    simp
  have h0 : (packA op w).getLsbD 0 = w.ext.isSome := by
    unfold packA bit1
    repeat rw [BitVec.getLsbD_append]
    simp
  unfold unpackA
  rw [hd, ha, hb, hn, h0]
  cases w with | mk d n a b e => cases e <;> rfl

theorem packA_x (w : AWord) : (packA op w).getLsbD 0 = w.ext.isSome := by
  unfold packA bit1
  repeat rw [BitVec.getLsbD_append]
  simp

theorem unpackI_packI (w : IWord) : unpackI (packI op w) = w := by
  have hd : (packI op w).extractLsb' 16 7 = w.d := by
    unfold packI
    repeat rw [BitVec.extractLsb'_append_eq_of_le (by decide)]
    rw [BitVec.extractLsb'_append_eq_of_add_le (by decide)]; simp
  have ha : (packI op w).extractLsb' 8 7 = w.a := by
    unfold packI
    rw [BitVec.extractLsb'_append_eq_of_le (by decide), BitVec.extractLsb'_append_eq_of_add_le (by decide)]; simp
  have hi : (packI op w).extractLsb' 0 8 = w.imm := by
    unfold packI
    rw [BitVec.extractLsb'_append_eq_of_add_le (by decide)]; simp
  have hn : (packI op w).getLsbD 15 = w.n := by
    unfold packI bit1
    repeat rw [BitVec.getLsbD_append]
    simp
  unfold unpackI
  rw [hd, ha, hi, hn]

theorem unpackM_packM (w : MWord) : unpackM (packM op w) w.me = w := by
  have hd : (packM op w).extractLsb' 16 7 = w.d := by
    unfold packM
    repeat rw [BitVec.extractLsb'_append_eq_of_le (by decide)]
    rw [BitVec.extractLsb'_append_eq_of_add_le (by decide)]; simp
  have ha : (packM op w).extractLsb' 8 7 = w.a := by
    unfold packM
    repeat rw [BitVec.extractLsb'_append_eq_of_le (by decide)]
    rw [BitVec.extractLsb'_append_eq_of_add_le (by decide)]; simp
  have hl : (packM op w).extractLsb' 2 6 = w.slot := by
    unfold packM
    repeat rw [BitVec.extractLsb'_append_eq_of_le (by decide)]
    rw [BitVec.extractLsb'_append_eq_of_add_le (by decide)]; simp
  have hn : (packM op w).getLsbD 15 = w.n := by
    unfold packM bit1
    repeat rw [BitVec.getLsbD_append]
    simp
  have hs : (packM op w).getLsbD 1 = w.s := by
    unfold packM bit1
    repeat rw [BitVec.getLsbD_append]
    simp
  have hx : (packM op w).getLsbD 0 = w.x := by
    unfold packM bit1
    repeat rw [BitVec.getLsbD_append]
    simp
  unfold unpackM
  rw [hd, ha, hl, hn, hs, hx]

theorem packJ_op (w : JWord) : (packJ op w).extractLsb' 23 9 = w.cls ++ BitVec.ofNat 6 op := by
  unfold packJ
  rw [BitVec.extractLsb'_append_eq_of_le (by decide)]; simp

theorem packJc_op (w : JcWord) : (packJc op w).extractLsb' 23 9 = w.cls ++ BitVec.ofNat 6 op := by
  unfold packJc
  repeat rw [BitVec.extractLsb'_append_eq_of_le (by decide)]
  simp

theorem unpackJ_packJ (w : JWord) : unpackJ (packJ op w) = w := by
  have hc : (packJ op w).extractLsb' 29 3 = w.cls := by
    unfold packJ
    repeat rw [BitVec.extractLsb'_append_eq_of_le (by decide)]
    simp
  have ho : (packJ op w).extractLsb' 0 23 = w.off := by
    unfold packJ
    rw [BitVec.extractLsb'_append_eq_of_add_le (by decide)]; simp
  unfold unpackJ
  rw [hc, ho]

theorem unpackJc_packJc (w : JcWord) : unpackJc (packJc op w) = w := by
  have hc : (packJc op w).extractLsb' 29 3 = w.cls := by
    unfold packJc
    repeat rw [BitVec.extractLsb'_append_eq_of_le (by decide)]
    simp
  have ha : (packJc op w).extractLsb' 16 7 = w.a := by
    unfold packJc
    rw [BitVec.extractLsb'_append_eq_of_le (by decide), BitVec.extractLsb'_append_eq_of_add_le (by decide)]; simp
  have ho : (packJc op w).extractLsb' 0 16 = w.off := by
    unfold packJc
    rw [BitVec.extractLsb'_append_eq_of_add_le (by decide)]; simp
  unfold unpackJc
  rw [hc, ha, ho]

end Pack

/-! ### Decoding by format -/

theorem opOf_packA {op : Nat} (h : op < 512) (w : AWord) : opOf (packA op w) = op := by
  rw [opOf, packA_op, BitVec.toNat_ofNat, Nat.mod_eq_of_lt h]
theorem opOf_packI {op : Nat} (h : op < 512) (w : IWord) : opOf (packI op w) = op := by
  rw [opOf, packI_op, BitVec.toNat_ofNat, Nat.mod_eq_of_lt h]
theorem opOf_packM {op : Nat} (h : op < 512) (w : MWord) : opOf (packM op w) = op := by
  rw [opOf, packM_op, BitVec.toNat_ofNat, Nat.mod_eq_of_lt h]

/-- What a word's OP alone decides of its decoding. -/
def Plain (op : Nat) (k : Key) : Prop := op < 448 ∧ keyOf op = k

theorem decode_A {op : Nat} (h : Plain op .A) (c : AWord → Instr)
    (hc : ∀ x e, ofOp op x e = some (c (unpackA x e))) (w : AWord) (rest : List Word) :
    decode ((packA op w :: w.ext.toList) ++ rest) = .ok (c w, rest) := by
  have ho := opOf_packA (Nat.lt_trans h.1 (by decide : 448 < 512)) w
  have h7 : ¬ op / 64 = 7 := by have := h.1; omega
  have h2 : hasSecondWord (packA op w) = w.ext.isSome := by
    unfold hasSecondWord
    rw [ho, h.2]
    exact packA_x op w
  have hu := unpackA_packA op w
  rw [List.cons_append]
  unfold decode
  simp only [ho, if_neg h7, h2, hc]
  cases he : w.ext with
  | none => rw [he] at hu; simp [hu]
  | some e => rw [he] at hu; simp [hu]

theorem decode_I {op : Nat} (h : Plain op .I) (c : IWord → Instr)
    (hc : ∀ x e, ofOp op x e = some (c (unpackI x))) (w : IWord) (rest : List Word) :
    decode ([packI op w] ++ rest) = .ok (c w, rest) := by
  have ho := opOf_packI (Nat.lt_trans h.1 (by decide : 448 < 512)) w
  have h7 : ¬ op / 64 = 7 := by have := h.1; omega
  have h2 : hasSecondWord (packI op w) = false := by unfold hasSecondWord; rw [ho, h.2]
  rw [List.cons_append, List.nil_append]
  unfold decode
  simp [ho, h7, h2, hc, unpackI_packI]

theorem decode_IL {op : Nat} (h : Plain op .IL) (c : IWord → Word → Instr)
    (hc : ∀ x e, ofOp op x (some e) = some (c (unpackI x) e)) (w : IWord) (lit : Word) (rest : List Word) :
    decode ([packI op w, lit] ++ rest) = .ok (c w lit, rest) := by
  have ho := opOf_packI (Nat.lt_trans h.1 (by decide : 448 < 512)) w
  have h7 : ¬ op / 64 = 7 := by have := h.1; omega
  have h2 : hasSecondWord (packI op w) = true := by unfold hasSecondWord; rw [ho, h.2]
  rw [List.cons_append, List.cons_append, List.nil_append]
  unfold decode
  simp [ho, h7, h2, hc, unpackI_packI]

theorem decode_M {op : Nat} (h : Plain op .M) (c : MWord → Instr) (w : MWord)
    (hc : ofOp op (packM op w) (some w.me) = some (c (unpackM (packM op w) w.me))) (rest : List Word) :
    decode ([packM op w, w.me] ++ rest) = .ok (c w, rest) := by
  have ho := opOf_packM (Nat.lt_trans h.1 (by decide : 448 < 512)) w
  have h7 : ¬ op / 64 = 7 := by have := h.1; omega
  have h2 : hasSecondWord (packM op w) = true := by unfold hasSecondWord; rw [ho, h.2]
  rw [List.cons_append, List.cons_append, List.nil_append]
  unfold decode
  simp [ho, h7, h2, hc, unpackM_packM]

/-- The OP of a transfer's word, by its class (R42). -/
theorem transfer_op {slot : Nat} (hs : slot < 64) {c : BitVec 3} (h : transferClassOk c = true) :
    (c ++ BitVec.ofNat 6 slot).toNat = slot ∨ (c ++ BitVec.ofNat 6 slot).toNat = 0x140 + slot
      ∨ (c ++ BitVec.ofNat 6 slot).toNat = 0x180 + slot := by
  have hc : c = 0 ∨ c = 5 ∨ c = 6 := by simpa [transferClassOk, or_assoc] using h
  have hm : slot % 64 = slot := Nat.mod_eq_of_lt hs
  have key (k : Nat) : k <<< 6 ||| slot = 64 * k + slot := by
    rw [← Nat.shiftLeft_add_eq_or_of_lt (i := 6) (by omega) k]; omega
  rcases hc with rfl | rfl | rfl <;> rw [BitVec.toNat_append, BitVec.toNat_ofNat, hm, key]
  · exact .inl (by simp)
  · exact .inr (.inl (by simp))
  · exact .inr (.inr (by simp))

theorem decode_J {slot : Nat} (hs : slot < 64) (c : JWord → Instr) (w : JWord) (hw : transferClassOk w.cls = true)
    (hk : keyOf slot = .J ∧ keyOf (0x140 + slot) = .J ∧ keyOf (0x180 + slot) = .J)
    (hc : ∀ x e, ofOp slot x e = some (c (unpackJ x)) ∧ ofOp (0x140 + slot) x e = some (c (unpackJ x))
      ∧ ofOp (0x180 + slot) x e = some (c (unpackJ x))) (rest : List Word) :
    decode ([packJ slot w] ++ rest) = .ok (c w, rest) := by
  have key (op : Nat) (ho : opOf (packJ slot w) = op) (h7 : ¬ op / 64 = 7) (hk : keyOf op = .J)
      (hc : ∀ x e, ofOp op x e = some (c (unpackJ x))) : decode ([packJ slot w] ++ rest) = .ok (c w, rest) := by
    have h2 : hasSecondWord (packJ slot w) = false := by unfold hasSecondWord; rw [ho, hk]
    rw [List.cons_append, List.nil_append]
    unfold decode
    simp [ho, h7, h2, hc, unpackJ_packJ]
  have ho : opOf (packJ slot w) = (w.cls ++ BitVec.ofNat 6 slot).toNat := by rw [opOf, packJ_op]
  rcases transfer_op hs hw with h | h | h <;> rw [h] at ho
  · exact key _ ho (by omega) hk.1 fun x e => (hc x e).1
  · exact key _ ho (by omega) hk.2.1 fun x e => (hc x e).2.1
  · exact key _ ho (by omega) hk.2.2 fun x e => (hc x e).2.2

theorem decode_Jc {slot : Nat} (hs : slot < 64) (c : JcWord → Instr) (w : JcWord) (hw : transferClassOk w.cls = true)
    (hk : keyOf slot = .Jc ∧ keyOf (0x140 + slot) = .Jc ∧ keyOf (0x180 + slot) = .Jc)
    (hc : ∀ x e, ofOp slot x e = some (c (unpackJc x)) ∧ ofOp (0x140 + slot) x e = some (c (unpackJc x))
      ∧ ofOp (0x180 + slot) x e = some (c (unpackJc x))) (rest : List Word) :
    decode ([packJc slot w] ++ rest) = .ok (c w, rest) := by
  have key (op : Nat) (ho : opOf (packJc slot w) = op) (h7 : ¬ op / 64 = 7) (hk : keyOf op = .Jc)
      (hc : ∀ x e, ofOp op x e = some (c (unpackJc x))) : decode ([packJc slot w] ++ rest) = .ok (c w, rest) := by
    have h2 : hasSecondWord (packJc slot w) = false := by unfold hasSecondWord; rw [ho, hk]
    rw [List.cons_append, List.nil_append]
    unfold decode
    simp [ho, h7, h2, hc, unpackJc_packJc]
  have ho : opOf (packJc slot w) = (w.cls ++ BitVec.ofNat 6 slot).toNat := by rw [opOf, packJc_op]
  rcases transfer_op hs hw with h | h | h <;> rw [h] at ho
  · exact key _ ho (by omega) hk.1 fun x e => (hc x e).1
  · exact key _ ho (by omega) hk.2.1 fun x e => (hc x e).2.1
  · exact key _ ho (by omega) hk.2.2 fun x e => (hc x e).2.2

/-- An unassigned slot's word is walked as an A word (R45). -/
theorem unassigned_key (op : Nat) (h : unassignedOp op = true) : op < 448 ∧ keyOf op = .A := by
  have hb : op < 448 := by
    unfold unassignedOp at h
    simp only [Bool.and_eq_true, decide_eq_true_eq] at h
    exact h.1.1
  have all : ∀ n : Fin 448, unassignedOp n.val = true → keyOf n.val = .A := by decide +kernel
  exact ⟨hb, all ⟨op, hb⟩ h⟩
/-- An unassigned slot is no constructor's OP. -/
theorem unassigned_none (op : Nat) (h : unassignedOp op = true) (x e) : ofOp op x e = none := by
  unfold ofOp
  split <;> first | rfl | exact absurd h (by decide)

theorem decode_U (u : UWord) (h : WellFormed (.unassignedSlotIssue u) = true) (rest : List Word) :
    decode (encode (.unassignedSlotIssue u) ++ rest) = .ok (.unassignedSlotIssue u, rest) := by
  obtain ⟨w, e⟩ := u
  simp only [WellFormed, Bool.and_eq_true, beq_iff_eq] at h
  obtain ⟨h1, hx⟩ := h
  obtain ⟨hb, hk⟩ := unassigned_key _ h1
  have hn := unassigned_none _ h1
  have hop : opOf w = (w.extractLsb' 23 9).toNat := rfl
  rw [← hop] at hb hk hn
  have h7 : ¬ opOf w / 64 = 7 := by omega
  have h2 : hasSecondWord w = e.isSome := by unfold hasSecondWord; rw [hk, hx]
  cases e <;> simp only [encode, decode, Option.toList, List.cons_append, List.nil_append, h7, h2, hn, if_false,
    Option.isSome_none, Option.isSome_some, Option.getD_none]

/-! ### The constructors -/

theorem clauseFetch (p : PathRef) : Statement (.clauseFetch p) := fun _ h => absurd rfl h
theorem rotationStep (core : Nat) : Statement (.rotationStep core) := fun _ h => absurd rfl h
theorem iadd (w : AWord) : Statement (.iadd w) :=
  fun _ _ rest => decode_A (⟨by decide, by decide⟩ : Plain 0x000 .A) .iadd (fun _ _ => rfl) w rest
theorem isub (w : AWord) : Statement (.isub w) :=
  fun _ _ rest => decode_A (⟨by decide, by decide⟩ : Plain 0x001 .A) .isub (fun _ _ => rfl) w rest
theorem imul (w : AWord) : Statement (.imul w) :=
  fun _ _ rest => decode_A (⟨by decide, by decide⟩ : Plain 0x002 .A) .imul (fun _ _ => rfl) w rest
theorem imulh (w : AWord) : Statement (.imulh w) :=
  fun _ _ rest => decode_A (⟨by decide, by decide⟩ : Plain 0x003 .A) .imulh (fun _ _ => rfl) w rest
theorem imad (w : AWord) : Statement (.imad w) :=
  fun _ _ rest => decode_A (⟨by decide, by decide⟩ : Plain 0x004 .A) .imad (fun _ _ => rfl) w rest
theorem imin (w : AWord) : Statement (.imin w) :=
  fun _ _ rest => decode_A (⟨by decide, by decide⟩ : Plain 0x005 .A) .imin (fun _ _ => rfl) w rest
theorem imax (w : AWord) : Statement (.imax w) :=
  fun _ _ rest => decode_A (⟨by decide, by decide⟩ : Plain 0x006 .A) .imax (fun _ _ => rfl) w rest
theorem iabs (w : AWord) : Statement (.iabs w) :=
  fun _ _ rest => decode_A (⟨by decide, by decide⟩ : Plain 0x007 .A) .iabs (fun _ _ => rfl) w rest
theorem and (w : AWord) : Statement (.and w) :=
  fun _ _ rest => decode_A (⟨by decide, by decide⟩ : Plain 0x008 .A) .and (fun _ _ => rfl) w rest
theorem or (w : AWord) : Statement (.or w) :=
  fun _ _ rest => decode_A (⟨by decide, by decide⟩ : Plain 0x009 .A) .or (fun _ _ => rfl) w rest
theorem xor (w : AWord) : Statement (.xor w) :=
  fun _ _ rest => decode_A (⟨by decide, by decide⟩ : Plain 0x00a .A) .xor (fun _ _ => rfl) w rest
theorem andn (w : AWord) : Statement (.andn w) :=
  fun _ _ rest => decode_A (⟨by decide, by decide⟩ : Plain 0x00b .A) .andn (fun _ _ => rfl) w rest
theorem shl (w : AWord) : Statement (.shl w) :=
  fun _ _ rest => decode_A (⟨by decide, by decide⟩ : Plain 0x00c .A) .shl (fun _ _ => rfl) w rest
theorem shr (w : AWord) : Statement (.shr w) :=
  fun _ _ rest => decode_A (⟨by decide, by decide⟩ : Plain 0x00d .A) .shr (fun _ _ => rfl) w rest
theorem sar (w : AWord) : Statement (.sar w) :=
  fun _ _ rest => decode_A (⟨by decide, by decide⟩ : Plain 0x00e .A) .sar (fun _ _ => rfl) w rest
theorem rotl (w : AWord) : Statement (.rotl w) :=
  fun _ _ rest => decode_A (⟨by decide, by decide⟩ : Plain 0x00f .A) .rotl (fun _ _ => rfl) w rest
theorem bfx (w : AWord) : Statement (.bfx w) :=
  fun _ _ rest => decode_A (⟨by decide, by decide⟩ : Plain 0x010 .A) .bfx (fun _ _ => rfl) w rest
theorem bfi (w : AWord) : Statement (.bfi w) :=
  fun _ _ rest => decode_A (⟨by decide, by decide⟩ : Plain 0x011 .A) .bfi (fun _ _ => rfl) w rest
theorem popc (w : AWord) : Statement (.popc w) :=
  fun _ _ rest => decode_A (⟨by decide, by decide⟩ : Plain 0x012 .A) .popc (fun _ _ => rfl) w rest
theorem clz (w : AWord) : Statement (.clz w) :=
  fun _ _ rest => decode_A (⟨by decide, by decide⟩ : Plain 0x013 .A) .clz (fun _ _ => rfl) w rest
theorem ctz (w : AWord) : Statement (.ctz w) :=
  fun _ _ rest => decode_A (⟨by decide, by decide⟩ : Plain 0x014 .A) .ctz (fun _ _ => rfl) w rest
theorem brev (w : AWord) : Statement (.brev w) :=
  fun _ _ rest => decode_A (⟨by decide, by decide⟩ : Plain 0x015 .A) .brev (fun _ _ => rfl) w rest
theorem iset (w : AWord) : Statement (.iset w) :=
  fun _ _ rest => decode_A (⟨by decide, by decide⟩ : Plain 0x016 .A) .iset (fun _ _ => rfl) w rest
theorem sel (w : AWord) : Statement (.sel w) :=
  fun _ _ rest => decode_A (⟨by decide, by decide⟩ : Plain 0x017 .A) .sel (fun _ _ => rfl) w rest
theorem mov (w : AWord) : Statement (.mov w) :=
  fun _ _ rest => decode_A (⟨by decide, by decide⟩ : Plain 0x018 .A) .mov (fun _ _ => rfl) w rest
theorem movi (w : IWord) : Statement (.movi w) :=
  fun _ _ rest => decode_I (⟨by decide, by decide⟩ : Plain 0x019 .I) .movi (fun _ _ => rfl) w rest
theorem movw (w : IWord) (lit : Word) : Statement (.movw w lit) :=
  fun _ _ rest => decode_IL (⟨by decide, by decide⟩ : Plain 0x01a .IL) .movw (fun _ _ => rfl) w lit rest
theorem iadd64 (w : AWord) : Statement (.iadd64 w) :=
  fun _ _ rest => decode_A (⟨by decide, by decide⟩ : Plain 0x01b .A) .iadd64 (fun _ _ => rfl) w rest
theorem imad64 (w : AWord) : Statement (.imad64 w) :=
  fun _ _ rest => decode_A (⟨by decide, by decide⟩ : Plain 0x01c .A) .imad64 (fun _ _ => rfl) w rest
theorem fadd (w : AWord) : Statement (.fadd w) :=
  fun _ _ rest => decode_A (⟨by decide, by decide⟩ : Plain 0x020 .A) .fadd (fun _ _ => rfl) w rest
theorem fsub (w : AWord) : Statement (.fsub w) :=
  fun _ _ rest => decode_A (⟨by decide, by decide⟩ : Plain 0x021 .A) .fsub (fun _ _ => rfl) w rest
theorem fmul (w : AWord) : Statement (.fmul w) :=
  fun _ _ rest => decode_A (⟨by decide, by decide⟩ : Plain 0x022 .A) .fmul (fun _ _ => rfl) w rest
theorem ffma (w : AWord) : Statement (.ffma w) :=
  fun _ _ rest => decode_A (⟨by decide, by decide⟩ : Plain 0x023 .A) .ffma (fun _ _ => rfl) w rest
theorem fmin (w : AWord) : Statement (.fmin w) :=
  fun _ _ rest => decode_A (⟨by decide, by decide⟩ : Plain 0x024 .A) .fmin (fun _ _ => rfl) w rest
theorem fmax (w : AWord) : Statement (.fmax w) :=
  fun _ _ rest => decode_A (⟨by decide, by decide⟩ : Plain 0x025 .A) .fmax (fun _ _ => rfl) w rest
theorem fabs (w : AWord) : Statement (.fabs w) :=
  fun _ _ rest => decode_A (⟨by decide, by decide⟩ : Plain 0x026 .A) .fabs (fun _ _ => rfl) w rest
theorem fneg (w : AWord) : Statement (.fneg w) :=
  fun _ _ rest => decode_A (⟨by decide, by decide⟩ : Plain 0x027 .A) .fneg (fun _ _ => rfl) w rest
theorem fset (w : AWord) : Statement (.fset w) :=
  fun _ _ rest => decode_A (⟨by decide, by decide⟩ : Plain 0x028 .A) .fset (fun _ _ => rfl) w rest
theorem fclass (w : AWord) : Statement (.fclass w) :=
  fun _ _ rest => decode_A (⟨by decide, by decide⟩ : Plain 0x029 .A) .fclass (fun _ _ => rfl) w rest
theorem fcvt (w : AWord) : Statement (.fcvt w) :=
  fun _ _ rest => decode_A (⟨by decide, by decide⟩ : Plain 0x02a .A) .fcvt (fun _ _ => rfl) w rest
theorem frnd (w : AWord) : Statement (.frnd w) :=
  fun _ _ rest => decode_A (⟨by decide, by decide⟩ : Plain 0x02b .A) .frnd (fun _ _ => rfl) w rest
theorem fscalb (w : AWord) : Statement (.fscalb w) :=
  fun _ _ rest => decode_A (⟨by decide, by decide⟩ : Plain 0x02c .A) .fscalb (fun _ _ => rfl) w rest
theorem fdiv (w : AWord) : Statement (.fdiv w) :=
  fun _ _ rest => decode_A (⟨by decide, by decide⟩ : Plain 0x02d .A) .fdiv (fun _ _ => rfl) w rest
theorem fsqrt (w : AWord) : Statement (.fsqrt w) :=
  fun _ _ rest => decode_A (⟨by decide, by decide⟩ : Plain 0x02e .A) .fsqrt (fun _ _ => rfl) w rest
theorem fdot2 (w : AWord) : Statement (.fdot2 w) :=
  fun _ _ rest => decode_A (⟨by decide, by decide⟩ : Plain 0x02f .A) .fdot2 (fun _ _ => rfl) w rest
theorem iaddImm (w : IWord) : Statement (.iaddImm w) :=
  fun _ _ rest => decode_I (⟨by decide, by decide⟩ : Plain 0x030 .I) .iaddImm (fun _ _ => rfl) w rest
theorem shlImm (w : IWord) : Statement (.shlImm w) :=
  fun _ _ rest => decode_I (⟨by decide, by decide⟩ : Plain 0x031 .I) .shlImm (fun _ _ => rfl) w rest
theorem shrImm (w : IWord) : Statement (.shrImm w) :=
  fun _ _ rest => decode_I (⟨by decide, by decide⟩ : Plain 0x032 .I) .shrImm (fun _ _ => rfl) w rest
theorem sarImm (w : IWord) : Statement (.sarImm w) :=
  fun _ _ rest => decode_I (⟨by decide, by decide⟩ : Plain 0x033 .I) .sarImm (fun _ _ => rfl) w rest
theorem rotlImm (w : IWord) : Statement (.rotlImm w) :=
  fun _ _ rest => decode_I (⟨by decide, by decide⟩ : Plain 0x034 .I) .rotlImm (fun _ _ => rfl) w rest
theorem andImm (w : IWord) : Statement (.andImm w) :=
  fun _ _ rest => decode_I (⟨by decide, by decide⟩ : Plain 0x035 .I) .andImm (fun _ _ => rfl) w rest
theorem moviScalar (w : IWord) : Statement (.moviScalar w) :=
  fun _ _ rest => decode_I (⟨by decide, by decide⟩ : Plain 0x036 .I) .moviScalar (fun _ _ => rfl) w rest
theorem movwScalar (w : IWord) (lit : Word) : Statement (.movwScalar w lit) :=
  fun _ _ rest => decode_IL (⟨by decide, by decide⟩ : Plain 0x037 .IL) .movwScalar (fun _ _ => rfl) w lit rest
theorem iaddScalarImm (w : IWord) : Statement (.iaddScalarImm w) :=
  fun _ _ rest => decode_I (⟨by decide, by decide⟩ : Plain 0x038 .I) .iaddScalarImm (fun _ _ => rfl) w rest
theorem bra (w : JWord) : Statement (.bra w) :=
  fun h _ rest => decode_J (slot := 0x39) (by decide) .bra w h (by decide) (fun _ _ => ⟨rfl, rfl, rfl⟩) rest
theorem brv (w : JcWord) : Statement (.brv w) :=
  fun h _ rest => decode_Jc (slot := 0x3a) (by decide) .brv w h (by decide) (fun _ _ => ⟨rfl, rfl, rfl⟩) rest
theorem brs (w : JcWord) : Statement (.brs w) :=
  fun h _ rest => decode_Jc (slot := 0x3b) (by decide) .brs w h (by decide) (fun _ _ => ⟨rfl, rfl, rfl⟩) rest
theorem call (w : JcWord) : Statement (.call w) :=
  fun h _ rest => decode_Jc (slot := 0x3c) (by decide) .call w h (by decide) (fun _ _ => ⟨rfl, rfl, rfl⟩) rest
theorem ret (w : JcWord) : Statement (.ret w) :=
  fun h _ rest => decode_Jc (slot := 0x3d) (by decide) .ret w h (by decide) (fun _ _ => ⟨rfl, rfl, rfl⟩) rest
theorem jmpi (w : JcWord) : Statement (.jmpi w) :=
  fun h _ rest => decode_Jc (slot := 0x3e) (by decide) .jmpi w h (by decide) (fun _ _ => ⟨rfl, rfl, rfl⟩) rest
theorem exit (w : JWord) : Statement (.exit w) :=
  fun h _ rest => decode_J (slot := 0x3f) (by decide) .exit w h (by decide) (fun _ _ => ⟨rfl, rfl, rfl⟩) rest
theorem exitComplete (l : LaneRef) : Statement (.exitComplete l) := fun _ h => absurd rfl h
theorem join (w : IWord) : Statement (.join w) :=
  fun _ _ rest => decode_I (⟨by decide, by decide⟩ : Plain 0x140 .I) .join (fun _ _ => rfl) w rest
theorem leave (w : IWord) : Statement (.leave w) :=
  fun _ _ rest => decode_I (⟨by decide, by decide⟩ : Plain 0x141 .I) .leave (fun _ _ => rfl) w rest
theorem waitm (w : IWord) : Statement (.waitm w) :=
  fun _ _ rest => decode_I (⟨by decide, by decide⟩ : Plain 0x142 .I) .waitm (fun _ _ => rfl) w rest
theorem mset (w : IWord) : Statement (.mset w) :=
  fun _ _ rest => decode_I (⟨by decide, by decide⟩ : Plain 0x143 .I) .mset (fun _ _ => rfl) w rest
theorem mmov (w : IWord) : Statement (.mmov w) :=
  fun _ _ rest => decode_I (⟨by decide, by decide⟩ : Plain 0x144 .I) .mmov (fun _ _ => rfl) w rest
theorem mget (w : IWord) : Statement (.mget w) :=
  fun _ _ rest => decode_I (⟨by decide, by decide⟩ : Plain 0x145 .I) .mget (fun _ _ => rfl) w rest
theorem bar (w : IWord) : Statement (.bar w) :=
  fun _ _ rest => decode_I (⟨by decide, by decide⟩ : Plain 0x148 .I) .bar (fun _ _ => rfl) w rest
theorem bara (w : IWord) : Statement (.bara w) :=
  fun _ _ rest => decode_I (⟨by decide, by decide⟩ : Plain 0x149 .I) .bara (fun _ _ => rfl) w rest
theorem barw (w : IWord) : Statement (.barw w) :=
  fun _ _ rest => decode_I (⟨by decide, by decide⟩ : Plain 0x14a .I) .barw (fun _ _ => rfl) w rest
theorem mon (w : MWord) : Statement (.mon w) :=
  fun _ _ rest => decode_M (⟨by decide, by decide⟩ : Plain 0x14c .M) .mon w rfl rest
theorem mwait (w : AWord) : Statement (.mwait w) :=
  fun _ _ rest => decode_A (⟨by decide, by decide⟩ : Plain 0x14d .A) .mwait (fun _ _ => rfl) w rest
theorem mwaitTimeout (l : LaneRef) : Statement (.mwaitTimeout l) := fun _ h => absurd rfl h
theorem mwaitSpuriousWake (l : LaneRef) : Statement (.mwaitSpuriousWake l) := fun _ h => absurd rfl h
theorem shfl (w : AWord) : Statement (.shfl w) :=
  fun _ _ rest => decode_A (⟨by decide, by decide⟩ : Plain 0x150 .A) .shfl (fun _ _ => rfl) w rest
theorem vote (w : AWord) : Statement (.vote w) :=
  fun _ _ rest => decode_A (⟨by decide, by decide⟩ : Plain 0x151 .A) .vote (fun _ _ => rfl) w rest
theorem matchLanes (w : AWord) : Statement (.matchLanes w) :=
  fun _ _ rest => decode_A (⟨by decide, by decide⟩ : Plain 0x152 .A) .matchLanes (fun _ _ => rfl) w rest
theorem uni (w : AWord) : Statement (.uni w) :=
  fun _ _ rest => decode_A (⟨by decide, by decide⟩ : Plain 0x153 .A) .uni (fun _ _ => rfl) w rest
theorem rdlane (w : AWord) : Statement (.rdlane w) :=
  fun _ _ rest => decode_A (⟨by decide, by decide⟩ : Plain 0x154 .A) .rdlane (fun _ _ => rfl) w rest
theorem wrlane (w : AWord) : Statement (.wrlane w) :=
  fun _ _ rest => decode_A (⟨by decide, by decide⟩ : Plain 0x155 .A) .wrlane (fun _ _ => rfl) w rest
theorem elect (w : AWord) : Statement (.elect w) :=
  fun _ _ rest => decode_A (⟨by decide, by decide⟩ : Plain 0x156 .A) .elect (fun _ _ => rfl) w rest
theorem regroup (w : AWord) : Statement (.regroup w) :=
  fun _ _ rest => decode_A (⟨by decide, by decide⟩ : Plain 0x157 .A) .regroup (fun _ _ => rfl) w rest
theorem yield (w : AWord) : Statement (.yield w) :=
  fun _ _ rest => decode_A (⟨by decide, by decide⟩ : Plain 0x15e .A) .yield (fun _ _ => rfl) w rest
theorem nop (w : AWord) : Statement (.nop w) :=
  fun _ _ rest => decode_A (⟨by decide, by decide⟩ : Plain 0x15f .A) .nop (fun _ _ => rfl) w rest
theorem rdsr (w : IWord) : Statement (.rdsr w) :=
  fun _ _ rest => decode_I (⟨by decide, by decide⟩ : Plain 0x180 .I) .rdsr (fun _ _ => rfl) w rest
theorem wrsr (w : IWord) : Statement (.wrsr w) :=
  fun _ _ rest => decode_I (⟨by decide, by decide⟩ : Plain 0x181 .I) .wrsr (fun _ _ => rfl) w rest
theorem rand (w : AWord) : Statement (.rand w) :=
  fun _ _ rest => decode_A (⟨by decide, by decide⟩ : Plain 0x182 .A) .rand (fun _ _ => rfl) w rest
theorem trap (w : IWord) : Statement (.trap w) :=
  fun _ _ rest => decode_I (⟨by decide, by decide⟩ : Plain 0x183 .I) .trap (fun _ _ => rfl) w rest
theorem bkpt (w : IWord) : Statement (.bkpt w) :=
  fun _ _ rest => decode_I (⟨by decide, by decide⟩ : Plain 0x184 .I) .bkpt (fun _ _ => rfl) w rest
theorem launch (w : AWord) : Statement (.launch w) :=
  fun _ _ rest => decode_A (⟨by decide, by decide⟩ : Plain 0x185 .A) .launch (fun _ _ => rfl) w rest
theorem launchAnswer (core : Nat) (k : Nat) : Statement (.launchAnswer core k) := fun _ h => absurd rfl h
theorem vfree (w : AWord) : Statement (.vfree w) :=
  fun _ _ rest => decode_A (⟨by decide, by decide⟩ : Plain 0x186 .A) .vfree (fun _ _ => rfl) w rest
theorem ffn (w : AWord) : Statement (.ffn w) :=
  fun _ _ rest => decode_A (⟨by decide, by decide⟩ : Plain 0x040 .A) .ffn (fun _ _ => rfl) w rest
theorem redl (w : AWord) : Statement (.redl w) :=
  fun _ _ rest => decode_A (⟨by decide, by decide⟩ : Plain 0x041 .A) .redl (fun _ _ => rfl) w rest
theorem mma (w : AWord) : Statement (.mma w) :=
  fun _ _ rest => decode_A (⟨by decide, by decide⟩ : Plain 0x080 .A) .mma (fun _ _ => rfl) w rest
theorem mmal (w : AWord) : Statement (.mmal w) :=
  fun _ _ rest => decode_A (⟨by decide, by decide⟩ : Plain 0x081 .A) .mmal (fun _ _ => rfl) w rest
theorem ldf (w : MWord) : Statement (.ldf w) :=
  fun _ _ rest => decode_M (⟨by decide, by decide⟩ : Plain 0x088 .M) .ldf w rfl rest
theorem stf (w : MWord) : Statement (.stf w) :=
  fun _ _ rest => decode_M (⟨by decide, by decide⟩ : Plain 0x089 .M) .stf w rfl rest
theorem parkEntryGrant (core : Nat) (k : Nat) : Statement (.parkEntryGrant core k) := fun _ h => absurd rfl h
theorem wuAccept (cluster : Nat) : Statement (.wuAccept cluster) := fun _ h => absurd rfl h
theorem wuDecide (core : Nat) (k : Nat) : Statement (.wuDecide core k) := fun _ h => absurd rfl h
theorem xsAccept (die : Nat) : Statement (.xsAccept die) := fun _ h => absurd rfl h
theorem xsDecide (core : Nat) (k : Nat) : Statement (.xsDecide core k) := fun _ h => absurd rfl h
theorem registerRefill (stook : Nat) (sheaf : Nat) (reg : Nat) : Statement (.registerRefill stook sheaf reg) := fun _ h => absurd rfl h
theorem brset (w : MWord) : Statement (.brset w) :=
  fun _ _ rest => decode_M (⟨by decide, by decide⟩ : Plain 0x0c0 .M) .brset w rfl rest
theorem brget (w : MWord) : Statement (.brget w) :=
  fun _ _ rest => decode_M (⟨by decide, by decide⟩ : Plain 0x0c1 .M) .brget w rfl rest
theorem brinv (w : MWord) : Statement (.brinv w) :=
  fun _ _ rest => decode_M (⟨by decide, by decide⟩ : Plain 0x0c2 .M) .brinv w rfl rest
theorem ld (w : MWord) : Statement (.ld w) :=
  fun _ _ rest => decode_M (⟨by decide, by decide⟩ : Plain 0x0c8 .M) .ld w rfl rest
theorem st (w : MWord) : Statement (.st w) :=
  fun _ _ rest => decode_M (⟨by decide, by decide⟩ : Plain 0x0c9 .M) .st w rfl rest
theorem lds (w : MWord) : Statement (.lds w) :=
  fun _ _ rest => decode_M (⟨by decide, by decide⟩ : Plain 0x0ca .M) .lds w rfl rest
theorem sts (w : MWord) : Statement (.sts w) :=
  fun _ _ rest => decode_M (⟨by decide, by decide⟩ : Plain 0x0cb .M) .sts w rfl rest
theorem atom (w : MWord) : Statement (.atom w) :=
  fun _ _ rest => decode_M (⟨by decide, by decide⟩ : Plain 0x0d0 .M) .atom w rfl rest
theorem cas (w : MWord) : Statement (.cas w) :=
  fun _ _ rest => decode_M (⟨by decide, by decide⟩ : Plain 0x0d1 .M) .cas w rfl rest
theorem red (w : MWord) : Statement (.red w) :=
  fun _ _ rest => decode_M (⟨by decide, by decide⟩ : Plain 0x0d2 .M) .red w rfl rest
theorem xred (w : MWord) : Statement (.xred w) :=
  fun _ _ rest => decode_M (⟨by decide, by decide⟩ : Plain 0x0d3 .M) .xred w rfl rest
theorem xrd (w : MWord) : Statement (.xrd w) :=
  fun _ _ rest => decode_M (⟨by decide, by decide⟩ : Plain 0x0d4 .M) .xrd w rfl rest
theorem fence (w : MWord) : Statement (.fence w) :=
  fun _ _ rest => decode_M (⟨by decide, by decide⟩ : Plain 0x0d8 .M) .fence w rfl rest
theorem pref (w : MWord) : Statement (.pref w) :=
  fun _ _ rest => decode_M (⟨by decide, by decide⟩ : Plain 0x0d9 .M) .pref w rfl rest
theorem cctl (w : MWord) : Statement (.cctl w) :=
  fun _ _ rest => decode_M (⟨by decide, by decide⟩ : Plain 0x0da .M) .cctl w rfl rest
theorem loadResponse (core : Nat) (k : Nat) : Statement (.loadResponse core k) := fun _ h => absurd rfl h
theorem homeRequest (core : Nat) (k : Nat) (sector : SectorRead) : Statement (.homeRequest core k sector) := fun _ h => absurd rfl h
theorem bscFill (core : Nat) (k : Nat) : Statement (.bscFill core k) := fun _ h => absurd rfl h
theorem tbegin (w : MWord) : Statement (.tbegin w) :=
  fun _ _ rest => decode_M (⟨by decide, by decide⟩ : Plain 0x0e0 .M) .tbegin w rfl rest
theorem tbeginl (w : MWord) : Statement (.tbeginl w) :=
  fun _ _ rest => decode_M (⟨by decide, by decide⟩ : Plain 0x0e1 .M) .tbeginl w rfl rest
theorem tend (w : AWord) : Statement (.tend w) :=
  fun _ _ rest => decode_A (⟨by decide, by decide⟩ : Plain 0x0e2 .A) .tend (fun _ _ => rfl) w rest
theorem tabort (w : AWord) : Statement (.tabort w) :=
  fun _ _ rest => decode_A (⟨by decide, by decide⟩ : Plain 0x0e3 .A) .tabort (fun _ _ => rfl) w rest
theorem tval (w : AWord) : Statement (.tval w) :=
  fun _ _ rest => decode_A (⟨by decide, by decide⟩ : Plain 0x0e4 .A) .tval (fun _ _ => rfl) w rest
theorem tstat (w : AWord) : Statement (.tstat w) :=
  fun _ _ rest => decode_A (⟨by decide, by decide⟩ : Plain 0x0e5 .A) .tstat (fun _ _ => rfl) w rest
theorem commitLockTimeout (l : LaneRef) : Statement (.commitLockTimeout l) := fun _ h => absurd rfl h
theorem lockedAccessTimeout (core : Nat) (k : Nat) : Statement (.lockedAccessTimeout core k) := fun _ h => absurd rfl h
theorem pbarOrd (w : MWord) : Statement (.pbarOrd w) :=
  fun h _ rest => decode_M (⟨by decide, by decide⟩ : Plain 0x0db .M) .pbarOrd w
    (by have h' : w.me.getLsbD 16 = false := by simpa [WellFormed] using h
        show (if ((some w.me).getD 0).getLsbD 16 then _ else _) = _
        rw [Option.getD_some, h']; rfl) rest
theorem pbarSync (w : MWord) : Statement (.pbarSync w) :=
  fun h _ rest => decode_M (⟨by decide, by decide⟩ : Plain 0x0db .M) .pbarSync w
    (by have h' : w.me.getLsbD 16 = true := by simpa [WellFormed] using h
        show (if ((some w.me).getD 0).getLsbD 16 then _ else _) = _
        rw [Option.getD_some, h']; rfl) rest
theorem pbarSyncComplete (l : LaneRef) : Statement (.pbarSyncComplete l) := fun _ h => absurd rfl h
theorem cpy (w : MWord) : Statement (.cpy w) :=
  fun _ _ rest => decode_M (⟨by decide, by decide⟩ : Plain 0x100 .M) .cpy w rfl rest
theorem cpyg (w : MWord) : Statement (.cpyg w) :=
  fun _ _ rest => decode_M (⟨by decide, by decide⟩ : Plain 0x101 .M) .cpyg w rfl rest
theorem cpys (w : MWord) : Statement (.cpys w) :=
  fun _ _ rest => decode_M (⟨by decide, by decide⟩ : Plain 0x102 .M) .cpys w rfl rest
theorem copyAccept (core : Nat) (k : Nat) : Statement (.copyAccept core k) := fun _ h => absurd rfl h
theorem copyChunk (core : Nat) (k : Nat) (n : Nat) (sector : SectorRead) : Statement (.copyChunk core k n sector) := fun _ h => absurd rfl h
theorem cwait (w : AWord) : Statement (.cwait w) :=
  fun _ _ rest => decode_A (⟨by decide, by decide⟩ : Plain 0x108 .A) .cwait (fun _ _ => rfl) w rest
theorem cbinit (w : AWord) : Statement (.cbinit w) :=
  fun _ _ rest => decode_A (⟨by decide, by decide⟩ : Plain 0x110 .A) .cbinit (fun _ _ => rfl) w rest
theorem cbacq (w : AWord) : Statement (.cbacq w) :=
  fun _ _ rest => decode_A (⟨by decide, by decide⟩ : Plain 0x111 .A) .cbacq (fun _ _ => rfl) w rest
theorem cbrel (w : AWord) : Statement (.cbrel w) :=
  fun _ _ rest => decode_A (⟨by decide, by decide⟩ : Plain 0x112 .A) .cbrel (fun _ _ => rfl) w rest
theorem pageWalk (core : Nat) (ctx : Nat) (va : DWord) : Statement (.pageWalk core ctx va) := fun _ h => absurd rfl h
theorem faultService (fault : Word) : Statement (.faultService fault) := fun _ h => absurd rfl h
theorem faultAckRetry (h : MsgHdr) (fault : Word) : Statement (.faultAckRetry h fault) := fun _ h => absurd rfl h
theorem faultAckNomap (h : MsgHdr) (fault : Word) : Statement (.faultAckNomap h fault) := fun _ h => absurd rfl h
theorem faultAckResume (h : MsgHdr) (fault : Word) : Statement (.faultAckResume h fault) := fun _ h => absurd rfl h
theorem faultAckEndLaunch (h : MsgHdr) (fault : Word) : Statement (.faultAckEndLaunch h fault) := fun _ h => absurd rfl h
theorem faultAckEndContext (h : MsgHdr) (fault : Word) : Statement (.faultAckEndContext h fault) := fun _ h => absurd rfl h
theorem submit (h : MsgHdr) (queue : DWord) (desc : BitVec 2048) : Statement (.submit h queue desc) := fun _ h => absurd rfl h
theorem cancel (h : MsgHdr) (launch : Word) : Statement (.cancel h launch) := fun _ h => absurd rfl h
theorem query (h : MsgHdr) (launch : Word) : Statement (.query h launch) := fun _ h => absurd rfl h
theorem telemetryQuery (h : MsgHdr) : Statement (.telemetryQuery h) := fun _ h => absurd rfl h
theorem memread (h : MsgHdr) (b : MemBlock) : Statement (.memread h b) := fun _ h => absurd rfl h
theorem memwrite (h : MsgHdr) (b : MemBlock) (data : List Byte) : Statement (.memwrite h b data) := fun _ h => absurd rfl h
theorem settingsWrite (h : MsgHdr) (b : MemBlock) (data : List Byte) : Statement (.settingsWrite h b data) := fun _ h => absurd rfl h
theorem ctxset (h : MsgHdr) (rec : BitVec 512) : Statement (.ctxset h rec) := fun _ h => absurd rfl h
theorem peercfg (h : MsgHdr) (cfg : BitVec 4160) : Statement (.peercfg h cfg) := fun _ h => absurd rfl h
theorem seqGapTimeout (ctx : Nat) : Statement (.seqGapTimeout ctx) := fun _ h => absurd rfl h
theorem controlPortFailover (port : Nat) : Statement (.controlPortFailover port) := fun _ h => absurd rfl h
theorem stookPlacement (core : Nat) : Statement (.stookPlacement core) := fun _ h => absurd rfl h
theorem quantumExpiry (stook : Nat) : Statement (.quantumExpiry stook) := fun _ h => absurd rfl h
theorem watchdogExpiry (ctx : Nat) (launch : Word) : Statement (.watchdogExpiry ctx launch) := fun _ h => absurd rfl h
theorem preempt (h : MsgHdr) (launch : Word) : Statement (.preempt h launch) := fun _ h => absurd rfl h
theorem restore (h : MsgHdr) (launch : Word) : Statement (.restore h launch) := fun _ h => absurd rfl h
theorem setbp (h : MsgHdr) (launch : Word) (arg0 : Word) (arg1 : Word) : Statement (.setbp h launch arg0 arg1) := fun _ h => absurd rfl h
theorem clrbp (h : MsgHdr) (launch : Word) (arg0 : Word) (arg1 : Word) : Statement (.clrbp h launch arg0 arg1) := fun _ h => absurd rfl h
theorem stopall (h : MsgHdr) (launch : Word) (arg0 : Word) (arg1 : Word) : Statement (.stopall h launch arg0 arg1) := fun _ h => absurd rfl h
theorem release (h : MsgHdr) (launch : Word) (arg0 : Word) (arg1 : Word) : Statement (.release h launch arg0 arg1) := fun _ h => absurd rfl h
theorem step (h : MsgHdr) (launch : Word) (arg0 : Word) (arg1 : Word) : Statement (.step h launch arg0 arg1) := fun _ h => absurd rfl h
theorem dump (h : MsgHdr) (launch : Word) (arg0 : Word) (arg1 : Word) : Statement (.dump h launch arg0 arg1) := fun _ h => absurd rfl h
theorem keyloadLoad (h : MsgHdr) (slot : Byte) (rsv : BitVec 48) (epk : BitVec 448) (wkey : BitVec 576) : Statement (.keyloadLoad h slot rsv epk wkey) := fun _ h => absurd rfl h
theorem keyloadErase (h : MsgHdr) (slot : Byte) (rsv : BitVec 48) (epk : BitVec 448) (wkey : BitVec 576) : Statement (.keyloadErase h slot rsv epk wkey) := fun _ h => absurd rfl h
theorem fwupdateBegin (h : MsgHdr) (total : DWord) : Statement (.fwupdateBegin h total) := fun _ h => absurd rfl h
theorem fwupdateData (h : MsgHdr) (offset : DWord) (data : List Byte) : Statement (.fwupdateData h offset data) := fun _ h => absurd rfl h
theorem fwupdateCommit (h : MsgHdr) : Statement (.fwupdateCommit h) := fun _ h => absurd rfl h
theorem attest (h : MsgHdr) (nonce : BitVec 256) : Statement (.attest h nonce) := fun _ h => absurd rfl h
theorem telemetryTick : Statement (.telemetryTick) := fun _ h => absurd rfl h
theorem powerWindow (mw : Nat) (mdeg : Nat) : Statement (.powerWindow mw mdeg) := fun _ h => absurd rfl h
theorem thermalTrip (die : Nat) (mdeg : Nat) : Statement (.thermalTrip die mdeg) := fun _ h => absurd rfl h
theorem powerLoss (drained : Bool) : Statement (.powerLoss drained) := fun _ h => absurd rfl h
theorem stagingDrain (stack : Nat) : Statement (.stagingDrain stack) := fun _ h => absurd rfl h
theorem powerUp (energyOk : Bool) : Statement (.powerUp energyOk) := fun _ h => absurd rfl h
theorem laSnapshot (ctx : Nat) (launch : Word) (granule : Nat) : Statement (.laSnapshot ctx launch granule) := fun _ h => absurd rfl h
theorem granuleSnapshot (ctx : Nat) (launch : Word) (granule : Nat) : Statement (.granuleSnapshot ctx launch granule) := fun _ h => absurd rfl h
theorem laCompletionRecord (ctx : Nat) (launch : Word) : Statement (.laCompletionRecord ctx launch) := fun _ h => absurd rfl h
theorem watermarkCompare (stook : Nat) (twin : Nat) : Statement (.watermarkCompare stook twin) := fun _ h => absurd rfl h
theorem twinTimeout (stook : Nat) : Statement (.twinTimeout stook) := fun _ h => absurd rfl h
theorem sampleCheck (ctx : Nat) (launch : Word) (stookid : Word) (verdict : SampleVerdict) : Statement (.sampleCheck ctx launch stookid verdict) := fun _ h => absurd rfl h
theorem scrub (pa : Nat) (sector : SectorRead) : Statement (.scrub pa sector) := fun _ h => absurd rfl h
theorem calibration (resource : Nat) : Statement (.calibration resource) := fun _ h => absurd rfl h
theorem nvWearManagement (stack : Nat) (permille : Nat) : Statement (.nvWearManagement stack permille) := fun _ h => absurd rfl h
theorem linkRetrain (link : Nat) (ok : Bool) : Statement (.linkRetrain link ok) := fun _ h => absurd rfl h
theorem unassignedSlotIssue (w : UWord) : Statement (.unassignedSlotIssue w) :=
  fun h _ rest => decode_U _ h rest
theorem unknownMessageType (h : MsgHdr) (m : Unlisted) : Statement (.unknownMessageType h m) := fun _ h => absurd rfl h
theorem controlFrameRetransmit (port : Nat) : Statement (.controlFrameRetransmit port) := fun _ h => absurd rfl h
theorem peerFrameRetransmit (link : Nat) : Statement (.peerFrameRetransmit link) := fun _ h => absurd rfl h
theorem storeQueueDrain (stook : Nat) (sheaf : Nat) : Statement (.storeQueueDrain stook sheaf) := fun _ h => absurd rfl h

end Sys2Proof.Laws.Encoding
end

