-- ==== Sys2Proof/Laws/Sync.lean ====
section
/-! SUPPORT. Hold points (05 R104, R105, R189): a sheaf whose lanes wait nowhere is left alone; lanes that come to a mask
none else waits on go on, or wait. -/

namespace Sys2Proof.Machine

open Sys2Proof

theorem Sheaf.getLsbD_lanesWhere (h : Sheaf) (f : Lane → Bool) (l : Nat) :
    (h.lanesWhere f).getLsbD l = (decide (l < 32) && (decide (l < h.lanes.length) && f (h.lane l))) := by
  unfold Sheaf.lanesWhere
  rw [getLsbD_maskOf]
  congr 1
  by_cases hl : l < h.lanes.length
  · by_cases hp : f (h.lane l) = true
    · simp [hl, hp]
    · simp [hl, Bool.eq_false_iff.2 hp]
  · simp [hl]

theorem Sheaf.lanesWhere_zero {h : Sheaf} {f : Lane → Bool} (hf : ∀ l, f (h.lane l) = false) : h.lanesWhere f = 0 := by
  apply BitVec.eq_of_getLsbD_eq
  intro l _
  rw [Sheaf.getLsbD_lanesWhere, hf l]; simp

/-- A fold of which one element alone does anything. -/
theorem foldl_one {σ : Type} (f : σ → Nat → σ) (m : Nat) (a b : σ) :
    ∀ l : List Nat, l.Nodup → m ∈ l → (∀ j ∈ l, j ≠ m → f a j = a) → f a m = b → (∀ j ∈ l, j ≠ m → f b j = b) → l.foldl f a = b := by
  intro l hn hm h1 h2 h3
  induction l with
  | nil => simp at hm
  | cons x t ih =>
    rw [List.nodup_cons] at hn
    by_cases hx : x = m
    · subst hx
      rw [List.foldl_cons, h2]
      have : ∀ j ∈ t, f b j = b := fun j hj => h3 j (List.mem_cons_of_mem _ hj) (fun e => hn.1 (e ▸ hj))
      clear ih hm h1 h3 hn
      induction t with
      | nil => rfl
      | cons y t ih => rw [List.foldl_cons, this y (List.mem_cons_self ..)]; exact ih fun j hj => this j (List.mem_cons_of_mem _ hj)
    · rw [List.foldl_cons, h1 x (List.mem_cons_self ..) hx]
      have hm' : m ∈ t := by
        rcases List.mem_cons.1 hm with e | e
        · exact absurd e.symm hx
        · exact e
      exact ih hn.2 hm' (fun j hj => h1 j (List.mem_cons_of_mem _ hj)) (fun j hj => h3 j (List.mem_cons_of_mem _ hj))

theorem foldl_idle {σ α : Type} (f : σ → α → σ) (a : σ) : ∀ l : List α, (∀ x ∈ l, f a x = a) → l.foldl f a = a := by
  intro l h
  induction l with
  | nil => rfl
  | cons x t ih => rw [List.foldl_cons, h x (List.mem_cons_self ..)]; exact ih fun y hy => h y (List.mem_cons_of_mem _ hy)

/-- No lane of a sheaf waits on a mask or at a sheaf-wide word. -/
def Sheaf.Free (h : Sheaf) : Prop := ∀ l, match (h.lane l).hold with
  | some (.waitm _) => False
  | some (.cross _ _) => False
  | some (.tile _) => False
  | _ => True

/-- No lane of a sheaf waits on a mask. -/
theorem State.settleMask_idle {s : State} {u i m : Nat} (hw : (s.sheafAt u i).waiters m = 0) (hc : (s.sheafAt u i).crossers m = 0) :
    s.settleMask u i m = s := by
  unfold State.settleMask
  simp [hw, hc]

theorem Sheaf.Free.waiters {h : Sheaf} (hf : h.Free) (m : Nat) : h.waiters m = 0 := by
  refine Sheaf.lanesWhere_zero fun l => ?_
  have := hf l
  revert this
  cases (h.lane l).hold with
  | none => simp
  | some x => cases x <;> simp

theorem Sheaf.Free.crossers {h : Sheaf} (hf : h.Free) (m : Nat) : h.crossers m = 0 := by
  refine Sheaf.lanesWhere_zero fun l => ?_
  have := hf l
  revert this
  cases (h.lane l).hold with
  | none => simp
  | some x => cases x <;> simp

/-- No lane of a sheaf waits at a sheaf-wide word. -/
theorem State.settleTile_idle {s : State} {u i : Nat} (hf : ∀ l, ((s.sheafAt u i).lane l).atTile = false) :
    s.settleTile u i = s := by
  unfold State.settleTile
  cases hk : s.stook? u with
  | none => rfl
  | some k =>
    dsimp only
    have h0 : (k.sheaf i).lanesWhere Lane.atTile = 0 :=
      Sheaf.lanesWhere_zero fun l => by have := hf l; rwa [State.sheafAt_of hk] at this
    rw [h0, show lanesOf 0 = [] by decide]
    rfl

theorem State.settleSheaf_idle {s : State} {u i : Nat} (hf : (s.sheafAt u i).Free) : s.settleSheaf u i = s := by
  unfold State.settleSheaf
  rw [foldl_idle _ _ _ fun m _ => State.settleMask_idle (hf.waiters m) (hf.crossers m)]
  refine State.settleTile_idle fun l => ?_
  have := hf l
  unfold Lane.atTile
  revert this
  cases ((s.sheafAt u i).lane l).hold with
  | none => simp
  | some x => cases x <;> simp

/-! ### One mask alone -/

/-- Lanes of a sheaf that wait for each other wait on one mask, none at a sheaf-wide word. -/
def Sheaf.OnlyMask (h : Sheaf) (m : Nat) : Prop := ∀ l, match (h.lane l).hold with
  | some (.waitm n) => n = m
  | some (.cross n _) => n = m
  | some (.tile _) => False
  | _ => True

theorem Sheaf.OnlyMask.waiters {h : Sheaf} {m n : Nat} (hf : h.OnlyMask m) (hn : n ≠ m) : h.waiters n = 0 := by
  refine Sheaf.lanesWhere_zero fun l => ?_
  have := hf l
  revert this
  cases (h.lane l).hold with
  | none => simp
  | some x => cases x <;> intro h <;> first | rfl | exact absurd h id | (subst h; simp [hn.symm]) | simp

theorem Sheaf.OnlyMask.crossers {h : Sheaf} {m n : Nat} (hf : h.OnlyMask m) (hn : n ≠ m) : h.crossers n = 0 := by
  refine Sheaf.lanesWhere_zero fun l => ?_
  have := hf l
  revert this
  cases (h.lane l).hold with
  | none => simp
  | some x => cases x <;> intro h <;> first | rfl | exact absurd h id | (subst h; simp [hn.symm]) | simp

/-- Settling a sheaf whose lanes wait on one mask looks at that mask. -/
theorem State.settleSheaf_one {s : State} {u i m : Nat} (hm : m < 12) (h1 : (s.sheafAt u i).OnlyMask m)
    (h2 : ((s.settleMask u i m).sheafAt u i).OnlyMask m) : s.settleSheaf u i = s.settleMask u i m := by
  unfold State.settleSheaf
  rw [foldl_one (fun s m => s.settleMask u i m) m s (s.settleMask u i m) _ List.nodup_range (List.mem_range.2 hm)
    (fun j _ hj => State.settleMask_idle (h1.waiters hj) (h1.crossers hj)) rfl
    (fun j _ hj => State.settleMask_idle (h2.waiters hj) (h2.crossers hj))]
  refine State.settleTile_idle fun l => ?_
  have := h2 l
  unfold Lane.atTile
  revert this
  cases (((s.settleMask u i m).sheafAt u i).lane l).hold with
  | none => simp
  | some x => cases x <;> simp

theorem Sheaf.finishLanes_fields (h : Sheaf) (id : Nat) (m : LaneMask) :
    h.finishLanes id m = { h with issues := (h.finishLanes id m).issues } := by
  unfold Sheaf.finishLanes; split <;> rfl

/-- Lanes finished with what they held for: their holds go, and the issues they counted on. -/
theorem Sheaf.finishHeld_fields (h : Sheaf) (m : LaneMask) :
    h.finishHeld m = { h with issues := (h.finishHeld m).issues, lanes := (h.finishHeld m).lanes } := by
  have key (ls : List Nat) (g : Sheaf) : ls.foldl (fun g l => g.finishLanes (g.lane l).issue (maskOf [l])) g
      = { g with issues := (ls.foldl (fun g l => g.finishLanes (g.lane l).issue (maskOf [l])) g).issues } := by
    induction ls generalizing g with
    | nil => rfl
    | cons a t ih => rw [List.foldl_cons, ih, Sheaf.finishLanes_fields]
  unfold Sheaf.finishHeld
  rw [key]; rfl

/-- A lane's pending marks without those of the commit or the transactional access it is held in. -/
def Lane.unheld (x : Lane) : Lane :=
  { x with hold := none, issue := 0, pending := x.pending.filter fun q =>
      !(match x.hold with
        | some (.commit _ g _) => q.2 == g
        | some (.txwait r _) => q.2 == r.id
        | _ => false) }

theorem Sheaf.lane_finishHeld (h : Sheaf) (m : LaneMask) (l : Nat) (hl : m.getLsbD l = true → l < h.lanes.length) :
    (h.finishHeld m).lane l = if m.getLsbD l = true then ((h.lane l).unheld) else h.lane l := by
  have key (ls : List Nat) (g : Sheaf) :
      (ls.foldl (fun g l => g.finishLanes (g.lane l).issue (maskOf [l])) g).lanes = g.lanes := by
    induction ls generalizing g with
    | nil => rfl
    | cons a t ih => rw [List.foldl_cons, ih, Sheaf.finishLanes_fields]
  unfold Sheaf.finishHeld
  rw [Sheaf.lane_modLanes]
  simp only [Sheaf.lane_congr (key (lanesOf m) h), key]
  by_cases hm : m.getLsbD l = true
  · rw [if_pos ⟨hm, hl hm⟩, if_pos hm]; rfl
  · rw [if_neg (fun c => hm c.1), if_neg hm]

theorem Sheaf.length_finishHeld (h : Sheaf) (m : LaneMask) : (h.finishHeld m).lanes.length = h.lanes.length := by
  have key (ls : List Nat) (g : Sheaf) :
      (ls.foldl (fun g l => g.finishLanes (g.lane l).issue (maskOf [l])) g).lanes = g.lanes := by
    induction ls generalizing g with
    | nil => rfl
    | cons a t ih => rw [List.foldl_cons, ih, Sheaf.finishLanes_fields]
  unfold Sheaf.finishHeld
  simp [key]

/-- The members of a mask all wait: the waiters go on. -/
theorem State.settleMask_go {s : State} {u i m : Nat} (hc : (s.sheafAt u i).crossers m = 0)
    (hw : (s.sheafAt u i).waiters m ≠ 0) (hm : (s.sheafAt u i).rm m &&& ~~~(s.sheafAt u i).waiters m = 0) :
    s.settleMask u i m = s.modSheaf u i fun h =>
      h.passHeld ((s.sheafAt u i).waiters m) := by
  have h0 : (s.sheafAt u i).waiters m ||| 0 = (s.sheafAt u i).waiters m := BitVec.or_zero
  have h1 : (s.sheafAt u i).rm m &&& 0 = 0 := BitVec.and_zero
  unfold State.settleMask
  dsimp only
  rw [hc, h0, h1, hm, ite_self, if_pos rfl, if_neg]
  simpa using hw

end Sys2Proof.Machine
end

