-- ==== Sys2Proof/Tests/Slice0.lean ====
section
/-! SUPPORT. Tests: words the spec writes out bit by bit decode to what they stand for; terms that stand for no word are
ill formed; worked examples of the spec, one step each; and for each statement states that meet its hypotheses. -/

namespace Sys2Proof.Tests

-- One theorem after another: each kernel evaluation waits for those before it, and a thread for each is too many.
set_option Elab.async false

open Sys2Proof Sys2Proof.Machine

/-! ### Words the spec writes out -/

/-- What the decoder reads, when it does not refuse. -/
def readWord (ws : List Word) : Option (Instr × List Word) := (decode ws).toOption

/-- 01, the worked clause: FMUL with N = 1, FFMA with its E word. -/
theorem test_decode_float : readWord [0x11748104] = some (.fmul ⟨0x74, true, 0x01, 0x02, none⟩, [])
    ∧ readWord [0x11847007, 0x0A12E000] = some (.ffma ⟨0x04, false, 0x70, 0x03, some 0x0A12E000⟩, []) := by decide

/-- 02, the sample program: RDSR, SHL, IADD with LANE, LD, FADD, ST, EXIT. -/
theorem test_decode_sample : readWord [0xC0017402] = some (.rdsr ⟨0x01, false, 0x74, 2⟩, [])
    ∧ readWord [0x18810105] = some (.shlImm ⟨0x01, false, 0x01, 5⟩, [])
    ∧ readWord [0x000101EA] = some (.iadd ⟨0x01, false, 0x01, 0x75, none⟩, [])
    ∧ readWord [0x64020105, 0x00400000] = some (.ld ⟨0x02, false, 0x01, 1, false, true, 0x00400000⟩, [])
    ∧ readWord [0x10020205, 0xE812E000] = some (.fadd ⟨0x02, false, 0x02, 0x02, some 0xE812E000⟩, [])
    ∧ readWord [0x64820105, 0x00E00000] = some (.st ⟨0x02, false, 0x01, 1, false, true, 0x00E00000⟩, [])
    ∧ readWord [0xBF800000] = some (.exit ⟨5, 0⟩, []) := by decide

/-- 08: JOIN, BRV, BRA, WAITM, LEAVE, EXIT in the three classes, YIELD, NOP, VOTE.BALLOT. -/
theorem test_decode_control : readWord [0xA0747402] = some (.join ⟨0x74, false, 0x74, 2⟩, [])
    ∧ readWord [0x1D030006] = some (.brv ⟨0, 0x03, 6⟩, []) ∧ readWord [0x1C800005] = some (.bra ⟨0, 5⟩, [])
    ∧ readWord [0xA1747402] = some (.waitm ⟨0x74, false, 0x74, 2⟩, []) ∧ readWord [0xA0F47402] = some (.leave ⟨0x74, false, 0x74, 2⟩, [])
    ∧ readWord [0x1F800000] = some (.exit ⟨0, 0⟩, []) ∧ readWord [0xDF800000] = some (.exit ⟨6, 0⟩, [])
    ∧ readWord [0xAF7474E8] = some (.yield ⟨0x74, false, 0x74, 0x74, none⟩, [])
    ∧ readWord [0xAFF474E8] = some (.nop ⟨0x74, false, 0x74, 0x74, none⟩, [])
    ∧ readWord [0xA88603E9, 0xE800E880] = some (.vote ⟨0x06, false, 0x03, 0x74, some 0xE800E880⟩, []) := by decide

/-- 09: FCVT, FSET into a mask, MOVW, the scalar MOVI and IADD. -/
theorem test_decode_valu : readWord [0x150602E9, 0xE800E480] = some (.fcvt ⟨0x06, false, 0x02, 0x74, some 0xE800E480⟩, [])
    ∧ readWord [0x140302E9, 0xE812E280] = some (.fset ⟨0x03, false, 0x02, 0x74, some 0xE812E280⟩, [])
    ∧ readWord [0x0D057400, 0x3F800000] = some (.movw ⟨0x05, false, 0x74, 0⟩ 0x3F800000, [])
    ∧ readWord [0x1B0374FF] = some (.moviScalar ⟨0x03, false, 0x74, 0xFF⟩, [])
    ∧ readWord [0x00282853, 0xE804F000] = some (.iadd ⟨0x28, false, 0x28, 0x29, some 0xE804F000⟩, []) := by decide

/-- 10: FFN, MMA, LDF; 15: STF. -/
theorem test_decode_matrix : readWord [0x200C0CE9, 0xE9D240C0] = some (.ffn ⟨0x0C, false, 0x0C, 0x74, some 0xE9D240C0⟩, [])
    ∧ readWord [0x40080209, 0x10114000] = some (.mma ⟨0x08, false, 0x02, 0x04, some 0x10114000⟩, [])
    ∧ readWord [0x44027405, 0x00200000] = some (.ldf ⟨0x02, false, 0x74, 1, false, true, 0x00200000⟩, [])
    ∧ readWord [0x4488740D, 0x00E20000] = some (.stf ⟨0x08, false, 0x74, 3, false, true, 0x00E20000⟩, []) := by decide

/-- 11 and 13: XRED, XRD, FENCE, LD with VEC, ATOM, PBAR.ORD. -/
theorem test_decode_memory : readWord [0x69850A01, 0x60E00000] = some (.xred ⟨0x05, false, 0x0A, 0, false, true, 0x60E00000⟩, [])
    ∧ readWord [0x6A070A01, 0x68500000] = some (.xrd ⟨0x07, false, 0x0A, 0, false, true, 0x68500000⟩, [])
    ∧ readWord [0x6C747401, 0x78E00000] = some (.fence ⟨0x74, false, 0x74, 0, false, true, 0x78E00000⟩, [])
    ∧ readWord [0x640C0305, 0x00220000] = some (.ld ⟨0x0C, false, 0x03, 1, false, true, 0x00220000⟩, [])
    ∧ readWord [0x68060211, 0x78600000] = some (.atom ⟨0x06, false, 0x02, 4, false, true, 0x78600000⟩, [])
    ∧ readWord [0x6DF47401, 0xC0E00000] = some (.pbarOrd ⟨0x74, false, 0x74, 0, false, true, 0xC0E00000⟩, []) := by decide

/-- 14: CPYG, CBACQ, TEND. -/
theorem test_decode_engines : readWord [0x80887409, 0x20200000] = some (.cpyg ⟨0x08, false, 0x74, 2, false, true, 0x20200000⟩, [])
    ∧ readWord [0x888574E9, 0xE800E040] = some (.cbacq ⟨0x05, false, 0x74, 0x74, some 0xE800E040⟩, [])
    ∧ readWord [0x717474E9, 0xE800E000] = some (.tend ⟨0x74, false, 0x74, 0x74, some 0xE800E000⟩, []) := by decide

/-- R45: a word of an unassigned slot is an A word; R10: a word whose second word is not there is refused. -/
theorem test_decode_unassigned : readWord [0x6BF47401, 0xE800E000] = some (.unassignedSlotIssue ⟨0x6BF47401, some 0xE800E000⟩, [])
    ∧ readWord [0x11847007] = none := by decide

/-- The words count from the first, bits 31 to 0, to the second, bits 63 to 32. -/
theorem test_decode_table_word : decodeTableWord 64 (0x64020105 + 2 ^ 32 * 0x00400000)
      = some (.ld ⟨0x02, false, 0x01, 1, false, true, 0x00400000⟩)
    ∧ decodeTableWord 32 0xAFF474E8 = some (.nop ⟨0x74, false, 0x74, 0x74, none⟩) := by decide

/-! ### Well-formedness: an ill-formed term for each check -/

/-- R42: a transfer stands in VALU, SYNC or SYS. -/
theorem test_ill_formed_transfers : WellFormed (.bra ⟨1, 0⟩) = false ∧ WellFormed (.brv ⟨2, 0, 0⟩) = false
    ∧ WellFormed (.brs ⟨3, 0, 0⟩) = false ∧ WellFormed (.call ⟨4, 0, 0⟩) = false ∧ WellFormed (.ret ⟨7, 0, 0⟩) = false
    ∧ WellFormed (.jmpi ⟨1, 0, 0⟩) = false ∧ WellFormed (.exit ⟨4, 0⟩) = false ∧ WellFormed (.exit ⟨6, 0⟩) = true := by decide

/-- R320 and R45: the word of the other barrier, an assigned slot, a class without words, a missing extension. -/
theorem test_ill_formed_words : WellFormed (.pbarOrd ⟨0, false, 0, 0, false, true, 0x00010000⟩) = false
    ∧ WellFormed (.pbarSync ⟨0, false, 0, 0, false, true, 0⟩) = false
    ∧ WellFormed (.unassignedSlotIssue ⟨0x00000000, none⟩) = false
    ∧ WellFormed (.unassignedSlotIssue ⟨0xE0000000, none⟩) = false
    ∧ WellFormed (.unassignedSlotIssue ⟨0x1C800000, none⟩) = false
    ∧ WellFormed (.unassignedSlotIssue ⟨0x6BF47401, none⟩) = false
    ∧ WellFormed (.unassignedSlotIssue ⟨0x6BF47401, some 0⟩) = true := by decide

/-- Lanes and paths are of 32 sheaves of 32 lanes, a path has a lane. -/
theorem test_ill_formed_lanes : LaneRef.ok ⟨1, 32, 0⟩ = false ∧ LaneRef.ok ⟨1, 0, 32⟩ = false ∧ LaneRef.ok ⟨1, 31, 31⟩ = true
    ∧ PathRef.ok ⟨1, 32, 1⟩ = false ∧ PathRef.ok ⟨1, 0, 0⟩ = false ∧ WellFormed (.exitComplete ⟨1, 32, 0⟩) = false
    ∧ WellFormed (.mwaitTimeout ⟨1, 0, 32⟩) = false ∧ WellFormed (.mwaitSpuriousWake ⟨1, 32, 0⟩) = false
    ∧ WellFormed (.commitLockTimeout ⟨1, 0, 32⟩) = false ∧ WellFormed (.pbarSyncComplete ⟨1, 32, 0⟩) = false
    ∧ WellFormed (.clauseFetch ⟨1, 0, 0⟩) = false ∧ WellFormed (.registerRefill 1 32 0) = false
    ∧ WellFormed (.registerRefill 1 0 112) = false ∧ WellFormed (.storeQueueDrain 1 32) = false := by decide

/-- The numbers of cores, clusters, dies, stacks, ports and links. -/
theorem test_ill_formed_numbers : WellFormed (.rotationStep 3456) = false ∧ WellFormed (.rotationStep 3455) = true
    ∧ WellFormed (.launchAnswer 3456 0) = false ∧ WellFormed (.parkEntryGrant 3456 0) = false ∧ WellFormed (.wuAccept 144) = false
    ∧ WellFormed (.wuDecide 3456 0) = false ∧ WellFormed (.xsAccept 16) = false ∧ WellFormed (.xsDecide 3456 0) = false
    ∧ WellFormed (.loadResponse 3456 0) = false ∧ WellFormed (.homeRequest 3456 0 .good) = false
    ∧ WellFormed (.bscFill 3456 0) = false ∧ WellFormed (.lockedAccessTimeout 3457 0) = false
    ∧ WellFormed (.copyAccept 3456 0) = false ∧ WellFormed (.copyChunk 3456 0 0 .good) = false
    ∧ WellFormed (.pageWalk 3456 0 0) = false ∧ WellFormed (.pageWalk 0 64 0) = false ∧ WellFormed (.stookPlacement 3456) = false
    ∧ WellFormed (.controlPortFailover 2) = false ∧ WellFormed (.controlFrameRetransmit 2) = false
    ∧ WellFormed (.thermalTrip 16 0) = false ∧ WellFormed (.stagingDrain 4) = false ∧ WellFormed (.nvWearManagement 4 0) = false
    ∧ WellFormed (.scrub (2 ^ 48) .good) = false ∧ WellFormed (.linkRetrain 48 true) = false
    ∧ WellFormed (.peerFrameRetransmit 48) = false := by decide

/-- Contexts, and headers of requests (R345). -/
theorem test_ill_formed_messages : MsgHdr.ok ⟨64, 0, 8, 0, 0, 0⟩ = false ∧ MsgHdr.ok ⟨255, 0, 8, 0, 0, 0⟩ = true ∧ MsgHdr.ok ⟨0, 0, 12, 0, 0, 0⟩ = false
    ∧ MsgHdr.ok ⟨0, 0, 65544, 0, 0, 0⟩ = false ∧ WellFormed (.query ⟨64, 0, 8, 0, 0, 0⟩ 0) = false ∧ WellFormed (.cancel ⟨64, 0, 8, 0, 0, 0⟩ 0) = false
    ∧ WellFormed (.seqGapTimeout 64) = false ∧ WellFormed (.watchdogExpiry 64 0) = false ∧ WellFormed (.laSnapshot 64 0 0) = false
    ∧ WellFormed (.granuleSnapshot 64 0 0) = false ∧ WellFormed (.laCompletionRecord 64 0) = false
    ∧ WellFormed (.sampleCheck 64 0 0 .abandoned) = false := by decide

/-! ### States before a word -/

/-- The path of the states below: the 32 lanes of sheaf 0 of stook 1. -/
def path : Focus := { stook := 1, sheaf := 0, lanes := BitVec.allOnes 32 }

/-- The path of one lane of the sheaf. -/
def pathOf (m : LaneMask) : Focus := { path with lanes := m }

/-- The state after reset whose next word is `i`. -/
def before (i : Instr) : State :=
  match encode i with
  | [a] => State.reset.withFetchWord 32 a.toNat
  | [a, b] => State.reset.withFetchWord 64 (a.toNat + 2 ^ 32 * b.toNat)
  | _ => State.reset

/-- The same state with its sheaf, its stook or each lane of its sheaf changed. -/
def inSheaf (s : State) (f : Sheaf → Sheaf) : State := s.modSheaf 1 0 f
def inStook (s : State) (f : Stook → Stook) : State := s.modStook 1 f
def inLanes (s : State) (f : Nat → Lane → Lane) : State :=
  inSheaf s fun h => { h with lanes := (List.range 32).map fun l => f l (h.lane l) }

/-- The same state with other lanes in focus. -/
def focused (s : State) (m : LaneMask) : State := { s with focus := some (pathOf m) }

/-- The E word of an A word, the ME word of an M word, from their fields. -/
def eWord (c rm fmt tok opt sreg : Nat) (scalar : Bool := false) : Option Word :=
  some (BitVec.ofNat 32 (c * 2 ^ 25 + rm * 2 ^ 22 + fmt * 2 ^ 16 + tok * 2 ^ 13 + (if scalar then 2 ^ 12 else 0) + opt * 2 ^ 6 + sreg))
def meWord (scope order tok sv imm : Nat) : Word :=
  BitVec.ofNat 32 (scope * 2 ^ 29 + order * 2 ^ 27 + tok * 2 ^ 21 + sv * 2 ^ 16 + imm)

/-- An A word with D, A, B in its fields; C ZERO, no option. -/
def aw (d a b fmt : Nat) (c : Nat := 0x74) (rm : Nat := 0) (opt : Nat := 0) (scalar : Bool := false) (sreg : Nat := 0) : AWord :=
  { d := BitVec.ofNat 7 d, n := false, a := BitVec.ofNat 7 a, b := BitVec.ofNat 7 b, ext := eWord c rm fmt 7 opt sreg scalar }

/-- An A word without an E word: the defaults of R17. -/
def aw1 (d a b : Nat) : AWord := { d := BitVec.ofNat 7 d, n := false, a := BitVec.ofNat 7 a, b := BitVec.ofNat 7 b, ext := none }
def iw (d a imm : Nat) : IWord := { d := BitVec.ofNat 7 d, n := false, a := BitVec.ofNat 7 a, imm := BitVec.ofNat 8 imm }
def mw (d a slot : Nat) (me : Word) : MWord :=
  { d := BitVec.ofNat 7 d, n := false, a := BitVec.ofNat 7 a, slot := BitVec.ofNat 6 slot, s := false, x := true, me := me }

/-- What `AtWord` asks, evaluated. -/
def stands (s : State) (p : Focus) : Bool :=
  match s.stook? p.stook with
  | none => false
  | some k =>
    let h := k.sheaf p.sheaf
    let ls := lanesOf p.lanes
    let a := (h.lane (ls.headD 0)).pc
    s.focus == some p && decide (p.sheaf < k.sheaves.length) && p.lanes != 0
      && ls.all fun l => decide (l < h.lanes.length) && (h.lane l).running && (h.lane l).pc == a

/-- What `Issues` asks, evaluated. -/
def issues (i : Instr) (s : State) (p : Focus) : Bool :=
  match s.stook? p.stook with
  | none => false
  | some k =>
    let h := k.sheaf p.sheaf
    stands s p && (issueCheck i k h p.lanes).isNone && ownOk i k h && !(k.rerun.isSome && endsRerun i)
      && (lanesOf p.lanes).all fun l => decide ((h.lane l).tx.depth = 0)
          || (decide ((h.lane l).tx.count < Config.txBudget) && !refusedInTx i)

theorem standing {s : State} {p : Focus} {k : Stook} (hk : s.stook? p.stook = some k) (h : stands s p = true) : AtWord s p k := by
  unfold stands at h
  rw [hk] at h
  simp only [Bool.and_eq_true, decide_eq_true_eq, List.all_eq_true, beq_iff_eq, bne_iff_ne, ne_eq] at h
  obtain ⟨⟨⟨h1, h2⟩, h3⟩, h4⟩ := h
  exact { focus := h1, stook := hk, sheaf := h2, some' := h3, lanes := fun l hl => (h4 l (mem_lanesOf.2 hl)).1.1,
          running := fun l hl => (h4 l (mem_lanesOf.2 hl)).1.2, place := ⟨_, fun l hl => (h4 l (mem_lanesOf.2 hl)).2⟩ }

theorem issuing {i : Instr} {s : State} {p : Focus} (h : issues i s p = true) : ∃ k, s.stook? p.stook = some k ∧ Issues i s p k := by
  unfold issues at h
  cases hk : s.stook? p.stook with
  | none => rw [hk] at h; cases h
  | some k =>
    rw [hk] at h
    rw [Bool.and_eq_true, Bool.and_eq_true, Bool.and_eq_true, Bool.and_eq_true, List.all_eq_true, Option.isNone_iff_eq_none, Bool.not_eq_true'] at h
    refine ⟨k, rfl, { standing hk h.1.1.1.1 with checks := h.1.1.1.2, own := h.1.1.2, second := h.1.2, tx := fun l hl hd => ?_ }⟩
    have := h.2 l (mem_lanesOf.2 hl)
    simp only [Bool.or_eq_true, decide_eq_true_eq, Bool.and_eq_true, Bool.not_eq_true'] at this
    rcases this with h0 | h1
    · exact absurd hd (by simp only [h0]; decide)
    · exact h1

/-- A state in which an instruction issues for a path. -/
def Meets (i : Instr) (s : State) (p : Focus := path) : Prop := ∃ k, s.stook? p.stook = some k ∧ Issues i s p k

theorem meets_all {is : List Instr} (h : (is.all fun i => issues i (before i) path) = true) : ∀ i ∈ is, Meets i (before i) :=
  fun i hi => issuing (List.all_eq_true.1 h i hi)

theorem meets {i : Instr} {s : State} {p : Focus} (h : issues i s p = true) : Meets i s p := issuing h

/-! ### Witnesses: VALU -/

theorem witness_IntegerArithmetic :
    (∀ i ∈ [Instr.iadd (aw 1 2 3 4), .isub (aw1 1 2 3), .imul (aw 1 2 3 5), .imulh (aw 1 2 3 4), .imulh (aw 1 2 3 5),
      .imad (aw 1 2 3 4 4), .imin (aw 1 2 3 4), .imin (aw 1 2 3 5), .imax (aw 1 2 3 4), .imax (aw 1 2 3 5), .iabs (aw 1 2 0x74 4)],
      Meets i (before i))
    ∧ (aw 1 2 3 4).scal (aForm 0) = false ∧ (aw1 1 2 3).scal (aForm 1) = false := ⟨meets_all (by decide +kernel), by decide, by decide⟩

theorem witness_LogicAndShifts : ∀ i ∈ [Instr.and (aw 1 2 3 5), .or (aw 1 2 3 5), .xor (aw 1 2 3 5), .andn (aw 1 2 3 5),
    .shl (aw 1 2 3 5), .shr (aw 1 2 3 5), .sar (aw 1 2 3 5), .rotl (aw 1 2 3 5), .shlImm (iw 1 2 255), .shrImm (iw 1 2 32),
    .sarImm (iw 1 2 31), .rotlImm (iw 1 2 0)], Meets i (before i) := meets_all (by decide +kernel)

theorem witness_BitOperations : ∀ i ∈ [Instr.bfx (aw 1 2 3 4), .bfx (aw 1 2 3 5), .bfi (aw 1 2 3 5 4), .popc (aw 1 2 0x74 5),
    .clz (aw 1 2 0x74 5), .ctz (aw1 1 2 0x74), .brev (aw1 111 2 0x74)], Meets i (before i) := meets_all (by decide +kernel)

theorem witness_Compares_integers :
    let vec := aw 1 2 3 4 (opt := 0)
    let sca := aw 1 2 3 5 (opt := 20) (scalar := true)
    let msk := aw 11 2 3 4 (opt := 10)
    (∀ i ∈ [Instr.iset vec, .iset sca, .iset msk], Meets i (before i))
      ∧ vec.toMask (aForm 0x016) = false ∧ vec.scal (aForm 0x016) = false ∧ sca.toMask (aForm 0x016) = false
      ∧ sca.scal (aForm 0x016) = true ∧ msk.toMask (aForm 0x016) = true := ⟨meets_all (by decide +kernel), by decide⟩

theorem witness_SelectAndMove : ∀ i ∈ [Instr.sel (aw 1 2 3 5 4), .mov (aw 1 2 0x74 5), .movi (iw 1 0x74 0x80),
    .movw (iw 1 0x74 0) 0xFFFFFFFF, .moviScalar (iw 63 0x74 0xFF), .movwScalar (iw 1 0x74 0) 7, .iaddScalarImm (iw 1 2 0x80),
    .iaddImm (iw 1 2 0xFF), .andImm (iw 1 2 0x80)], Meets i (before i) := meets_all (by decide +kernel)

theorem witness_WideAndScalarIntegers :
    let s2 := aw 1 2 3 4 (scalar := true)
    (∀ i ∈ [Instr.iadd64 (aw 2 4 6 6), .imad64 (aw 2 4 5 6 6), .imad64 (aw 2 4 5 7 6), .iadd s2, .isub s2, .imul s2,
      .iabs (aw 1 2 0x74 4 (scalar := true)), .and s2, .or s2, .xor s2, .andn s2, .shl s2, .shr s2, .sar s2,
      .mov (aw 63 2 0x74 5 (scalar := true)), .iadd64 (aw 62 4 6 7 (scalar := true))], Meets i (before i))
      ∧ s2.scal (aForm 0) = true ∧ (aw 2 4 6 6).scal (aForm 0x01b) = false ∧ (aw 62 4 6 7 (scalar := true)).scal (aForm 0x01b) = true :=
  ⟨meets_all (by decide +kernel), by decide⟩

theorem witness_FloatArithmetic : ∀ i ∈ [Instr.fadd (aw 1 2 3 0x12), .fsub (aw 1 2 3 0x10), .fmul (aw 2 4 6 0x13 (rm := 3)),
    .ffma (aw 1 2 3 0x14 4 (rm := 7)), .fdiv (aw 1 2 3 0x11), .fsqrt (aw 1 2 0x74 0x15)], Meets i (before i) :=
  meets_all (by decide +kernel)

theorem witness_FloatSigns : ∀ i ∈ [Instr.fmin (aw 1 2 3 0x12), .fmax (aw 1 2 3 0x14), .fabs (aw 1 2 0x74 0x10), .fneg (aw 2 4 0x74 0x13)],
    Meets i (before i) := meets_all (by decide +kernel)

theorem witness_Compares_floats :
    let vec := aw 1 2 4 0x13 (opt := 28)
    let msk := aw 11 2 3 0x12 (opt := 10)
    (∀ i ∈ [Instr.fset vec, .fset (aw 1 2 3 0x15), .fset msk, .fclass (aw 1 2 0x74 0x12)], Meets i (before i))
      ∧ vec.toMask (aForm 0x028) = false ∧ msk.toMask (aForm 0x028) = true := ⟨meets_all (by decide +kernel), by decide⟩

theorem witness_FloatConversion : ∀ i ∈ [Instr.fcvt (aw 1 2 0x74 0 (opt := 0x12)), .fcvt (aw 1 2 3 0x14 (opt := 0x12)),
    .fcvt (aw 2 4 0x74 6 (opt := 0x13)), .frnd (aw 1 2 0x74 0x12), .fscalb (aw 1 2 3 0x12), .fscalb (aw 1 2 3 0x15), .fdot2 (aw 1 2 3 0x14 4)],
    Meets i (before i) := meets_all (by decide +kernel)

/-! ### Witnesses: control, masks, the sheaf -/

theorem witness_Transfers : ∀ i ∈ [Instr.bra ⟨0, 0x7FFFFF⟩, .bra ⟨5, 0x400000⟩, .brv ⟨0, 3, 6⟩, .brs ⟨6, 0x3F, 0xFFFF⟩, .call ⟨0, 0, 2⟩,
    .ret ⟨5, 1, 0⟩, .jmpi ⟨0, 1, 0x8000⟩], Meets i (before i) := meets_all (by decide +kernel)

theorem witness_MaskWords : ∀ i ∈ [Instr.join (iw 0x74 0x74 11), .leave (iw 0x74 0x74 0), .mset (iw 0x74 63 11), .mmov (iw 0x74 0x74 0xB0),
    .mget (iw 63 0x74 11)], Meets i (before i) := meets_all (by decide +kernel)

theorem witness_MaskWords_yield : ∀ i ∈ [Instr.yield (aw1 0x74 0x74 0x74), .nop (aw1 0x74 0x74 0x74)], Meets i (before i) :=
  meets_all (by decide +kernel)

/-- No lane of a sheaf is held. -/
def noHold (h : Sheaf) : Bool := h.lanes.all fun x => x.hold.isNone

theorem no_hold {h : Sheaf} (e : noHold h = true) (l : Nat) : (h.lane l).hold = none := by
  rw [Sheaf.lane, List.getD_eq_getElem?_getD]
  cases hl : h.lanes[l]? with
  | none => rfl
  | some x => exact Option.isNone_iff_eq_none.1 (List.all_eq_true.1 e x (List.mem_of_getElem? hl))

theorem clear_but {h : Sheaf} (e : noHold h = true) (m : LaneMask) : h.ClearBut m := by
  intro l _
  rw [no_hold e]
  trivial

/-- A fresh stook's sheaves beyond its own are empty. -/
theorem no_holds {k : Stook} (e : k.sheaves.all noHold = true) (i l : Nat) : ((k.sheaf i).lane l).hold = none := by
  rw [Stook.sheaf, List.getD_eq_getElem?_getD]
  cases hi : k.sheaves[i]? with
  | none => rfl
  | some h => exact no_hold (List.all_eq_true.1 e h (List.mem_of_getElem? hi)) l

theorem awaiting {k : Stook} {n : Nat} (e : k.sheaves.all noHold = true) (h1 : k.phaseDone (k.barrier n) = false)
    (h2 : (k.barrier n).next = 0 ∧ (k.barrier n).nextPhase = none) : k.Awaiting n :=
  { opened := h1, next := h2, held := fun i l => by rw [no_holds e]; trivial }

/-- WAITM on mask 2: no other member (clause 1), and members that are elsewhere (clause 2). -/
theorem witness_WaitMask :
    let w := iw 0x74 0x74 2
    let s := inSheaf (before (.waitm w)) fun h => h.wm 2 0xFFFFFFFF
    let s' := focused s 0x0000FFFF
    Meets (.waitm w) s ∧ (s.here path).ClearBut 0 ∧ (s.here path).waiters 2 = 0 ∧ (s.here path).rm 2 &&& ~~~path.lanes = 0
      ∧ Meets (.waitm w) s' (pathOf 0xFFFF) ∧ (s'.here path).ClearBut 0 ∧ (s'.here path).rm 2 &&& ~~~(pathOf 0xFFFF).lanes ≠ 0 :=
  ⟨meets (by decide +kernel), clear_but (by decide +kernel) _, by decide +kernel, by decide +kernel, meets (by decide +kernel),
   clear_but (by decide +kernel) _, by decide +kernel⟩

/-- A cross-lane word on mask 11 for the lanes of `m`; `M` are its members. -/
def crossing (i : Instr) (M m : LaneMask) : State := focused (inSheaf (before i) fun h => h.wm 11 M) m

def xw (d a b : Nat) (sub : Nat) : AWord := aw d a b 0 (opt := 16 * sub + 11)

/-- The members are the path; no lane of the path is a member; a member is elsewhere. -/
theorem witness_CrossLane : ∀ i ∈ [Instr.shfl (xw 1 2 3 0), .shfl (xw 1 2 3 1), .shfl (xw 1 1 3 2), .shfl (xw 1 2 3 3), .vote (xw 1 2 0x74 3),
      .matchLanes (xw 1 2 0x74 1), .rdlane (xw 1 2 0x74 0), .wrlane (xw 1 2 0x74 0), .elect (xw 1 0x74 0x74 1), .redl (aw 1 2 0x74 0x12 (opt := 11))],
    ([(0x80000001, 0x80000001), (0xFFFF0000, 0xFFFF), (0xFFFFFFFF, 0xFFFF)] : List (LaneMask × LaneMask)).all (fun x =>
      let s := crossing i x.1 x.2
      issues i s (pathOf x.2) && noHold (s.here path) && ((List.range 32).all fun l => (s.laneOf path l).tx.depth == 0)
        && (crossForm i).any (fun q => (s.here path).rm (q.2.mask (aForm q.1)) == x.1)) = true := by decide +kernel

/-- 10: lanes 0 to 3 with 1.0, 2^-30, -1.0, 2^-60, decided at once; with 1.0, -1.0, 2^-100, 0 in doubt. -/
def reducing (vs : List Nat) : State :=
  crossing (.redl (aw 7 5 0x74 0x12 (opt := 11))) 0xF 0xF |> fun s => inSheaf s fun h =>
    { h with v := (vs.zipIdx).foldl (fun v x => Bank.set v (160 + x.2) (BitVec.ofNat 32 x.1)) [] }

theorem witness_CrossLaneReduce :
    let i := Instr.redl (aw 7 5 0x74 0x12 (opt := 11))
    let terms (s : State) := (lanesOf 0xF).map fun l => (floatOf 0x12).unpack (((s.here path).srcW false 0 5 l).toNat % 2 ^ 32)
    ∀ x ∈ [([0x3F800000, 0x30800000, 0xBF800000, 0x21800000], true), ([0x3F800000, 0xBF800000, 0x0D800000, 0], false)],
      let s := reducing x.1
      issues i s (pathOf 0xF) = true ∧ noHold (s.here path) = true ∧ (s.here path).rm 11 = 0xF ∧ (s.core 0).parkStaged = false
        ∧ windowPasses (floatOf 0x12) 80 4 (terms s) = x.2 := by decide +kernel

/-- The lane's number is not uniform, ones are. -/
theorem witness_Uniform :
    let u := aw 62 0x76 0x74 0 (opt := 16)
    let v := aw 63 0x75 0x74 0
    Meets (.uni u) (before (.uni u)) ∧ (∀ l < 32, ((before (.uni u)).here path).srcW true 0 u.a l = BitVec.allOnes 64)
      ∧ Meets (.uni v) (before (.uni v)) ∧ ((before (.uni v)).here path).srcW false 0 v.a 0 ≠ ((before (.uni v)).here path).srcW false 0 v.a 1 :=
  ⟨meets (by decide +kernel), by decide +kernel, meets (by decide +kernel), by decide +kernel⟩

/-- One arrival of one sheaf completes a phase of all sheaves, not a phase of two; a BARW with and without a record. -/
theorem witness_Barriers :
    (∀ w ∈ [iw 0x74 0x74 31, iw 0x74 9 31], ∀ i ∈ [Instr.bar w, .bara w],
      let s := inSheaf (before i) fun h => h.ws 9 2
      let k := (s.stook? 1).getD default
      let b' : Barrier := { k.barrier 31 with phase := some (barCount w (s.here path)), arrived := 1 }
      issues i s path = true ∧ k.sheaves.all noHold = true ∧ k.phaseDone (k.barrier 31) = false ∧ (k.barrier 31).next = 0
        ∧ (k.barrier 31).nextPhase = none ∧ s.barReleased 1 0 path.lanes = true ∧ path.lanes = (s.here path).live
        ∧ (k.barrier 31).arrived.getLsbD 0 = false ∧ (k.barrier 31).phase = none ∧ k.phaseDone b' = (w.a == cZERO))
      ∧ ∀ r ∈ [0, 1], let s := inStook (before (.barw (iw 0x74 0x74 0))) fun k =>
          k.setBarrier 0 { (default : Barrier) with phase := some (some 2), arrived := 1, record := Bank.set [] 0 (BitVec.ofNat 2 r) }
        let k := (s.stook? 1).getD default
        issues (.barw (iw 0x74 0x74 0)) s path = true ∧ k.sheaves.all noHold = true ∧ k.phaseDone (k.barrier 0) = false
          ∧ Bank.get (k.barrier 0).record 0 = BitVec.ofNat 2 r := by decide +kernel

/-- REGROUP of the one sheaf, on the lane's number, moving v8 to v11; nothing is outstanding. -/
theorem witness_Regroup :
    let w := aw 0x74 0x75 8 0 (c := 0x76) (opt := 3)
    let s := before (.regroup w)
    let k := (s.stook? 1).getD default
    issues (.regroup w) s path = true ∧ ((List.range k.sheaves.length).filter fun n => (BitVec.allOnes 32).getLsbD n && decide (n < 32)) = [0]
      ∧ path.lanes = (s.here path).live ∧ (s.here path).m = [] ∧ (s.here path).queue = []
      ∧ (∀ x ∈ (s.here path).lanes, x.exitIssued = false ∧ x.pending = [])
      ∧ (s.core 0).reqs = [] ∧ (s.core 0).replay = [] ∧ (s.core 0).copies = [] ∧ k.sheaves.all noHold = true := by decide +kernel

/-! ### Witnesses: monitors, traps, special registers, exits -/

/-- Addresses below 2^29 mapped to themselves for context 0: a root at 0x10000, a table at 0x20000, one leaf of level 2 with
RD and WR (R359, R360). -/
def mapped (s : State) : State :=
  State.modCtx { s with mem := [(0x10000, 3), (0x10002, 2), (0x20000, 0x0D)] } 0 fun c => { c with ptroot := 0x10000 }

theorem test_mapped : (mapped (before (.nop (aw1 0x74 0x74 0x74)))).walk 0 0x1FFFFFFF = .leaf 2 0x0D
    ∧ (mapped State.reset).walk 0 0x20000000 = .fail .xlateMiss 2 := by decide +kernel

/-- A register with one value in every lane. -/
def wide (s : State) (r x : Nat) : State :=
  inSheaf s fun h => (List.range 32).foldl (fun h l => h.wv r l (BitVec.ofNat 32 x)) h

/-- MON on a mapped element; MWAIT of lanes without and with a monitor; a lane held at MWAIT whose timeout has passed. -/
theorem witness_Monitors :
    (let w := mw 0x74 0x74 0 (meWord 0 0 7 0 0x40)
     let s := mapped (before (.mon w))
     let k := (s.stook? 1).getD default
     issues (.mon w) s path = true ∧ (∃ v, mwVia w (s.here path) k = some v ∧ (List.range 32).all (fun l =>
       (({ s with free := s.free + 1 } : State).namedElem k v (monShape w v) { rd := true }
        [elemIndex (mwIndex w (s.here path) v.flat l) w.imm (monShape w v) (immUnit v (monShape w v).bits) 0]).toBool) = true))
    ∧ (let w := aw 3 0x74 0x74 0
       let s := inLanes (before (.mwait w)) fun l x => { x with monitor := if l < 16 then none else some (1, 1, false) }
       issues (.mwait w) s path = true ∧ (s.laneOf path 0).wakeReason = some 3 ∧ (s.laneOf path 31).wakeReason = none)
    ∧ (let w := aw 0x74 0x76 0x74 0
       let s := (inLanes (before (.mwait w)) fun l x => { x with hold := if l = 31 then some (.mwait (.mwait w) 5 7) else none,
                                                                  monitor := some (1, 1, false) }).modCore 0 fun c => { c with cycles := 12 }
       let k := (s.stook? 1).getD default
       s.powered = true ∧ k.sheaves.length = 1 ∧ (k.sheaf 0).lanes.length = 32 ∧ (s.laneOf path 31).hold = some (.mwait (.mwait w) 5 7)
         ∧ (s.laneOf path 31).stop = none ∧ 7 + 5 ≤ s.waitCount k) :=
  ⟨⟨by decide +kernel, _, rfl, by decide +kernel⟩, by decide +kernel, by decide +kernel⟩

/-- A word that fails a check, outside and inside transactions; one past the budget; one refused in a transaction; words
that fail their own operand test. -/
theorem witness_Refusals :
    let deep (s : State) (n : Nat) := inLanes s fun _ x => { x with tx := { x.tx with depth := 1, count := n } }
    let bad := Instr.iadd (aw 0x74 2 3 4)
    let un := Instr.unassignedSlotIssue ⟨0x6BF47401, some 0xE800E000⟩
    let fails (i : Instr) (s : State) (c : Cause) : Bool := stands s path
      && (match s.stook? 1 with | some k => issueCheck i k (k.sheaf 0) path.lanes == some c | none => false)
    (fails bad (before bad) .illegalOperand = true ∧ fails bad (deep (before bad) 0) .illegalOperand = true
      ∧ fails un (before un) .illegalOpcode = true ∧ bad.isWord = true ∧ un.isWord = true)
      ∧ (let i := Instr.iadd (aw 1 2 3 4)
         let s := deep (before i) 16384
         stands s path = true ∧ issueCheck i ((s.stook? 1).getD default) (s.here path) path.lanes = none ∧ i.isWord = true)
      ∧ (let i := Instr.bar (iw 0x74 0x74 0)
         let s := deep (before i) 16383
         stands s path = true ∧ issueCheck i ((s.stook? 1).getD default) (s.here path) path.lanes = none ∧ refusedInTx i = true)
      ∧ ∀ i ∈ [Instr.bar (iw 0x74 5 0), .cbacq (aw 5 0x74 0x74 0 (opt := 15))],
         let s := before i
         stands s path = true ∧ issueCheck i ((s.stook? 1).getD default) (s.here path) path.lanes = none
           ∧ ownOk i ((s.stook? 1).getD default) (s.here path) = false ∧ i.isWord = true ∧ ∀ l < 32, (s.laneOf path l).tx.depth = 0 := by
  decide +kernel

theorem witness_SpecialRegisters :
    (∀ n ∈ [0, 1, 2, 3, 4, 5, 6, 7, 8, 9, 10, 11, 12, 0x10, 0x11, 0x12, 0x13],
      issues (.rdsr (iw 2 0x74 n)) (before (.rdsr (iw 2 0x74 n))) path = true
        ∧ ((before (.rdsr (iw 2 0x74 n))).stook? 1).any (fun k => !k.secondary) = true)
      ∧ (∀ x ∈ [(0x10, 0x104), (0x10, 5), (0x10, 8), (0x11, 31), (0x11, 32)],
          let w := iw 0x74 3 x.1
          issues (.wrsr w) (wide (before (.wrsr w)) 3 x.2) path = true
            ∧ ((wide (before (.wrsr w)) 3 x.2).here path).src 0 w.a 31 = BitVec.ofNat 32 x.2
            ∧ ((wide (before (.wrsr w)) 3 x.2).here path).src 0 w.a 0 = BitVec.ofNat 32 x.2)
      ∧ (let w := iw 0x74 3 0x11
         let s := inSheaf (before (.wrsr w)) fun h => h.wv 3 0 1
         issues (.wrsr w) s path = true ∧ (s.here path).src 0 w.a 0 ≠ (s.here path).src 0 w.a 1 ∧ (s.laneOf path 0).tx.depth = 0) := by
  decide +kernel

/-- No counter wraps; every counter wraps with WRAPTRAP set. -/
theorem witness_RandomAndRelease_draws :
    let w := aw 2 4 0x74 0
    let s := before (.rand w)
    let s' := inSheaf (wide (wide s 4 0xFFFFFFFF) 5 0xFFFFFFFF) fun h => { h with frm := 0x100 }
    issues (.rand w) s path = true ∧ (s.here path).wrapTrap = false ∧ issues (.rand w) s' path = true
      ∧ (∀ l < 32, (s'.here path).wrapTrap = true ∧ (s'.here path).src64 0 w.a l = BitVec.allOnes 64 ∧ (s'.laneOf path l).tx.depth = 0) := by
  decide +kernel

theorem witness_SoftwareTraps :
    let w := iw 0x74 0x74 255
    let s := before (.trap w)
    let s' := inLanes s fun _ x => { x with tx := { x.tx with depth := 7 } }
    let b := before (.bkpt w)
    issues (.trap w) s path = true ∧ (∀ l < 32, (s.laneOf path l).tx.depth = 0)
      ∧ issues (.trap w) s' path = true ∧ (∀ l < 32, 0 < (s'.laneOf path l).tx.depth)
      ∧ issues (.bkpt w) b path = true ∧ (b.ctx 0).debug = false
      ∧ issues (.bkpt w) (b.modCtx 0 fun c => { c with debug := true }) path = true
      ∧ ((b.modCtx 0 fun c => { c with debug := true }).ctx 0).debug = true := by decide +kernel

/-- VFREE of v111 alone and of 64 registers from v48. -/
theorem witness_RandomAndRelease_release : ∀ i ∈ [Instr.vfree (aw 111 0x74 0x74 0), .vfree (aw 48 0x74 0x74 0 (opt := 63))], Meets i (before i) :=
  meets_all (by decide +kernel)

/-- Every address aligned and mapped; every address misaligned; a submission without permission, with a queue above 15, with
queue 15. -/
theorem witness_DeviceLaunches :
    let w := aw 1 2 4 0
    let s := wide (mapped (before (.launch w))) 2 64
    (issues (.launch w) s path = true ∧ ∀ l < 32, ((s.here path).src64 0 w.a l).toNat = 64
        ∧ (s.locateRange 0 0 64 256 64 { rd := true }).toBool = true)
      ∧ (let s := wide s 2 63
         issues (.launch w) s path = true ∧ ∀ l < 32, ((s.here path).src64 0 w.a l).toNat % 64 ≠ 0 ∧ (s.laneOf path l).tx.depth = 0)
      ∧ ∀ x ∈ [(false, 0), (true, 16), (true, 15)],
        let r : LaunchReq := { (default : LaunchReq) with stook := 1, lane := 31, va := 64, queue := BitVec.ofNat 32 x.2, id := 1 }
        let u := (s.modCore 0 fun c => { c with launches := [r] }).modCtx 0 fun c => { c with devlaunch := x.1 }
        u.powered = true ∧ (u.core 0).launches[0]? = some r ∧ (u.stook? 1).any (fun k => k.twin.isNone && decide (0 < k.sheaves.length)) = true
          ∧ (u.laneOf path 31).exitIssued = false ∧ u.launchGoes (u.core 0) r = true ∧ (u.ctx 0).devlaunch = x.1 := by decide +kernel

/-- EXIT; a lane that awaits nothing, others of its stook not exited, or exited. -/
theorem witness_Exits :
    let s := before (.exit ⟨5, 0⟩)
    issues (.exit ⟨5, 0⟩) s path = true ∧ ∀ b ∈ [false, true],
      let u := inLanes s fun l x => { x with exitIssued := l = 31 || b, exited := l != 31 && b }
      let r : LaneRef := { stook := 1, sheaf := 0, lane := 31 }
      u.powered = true ∧ (u.stook? 1).any (fun k => k.twin.isNone && decide (k.sheaves.length = 1)) = true ∧ (u.here path).lanes.length = 32
        ∧ u.exitReady r = true ∧ u.failedCopy r = none ∧ ∀ l < 31, (u.laneOf path l).exited = b := by decide +kernel

/-! ### Witnesses: memory words -/

/-- A record of one plane (R75). -/
def recOf (base e0 e1 stride1 fmt : Nat) (bounds : Nat := 0) (side : Nat := 0) (blk : Nat := 0) : BitVec 256 :=
  BitVec.ofNat 256 (base + e0 * 2 ^ 64 + e1 * 2 ^ 96 + 2 ^ 120 + stride1 * 2 ^ 136 + fmt * 2 ^ 224 + bounds * 2 ^ 230 + side * 2 ^ 233
    + blk * 2 ^ 239)

/-- The state before a memory word: mapped, an 8 by 8 matrix of F32 in slot 1, a byte table in slot 3, an LG6 matrix of 64
by 8 with blocks of 64 in slot 2, 2048 bytes of scratchpad, the upper half the logs. -/
def memBefore (i : Instr) : State :=
  let s := inStook (mapped (before i)) fun k => { k with
    scratchBytes := 2048
    records := [(1, recOf 0x100 8 8 32 0x12), (2, recOf 0x2000 64 8 64 0x20 (side := 3) (blk := 3)), (3, recOf 0x1000 64 1 64 0x30)] }
  { s with launches := s.launches.map fun l => { l with desc := { l.desc with txReads := 1, txWrites := 1, scratch := 16, txlogOff := 8 } } }

def stookIn (s : State) : Stook := (s.stook? 1).getD default

/-- A word through a record, for lanes 0 and 31, whose checks pass, and whose lanes' own checks all pass. -/
def accesses (i : Instr) (s : State) : Bool :=
  match recordWord i with
  | none => false
  | some (chk, acc) => match chk (stookIn s) (s.here path) s.wroteBefore with
    | .error _ => false
    | .ok v => issues i s (pathOf 0x80000001) && [0, 31].all fun l => decide ((s.laneOf path l).tx.depth = 0)
        && (s.judge (stookIn s) (acc (s.here path) v) l).toBool

/-- A word of the scratchpad whose lanes' checks all pass. -/
def scratches (i : Instr) (s : State) : Bool :=
  match scratchWord i with
  | none => false
  | some acc => issues i s (pathOf 0x80000001) && [0, 31].all fun l => (s.judge (stookIn s) (acc (s.here path)) l).toBool

theorem witness_MemoryWords :
    (∀ i ∈ [Instr.ld (mw 4 0x74 0 (meWord 3 1 0 12 0x80)), .ld (mw 4 0x75 1 (meWord 0 0 7 2 0)), .st (mw 4 0x74 0 (meWord 0 0 7 16 2)),
      .st (mw 4 0x75 1 (meWord 2 2 7 0 32)), .ldf (mw 2 0x74 1 (meWord 0 0 1 0 0)), .stf (mw 2 0x74 1 (meWord 0 0 7 2 0)),
      .atom (mw 6 0x74 0 (meWord 3 3 3 0 4)), .cas (mw 6 0x74 0 (meWord 0 0 7 8 4)), .red (mw 6 0x75 1 (meWord 0 0 7 0 0)),
      .xred (mw 6 0x74 0 (meWord 3 0 7 0 64)), .xrd (mw 6 0x74 0 (meWord 3 1 2 16 64))], accesses i (focused (memBefore i) 0x80000001) = true)
      ∧ ∀ i ∈ [Instr.lds (mw 4 0x74 0 (meWord 0 1 7 15 0)), .sts (mw 4 0x74 0 (meWord 1 0 7 4 1023)), .atom (mw 6 0x74 0 (meWord 0 0 7 16 127)),
        .cas (mw 6 0x74 0 (meWord 0 0 7 24 63))],
          scratches i (focused (memBefore i) 0x80000001) = true ∧ ((memBefore i).here path).queue = [] ∧ ((memBefore i).core 0).reqs = [] := by decide +kernel

/-- Words whose datum is a register, by AF, and a constant; fragments with a bit in each register. -/
theorem witness_AccessAddresses :
    (∀ af ∈ [0, 1, 2, 3, 4, 5, 6], let w := mw 4 0x74 1 (meWord 0 0 7 (4 * af) 0)
      isVReg w.d = true ∧ w.af = af ∧ isVReg (mw 0x75 0x74 1 (meWord 0 0 7 (4 * af) 0)).d = false)
      ∧ mwW64 (mw 4 0x74 1 (meWord 0 0 7 0 0)) = false ∧ mwW64 (mw 4 0x74 1 (meWord 0 0 7 8 0)) = true
      ∧ 0 < fragElems 0 0x12 ∧ 0 < fragRegs 0 0x12 := by decide

/-- How the lanes of a word through a record fare that its uniform checks let pass. -/
def judged (i : Instr) (s : State) (p : LaneStop → Bool) (ok : Nat → Bool) : Bool :=
  issues i s path && (recordWord i).any fun q => match q.1 (stookIn s) (s.here path) s.wroteBefore with
    | .ok v => (List.range 32).all fun l => match s.judge (stookIn s) (q.2 (s.here path) v) l with
      | .error e => p e && !ok l
      | .ok _ => ok l
    | .error _ => false

/-- A table's line that is poisoned; lanes 4 to 31 past the record's end; a page that is not mapped, with and without its fault. -/
theorem witness_AccessTraps_lanes :
    (let i := Instr.ld (mw 4 0x75 1 (meWord 0 0 7 12 0))
     let s := (memBefore i).modSvc fun v => { v with poison := [0x10000 / 64] }
     judged i s (fun e => match e with | .trap .eccUncorr _ 1 => true | _ => false) (fun _ => false) = true ∧ Cause.eccUncorr.cls = 3)
      ∧ (let i := Instr.ld (mw 4 0x75 1 (meWord 0 0 7 12 60))
         judged i (memBefore i) (fun e => match e with | .trap .bounds _ 0 => true | _ => false) (fun l => l < 4) = true)
      ∧ ∀ fs ∈ [[], [{ (default : FaultRec) with id := 5, cause := .xlateMiss, va := 2 ^ 30 }]],
        let i := Instr.ld (mw 4 0x75 6 (meWord 0 0 7 12 0))
        let s : State := { inStook (memBefore i) fun k => { k with records := k.records ++ [(6, recOf (2 ^ 30) 8 8 32 0x12)] } with faults := fs }
        judged i s (fun e => match e with | .miss va _ _ => va / 65536 == 2 ^ 14 | _ => false) (fun _ => false) = true
          ∧ (s.granuleFault 0 (2 ^ 14 * 65536)).isSome = !fs.isEmpty := by decide +kernel

/-- An unset slot; an index past a clamping record's end; a scratchpad offset in the log area, and one misaligned. -/
theorem witness_AccessTraps :
    (∀ x ∈ [(Instr.ld (mw 4 0x74 9 (meWord 0 0 7 12 0)), Cause.recordUnset), (.ldf (mw 2 0x74 0 (meWord 0 0 7 0 0)), .illegalFormat)],
      (recordWord x.1).any (fun q => match q.1 (stookIn (memBefore x.1)) ((memBefore x.1).here path) (memBefore x.1).wroteBefore with
        | .error c => c == x.2
        | .ok _ => false) = true ∧ issues x.1 (memBefore x.1) path = true)
      ∧ (let i := Instr.ld (mw 4 0x74 1 (meWord 0 0 7 12 64))
         let s := memBefore i
         issues i s path = true ∧ (recordWord i).any (fun q => match q.1 (stookIn s) (s.here path) s.wroteBefore with
          | .ok v => (List.range 32).all fun l => match s.judge (stookIn s) (q.2 (s.here path) v) l with
            | .error (.trap .bounds va 0) => va == 0x100
            | _ => false
          | .error _ => false) = true)
      ∧ ∀ x ∈ [(Instr.lds (mw 4 0x74 0 (meWord 0 0 7 12 256)), Cause.bounds, 1024), (.sts (mw 4 0x76 0 (meWord 0 0 7 12 0)), .misaligned, 2 ^ 32 - 1)],
          let s := memBefore x.1
          issues x.1 s path = true ∧ (scratchWord x.1).any (fun acc => (List.range 32).all fun l =>
            match s.judge (stookIn s) (acc (s.here path)) l with
            | .error (.trap c va 0) => c == x.2.1 && va == x.2.2
            | _ => false) = true := by decide +kernel

/-- Lane 31 alone, in a transaction with room for one word in each log. -/
theorem witness_TransactionalAccess :
    ∀ i ∈ [Instr.ld (mw 4 0x74 0 (meWord 0 0 7 12 0x40)), .st (mw 4 0x74 0 (meWord 0 0 7 12 0x41))],
      let s := focused (inLanes (memBefore i) fun _ x => { x with tx := { x.tx with depth := 1 } }) 0x80000000
      let alone (chk : Except Cause Via) (acc : Via → Access) : Bool := match chk with
        | .error _ => false
        | .ok v => match State.laneElems { s with free := s.free + 1 } (stookIn s) (acc v) true true 31 with
          | .ok [(e, [])] => !e.skip && e.side.isNone && (e.locs.all fun b => b.peer.isNone) && (match e.txWords with
            | [(va, b, js)] => !inNv b.pa && va == 0x100 && js.length == 4
                && !s.wordBusy { stook := 1, sheaf := 0, lane := 31 } (b.pa / 8) && (s.sectorCause ((List.range 8).map fun i => { pa := b.pa + i, peer := none, la := false, key := b.key }) .good).isNone
            | _ => false)
          | _ => false
      issues i s (pathOf 0x80000000) = true ∧ (s.launchOf (stookIn s)).desc.txWrites = 1 ∧ (s.launchOf (stookIn s)).desc.txReads = 1
        ∧ s.deltas = [] ∧ s.locks = [] ∧ (match i with
        | .ld w => alone (ldCheck true w (stookIn s) (s.here path) s.wroteBefore) fun v => ldAccess w (s.here path) v
        | .st w => alone (ldCheck false w (stookIn s) (s.here path) s.wroteBefore) fun v => stAccess w (s.here path) v
        | _ => false) = true := by decide +kernel

/-- A valid record in s0 to s7, an empty one, the latter in and outside transactions; a set and an unset slot. -/
theorem witness_BufferRecords :
    let w := mw 0 0x74 63 (meWord 0 0 7 0 0)
    let put (s : State) (r : BitVec 256) := inSheaf s fun h => (List.range 8).foldl (fun h j => h.ws j (r.extractLsb' (32 * j) 32)) h
    let good := recOf 0x100 8 8 32 0x12
    let s := put (memBefore (.brset w)) good
    let s' := put (memBefore (.brset w)) 0
    let t := inLanes s' fun _ x => { x with tx := { x.tx with depth := 1 } }
    (issues (.brset w) s path = true ∧ w.slotIn (s.here path) = some 63 ∧ (s.here path).recordIn 0 = good ∧ recordRefusal good 63 = none)
      ∧ (issues (.brset w) s' path = true ∧ recordRefusal ((s'.here path).recordIn 0) 63 = some 1 ∧ issues (.brset w) t path = true)
      ∧ (∀ n ∈ [1, 9], let g := mw 56 0x74 n (meWord 0 0 7 0 0)
          issues (.brget g) (memBefore (.brget g)) path = true ∧ ((stookIn (memBefore (.brget g))).record? n).isSome = decide (n = 1))
      ∧ issues (.brinv (mw 0x74 0x74 1 (meWord 0 0 7 0 0))) (memBefore (.brinv (mw 0x74 0x74 1 (meWord 0 0 7 0 0)))) path = true := by
  decide +kernel

theorem witness_FencesAndHints :
    (∀ i ∈ [Instr.fence (mw 0x74 0x74 0 (meWord 3 1 7 0 0)), .fence (mw 0x74 0x74 0 (meWord 6 2 7 0 0)), .fence (mw 0x74 0x74 0 (meWord 1 3 7 0 0))],
      issues i (before i) path = true)
      ∧ ∀ x ∈ [(mw 0x74 0x75 1 (meWord 0 0 7 1 0), true), (mw 0x74 0x75 9 (meWord 0 0 7 0 0), true), (mw 0x74 0x75 1 (meWord 0 0 7 9 0), false)],
          ∀ i ∈ [Instr.pref x.1, .cctl x.1], let s := memBefore i
            issues i s path = true ∧ (hintCheck x.1 (stookIn s) (s.here path) s.wroteBefore).toBool = x.2 ∧ s.cores = [] ∧ s.deltas = [] := by decide +kernel

/-! ### Witnesses: tiles, functions, the park queue -/

/-- A path of the whole sheaf, of a sheaf with lane 31 gone; I8; an MMAL whose scales are held. -/
theorem witness_Tiles :
    (∀ i ∈ [Instr.mma (aw 8 2 4 0x12), .mma (aw 8 2 4 0x10 8), .mma (aw 8 2 4 0 6)],
      let s := before i
      let s' := focused (inLanes s fun l x => { x with exitIssued := l = 31 }) 0x7FFFFFFF
      issues i s path = true ∧ path.lanes = (s.here path).live ∧ noHold (s.here path) = true ∧ (s.core 0).parkStaged = false
        ∧ issues i s' (pathOf 0x7FFFFFFF) = true ∧ (pathOf 0x7FFFFFFF).lanes = (s'.here path).live ∧ tileBlocked (s.core 0) (s.here path) true 7 = false)
      ∧ (let w := aw 8 2 12 0x20 (sreg := 60)
         let s := (inSheaf (memBefore (.mmal w)) fun h => h.ws 60 0x202).modCore 0 fun c => { c with
           bsc := (List.range 8).map fun b => { id := 0, live := true, reuse := 0, place := 0, slot := 2, block := b, entry := some [1], ctx := 0, locs := [] } }
         let k := stookIn s
         let rows (x : Nat × Rec × Nat) : Bool := (List.range 32).all fun l => decide (x.2.2 + l / 4 * recExt0 x.2.1 + 16 * (l % 4) + 15 < recCount x.2.1)
            && (match sideEntry k x.2.1 (recBlock x.2.1 (x.2.2 + l / 4 * recExt0 x.2.1 + 16 * (l % 4) : Nat)) with
              | .ok vas => (s.locate 0 0 (vas.headD 0) (vas.headD 0) { rd := true }).toBool
              | .error _ => false)
         issues (.mmal w) s path = true ∧ path.lanes = (s.here path).live ∧ noHold (s.here path) = true
           ∧ tileBlocked (s.core 0) (s.here path) true (w.tok (aForm 0x081)) = false
           ∧ (s.core 0).bsc.Pairwise (fun a b => ¬ (a.place = b.place ∧ a.slot = b.slot ∧ a.block = b.block))
           ∧ (match mmalDesc w k (s.here path) with
             | .ok xs => xs.length == 2 && xs.all rows && xs.all fun x => match s.scalesOf k x (List.range 32) with
               | .ok (some sa, _) => sa.length == 32
               | _ => false
             | .error _ => false) = true) := by decide +kernel

theorem witness_Functions : ∀ i ∈ [Instr.ffn (aw 4 2 0x74 0x12 (opt := 8)), .ffn (aw 4 2 0x74 0x13 (opt := 0)), .ffn (aw 4 2 0x74 0x10 (opt := 3) (rm := 1))],
    Meets i (before i) := meets_all (by decide +kernel)

/-- The state before a NOP, with core 0 changed: the state of the events below. -/
def atCore (f : Core → Core) : State := (mapped (before (.nop (aw1 0x74 0x74 0x74)))).modCore 0 f

/-- A request to park: one F32 operand of lane 31 for v4. -/
def parked (state : Nat) (xs : Bool) : Park :=
  { operands := [0x3F000000], scales := [], lanes := maskOf [31], stook := 1, sheaf := 0, dest := 4, nparts := 1, elem := 0, fmt := 0x12,
    rm := 0, op := 0x040, sel := 0, state := state, toXs := xs, id := 9, issues := [] }

theorem witness_ParkedRequests :
    let s (n : Nat) (xs : Bool) : State := atCore fun c => { c with park := [parked n xs] }
    (s 0 false).powered = true
      ∧ (((s 0 false).core 0).park.filter fun x => x.state = 0)[0]? = some (parked 0 false) ∧ ((s 0 false).core 0).parkUsed + 1 ≤ Config.parkEntries
      ∧ (s 1 false).unitLoad 2 (fun c => clusterOf c == clusterOf 0) < Config.wuCapacity
      ∧ ((s 1 false).wuOrder 0).findSome? (fun c => (((s 1 false).core c).oldestPark false).map fun x => (c, x)) = some (0, parked 1 false)
      ∧ (((s 2 false).core 0).park.filter fun x => x.state = 2)[0]? = some (parked 2 false)
      ∧ (s 1 true).unitLoad 3 (fun c => dieOf c == dieOf 0) < Config.xsCapacity
      ∧ ((List.range 9).map fun i => (((s 1 true).die 0).xsNext + i) % 9).findSome? (fun i => ((s 1 true).oldestXs i).map fun x => (i, x)) = some (0, 0, parked 1 true)
      ∧ (((s 3 true).core 0).park.filter fun x => x.state = 3)[0]? = some (parked 3 true)
      ∧ ((s 0 false).stook? 1).any (fun k => decide (0 < k.sheaves.length)) = true ∧ ((s 0 false).here path).lanes.length = 32
      ∧ ((s 0 false).laneOf path 31).exitIssued = false := by decide +kernel

/-! ### Witnesses: transactions -/

def oneLane : LaneMask := maskOf [31]
def lastLane : LaneRef := { stook := 1, sheaf := 0, lane := 31 }

/-- Lane 31 in focus, its transaction as given. -/
def inTx (i : Instr) (x : TxState) : State := focused (inLanes (mapped (before i)) fun _ y => { y with tx := x }) oneLane

def entry (pa v : Nat) : LogEntry := { value := BitVec.ofNat 64 v, bytes := 0xFF, lock := false, va := pa, pa := pa, key := 0, reuse := 0 }

/-- Depth 0, 1 to 6 and 7, with and without a ticket. -/
theorem witness_TransactionBegins : ∀ i ∈ [Instr.tbegin (mw 0x74 0x74 0 (meWord 0 0 7 0 0x7FFF)), .tbeginl (mw 0x74 0x74 0 (meWord 0 0 7 0 0x8000))],
    issues i (inLanes (before i) fun l x => { x with tx := { x.tx with depth := l / 4, ticket := l % 2 } }) path = true := by decide +kernel

/-- A transaction at depth 1 with a read of 0x10000, which holds for 3, and a write of 0x400. -/
def logged (v : Nat) : TxState := { (default : TxState) with depth := 1, reads := [entry 0x10000 (v + 2 ^ 17)], writes := [entry 0x400 7] }

def tendWord : AWord := { aw 6 0x74 0x74 0 with ext := eWord 0x74 0 0 0 0 0 }

/-- Five lanes: outside a transaction, nested, with a read that holds, with one that does not, locked. -/
theorem witness_TransactionCommits :
    ∀ i ∈ [Instr.tend tendWord, .tval { aw 0x74 0x74 0x74 0 with ext := eWord 0x74 0 0 1 0 0 }],
      let txs := [default, { (default : TxState) with depth := 2 }, logged 3, logged 4, { logged 4 with locked := true }]
      let s := focused (inLanes (mapped (before i)) fun l y => { y with tx := txs.getD l default }) 0x1F
      issues i s (pathOf 0x1F) = true ∧ noHold (s.here path) = true ∧ s.deltas = [] ∧ s.locks = [] ∧ (s.stook? 1).any (fun k => k.twin.isNone) = true
        ∧ (∀ l < 5, s.released { stook := 1, sheaf := 0, lane := l } 3 s.next = true) ∧ inNv 0x400 = false
        ∧ (s.laneOf path 2).tx.holdsIn s.mem.byte = true ∧ (s.laneOf path 3).tx.holdsIn s.mem.byte = false
        ∧ (commitTurns (fun l => (s.laneOf path l).tx) (lanesOf 0x1F) s.mem.byte).1 = [0, 1, 2, 4] := by decide +kernel

/-- Lane 31 of two twins at a TEND: the primary or the secondary in focus, the other's write log as given. -/
def twinned (second : Bool) (at' : Bool) (w : List LogEntry) : State :=
  let s := inTx (.tend tendWord) (logged 3)
  let k := stookIn s
  let other (h : Sheaf) : Sheaf := { h with lanes := h.lanes.map fun x =>
    { x with tx := { logged 3 with writes := w }, hold := if at' then some (.commit (.tend tendWord) 0 false) else none } }
  { s with stooks := [{ k with twin := some 2, secondary := second }, { k with uid := 2, twin := some 1, secondary := !second, sheaves := k.sheaves.map other }] }

theorem witness_TransactionCommits_twins :
    (∀ x ∈ [(true, true), (false, false), (false, true)], ∀ w ∈ [[entry 0x400 7], [entry 0x400 8]], let s := twinned x.1 x.2 w
      let y := s.laneAt { lastLane with stook := 2 }
      issues (.tend tendWord) s (pathOf oneLane) = true ∧ (stookIn s).twin = some 2 ∧ (stookIn s).secondary = x.1 ∧ (s.laneOf path 31).tx.depth = 1
        ∧ (∀ l < 32, (s.laneOf path l).hold = none) ∧ s.deltas = [] ∧ s.locks = [] ∧ s.released lastLane 3 s.next = true
        ∧ decide (y.hold = some (.commit (.tend tendWord) 0 false)) = x.2 ∧ sameWrites (s.laneOf path 31).tx y.tx = decide (w = [entry 0x400 7])
        ∧ (s.laneOf path 31).tx.holdsIn s.mem.byte = true) := by decide +kernel

theorem witness_TransactionAborts :
    (∀ i ∈ [Instr.tabort { aw 0x74 0x75 0x74 0 with ext := eWord 0x74 0 0 7 0 0 }, .tstat (aw 6 0x74 0x74 0 (opt := 1)), .tstat (aw 6 0x74 0x74 0)],
      issues i (inLanes (before i) fun l x => { x with tx := { x.tx with depth := l / 4 } }) path = true)
      ∧ (let i := Instr.tend { aw 6 0x74 0x74 0 with ext := eWord 0x74 0 0 0 0 0 }
         let s := { inLanes (before i) fun l x => { x with hold := if l = 31 then some (.commit i 0 false) else none } with
           locks := [{ pa := 0x400, holder := lastLane, commit := true, ticket := 0 }] }
         s.powered = true ∧ (s.laneOf path 31).hold = some (.commit i 0 false) ∧ ∀ l < 31, (s.laneOf path l).hold = none)
      ∧ (let e : Elem := { va := 0x400, locs := (List.range 4).map fun j => { pa := 0x400 + j, peer := none, la := false, key := 0 }, n := 4, shift := 0,
                           width := 32, fmt := 0x30, side := none, known := [none, none, none, none], skip := false }
         let q : Req := { (default : Req) with id := 1, stook := 9, op := .load, elems := [e] }
         let s := { (inLanes (atCore fun c => { c with reqs := [q] }) fun _ x => { x with tx := { x.tx with depth := 1 } }) with
           locks := [{ pa := 0x400, holder := lastLane, commit := false, ticket := 1 }] }
         s.powered = true ∧ (s.core 0).homeList[0]? = some q ∧ q.performed = false ∧ q.spad = false ∧ s.lockHolders (q.words.filterMap fun w => if w.2.isNone then some w.1 else none)
               (some { stook := q.stook, sheaf := q.sheaf, lane := q.lane }) = [lastLane]
           ∧ 0 < (s.laneOf path 31).tx.depth ∧ (s.laneOf path 31).exitIssued = false) := by decide +kernel

/-! ### Witnesses: the copy engine, buffers, persist barriers -/

/-- Two 8 by 8 matrices of F32, an index list of U32, two buffers: one of two slots, one not initialised. -/
def copyState (s : State) : State := inStook s fun k => { k with
  scratchBytes := 2048
  records := [(1, recOf 0x100 8 8 32 0x12), (4, recOf 0x300 8 8 32 0x12), (5, recOf 0x800 8 1 32 0x05)]
  cbufs := [(0, { (default : CBuf) with slots := 2, slotBytes := 256, free := 1, claim := 1, filled := 1 }), (1, default)] }

/-- The descriptor of eight elements in s8 to s12. -/
def describe (s : State) (ctl : Nat) : State := inSheaf s fun h => (h.ws 8 (BitVec.ofNat 32 ctl)).ws 9 0x00070000

/-- CPY into slot 4 and into buffer 0, CPYG and CPYS by slot 5; an unset source slot, for each. -/
theorem witness_CopyCommands : ∀ slot ∈ [1, 9],
    let w := mw 8 0x74 slot (meWord 1 2 1 0 0)
    ∀ x ∈ [(Instr.cpy w, 0, 4), (.cpy w, 0, 0x12020000), (.cpyg w, 1, 4 + 5 * 64), (.cpys w, 2, 4 + 5 * 64)],
      let s := describe (copyState (before x.1)) x.2.2
      issues x.1 s path = true ∧ (copyCheck (stookIn s) (s.here path) x.2.1 w).isNone = decide (slot = 1) ∧ (s.core 0).copies = [] := by
  decide +kernel

/-- A copy of eight elements from slot 1 to slot 4, with its entry of the range-lock table. -/
def copyOf (state ctl : Nat) (src : BitVec 256) : Copy :=
  let c : Copy := {
    (default : Copy) with id := 1, stook := 1, lanes := 0x80000000, kind := 0, ctl := BitVec.ofNat 32 ctl, shape := 0x00070000,
                          srcSlot := 1, srcRec := src, dstRec := recOf 0x300 8 8 32 0x12, state := state, undelivered := 0x80000000 }
  { c with ranges := c.lockRanges }

theorem witness_CopiesRun :
    (∀ ctl ∈ [4, 0x12020000], let x := copyOf 0 ctl (recOf 0x100 8 8 32 0x12)
      let s := inLanes (copyState (atCore fun c => { c with copies := [x] })) fun l y => { y with hold := if l = 31 then some (.copy 1) else none }
      s.powered = true ∧ (s.core 0).command? 0 = some x ∧ (stookIn s).twin = none ∧ s.canAccept x = true
        ∧ (s.laneOf path 31).hold = some (.copy 1) ∧ (s.laneOf path 31).exitIssued = false)
      ∧ (∀ x ∈ [(recOf 0x100 8 8 32 0x12, 0), (recOf 0x100 4 1 32 0x12, 1), (recOf (2 ^ 30) 8 8 32 0x12, 2)],
          let c := copyOf 2 4 x.1
          let s := copyState (atCore fun k => { k with copies := [c] })
          let k := stookIn s
          s.powered = true ∧ (s.core 0).running[0]? = some c ∧ k.secondary = false ∧ s.copyGoes c = true ∧ c.writes = []
            ∧ c.cursor < c.total ∧ c.total = 8 ∧ s.cores.map Core.deltas = [[]] ∧ s.dies = []
            ∧ (∀ n ∈ [3, 8], min (max 1 ((n + c.unit - 1) / c.unit) * c.unit) (c.total - c.cursor) = n
                ∧ s.wholeChunk k c 16 n = (n + 1) / 2 * 2)
            ∧ (match s.chunk k c 8 with
              | .ok w => x.2 == 0 && (s.sectorCause (w.reads.map Prod.fst) .good).isNone && s.chunkGoes w && w.glob.length == 32
                  && decide ((w.glob.map fun q => q.2.1).Nodup) && w.spad.isEmpty && (c.stores w).length == 4
              | .error (.fail _) => x.2 == 1
              | .error (.miss _ _ _) => x.2 == 2) = true)
      ∧ (let c := { copyOf 2 0x12020000 (recOf 0x100 8 8 32 0x12) with cbSlot := some (0, 0) }
         let s := copyState (atCore fun k => { k with copies := [c] })
         s.powered = true ∧ (s.core 0).running[0]? = some c ∧ s.copyGoes c = true ∧ c.cursor + 4 < c.total ∧ s.wholeChunk (stookIn s) c 16 4 = 4
           ∧ (match s.chunk (stookIn s) c 4 with
             | .ok w => w.glob.isEmpty && w.spad.length == 16 && decide ((w.spad.map Prod.fst).Nodup) && s.chunkGoes w
                 && (s.sectorCause (w.reads.map Prod.fst) .good).isNone
             | .error _ => false) = true)
      ∧ (let c := { copyOf 2 4 (recOf 0x100 8 8 32 0x12) with cursor := 8 }
         let s := copyState (atCore fun k => { k with copies := [c] })
         (s.core 0).running[0]? = some c ∧ s.copyGoes c = true ∧ c.cursor = c.total ∧ s.copyReleased c = true)
      ∧ ∀ n ∈ [1, 2], let c := { copyOf 2 4 (recOf 0x100 8 8 32 0x12) with writes := List.replicate n default, taking := 2 * n }
        let s := copyState (atCore fun k => { k with copies := [c] })
        s.powered = true ∧ (s.core 0).running[0]? = some c ∧ s.copyGoes c = true ∧ c.writes ≠ [] ∧ c.cursor + c.taking < c.total := by decide +kernel

/-- Every copy of the lanes complete; one of each lane still running; of group 0 and of all. -/
theorem witness_CopyWaits : ∀ o ∈ [0, 8], ∀ n ∈ [4, 2],
    let w := { aw 0x74 0x74 0x74 0 with ext := eWord 0x74 0 0 7 o 0 }
    let c := { copyOf n 4 (recOf 0x100 8 8 32 0x12) with lanes := BitVec.allOnes 32, undelivered := BitVec.allOnes 32 }
    let s := (before (.cwait w)).modCore 0 fun k => { k with copies := [c] }
    issues (.cwait w) s path = true ∧ ∀ l ∈ [0, 31], s.awaited { stook := 1, sheaf := 0, lane := l } (if o = 8 then none else some 0) = [c] := by
  decide +kernel

/-- CBINIT inside and outside the allotment; CBACQ and CBREL of a buffer not initialised, empty, and with a slot. -/
theorem witness_CircularBuffers :
    (∀ x ∈ [0x00000001, 0x00FE0001], let w := { aw 0x74 0x74 0x78 0 with ext := eWord 0x74 0 0 7 0 8 }
      let s := inSheaf (copyState (before (.cbinit w))) fun h => h.ws 8 (BitVec.ofNat 32 x)
      let b := cbGeometry ((s.here path).rs 8)
      issues (.cbinit w) s path = true ∧ spadInside (stookIn s) (s.launchOf (stookIn s)).desc b.offset ((b.slots * b.slotBytes : Nat) : Int) = decide (x = 1)
        ∧ s.bufferBusy (stookIn s) 0 s.next = false ∧ noHold (s.here path) = true)
      ∧ ∀ b ∈ [(default : CBuf), { (default : CBuf) with slots := 2, filled := 1, held := 1 }, { (default : CBuf) with slots := 2, free := 2 }],
        ∀ i ∈ [Instr.cbacq { aw 5 0x74 0x74 0 with ext := eWord 0x74 0 0 7 15 0 }, .cbrel { aw 0x74 0x74 0x74 0 with ext := eWord 0x74 0 0 7 15 0 }],
          let s := inStook (before i) fun k => { k with cbufs := [(15, b)] }
          issues i s path = true ∧ (stookIn s).cbuf? 15 = some b := by decide +kernel

theorem witness_PersistBarriers :
    (∀ i ∈ [Instr.pbarOrd (mw 0x74 0x74 0 (meWord 6 0 7 0 0)), .pbarSync (mw 0x74 0x74 0 (meWord 6 0 2 1 0))],
      issues i (inLanes (before i) fun l x => { x with nvSince := l < 16 }) path = true)
      ∧ (let s := inLanes (atCore id) fun _ x => { x with persist := [(2, 1)], nvSince := true }
         s.powered = true ∧ (s.laneAt lastLane).persist = [(2, 1)] ∧ s.persistDone lastLane = true ∧ (s.laneAt lastLane).exitIssued = false
           ∧ s.cores.map Core.deltas = [[]] ∧ s.dies = []) := by
  decide +kernel

/-! ### Witnesses: clauses, rotation, memory events -/

/-- A path at the header at index 0 whose WAIT names d0. -/
def atHeader (i : Instr) (count : Bool) : State :=
  let s := inLanes (before i) fun _ x => { x with pc := 0, inside := false }
  let s := if count then inSheaf s fun h => { h with issues := [{ id := 1, tok := 0, lanes := 1 }] } else s
  let header (l : Launch) : Launch := { l with code := l.code.modify 0 fun w => w ||| 0x8000 }
  { s with launches := s.launches.map header, focus := none }

/-- The checks pass, with and without a counting token; a word of another class. -/
theorem witness_ClauseFetch :
    (∀ x ∈ [(Instr.iadd (aw 1 2 3 4), true, true), (.iadd (aw 1 2 3 4), false, true), (.nop (aw1 0x74 0x74 0x74), false, false)],
      let s := atHeader x.1 x.2.1
      let k := stookIn s
      let code := (s.launchOf k).code
      s.powered = true ∧ (∀ l < 32, (s.laneOf path l).running = true ∧ (s.laneOf path l).inside = false ∧ (s.laneOf path l).pc = 0
          ∧ (s.laneOf path l).pending = [] ∧ (s.laneOf path l).tx.depth = 0)
        ∧ k.stopping = 0 ∧ (s.launchOf k).ending = none ∧ k.stopAll = false ∧ (s.launchOf k).breakpoints = [] ∧ (s.launchOf k).codeStop 0 = none
        ∧ hdrWaits (code.getD 0 0) 0 = true ∧ decide ((s.here path).tokenCount 0 ≠ 0) = x.2.1 ∧ (∀ t ∈ [1, 2, 3, 4, 5], (s.here path).tokenCount t = 0)
        ∧ (s.here path).spilled = [] ∧ (fetchCheck code k (s.here path) 0).toBool = x.2.2)
      ∧ ∀ x ∈ [(1, false, true), (0, true, false), (0, false, false)],
          let s := ((atHeader (.iadd (aw 1 2 3 4)) x.2.1).modCore 0 fun c => { c with rotation := x.1 })
          let det (l : Launch) : Launch := { l with desc := { l.desc with flags := 1 } }
          let s : State := { s with launches := s.launches.map det }
          s.powered = true ∧ (s.stooksOn 0).length = 1 ∧ (s.stooksOn 0).all (fun k => (s.launchOf k).desc.rotates && !k.sheaves.all Sheaf.spent) = true
            ∧ s.midStep 0 = false ∧ s.frozen 0 = false ∧ s.memoryDone 0 = true ∧ s.takeOn 0 Config.placesPerCore = some s
            ∧ (s.considered 0 (s.core 0).rotation).isEmpty = x.2.2 ∧ (x.2.2 = false → s.stalls 0 (s.considered 0 0) = x.2.1) := by
  decide +kernel

/-- An aligned element of `n` bytes at an address, none of its bytes known. -/
def elemAt (pa n fmt : Nat) : Elem :=
  { va := pa, locs := (List.range n).map fun j => { pa := pa + j, peer := none, la := false, key := 0 }, n := n, shift := 0, width := 8 * n, fmt := fmt,
    side := none, known := List.replicate n none, skip := false }

theorem witness_MemoryEvents_drain :
    (∀ spad ∈ [false, true], ∀ n ∈ [4, 8], let e := elemAt 0x3FC n 0x30
      let q : Req := { (default : Req) with id := 1, stook := 1, lane := 31, op := .store, elems := [e], data := [7], spad := spad }
      let s := inSheaf (atCore id) fun h => { h with queue := [q] }
      s.powered = true ∧ (s.here path).queue = [q] ∧ s.drainable 1 0 = true ∧ (stookIn s).twin = none ∧ (stookIn s).rerun = none ∧ (stookIn s).takes q = q.elems.length ∧ q.parts.length = n / 4
        ∧ (q.parts.all fun x => decide ((x.1.locs.map ByteLoc.pa).Nodup) && !x.1.skip) = true
        ∧ (n = 4 → e.n = e.locs.length ∧ e.locs.Nodup ∧ ∀ c ∈ e.locs, c.pa / 8 = 0x7F ∧ c.peer = none)) := by decide +kernel

theorem witness_MemoryEvents_home :
    (∀ x ∈ [(ReqOp.load, 0x05), (.store, 0x30), (.atom 3, 0x05), (.atom 7, 0x04), (.cas, 0x30), (.red 0 false 0, 0x05), (.red 4 true 0, 0x12), (.xred 0, 0x30), (.xrd true 0, 0x30)],
          let e := elemAt 0x400 (if x.1 = .xred 0 ∨ x.1 = .xrd true 0 then 64 else 4) x.2
          let r : Req := { (default : Req) with id := 1, stook := 1, lane := 31, op := x.1, af := 3, elems := [e], data := [7, 8] }
          let s := atCore fun c => { c with reqs := [r] }
          s.powered = true ∧ (s.core 0).homeList[0]? = some r ∧ s.requestReady 0 r = true ∧ s.needsTwin r = false ∧ r.spad = false
            ∧ (e.locs.map ByteLoc.pa).Nodup ∧ e.known = List.replicate e.locs.length none ∧ s.cores.map Core.deltas = [[]] ∧ s.dies = []
            ∧ s.sectorCause r.locs .good = none ∧ (∀ b ∈ e.locs, b.peer = none)
            ∧ (x.1 = .load → (e.locs.all fun b => b.pa / 8 == 0x80 && (s.front (stookIn s) r b).isNone && (s.copyByte 0 r (8 * (b.pa / 8))).isNone) = true)) := by decide +kernel

theorem witness_MemoryEvents :
    (let e := elemAt 0x40 4 0x05
         let r : Req := { (default : Req) with id := 1, stook := 1, lane := 31, dest := 4, op := .load, af := 3, elems := [e], spad := true }
         let s := atCore fun c => { c with reqs := [r] }
         s.powered = true ∧ (s.core 0).reqs[0]? = some r ∧ s.requestReady 0 r = true ∧ (s.here path).queue = []
           ∧ e.known = List.replicate e.locs.length none ∧ ∀ b ∈ e.locs, b.pa / 8 = 8 ∧ b.peer = none)
      ∧ (let r : Req := { (default : Req) with id := 1, stook := 1, lane := 31, dest := 4, op := .load, af := 3, elems := [elemAt 0x400 4 0x05], performed := true, result := [7] }
         let s := atCore fun c => { c with reqs := [r] }
         s.powered = true ∧ (s.core 0).reqs[0]? = some r ∧ (s.laneAt lastLane).exitIssued = false)
      ∧ (let b : BscEntry := { id := 1, live := true, reuse := 0, place := 0, slot := 2, block := 0, entry := none, ctx := 0, locs := (elemAt 0x1000 16 0x30).locs }
         let s := atCore fun c => { c with bsc := [b] }
         s.powered = true ∧ ((s.core 0).bsc.filter fun x => x.entry.isNone)[0]? = some b ∧ s.sectorCause b.locs .good = none
           ∧ b.live = true ∧ s.fillWaits 0 b = false ∧ (b.locs.all fun x => x.peer.isNone) = true ∧ (s.core 0).stores = [] ∧ (stookIn s).heldStores = []) := by
  decide +kernel

/-- A store of a twin, and of a second run, whose one word leaves its queue and is held. -/
theorem witness_MemoryEvents_held : ∀ x ∈ [(some 2, none), (none, some 0)],
    let q : Req := { (default : Req) with id := 1, stook := 1, lane := 31, op := .store, elems := [elemAt 0x3F8 4 0x30], data := [7] }
    let s := inSheaf (inStook (atCore id) fun k => { k with twin := x.1, rerun := x.2, secondary := x.2.isSome }) fun h => { h with queue := [q] }
    s.powered = true ∧ (s.here path).queue = [q] ∧ s.drainable 1 0 = true ∧ (stookIn s).takes q = q.elems.length ∧ q.parts.length = 1
      ∧ ((stookIn s).twin ≠ none ∨ (stookIn s).rerun ≠ none) := by decide +kernel

/-! ### Witnesses: faults, placement, preemption -/

/-- A request of a context, or of the device as a whole (255), with its turn. -/
def hdr (c len : Nat) : MsgHdr := { context := c, seq := 0, length := len, tag := 7 }

/-- What `InTurn` asks, evaluated. -/
def inTurn (s : State) (h : MsgHdr) (len : Nat) (dev : Bool) : Bool :=
  s.powered && !s.svc.heldReset && h.seq == (s.ctx h.context).seq && h.length == len
    && ((dev && h.context == 255) || (decide (h.context < 64) && (s.ctx h.context).valid)) && s.transfers.all fun x => x.hdr.context != h.context

theorem in_turn {s : State} {h : MsgHdr} {len : Nat} {dev : Bool} (e : inTurn s h len dev = true) : InTurn s h len dev := by
  simp only [inTurn, Bool.and_eq_true, Bool.not_eq_true', beq_iff_eq, Bool.or_eq_true, decide_eq_true_eq, List.all_eq_true, bne_iff_ne] at e
  obtain ⟨⟨⟨⟨⟨h1, h2⟩, h3⟩, h4⟩, h5⟩, h6⟩ := e
  exact ⟨h1, h2, h3, h6, h4, h5⟩

/-- A fault of a lane of the stook. -/
def faultOf (c : Cause) (va : Nat) : FaultRec :=
  { (default : FaultRec) with id := 5, cause := c, uid := 1, lanes := oneLane, va := va, kind := .read, reported := true }

/-- A state with that fault, its lane stopped at its word. -/
def faulting (f : FaultRec) (e : List Replay) : State :=
  let stopped (l : Nat) (x : Lane) : Lane := if l = 31 then { x with stop := some { cause := f.cause, fault := 5, resume := 3 } } else x
  { inLanes (atCore fun c => { c with replay := e }) stopped with faults := [f] }

/-- A load of four bytes of page 0, and its entry in the replay buffer. -/
def parkedLoad : Replay :=
  { fault := 5, kind := .read
    req := { (default : Req) with id := 1, stook := 1, lane := 31, op := .load, opcode := 0x0c8, elems := [{ elemAt 0x400 4 0x05 with locs := [] }] } }

/-- A walk that ends in a leaf, one that does not; a fault not reported whose page is missing, forbids the access, permits it. -/
theorem witness_WalksAndReports :
    (atCore id).powered = true ∧ ((atCore id).ctx 0).valid = true ∧ (atCore id).walk 0 0x1FFFFFFF = .leaf 2 0x0D
      ∧ (atCore id).walk 0 (2 ^ 30) = .fail .xlateMiss 2
      ∧ ∀ x ∈ [(2 ^ 30, AccessKind.read), (0x400, .fetch), (0x400, .read)],
          let s := faulting { faultOf .xlateMiss x.1 with reported := false, kind := x.2 } []
          s.powered = true ∧ s.fault? 5 = s.faults.head? ∧ (s.faults.all fun f => !f.reported && !f.resolved) = true ∧ s.savedWaits 5 = false
            ∧ s.cores.map Core.replay = [[]]
            ∧ (match s.walk 0 x.1 with
              | .leaf l e => x.1 == 0x400 && l == 2 && (s.permit 0 x.2.need e).isNone == (x.2 == .read)
              | .fail c _ => x.1 == 2 ^ 30 && c == .xlateMiss) = true := by decide +kernel

/-- What the acknowledgements ask of a fault outstanding and reported: its context's request in turn, its lane stopped. -/
def acked (s : State) : Bool :=
  inTurn s (hdr 0 8) 8 false && decide (s.fault? 5 = s.faults.head?) && (s.faults.all fun f => f.ctx == 0 && f.reported && !f.resolved)
    && (s.laneAt lastLane).stop.isSome && decide ((s.laneAt lastLane).tx.depth = 0) && !(s.laneAt lastLane).exitIssued && !s.savedWaits 5

/-- No fault, one not reported, a stopped event; a missing page with nothing parked, with one load parked. -/
theorem witness_FaultRetries :
    let a := faulting { faultOf .xlateMiss (2 ^ 30) with reported := false } []
    let b := faulting (faultOf .xlateMiss 0x400) [parkedLoad]
    let k := stookIn b
    (inTurn (atCore id) (hdr 0 8) 8 false = true ∧ (atCore id).fault? 5 = none ∧ inTurn a (hdr 0 8) 8 false = true
        ∧ (a.fault? 5).any (fun f => !f.reported) = true)
      ∧ (acked (faulting (faultOf .swTrap 0) []) = true ∧ (faulting (faultOf .swTrap 0) []).faults.map FaultRec.cls = [1])
      ∧ (acked (faulting (faultOf .xlateMiss 0x400) []) = true ∧ (faulting (faultOf .xlateMiss 0x400) []).cores.map Core.replay = [[]])
      ∧ (acked b = true ∧ b.faults.map FaultRec.cls = [0] ∧ b.cores.map Core.num = [0] ∧ (b.core 0).replay = [parkedLoad] ∧ (b.core 0).copies = []
        ∧ b.stook? 1 = some k ∧ k.core = 0 ∧ k.ctx = 0 ∧ b.rangeLocked k false 0x400 4 = false ∧ b.walk 0 0x400 = .leaf 2 0x0D
        ∧ b.permit 0 { rd := true } 0x0D = none)
      ∧ ((b.launches.all fun l => l.codeFaults.isEmpty) = true ∧ b.stooks.length = 1 ∧ (k.sheaves.all noHold) = true
        ∧ k.sheaves.length = 1 ∧ (k.sheaf 0).lanes.length = 32) := by decide +kernel

/-- No fault; a replayable one, an event at a header, one inside a clause; a launch that runs. -/
theorem witness_FaultEnds :
    let b := faulting (faultOf .xlateMiss 0x400) [parkedLoad]
    let c := faulting (faultOf .swTrap 0) []
    let d := faulting { faultOf .swTrap 0 with header := true } []
    (inTurn (atCore id) (hdr 0 8) 8 false = true ∧ (atCore id).fault? 5 = none)
      ∧ (∀ s ∈ [b, c, d], acked s = true)
      ∧ (b.faults.map FaultRec.cls = [0] ∧ c.faults.map FaultRec.cls = [1] ∧ d.faults.map FaultRec.header = [true])
      ∧ ((c.laneAt lastLane).stop = some { cause := .swTrap, fault := 5, resume := 3 } ∧ (c.laneAt lastLane).inside = true ∧ (c.laneAt lastLane).pc ≠ 3)
      ∧ (c.launch? 0 0 = c.launches.head? ∧ c.launches.length = 1
        ∧ (c.launches.all fun l => l.ctx == 0 && decide (l.state ≤ 3) && !l.recorded && l.ending.isNone) = true) := by decide +kernel

/-- A launch of two stooks, none placed, on core 0 alone; with room there, and with its core's L1 taken by another size. -/
def queued (l1 : Nat) : State :=
  let l : Launch := { (default : Launch) with desc := { Desc.smallest with fieldX := 2, l1 := 1, sheaves := 1 }, code := [0xCF000000], eligible := [0] }
  let s : State := { mapped State.reset with launches := [l] }
  (s.modCtx 0 fun c => { c with valid := true }).modCore 0 fun c => { c with l1 := l1 }

/-- The running launch with stooks still unplaced, a quantum and a watchdog. -/
def aged (spill watched : Nat) : State :=
  let old (l : Launch) : Launch :=
    { l with desc := { l.desc with fieldX := 2, flags := 4, quantum := 65536, watchdog := 1 }, watched := watched, state := 2 }
  let s := inStook (atCore id) fun k => { k with resident := 65536 }
  { s with launches := s.launches.map old }.modCtx 0 fun c => { c with spillBytes := spill }

/-- The launch with a stook resident that takes all of core 0's sheaf slots and scratch. -/
def crowded : State :=
  let slot (n : Nat) : Sheaf := { (default : Sheaf) with slot := n }
  let wide (k : Stook) : Stook := { k with scratchBytes := 2 ^ 20, sheaves := (List.range 32).map slot }
  { queued 0 with stooks := (aged 0 0).stooks.map wide }

theorem witness_StooksPlaced :
    (let s := queued 0
     s.powered = true ∧ (∀ l ∈ s.launches, s.ready l = true ∧ s.launch? l.ctx l.id = some l ∧ l.code ≠ [] ∧ 0 ∈ l.eligible ∧ l.saved = [] ∧ l.desc.place ≠ 1
        ∧ l.desc.det = false ∧ l.desc.contain ≠ 2 ∧ l.desc.depStrict = false ∧ l.nextStook < l.desc.stooks ∧ s.room 0 l = true ∧ (s.toRerun l).isEmpty = true))
      ∧ (let s := crowded
         ∀ l ∈ s.launches, s.ready l = true ∧ s.room 0 l = false)
      ∧ (let s := inLanes (atCore id) fun l x => { x with pending := if l = 31 then [(7, 0)] else [] }
         let s := inSheaf s fun h => { h with spilled := [7] }
         s.powered = true ∧ (7, 0) ∈ (s.laneOf path 31).pending ∧ 7 ∈ (s.here path).spilled ∧ 7 ∉ (s.here path).bound)
      ∧ (∀ n ∈ [0, 2 ^ 20], let s := aged n 1024
         let k := stookIn s
         let l := s.launchOf k
         s.powered = true ∧ (s.stooks.filter fun x => x.uid == 1) = [k] ∧ l.desc.rotates = false ∧ l.desc.place = 2 ∧ l.desc.quantum ≤ k.resident
           ∧ l.unplaced = true ∧ l.ending = none ∧ k.stopping = 0 ∧ k.twin = none ∧ s.spillRoom 0 (s.imageSize k) = decide (n ≠ 0)
           ∧ s.watching l = true ∧ 1024 * l.desc.watchdog ≤ l.watched ∧ s.launch? 0 0 = some l ∧ ¬ 1024 * l.desc.watchdog ≤ (((aged n 1023).launchOf k).watched)
           ∧ inTurn s (hdr 0 8) 8 false = true ∧ (s.stooks.filter fun k => k.ctx == 0 && k.launch == 0) ≠ [] ∧ s.launch? 0 1 = none)
      ∧ (∀ b ∈ [false, true], let hold (l : Launch) : Launch := { l with held := b }
         let s : State := { queued 0 with launches := (queued 0).launches.map hold }
         inTurn s (hdr 0 8) 8 false = true ∧ (s.stooks.filter fun k => k.ctx == 0 && k.launch == 0) = []
           ∧ (s.launch? 0 0).any (fun l => l.ending.isNone && decide (l.state ≤ 3) && l.held == b) = true) := by decide +kernel

/-- A launch that has ended. -/
theorem witness_StooksPlaced_ended :
    let ended (l : Launch) : Launch := { l with state := 4 }
    let s : State := { queued 0 with launches := (queued 0).launches.map ended }
    inTurn s (hdr 0 8) 8 false = true ∧ (s.launch? 0 0).any (fun l => l.state == 4) = true := by decide +kernel

/-! ### Witnesses: requests of the control node -/

/-- The smallest descriptor that the checks of R353 accept: VERSION 1, 16 code words, a field of one stook of one sheaf,
an L1 of 64 KiB, no dependence (R52). -/
def descBits : BitVec 2048 :=
  BitVec.ofNat 2048 (1 + 16 * 2 ^ 128 + 2 ^ 256 + 2 ^ 320 + 2 ^ 328 + (2 ^ 128 - 1) * 2 ^ 800)

/-- Descriptors refused: VERSION 2, a reserved flag set, a field of no stook; and a device whose queue 3 is full. -/
theorem witness_LaunchMessages :
    (let s := atCore id
     let d (x : BitVec 2048) : Desc := parseDesc (leBytes 256 x.toNat)
     let full (s : State) (q : Nat) : Bool := decide (Config.launchesPerQueue ≤ (s.launches.filter fun l => l.ctx == 0 && l.queue == q && l.state ≤ 3).length)
     let crowd : State := { s with launches := List.replicate 256 (s.launches.headD default) }
     inTurn s (hdr 0 264) 264 false = true ∧ full s 3 = false ∧ inTurn crowd (hdr 0 264) 264 false = true ∧ full crowd 0 = true
       ∧ (d (descBits + 1)).version = 2
       ∧ (let x := d (descBits + 2 ^ 30); x.version = 1 ∧ x.reserved = true)
       ∧ (let x := d (descBits - 2 ^ 256); x.version = 1 ∧ x.reserved = false ∧ x.fieldX = 0)
       ∧ (let x := d descBits; x.recCount = 0 ∧ x.cbufCount = 0 ∧ s.refusal 0 x (some []) (some []) = none))
      ∧ (∀ h ∈ [hdr 0 8], inTurn (atCore id) h 8 false = true ∧ (atCore id).launch? 0 7 = none
          ∧ ∀ st ∈ [2, 4], let ended (l : Launch) : Launch := { l with state := st }
            let s : State := { atCore id with launches := (atCore id).launches.map ended }
            inTurn s h 8 false = true ∧ (s.launch? 0 0).any (fun l => l.state == st && l.ending.isNone && !l.recorded) = true)
      ∧ (inTurn (atCore id) (hdr 255 8) 8 true = true ∧ inTurn (atCore id) (hdr 0 8) 8 true = true)
      ∧ (let early : MsgHdr := { hdr 0 8 with seq := 3 }
         let s : State := { atCore id with inbox := [(early, .query early 0)] }
         s.powered = true ∧ (s.ctx 0).seq = 0 ∧ s.inbox = [(early, Instr.query early 0)] ∧ early.seq ≠ 0) := by decide +kernel

/-- Headers of a TYPE that is not listed, of DEBUG, KEYLOAD, FWUPDATE and FAULT_ACK; of a context that is not VALID. -/
theorem witness_LaunchMessages_unknown :
    let s := atCore id
    (∀ x ∈ [(hdr 0 24, true), (hdr 255 24, true), (hdr 0 16, false), (hdr 0 136, false), (hdr 0 8, false)], inTurn s x.1 x.1.length x.2 = true)
      ∧ (s.powered = true ∧ s.svc.heldReset = false ∧ (s.ctx 5).seq = 0 ∧ s.transfers = [] ∧ (s.ctx 5).valid = false)
      ∧ s.fault? 5 = none ∧ acked (faulting (faultOf .swTrap 0) []) = true := by decide +kernel

def block (mode addr size : Nat) : MemBlock := { mode := BitVec.ofNat 64 mode, addr := BitVec.ofNat 64 addr, size := BitVec.ofNat 64 size }

/-- Settings within the limits of R393. -/
def someSettings : Settings :=
  { cap := 5000, partLog := 1, telemMs := 10, snapPool := List.replicate 16 2, nvQuota := 128 :: List.replicate 15 0 }

/-- A context record: VALID, a table at `root`, its partition, a spill region at 2^32. -/
def ctxBits (root part : Nat) : BitVec 512 := BitVec.ofNat 512 (root + part * 2 ^ 128 + 2 ^ 136 + 2 ^ 32 * 2 ^ 192 + 2 ^ 20 * 2 ^ 256)

/-- PEERCFG of two links: DEVID 1, domain 3, links 0 and 1. -/
def peerBits : BitVec 4160 := BitVec.ofNat 4160 (1 + 3 * 2 ^ 32 + 3 * 2 ^ 64)

def causeOf {α : Type} (x : Except Cause α) : Option Cause := match x with | .error c => some c | .ok _ => none

/-- The first `m` bytes of a block lie where their addresses say, on this device, for reads and for writes. -/
def reaches (s : State) (b : MemBlock) (m : Nat) : Bool :=
  [false, true].all fun wr => (List.range m).all fun j =>
    (s.msgByte 0 (b.mode.getLsbD 0) wr (b.addr.toNat + j)).toOption.any fun l => l.pa == b.addr.toNat + j && l.peer.isNone

/-- Five bytes from the last of a word on: two words, each of which can be performed. -/
def twoWords : List (List (ByteLoc × Byte)) :=
  wordRuns (((List.range 5).map fun j => ({ pa := 0x407 + j, peer := none, la := false, key := 0 } : ByteLoc)).zip [1, 2, 3, 4, 5])

/-- Reads and writes at a physical address, at a mapped and over the end of the mapped addresses; blocks that are refused. -/
theorem witness_MemoryMessages :
    let s := atCore id
    (s.deltas = [] ∧ s.locks = [] ∧ twoWords.map List.length = [1, 4]
        ∧ (twoWords.all fun w => s.wordGoes w && decide ((w.map fun q => q.1.pa).Nodup) && w.all fun q => q.1.peer.isNone) = true)
      ∧ (∀ h ∈ [hdr 0 24, hdr 255 24], inTurn s h 24 true = true) ∧ (∀ h ∈ [hdr 0 32, hdr 255 32], inTurn s h 32 true = true)
      ∧ (inTurn s (hdr 0 16) 16 true = true ∧ (hdr 0 16).length ≠ 24 ∧ (hdr 0 16).length ≠ 24 + ((block 0 0x400 5).size.toNat + 7) / 8 * 8)
      ∧ (blockOk (block 2 0 8) = false ∧ blockOk (block 0 0x400 0) = false ∧ (block 2 0 8).size.toNat = 8)
      ∧ (∀ b ∈ [block 1 0x10007 5, block 0 0x407 5], blockOk b = true ∧ 24 + (b.size.toNat + 7) / 8 * 8 = 32 ∧ inSettings (hdr 0 32) b = false
          ∧ reaches s b 5 = true)
      ∧ (∀ m ∈ [0, 2], let b := block 0 (2 ^ 29 - m) 5
          blockOk b = true ∧ reaches s b m = true
            ∧ ∀ wr ∈ [false, true], causeOf (s.msgByte 0 (b.mode.getLsbD 0) wr (b.addr.toNat + m)) = some .xlateMiss)
      ∧ (block 1 0x800000000000 64).addr.toNat = 0x800000000000 ∧ inTurn s (hdr 255 88) 88 true = true := by decide +kernel

/-- A MEMREAD and a MEMWRITE under way, two words or one to go, or none. -/
theorem witness_MemoryMessages_words :
    ∀ x ∈ [(Instr.memread (hdr 0 24) (block 0 0x407 5), false), (.memwrite (hdr 0 32) (block 0 0x407 5) [1, 2, 3, 4, 5], true)], ∀ n ∈ [0, 1, 2],
      let y : Transfer := { hdr := hdr 0 (if x.2 then 32 else 24), req := x.1, left := twoWords.drop n, got := [], done := 0, units := [], cause := none }
      let s : State := { atCore id with transfers := [y] }
      s.powered = true ∧ s.transfers.find? (fun z => z.hdr == y.hdr && z.req == x.1) = some y ∧ y.left.length = 2 - n := by decide +kernel

theorem witness_MemoryMessages_settings :
    (let c := someSettings
     3000 ≤ c.cap ∧ c.cap ≤ 6000 ∧ c.partLog ≤ 4 ∧ 10 ≤ c.telemMs ∧ c.telemMs ≤ 60000 ∧ c.snapPool.length = 16 ∧ c.nvQuota.length = 16
           ∧ (∀ x ∈ c.snapPool ++ c.nvQuota, x < 256) ∧ c.nvQuota.foldl (fun a b => a + b) 0 ≤ 128
           ∧ State.reset.contexts = [] ∧ (∃ x ∈ (atCore id).contexts, x.1 ≠ 255 ∧ x.2.valid = true) ∧ c.partLog ≠ (atCore id).svc.settings.partLog)
      ∧ (inTurn State.reset (hdr 255 88) 88 true = true
          ∧ ([BitVec.ofNat 512 (5000 + 2 ^ 13), BitVec.ofNat 512 (5000 + 2 ^ 64), 2999#512, 6001#512].all fun x => x.extractLsb' 13 19 != 0
              || x.extractLsb' 64 192 != 0 || decide ((x.extractLsb' 0 13).toNat < 3000) || decide (6000 < (x.extractLsb' 0 13).toNat)) = true) := by decide +kernel

theorem witness_MemoryMessages_contexts :
    (let s := atCore id
     let done (l : Launch) : Launch := { l with state := 4 }
     let idle : State := { s with launches := s.launches.map done }
     s.svc.settings.partLog = 0 ∧ s.transfers = [] ∧ (s.ctx 0).ptroot = 0x10000 ∧ (∃ l ∈ s.launches, l.ctx = 0 ∧ l.state ≤ 3) ∧ (idle.launches.all fun l => 3 < l.state) = true
       ∧ (∀ x ∈ [s, idle], x.powered = true ∧ x.svc.heldReset = false ∧ (x.ctx 0).seq = 0 ∧ (x.ctx 64).seq = 0)
       ∧ (ctxBits 0x10000 1).extractLsb' 128 4 = 1 ∧ ctxRecordBad (ctxBits 0x10000 0) = false ∧ ctxRecordBad (ctxBits 0x10001 0) = true
       ∧ (ctxBits 0x20000 0).extractLsb' 0 64 = 0x20000#64) := by decide +kernel

theorem witness_MemoryMessages_peers :
    (let bad (h : MsgHdr) (cfg : BitVec 4160) : Bool := h.context != 255 || cfg.extractLsb' 7 25 != 0 || cfg.extractLsb' 44 20 != 0
       || cfg.extractLsb' 4144 16 != 0 || decide (83 < (cfg.extractLsb' 0 7).toNat)
     (∀ h ∈ [hdr 0 520, hdr 255 520], inTurn (atCore id) h 520 true = true) ∧ inTurn State.reset (hdr 255 520) 520 true = true
       ∧ bad (hdr 255 520) peerBits = false ∧ bad (hdr 0 520) peerBits = true ∧ bad (hdr 255 520) (peerBits + 83#4160) = true
       ∧ (atCore id).stooks ≠ [] ∧ State.reset.stooks = []) := by decide +kernel

/-- The running launch in a context with DEBUG and a spill region at 0x100000, breakpoints and its stopped lanes as given. -/
def debugged (bps : List Word) (stop : Option Stop) : State :=
  let bp (l : Launch) : Launch := { l with breakpoints := bps }
  let stopped (_ : Nat) (x : Lane) : Lane := { x with stop := stop }
  let s := inLanes (atCore id) stopped
  State.modCtx { s with launches := s.launches.map bp } 0 fun c => { c with debug := true, spillVa := 0x100000, spillBytes := 0x20000 }

theorem places_nodup (n b : Nat) : ((List.range n).map fun j => b + j).Nodup :=
  List.pairwise_map.2 ((List.pairwise_lt_range (n := n)).imp fun h => by omega)

theorem witness_DebugMessages :
    (∀ s ∈ [debugged [] none, debugged [7] none, debugged [0, 1, 2, 3, 4, 5, 6, 7] none], inTurn s (hdr 0 16) 16 false = true ∧ (s.ctx 0).debug = true
        ∧ (s.launch? 0 0).any (fun l => l.desc.codeWords == 16) = true ∧ s.launch? 0 9 = none ∧ s.debugStook 0 0 5 = none)
      ∧ (inTurn (atCore id) (hdr 0 16) 16 false = true ∧ ((atCore id).ctx 0).debug = false)
      ∧ (let r := debugged [] none
         let k := stookIn r
         r.debugStook 0 0 0 = some k ∧ r.stook? k.uid = some k ∧ k.allStopped = false)
      ∧ (let g : Stop := { cause := .breakpoint, fault := 0, resume := 2 }
         let s := debugged [] (some g)
         let k := stookIn s
         inTurn s (hdr 0 16) 16 false = true ∧ (s.ctx 0).debug = true ∧ (s.launch? 0 0).isSome = true ∧ s.debugStook 0 0 0 = some k ∧ s.stook? k.uid = some k
           ∧ k.sheaves.length = 1 ∧ (k.sheaf 0).lanes.length = 32 ∧ ((k.sheaf 0).lane 31).stop = some g ∧ ((k.sheaf 0).lane 31).exitIssued = false
           ∧ k.allStopped = true ∧ s.imageSize k ≤ (s.ctx 0).spillBytes ∧ (s.ctx 0).spillBytes < 0x20000 + s.imageSize k
           ∧ s.cores.map Core.deltas = [[]] ∧ (s.ctx 0).spillVa = 0x100000) := by decide +kernel

theorem walkFrom_level {s : State} {c va l : Nat} {e : DWord} (fuel lvl tbl : Nat) (h : s.walkFrom c va fuel lvl tbl = .leaf l e) : lvl ≤ l := by
  induction fuel generalizing lvl tbl with
  | zero => cases h
  | succ n ih =>
    rw [State.walkFrom] at h
    split at h
    · cases h
    · split at h
      · cases h
      · split at h
        · cases h
        · split at h
          · have := ih _ _ h; omega
          · split at h
            · cases h
            · cases h; exact Nat.le_refl _

/-- Addresses below 2^29 have the walk of address 0 when that ends at level 2. -/
theorem walk_low {s : State} {c va : Nat} {e : DWord} (h : va < 2 ^ 29) (hs : s.walk c 0 = .leaf 2 e) : s.walk c va = .leaf 2 e := by
  have key (fuel lvl tbl : Nat) (h2 : s.walkFrom c 0 fuel lvl tbl = .leaf 2 e) : s.walkFrom c va fuel lvl tbl = .leaf 2 e := by
    induction fuel generalizing lvl tbl with
    | zero => cases h2
    | succ n ih =>
      have hl := walkFrom_level _ _ _ h2
      have hb : 2 ^ 29 ≤ 2 ^ leafBits lvl := Nat.pow_le_pow_right (by omega) (by unfold leafBits; omega)
      have hi : natField va (leafBits lvl) 13 = natField 0 (leafBits lvl) 13 := by
        simp only [natField, Nat.shiftRight_eq_div_pow]
        rw [Nat.div_eq_of_lt (by omega), Nat.div_eq_of_lt (by omega)]
      rw [State.walkFrom] at h2 ⊢
      rw [hi]
      split at h2
      · cases h2
      · rename_i h1
        rw [if_neg h1]
        split at h2
        · cases h2
        · rename_i h1
          rw [if_neg h1]
          split at h2
          · cases h2
          · rename_i h1
            rw [if_neg h1]
            split at h2
            · rename_i h1
              rw [if_pos h1]
              exact ih _ _ h2
            · rename_i h1
              rw [if_neg h1]
              exact h2
  unfold State.walk at hs ⊢
  dsimp only at hs ⊢
  split at hs
  · cases hs
  · rename_i h1
    rw [if_neg h1]
    exact key _ _ _ hs

/-- Every byte of the image of the stopped stook at the region's start lies on a mapped byte of its own. -/
theorem witness_DebugMessages_dump :
    let s := debugged [] (some { cause := .breakpoint, fault := 0, resume := 2 })
    ∀ j, j < (s.imageOf (stookIn s)).length →
      s.nodeLocate 0 (0x100000 + j) { wr := true } = .ok { pa := 0x100000 + j, peer := none, la := false, key := 0 } := by
  intro s j hj
  have hn : (s.imageOf (stookIn s)).length ≤ 2 ^ 20 := by decide +kernel
  have hw : s.walk 0 (0x100000 + j) = .leaf 2 0x0D := walk_low (by omega) (by decide +kernel)
  have hp : s.permit 0 { wr := true } 0x0D = none := by decide +kernel
  have ha : leafPa 2 0x0D (0x100000 + j) = 0x100000 + j := by
    have e1 : ptePA (0x0D : DWord) = 0 := by decide
    have e2 : pteLOCAL (0x0D : DWord) = false := by decide
    simp only [leafPa, e1, e2, leafBits, Bool.false_and, Bool.false_eq_true, if_false, Nat.zero_add]
    exact Nat.mod_eq_of_lt (by omega)
  have hk : pteKEY (0x0D : DWord) = 0 ∧ ptePEER (0x0D : DWord) = false ∧ pteLA (0x0D : DWord) = false := by decide
  unfold State.nodeLocate
  rw [hw]
  simp only [hp, ha, hk, Bool.false_eq_true, if_false]

/-- A table of context 0 whose leaf names key slot 5, and the same device with nothing resident. -/
def keyed (resident : Bool) : State :=
  let s := State.modCtx { atCore id with mem := [(0x10000, 3), (0x10002, 2), (0x20000, 0x0D), (0x20001, 0x0A)] } 0 fun c => { c with seq := 0 }
  if resident then s else { s with stooks := [], launches := [] }

theorem witness_SecurityMessages :
    (∀ b ∈ [true, false], let s := keyed b
      inTurn s (hdr 0 136) 136 false = true ∧ (s.contexts.map Prod.fst).Nodup ∧ s.slotInUse 6 = false ∧ s.deltas = [] ∧ (s.core 0).stores = []
        ∧ (s.ctx 0).valid = true ∧ (∀ l ∈ s.launches, l.ctx = 3 → 4 ≤ l.state) ∧ (∀ n ∈ [16, 24, 8, 40, 64], (hdr 255 n).length = n)
        ∧ (∀ n ∈ [1, 8, 16, 40, 24], s.powered = true ∧ (hdr 3 n).seq = (s.ctx (hdr 3 n).context).seq)
        ∧ (hdr 255 16).seq = (s.ctx 255).seq ∧ s.svc.banks.length = 2 ∧ s.svc.running < 2)
      ∧ ((keyed true).slotInUse 5 = true ∧ (keyed false).slotInUse 5 = false) := by decide +kernel

/-! ### Witnesses: power, storage, integrity, links, steps -/

/-- The device without power, held in reset or not, a bank pending or not. -/
def unpowered (held : Bool) (pending : Option Nat) : State :=
  { State.reset with powered := false, svc := { Service.reset with heldReset := held, pendingBank := pending, fusedSvn := 1, banks := [some [], some []] } }

/-- A snapshot of a granule of NV of a launch of context 0, with a line's key and a poisoned one. -/
def aSnapshot : Snapshot :=
  { granule := 2 ^ 25, old := [(2 ^ 41, 7)], ctx := 0, launch := 0, la := true, seq := 4, durable := true, used := true, keys := [(2 ^ 35, [1])],
    poison := [2 ^ 35 + 1], frame := none }

theorem witness_PowerStates_up :
    (∀ n ∈ [none, some 1], ∀ h ∈ [false, true], let s := unpowered h n; s.powered = false ∧ s.svc.pendingBank.getD s.svc.running = n.getD 0)
      ∧ (∀ c ∈ [[], [(0, { seq := 4, launch := 0, valid := true })]],
          let s : State := { unpowered false none with snapshots := [aSnapshot], completions := c }
          s.powered = false ∧ (assoc? s.completions 0).any (fun x => x.valid && decide (4 ≤ x.seq)) = !c.isEmpty)
      ∧ (aSnapshot.old.all fun c => c.1 / 65536 == aSnapshot.granule) = true ∧ Bank.wf aSnapshot.old = true := by decide +kernel

/-- A bank passes whose image the device's signature check, which is uninterpreted, accepts and whose digest is its body's. -/
theorem witness_PowerStates_passes (b : List Byte) (h : fwSigned b = true) (hd : fwDigest b = Config.shake256 (fwBody b) 64) (n : Nat)
    (v : Service) (hv : v.bank n = b) (hs : v.fusedSvn ≤ fwSvn b) : v.bankFault (v.bank n) = none := by
  rw [hv, Service.bankFault, if_neg (by rw [h]; decide), if_neg (by rw [hd]; simp), if_neg (by omega)]

/-- No bank of that device passes: its SVN is below the fused one. -/
theorem witness_PowerStates_held (held : Bool) (p : Option Nat) (n : Nat) (h : n < 2) : (unpowered held p).svc.bankFault ((unpowered held p).svc.bank n) ≠ none := by
  have hb : (unpowered held p).svc.bank n = [] := by
    rcases n with _ | _ | n
    · rfl
    · rfl
    · omega
  have hs : fwSvn ([] : List Byte) < (unpowered held p).svc.fusedSvn := by
    have e : (unpowered held p).svc.fusedSvn = 1 := rfl
    rw [e]; decide +kernel
  rw [hb, Service.bankFault]
  by_cases h1 : (!fwSigned []) = true
  · rw [if_pos h1]; exact Option.some_ne_none _
  · rw [if_neg h1]
    by_cases h2 : (fwDigest [] != Config.shake256 (fwBody []) 64) = true
    · rw [if_pos h2]; exact Option.some_ne_none _
    · rw [if_neg h2, if_pos hs]; exact Option.some_ne_none _

/-- A store of the running launch that waits at the core for its granule, in a granule of DRAM or a launch-atomic one. -/
def stores (pa flags : Nat) (la : Bool) (pool : List Nat) : State :=
  let e : Elem := { elemAt 0x400 4 0x05 with locs := (List.range 4).map fun j => { pa := pa + j, peer := none, la := la, key := 0 } }
  let r : Req := { (default : Req) with id := 1, stook := 1, op := .store, elems := [e] }
  let s := atCore fun c => { c with stores := [r] }
  let fl (l : Launch) : Launch := { l with desc := { l.desc with flags := flags } }
  let v : Service := { s.svc with settings := { s.svc.settings with snapPool := pool } }
  { s with launches := s.launches.map fl, svc := v }

/-- Windows of each demand; a byte that has drained nowhere and was volatile, and one in its buffer. -/
theorem witness_PowerStates :
    (let at' (mhz n : Nat) : State := { State.reset with svc := { Service.reset with clockMHz := mhz, powerMHz := mhz, coolWindows := n, mildWindows := n } }
     ∀ n ∈ [98, 99], (at' 550 n).powered = true ∧ (at' 550 n).svc.heldReset = false ∧ (at' 550 n).svc.settings.cap * 1000 = 6000000)
      ∧ (let v : NvWrite := { unit := 1, core := 0, ctx := 0, launch := 0, who := [], after := 0 }
         let x : Staged := { pa := 2 ^ 41, media := [7], unit := 1, record := none }
         let y : Staged := { pa := 2 ^ 41 + 1, media := [8], unit := 2, record := none }
         let s : State := { atCore id with staging := [x, y], volatile := [v] }
         s.powered = true ∧ s.isVolatile x.unit = true ∧ s.isVolatile y.unit = false ∧ y.pa ≠ x.pa ∧ x.pa < y.pa
           ∧ (match exec (.powerLoss true) s with | .next t => t.mem == [(2 ^ 41, 7)] | _ => false) = true) := by decide +kernel

/-- Staged writes of two stacks and a completion record's; stores that wait for their granules; a launch with nothing left to do,
its record to be written, or written. -/
theorem witness_StorageEvents :
    (let r : Nat × Completion := (1, { seq := 0, launch := 0, valid := false })
     let s : State := { atCore id with staging := [{ pa := 2 ^ 41, media := [1, 2], unit := 1, record := none },
       { pa := 0, media := [], unit := 2, record := some r }, { pa := 2 ^ 41 + 2, media := [4], unit := 1, record := none }] }
     s.powered = true ∧ s.staging.find? (fun x => x.stack == 0 && !s.isVolatile x.unit) = s.staging[0]?
       ∧ s.staging.find? (fun x => x.stack == 1 && !s.isVolatile x.unit) = s.staging[1]? ∧ (∀ x ∈ s.staging, x.stack ≠ 3))
      ∧ (∀ s ∈ [stores 0x400 8 false [1], stores 0x400 8 false []], s.powered = true ∧ (s.launch? 0 0).isSome = true ∧ s.snapWanted 0 0 0 false = true
          ∧ s.snapWanted 0 0 9 false = false ∧ s.snapRoom 0 = decide (s.svc.settings.snapPool ≠ []))
      ∧ (stores (2 ^ 41) 8 false []).snapWanted 0 0 (2 ^ 25) false = true ∧ (stores (2 ^ 41) 2048 true []).snapWanted 0 0 (2 ^ 25) true = true
      ∧ ∀ b ∈ [false, true], ∀ late ∈ [false, true],
        let done (l : Launch) : Launch := { l with desc := { l.desc with flags := 2048 }, gone := 1, seqLa := some 3, recorded := b }
        let v : NvWrite := { unit := 1, core := 0, ctx := 0, launch := 0, who := [], after := 0 }
        let s : State := { atCore id with launches := (atCore id).launches.map done, stooks := [], volatile := if late then [v] else [] }
        s.powered = true ∧ s.deltas = [] ∧ s.launches.length = 1 ∧ s.stagingRoom 0 16 = true ∧ (s.volatile.any fun v => v.of 0 0) = late
          ∧ (s.launch? 0 0).any (fun l => l.desc.la && l.state == 3 && s.allDone l && l.avoid.isEmpty && l.recorded == b) = true := by decide +kernel

/-- Two twins of the running launch at a point of comparison, or, with every lane gone, at their end; the one's window as given. -/
def twins (w : Nat) (both gone : Bool) : State :=
  let fl (l : Launch) : Launch := { l with desc := { l.desc with flags := 16, fieldX := 2 } }
  let s := inLanes (atCore id) fun _ x => { x with inside := false, exited := gone }
  let k := { stookIn s with twin := some 2, atPoint := true }
  let v := { k with uid := 2, secondary := true, twin := some 1, window := BitVec.ofNat 64 w, atPoint := both }
  { s with launches := s.launches.map fl, stooks := [k, v] }

theorem witness_IntegrityAndLinks_twins :
    (∀ w ∈ [0, 1], ∀ gone ∈ [false, true], let s := twins w true gone
      let k := (s.stook? 1).getD default
      let v := (s.stook? 2).getD default
      s.powered = true ∧ (s.stook? 1).isSome = true ∧ (s.stook? 2).isSome = true ∧ k.secondary = false ∧ k.twin = some 2 ∧ v.twin = some 1
        ∧ s.comparing k = true ∧ s.comparing v = true ∧ k.atEnd = gone ∧ v.atEnd = gone ∧ k.full = v.full
        ∧ decide (k.window = v.window) = decide (w = 0) ∧ k.windowStores = v.windowStores
        ∧ (s.launch? k.ctx k.launch).any (fun l => l.running && l.ending.isNone && l.desc.contain == 2 && !l.noSnap && !l.recorded && l.attempts == 0
          && !l.peerWritten) = true)
      ∧ (let s := twins 0 false false
         s.comparing ((s.stook? 1).getD default) = true ∧ s.comparing ((s.stook? 2).getD default) = false) := by decide +kernel

/-- A sampled launch whose stook 0 has left a digest, its second run a verdict. -/
def sampled (flags : Nat) (again : Bool) (v : SampleVerdict) : State :=
  let fl (l : Launch) : Launch :=
    { l with desc := { l.desc with flags := flags, fieldX := 2 }, digests := [(0, 5, 1, 0)], verdicts := [(0, v, 24)], rerun := if again then [0] else [] }
  let s := atCore id
  { s with launches := s.launches.map fl, stooks := [] }

/-- Verdicts that agree, are abandoned and differ, of launches by class; a second run that stands and holds a store; one at a word that
it must not execute. -/
theorem witness_IntegrityAndLinks_samples :
    (∀ fl ∈ [0x20, 0x28], ∀ again ∈ [false, true], ∀ v ∈ [SampleVerdict.ran 5 1, .ran 5 2, .abandoned], let s := sampled fl again v
      s.powered = true ∧ (s.launch? 0 0).any (fun l => l.digests.find? (fun x => x.1 == 0) == some (0, 5, 1, 0) && l.running && l.ending.isNone
        && l.verdicts.find? (fun x => x.1 == 0) == some (0, v, 24) && !l.recorded
        && l.desc.sampled 0 && !l.checked.contains 0 && l.rerun.contains 0 == again && l.desc.contain == (if fl = 0x20 then 0 else 1) && !l.noSnap
        && l.attempts == 0 && !l.peerWritten) = true ∧ s.stooks = [])
      ∧ (let fl (l : Launch) : Launch := { l with desc := { l.desc with flags := 0x20, fieldX := 2 }, digests := [(0, 5, 1, 0)] }
         let i := Instr.tbegin (mw 0x74 0x74 0 (meWord 0 0 7 0 0x7FFF))
         let s := inStook (mapped (before i)) fun k => { k with rerun := some 0, secondary := true, heldStores := [default] }
         let s : State := { s with launches := s.launches.map fl }
         let k := stookIn s
         s.powered = true ∧ k.rerun.isSome = true ∧ k.heldStores ≠ [] ∧ k.stookId = 0 ∧ k.ctx = 0 ∧ k.launch = 0
           ∧ (s.launch? 0 0).any (fun l => l.digests.find? (fun x => x.1 == 0) == some (0, 5, 1, 0) && l.ending.isNone && l.desc.sampled 0
             && l.verdicts.isEmpty && !l.checked.contains 0) = true
           ∧ stands s path = true ∧ i.isWord = true ∧ issueCheck i k (k.sheaf 0) path.lanes = none ∧ ownOk i k (k.sheaf 0) = true
           ∧ (∀ n < 32, ((k.sheaf 0).lane n).tx.depth = 0) ∧ endsRerun i = true) := by decide +kernel

theorem witness_IntegrityAndLinks :
    (inDram 0 = true ∧ inNv (2 ^ 41) = true)
      ∧ (let v (ms : Nat) : Service := { Service.reset with settings := { Settings.reset with telemMs := ms } }
         ∀ ms ∈ [0, 10], let s : State := { State.reset with svc := v ms }; s.powered = true ∧ s.svc.heldReset = false ∧ s.svc.settings.telemMs = ms)
      ∧ ∀ up ∈ [false, true], let l : Link := { num := 1, up := up, retrains := 0, retransmits := 0, failures := 1 }
        let s : State := { State.reset with svc := { Service.reset with links := [l] } }
        s.powered = true ∧ s.svc.links.find? (fun x => x.num == 1) = some l ∧ l.up = up ∧ l.failures < 2 := by decide +kernel

/-- The word in focus decodes; so does one withFetchWord places; an event at the head of the agenda, with and without power. -/
theorem witness_StepRunsInstruction :
    (let i := Instr.iadd (aw1 4 1 2)
     let s := before i
     let k := stookIn s
     s.focus = some path ∧ s.stook? 1 = some k ∧ (lanesOf path.lanes).head? = some 0
       ∧ (decode ((s.launchOf k).code.drop ((k.sheaf 0).lane 0).pc.toNat)).toOption = some (i, List.replicate 14 0))
      ∧ decodeTableWord 32 0x18810105 = some (.shlImm (iw 1 1 5))
      ∧ ∀ p ∈ [true, false], let s : State := { State.reset with agenda := [.powerUp true], powered := p }
        s.focus = none ∧ agendaItem (.powerUp true) = true ∧ s.powered = p ∧ s.turn = [] ∧ s.settle.differs s = false := by decide +kernel

theorem witness_EncodingAgrees :
    (let i := Instr.ld (mw 2 1 1 0x00400000)
     WellFormed i = true ∧ i.isWord = true ∧ (decode [0x64020105, 0x00400000, 7]).toOption = some (i, [7])) := by decide +kernel

theorem witness_MemoryKeepsItsForm :
    let s : State := { atCore id with agenda := [.powerLoss true], focus := none }
    s.mem.wf = true ∧ s.mem ≠ [] ∧ (match step s with | .next t => t.mem == [] | _ => false) = true := by decide +kernel

/-! ### One step on values the spec works out -/

/-- The state after a word, or the same state where it does not complete. -/
def after (i : Instr) (s : State) : State := match exec i s with | .next t => t | _ => s

/-- A register's values in lanes 0, 1, …; it reads zero in the lanes that follow. -/
def given (s : State) (r : Nat) (vs : List Nat) : State :=
  inSheaf s fun h => vs.zipIdx.foldl (fun h x => h.wv r x.2 (BitVec.ofNat 32 x.1)) h

/-- A register after a word, in lanes 0 to `n - 1`. -/
def reads (s : State) (r n : Nat) : List Nat := (List.range n).map fun l => ((s.here path).rv r l).toNat

/-- 09 R209: the high half of −1 × 2 is −1 for I32 and of (2^32 − 1) × 2 is 1 for U32; the absolute value of −2^31 is −2^31. -/
theorem test_imulh : (∀ x ∈ [(4, 0xFFFFFFFF), (5, 1)], let i := Instr.imulh (aw 1 2 3 x.1)
      reads (after i (given (given (before i) 2 [0xFFFFFFFF]) 3 [2])) 1 1 = [x.2])
    ∧ (let i := Instr.iabs (aw 1 2 0x74 4); reads (after i (given (before i) 2 [0x80000000, 0xFFFFFFFF, 5])) 1 3 = [0x80000000, 1, 5]) := by decide +kernel

/-- A shift by 32 or more delivers zeros, SAR copies of the sign (R212). -/
theorem test_shifts : ∀ x ∈ [(Instr.shl (aw 1 2 3 5), [0, 0xFFFFFFFE]), (.shr (aw 1 2 3 5), [0, 0x7FFFFFFF]), (.sar (aw 1 2 3 4), [0xFFFFFFFF, 0xFFFFFFFF])],
    reads (after x.1 (given (given (before x.1) 2 [0xFFFFFFFF, 0xFFFFFFFF]) 3 [40, 1])) 1 2 = x.2 := by decide +kernel

/-- 09: 3.5, −200, NaN, 2.5 and −0 to I8 under RNE, FX 0x11. -/
theorem test_fcvt : let i := Instr.fcvt { aw 6 2 0x74 0 with ext := some 0xE800E480 }
    let t := after i (given (before i) 2 [0x40600000, 0xC3480000, 0x7FC00000, 0x40200000, 0x80000000])
    reads t 6 5 = [4, 0xFFFFFF80, 0, 2, 0] ∧ (t.here path).fx = 0x11 := by decide +kernel

/-- 09: the lanes of those whose value is less than zero, in m3: lane 1 alone; the NaN raises INVALID. -/
theorem test_fset : let i := Instr.fset { aw 3 2 0x74 0 with ext := some 0xE812E280 }
    let t := after i (given (before i) 2 [0x40600000, 0xC3480000, 0x7FC00000, 0x40200000, 0x80000000])
    (t.here path).rm 3 = 2 ∧ (t.here path).fx = 0x10 := by decide +kernel

/-- 01: FMUL with N = 1 leaves its product in q0 and no register written; FFMA adds v5 to q0 × v3. -/
theorem test_worked_clause :
    (let i := Instr.fmul { d := 0x74, n := true, a := 1, b := 2, ext := none }
     let t := after i (given (given (before i) 1 [0x40000000]) 2 [0xC0200000])
     (t.laneOf path 0).latches = [some 0xC0A00000] ∧ (t.laneOf path 0).pc = 2)
    ∧ (let i := Instr.ffma { d := 4, n := false, a := 0x70, b := 3, ext := some 0x0A12E000 }
       let latched (_ : Nat) (x : Lane) : Lane := { x with latches := [some 0xC0A00000], pos := 1 }
       let t := after i (given (given (inLanes (before i) latched) 3 [0x40000000]) 5 [0x3F800000])
       reads t 4 1 = [0xC1100000] ∧ (t.here path).fx = 0) := by decide +kernel

/-- 09: MOVW of 1.0, MOVI of −1 to s3, IADD of s41 to s40. -/
theorem test_moves :
    (let i := Instr.movw (iw 5 0x74 0) 0x3F800000; reads (after i (before i)) 5 32 = List.replicate 32 0x3F800000)
    ∧ (let i := Instr.moviScalar (iw 3 0x74 0xFF); ((after i (before i)).here path).rs 3 = 0xFFFFFFFF)
    ∧ (let i := Instr.iadd { aw 0x28 0x28 0x29 0 with ext := some 0xE804F000 }
       ((after i (inSheaf (before i) fun h => (h.ws 40 7).ws 41 0xFFFFFFFE)).here path).rs 40 = 5) := by decide +kernel

/-- 08 R194: members 3, 9 and 20. SHIFT by 1 and by −1. -/
theorem test_shfl : ∀ x ∈ [(2, 1, [0, 103, 109]), (2, 0xFFFFFFFF, [109, 120, 0])],
    let i := Instr.shfl (xw 1 2 3 x.1)
    let t := after i (given (given (crossing i 0x00100208 0x00100208) 2 ((List.range 32).map fun l => 100 + l)) 3 (List.replicate 32 x.2.1))
    [3, 9, 20].map (fun l => ((t.here path).rv 1 l).toNat) = x.2.2 := by decide +kernel

/-- 08: VOTE.BALLOT on lanes 0 to 7 of LANEID AND 1 gives 0xAA to each. -/
theorem test_vote : let i := Instr.vote { aw 6 3 0x74 0 with ext := some 0xE800E880 }
    let s := focused (inSheaf (before i) fun h => h.wm 2 0xFF) 0xFF
    reads (after i (given s 3 ((List.range 32).map fun l => l % 2))) 6 9 = List.replicate 8 0xAA ++ [0] := by decide +kernel

/-- 07: 1.0 and the product 2^-78: RNE delivers 1.0, RUP 1 + 2^-23, both inexact, and the window decides. -/
theorem test_window : let ts := [FVal.fin false 1 0, .fin false 1 (-78)]
    fmtF32.sum 0 ts = (0x3F800000, 1) ∧ fmtF32.sum 2 ts = (0x3F800001, 1) ∧ windowPasses fmtF32 80 9 ts = true := by decide +kernel

/-- 03: an exact cell of −1.5, its words; with +∞ added word 7 and the result of XRD. -/
theorem test_exact_cell :
    let c : Cell512 := { value := -3 * 2 ^ 148, nan := false, pinf := false, ninf := false, ovf := false }
    let word (x n : Nat) : Nat := x / 2 ^ (64 * n) % 2 ^ 64
    (List.range 8).map (word (packCell c)) = [0, 0, 0xFFFFFFFFFFD00000, 0xFFFFFFFFFFFFFFFF, 0xFFFFFFFFFFFFFFFF, 0xFFFFFFFFFFFFFFFF, 0xFFFFFFFFFFFFFFFF,
        0x00FFFFFFFFFFFFFF]
      ∧ xrdResult 0 (packCell c) = (0xBFC00000, 0)
      ∧ (let p := packCell (c.add (xredValue 0 0x7F800000).1 false true false); word p 7 = 0x02FFFFFFFFFFFFFF ∧ xrdResult 0 p = (0x7F800000, 0)) := by decide +kernel

/-- 03: encodings of the scalar formats. -/
theorem test_formats : fmtF32.round 0 true 5 (-1) = (0xC0200000, 0) ∧ fmtF32.round 0 false 1 (-149) = (1, 0) ∧ fmtF16.round 0 false 65504 0 = (0x7BFF, 0)
    ∧ fDiv fmtF16 0 0x3C00 0x4200 = (0x3555, 1) ∧ fDiv fmtBF16 0 0x3F80 0x4040 = (0x3EAB, 1) := by decide +kernel

/-- 03: the worked record: index 200 lies at BASE + 528. -/
theorem test_record : let r := recOf 0x4000_0010_0000 96 64 256 0x11 (bounds := 2)
    recordRefusal r 1 = none ∧ recBitpos r 200 = 8 * 0x4000_0010_0210 ∧ recCount r = 6144 := by decide +kernel

/-- 11: a load of four elements at index 8 of a record of ten with BOUNDS zero: two are read, two are out of range. -/
theorem test_load : let i := Instr.ld { mw 0x0C 3 1 0x00220000 with x := true }
    let s := inStook (memBefore i) fun k => { k with records := [(1, recOf 0x100 10 1 40 0x12 (bounds := 1))] }
    let u := given (focused s 1) 3 [8]
    issues i u (pathOf 1) = true ∧ (match ldCheck true { mw 0x0C 3 1 0x00220000 with x := true } (stookIn u) (u.here path) u.wroteBefore with
      | .error _ => false
      | .ok v => (u.judge (stookIn u) (ldAccess { mw 0x0C 3 1 0x00220000 with x := true } (u.here path) v) 0).toOption.any fun es =>
          es.map (fun e => e.1.skip) == [false, false, true, true] && (es.take 2).map (fun e => e.1.va) == [0x120, 0x124]) = true := by decide +kernel

/-- 11: ATOM.ADD of 1 to a counter that holds 0xFFFFFFFF: the old value returns, the counter wraps. -/
theorem test_atom : let e : Elem := { elemAt 0x400 4 0x05 with known := [none, none, none, none] }
    let r : Req := { (default : Req) with id := 1, stook := 1, op := .atom 0, opcode := 0x0d0, af := 0x05, dest := 6, data := [1], elems := [e] }
    let s := atCore fun c => { c with reqs := [r] }
    let t := after (.homeRequest 0 0 .good) { s with mem := (List.range 4).foldl (fun m j => Bank.set m (0x400 + j) 0xFF) s.mem }
    (t.core 0).reqs.map (fun q => (q.performed, q.result)) = [(true, [0xFFFFFFFF])] ∧ (List.range 4).map (fun j => t.mem.byte (0x400 + j)) = [0, 0, 0, 0] := by
  decide +kernel

/-- 21: the walk of 0x310000010000 through tables at T2 and T3 ends at level 3 in the leaf of NV page 0x02000005. -/
theorem test_walk : let put (a x : Nat) (m : Memory) : Memory := (List.range 8).foldl (fun m j => Bank.set m (a + j) (BitVec.ofNat 8 (x / 256 ^ j))) m
    let m := put 0x10060 (0x20000 + 3) (put 0x24000 (0x30000 + 3) (put 0x30008 0x020000050000006D []))
    let m' := put 0x10060 (0x20000 + 3) (put 0x24000 (0x30000 + 3) (put 0x30008 0x02000005006D []))
    let s (m : Memory) : State := State.modCtx { State.reset with mem := m } 5 fun c => { c with valid := true, ptroot := 0x10000 }
    (s m').walk 5 0x310000010000 = .leaf 3 0x02000005006D ∧ leafPa 3 0x02000005006D 0x310000012000 = 0x20000052000
      ∧ (s m).walk 5 0x310000010000 = .fail .badPte 3 ∧ (s m').walk 5 0x310000020000 = .fail .xlateMiss 3 := by decide +kernel

/-- 23: CAP at 5,000 W: windows of 5,180, 5,027 and 4,873 W leave 575, 550 and 550 MHz. -/
theorem test_power : ∀ x ∈ [(600, 5180, 575), (575, 5027, 550), (550, 4873, 550)],
    (let v : Service := { Service.reset with clockMHz := x.1, powerMHz := x.1, settings := { Settings.reset with cap := 5000 } }
     ((after (.powerWindow (x.2.1 * 1000) 80000) { State.reset with svc := v }).svc.clockMHz) = x.2.2) := by decide +kernel

/-- 13 R290: two writes of a byte, both visible and not durable, are lost with the power: the byte reads as the media hold it. -/
theorem test_power_loss_volatile :
    let v (n : Nat) : NvWrite := { unit := n, core := 0, ctx := 0, launch := 0, who := [], after := 0 }
    let t (n : Nat) (b : Byte) : Staged := { pa := 2 ^ 41, media := [b], unit := n, record := none }
    (after (.powerLoss true) { State.reset with mem := [(2 ^ 41, 7)], staging := [t 1 3, t 2 5], volatile := [v 1, v 2] }).mem = [(2 ^ 41, 3)] := by
  decide +kernel

end Sys2Proof.Tests
end

/-! ### What writes no memory

One frame rule per operation of the state that never writes memory, in the order of the model. An operation's rule
follows from those of the operations it is made of. -/

namespace Sys2Proof.Machine

open Sys2Proof

@[simp] theorem State.ite_mem (c : Prop) [Decidable c] (s t : State) :
    (if c then s else t).mem = if c then s.mem else t.mem :=
  apply_ite ..

@[simp] theorem State.foldl_mem {α : Type} {f : State → α → State} (h : ∀ s x, (f s x).mem = s.mem) (l : List α)
    (s : State) : (l.foldl f s).mem = s.mem := by
  induction l generalizing s with
  | nil => rfl
  | cons x t ih => rw [List.foldl_cons, ih, h]

theorem State.foldl_modSheaf_mem (s : State) (u : Nat) (f : Nat → Sheaf → Sheaf) (l : List Nat) :
    (l.foldl (fun s n => s.modSheaf u n (f n)) s).mem = s.mem :=
  State.foldl_mem (fun (s : State) n => s.modSheaf_mem u n (f n)) l s

@[simp] theorem State.freeBit_mem (s : State) : s.freeBit.2.mem = s.mem := by rfl

@[simp] theorem State.report_mem (s : State) (f : FaultRec) : (s.report f).mem = s.mem := by rfl

@[simp] theorem State.endLaunch_mem (s : State) (c : Nat) (id : Word) (code : Nat) :
    (s.endLaunch c id code).mem = s.mem := by
  rfl

@[simp] theorem State.failLaunch_mem (s : State) (c : Nat) (id : Word) (cause : Cause) (code : Nat) :
    (s.failLaunch c id cause code).mem = s.mem := by
  unfold State.failLaunch
  split <;> rfl

@[simp] theorem State.beginIssue_mem (s : State) (u i tok : Nat) (m : LaneMask) :
    (s.beginIssue u i tok m).2.mem = s.mem := by
  unfold State.beginIssue
  split <;> rfl

@[simp] theorem State.abortLanes_mem (s : State) (u i : Nat) (m : LaneMask) (code : Nat) :
    (s.abortLanes u i m code).mem = s.mem := by
  simp [State.abortLanes]

@[simp] theorem State.stopLanes_mem (s : State) (p : Focus) (n : Nat) (c : Cause) (t : TrapInfo) :
    (s.stopLanes p n c t).mem = s.mem := by
  unfold State.stopLanes
  split <;> rfl

@[simp] theorem State.takeTrap_mem (s : State) (p : Focus) (n : Nat) (c : Cause) (t : TrapInfo) :
    (s.takeTrap p n c t).mem = s.mem := by
  simp [State.takeTrap]

@[simp] theorem State.joinFault_mem (s : State) (f : FaultRec) : (s.joinFault f).2.mem = s.mem := by
  unfold State.joinFault
  split <;> rfl

@[simp] theorem State.unspill_mem (s : State) (ctx n : Nat) : (s.unspill ctx n).mem = s.mem := by
  unfold State.unspill
  split <;> rfl

@[simp] theorem State.dropFreed_mem (s : State) (u i : Nat) : (s.dropFreed u i).mem = s.mem := by simp [State.dropFreed]

@[simp] theorem State.bindReg_mem (s : State) (u i r : Nat) (m : LaneMask) : (s.bindReg u i r m).mem = s.mem := by
  simp [State.bindReg]

@[simp] theorem State.touchRegs_mem (s : State) (u i : Nat) (m : LaneMask) (reads writes : List Nat) :
    (s.touchRegs u i m reads writes).mem = s.mem := by
  simp [State.touchRegs]

@[simp] theorem State.noteVerdict_mem (s : State) (k : Stook) (v : SampleVerdict) : (s.noteVerdict k v).mem = s.mem := by
  rfl

@[simp] theorem State.fillTlb_mem (s : State) (core ctx va level : Nat) (e : DWord) :
    (s.fillTlb core ctx va level e).mem = s.mem := by
  simp [State.fillTlb]

@[simp] theorem State.dropTlb_mem (s : State) (ctx : Nat) : (s.dropTlb ctx).mem = s.mem := by rfl

@[simp] theorem State.touchTlb_mem (s : State) (core ctx va : Nat) : (s.touchTlb core ctx va).mem = s.mem := by
  unfold State.touchTlb
  split <;> simp

@[simp] theorem State.bump_mem (s : State) (n : Nat) : (s.bump n).mem = s.mem := by rfl

@[simp] theorem State.bumpBy_mem (s : State) (n k : Nat) : (s.bumpBy n k).mem = s.mem := by rfl

@[simp] theorem State.endContext_mem (s : State) (ctx code : Nat) : (s.endContext ctx code).mem = s.mem := by
  simp [State.endContext]

@[simp] theorem State.containError_mem (s : State) (f : FaultRec) : (s.containError f).mem = s.mem := by
  unfold State.containError
  split <;> simp

@[simp] theorem State.sectorCount_mem (s : State) (core pa : Nat) (r : SectorRead) :
    (s.sectorCount core pa r).mem = s.mem := by
  unfold State.sectorCount
  repeat' split
  all_goals simp

@[simp] theorem State.retrainPeers_mem (s : State) (bs : List ByteLoc) : (s.retrainPeers bs).mem = s.mem := by rfl

@[simp] theorem State.readSectors_mem (s : State) (core : Nat) (bs : List ByteLoc) (r : SectorRead) :
    (s.readSectors core bs r).2.mem = s.mem := by
  simp [State.readSectors]

theorem State.readSectors_eq_mem {s t : State} {core : Nat} {bs : List ByteLoc} {r : SectorRead} {c : Option Cause}
    (h : s.readSectors core bs r = (c, t)) : t.mem = s.mem := by
  rw [← State.readSectors_mem s core bs r, h]

@[simp] theorem State.takeFault_mem (s : State) (p : Focus) (n : Nat) (c : Cause) (t : TrapInfo) :
    (s.takeFault p n c t).mem = s.mem := by
  simp [State.takeFault]

@[simp] theorem State.refetch_mem (s : State) (ctx va : Nat) : (s.refetch ctx va).mem = s.mem := by rfl

@[simp] theorem fetchHere_mem (p : PathRef) (s : State) : (fetchHere p s).mem = s.mem := by
  unfold fetchHere
  dsimp only
  repeat' split
  all_goals simp

@[simp] theorem fetchPath_mem (p : PathRef) (s : State) : (fetchPath p s).mem = s.mem := by
  unfold fetchPath
  dsimp only
  repeat' split
  all_goals simp

@[simp] theorem State.failCopies_mem (s : State) (u i n : Nat) (fs : List (Nat × Copy)) :
    (s.failCopies u i n fs).mem = s.mem := by
  refine State.foldl_mem (fun s q => ?_) _ _
  dsimp only
  split <;> simp

@[simp] theorem State.tellAll_mem (s : State) (r : LaneRef) (m : LaneMask) : (s.tellAll r m).mem = s.mem := by
  simp [State.tellAll]

@[simp] theorem State.removeStook_mem (s : State) (k : Stook) : (s.removeStook k).mem = s.mem := by simp [State.removeStook]

@[simp] theorem State.retireStook_mem (s : State) (u : Nat) : (s.retireStook u).mem = s.mem := by
  unfold State.retireStook
  dsimp only
  repeat' split
  all_goals simp

@[simp] theorem completeExit_mem (r : LaneRef) (s : State) : (completeExit r s).mem = s.mem := by
  unfold completeExit
  repeat' split
  all_goals simp

@[simp] theorem State.useSnaps_mem (s : State) (ctx : Nat) (launch : Word) (bs : List ByteLoc) :
    (s.useSnaps ctx launch bs).mem = s.mem := by
  simp [State.useSnaps]

@[simp] theorem State.takeSnap_mem (s : State) (ctx : Nat) (launch : Word) (g : Nat) (la : Bool) :
    (s.takeSnap ctx launch g la).mem = s.mem := by
  simp [State.takeSnap]

@[simp] theorem State.claimSnaps_mem (s : State) (ctx : Nat) (launch : Word) (bs : List ByteLoc) :
    (s.claimSnaps ctx launch bs).mem = s.mem := by
  simp [State.claimSnaps]

@[simp] theorem State.ensureSnaps_mem (s : State) (ctx : Nat) (launch : Word) (bs : List ByteLoc) :
    (s.ensureSnaps ctx launch bs).mem = s.mem := by
  refine State.foldl_mem (fun s b => ?_) _ _
  split <;> simp

@[simp] theorem State.fireMonitors_mem (s : State) (lines : List Nat) : (s.fireMonitors lines).mem = s.mem := by
  simp [State.fireMonitors]

@[simp] theorem State.peerError_mem (s : State) (core ctx : Nat) (launch : Word) (va : Nat) :
    (s.peerError core ctx launch va).mem = s.mem := by
  simp [State.peerError]

@[simp] theorem State.dropCopies_mem (s : State) (core : Nat) (pas : List Nat) : (s.dropCopies core pas).mem = s.mem := by
  rfl

@[simp] theorem State.touchGranary_mem (s : State) (pa reuse : Nat) : (s.touchGranary pa reuse).mem = s.mem := by
  simp [State.touchGranary]

@[simp] theorem State.fillLine_mem (s : State) (core pa reuse : Nat) (l1 : Bool) :
    (s.fillLine core pa reuse l1).mem = s.mem := by
  simp [State.fillLine]

@[simp] theorem State.addReplica_mem (s : State) (core ctx : Nat) (launch : Word) (pa : Nat) :
    (s.addReplica core ctx launch pa).mem = s.mem := by
  simp [State.addReplica]

@[simp] theorem State.discardFor_mem (s : State) (core scope : Nat) : (s.discardFor core scope).mem = s.mem := by
  simp [State.discardFor]

@[simp] theorem State.acquireAt_mem (s : State) (core u i : Nat) (m : LaneMask) (scope : Nat) :
    (s.acquireAt core u i m scope).mem = s.mem := by
  simp [State.acquireAt]

@[simp] theorem State.persist_mem (s : State) (v : NvWrite) : (s.persist v).mem = s.mem := by
  unfold State.persist
  split <;> rfl

@[simp] theorem State.fillFromL2_mem (s : State) (core pa reuse : Nat) : (s.fillFromL2 core pa reuse).mem = s.mem := by
  unfold State.fillFromL2
  split <;> simp

@[simp] theorem State.loadStep_mem (s : State) (k : Stook) (r : Req) (qs : List (Nat × Nat × Option Nat)) :
    (s.loadStep k r qs).1.mem = s.mem := by
  simp [State.loadStep]

@[simp] theorem State.afterPerform_mem (s : State) (core : Nat) (r : Req) : (s.afterPerform core r).mem = s.mem := by
  unfold State.afterPerform
  dsimp only
  repeat' split
  all_goals simp

@[simp] theorem State.setReq_mem (s : State) (core : Nat) (r : Req) : (s.setReq core r).mem = s.mem := by
  simp [State.setReq]

@[simp] theorem State.dropReq_mem (s : State) (core id : Nat) : (s.dropReq core id).mem = s.mem := by simp [State.dropReq]

@[simp] theorem State.dropClaims_mem (s : State) (r : Req) : (s.dropClaims r).mem = s.mem := by rfl

@[simp] theorem State.deliver_mem (s : State) (u i l id issue : Nat) (dest : OpCode7) (ws : List Word) (f : FlagSet) :
    (s.deliver u i l id issue dest ws f).mem = s.mem := by
  simp [State.deliver]

@[simp] theorem State.abortLane_mem (s : State) (r : LaneRef) (code : Nat) : (s.abortLane r code).mem = s.mem := by
  simp [State.abortLane]

@[simp] theorem State.modTx_mem (s : State) (r : LaneRef) (f : TxState → TxState) : (s.modTx r f).mem = s.mem := by rfl

@[simp] theorem State.abortTwins_mem (s : State) (r : LaneRef) (code : Nat) : (s.abortTwins r code).mem = s.mem := by
  unfold State.abortTwins
  dsimp only
  repeat' split
  all_goals simp

@[simp] theorem State.sumStore_mem (s : State) (r : Req) : (s.sumStore r).mem = s.mem := by
  unfold State.sumStore
  split <;> simp

@[simp] theorem State.askSide_mem (s : State) (k : Stook) (t : SideRef) (locs : List ByteLoc) :
    (s.askSide k t locs).2.mem = s.mem := by
  unfold State.askSide
  dsimp only
  repeat' split
  all_goals simp

@[simp] theorem State.askSides_mem (s : State) (k : Stook) (es : List (Elem × List ByteLoc)) :
    (s.askSides k es).2.mem = s.mem := by
  unfold State.askSides
  suffices H : ∀ acc : List Elem × State, acc.2.mem = s.mem → (es.foldl _ acc).2.mem = s.mem from H _ rfl
  induction es with
  | nil => exact fun _ h => h
  | cons e t ih =>
    refine fun acc h => ih _ ?_
    dsimp only
    split
    · split <;> simp [h]
    · exact h

@[simp] theorem State.enqueue_mem (s : State) (core : Nat) (r : Req) : (s.enqueue core r).mem = s.mem := by
  simp [State.enqueue]

@[simp] theorem State.trapLanes_mem (s : State) (p : Focus) (n : Nat) (kind : AccessKind)
    (ts : List (Nat × Cause × Nat × Nat)) : (s.trapLanes p n kind ts).mem = s.mem := by
  simp [State.trapLanes]

@[simp] theorem State.parkMisses_mem (s : State) (a : Access) (i : Instr) (k : Stook) (p : Focus) (tx : LaneMask)
    (ms : List (Nat × Nat × Nat × List Elem)) : (s.parkMisses a i k p tx ms).mem = s.mem := by
  simp [State.parkMisses]

@[simp] theorem State.addPark_mem (s : State) (core : Nat) (p : Park) : (s.addPark core p).mem = s.mem := by
  simp [State.addPark]

@[simp] theorem State.settleIssues_mem (s : State) (u i : Nat) (ls : List (Nat × Nat)) :
    (s.settleIssues u i ls).mem = s.mem := by
  rfl

@[simp] theorem parkGrant_mem (core k : Nat) (s : State) : (parkGrant core k s).mem = s.mem := by
  unfold parkGrant
  dsimp only
  repeat' split
  all_goals simp

@[simp] theorem State.setPark_mem (s : State) (core : Nat) (p : Park) (state : Nat) (xs : Bool) :
    (s.setPark core p state xs).mem = s.mem := by
  simp [State.setPark]

@[simp] theorem wuTake_mem (cluster : Nat) (s : State) : (wuTake cluster s).mem = s.mem := by
  unfold wuTake
  repeat' split
  all_goals simp

@[simp] theorem State.deliverPark_mem (s : State) (core : Nat) (p : Park) : (s.deliverPark core p).mem = s.mem := by
  simp [State.deliverPark]

@[simp] theorem wuDecide_mem (core k : Nat) (s : State) : (wuDecide core k s).mem = s.mem := by
  unfold wuDecide
  split <;> simp

@[simp] theorem xsTake_mem (die : Nat) (s : State) : (xsTake die s).mem = s.mem := by
  unfold xsTake
  dsimp only
  repeat' split
  all_goals simp

@[simp] theorem xsDecide_mem (core k : Nat) (s : State) : (xsDecide core k s).mem = s.mem := by
  unfold xsDecide
  split <;> simp

@[simp] theorem ffnAct_mem (w : AWord) (p : Focus) (s : State) : (ffnAct w p s).mem = s.mem := by simp [ffnAct]

@[simp] theorem State.trapHeld_mem (s : State) (u i : Nat) (m : LaneMask) (c : Cause) :
    (s.trapHeld u i m c).mem = s.mem := by
  simp [State.trapHeld]

@[simp] theorem State.runTile_mem (s : State) (u i : Nat) (live : LaneMask) (ins : Instr) (d : OpCode7)
    (op fmt rm tok : Nat) (es : List TileElem) : (s.runTile u i live ins d op fmt rm tok es).mem = s.mem := by
  unfold State.runTile
  rw [State.settleIssues_mem, State.foldl_mem]
  · simp
  · intro s e
    dsimp only
    split
    · rfl
    · exact State.addPark_mem ..

@[simp] theorem State.parkTile_mem (s : State) (k : Stook) (u i : Nat) (live : LaneMask) (va level : Nat) :
    (s.parkTile k u i live va level).mem = s.mem := by
  simp [State.parkTile]

theorem State.scaleOf_mem {s t : State} {k : Stook} {x : Nat × Rec × Nat} {l : Nat} {v : Option Int}
    (h : s.scaleOf k x l = .ok (v, t)) : t.mem = s.mem := by
  unfold State.scaleOf at h
  dsimp only at h
  repeat' split at h
  all_goals cases h; try simp

theorem State.scalesOf_mem {s t : State} {k : Stook} {x : Nat × Rec × Nat} {ls : List Nat} {v : Option (List Int)}
    (h : s.scalesOf k x ls = .ok (v, t)) : t.mem = s.mem := by
  induction ls generalizing s v with
  | nil => cases h; rfl
  | cons l ls ih =>
    unfold State.scalesOf at h
    split at h
    · cases h
    · next h1 =>
      split at h
      · cases h
      · next h2 => cases h; rw [ih h2, State.scaleOf_mem h1]

theorem State.mmalFate_wait_mem {s t : State} {k : Stook} {g : Sheaf} {w : AWord} (h : s.mmalFate k g w = .wait t) :
    t.mem = s.mem := by
  unfold State.mmalFate at h
  dsimp only at h
  repeat' split at h
  all_goals cases h
  next ha _ _ _ _ _ hb => rw [State.scalesOf_mem hb, State.scalesOf_mem ha]

@[simp] theorem State.settleTile_mem (s : State) (u i : Nat) : (s.settleTile u i).mem = s.mem := by
  unfold State.settleTile
  dsimp only
  repeat' split
  all_goals try simp
  next h => exact State.mmalFate_wait_mem h

@[simp] theorem State.runRedl_mem (s : State) (u i : Nat) (w : AWord) (M : LaneMask) (issues : List (Nat × Nat)) :
    (s.runRedl u i w M issues).mem = s.mem := by
  simp [State.runRedl]

@[simp] theorem State.runCross_mem (s : State) (u i : Nat) (M here : LaneMask) (ins : Instr) :
    (s.runCross u i M here ins).mem = s.mem := by
  unfold State.runCross
  split <;> simp

@[simp] theorem State.settleMask_mem (s : State) (u i m : Nat) : (s.settleMask u i m).mem = s.mem := by
  unfold State.settleMask
  dsimp only
  repeat' split
  all_goals simp

@[simp] theorem State.settleSheaf_mem (s : State) (u i : Nat) : (s.settleSheaf u i).mem = s.mem := by
  simp [State.settleSheaf]

@[simp] theorem crossAct_mem (i : Instr) (m tok : Nat) (p : Focus) (s : State) : (crossAct i m tok p s).mem = s.mem := by
  simp [crossAct]

@[simp] theorem State.evictSides_mem (s : State) (core : Nat) : (s.evictSides core).mem = s.mem := by
  simp [State.evictSides]

@[simp] theorem State.dropSides_mem (s : State) (k : Stook) (slot : Nat) : (s.dropSides k slot).mem = s.mem := by
  simp [State.dropSides]

@[simp] theorem State.setQueue_mem (s : State) (u i : Nat) (qs : List Req) : (s.setQueue u i qs).mem = s.mem := by
  simp [State.setQueue]

@[simp] theorem drainStore_mem (u i : Nat) (s : State) : (drainStore u i s).mem = s.mem := by
  unfold drainStore
  dsimp only
  repeat' split
  all_goals simp

@[simp] theorem loadResponse_mem (core k : Nat) (s : State) : (loadResponse core k s).mem = s.mem := by
  unfold loadResponse
  split <;> simp

@[simp] theorem bscFill_mem (core k : Nat) (s : State) : (bscFill core k s).mem = s.mem := by
  unfold bscFill
  split
  · rfl
  · dsimp only
    split
    · rfl
    · split <;> (next h => simp [State.readSectors_eq_mem h])

@[simp] theorem State.arrive_mem (s : State) (u n i : Nat) : (s.arrive u n i).mem = s.mem := by
  unfold State.arrive
  split <;> simp

@[simp] theorem State.completePhase_mem (s : State) (u n : Nat) : (s.completePhase u n).mem = s.mem := by
  unfold State.completePhase
  split <;> simp

@[simp] theorem State.passBarw_mem (s : State) (u n : Nat) : (s.passBarw u n).mem = s.mem := by rfl

@[simp] theorem State.settleBarrier_mem (s : State) (u n : Nat) : (s.settleBarrier u n).mem = s.mem := by
  simp [State.settleBarrier]

@[simp] theorem State.wakeLane_mem (s : State) (r : LaneRef) (reason : Nat) : (s.wakeLane r reason).mem = s.mem := by
  unfold State.wakeLane
  split <;> simp

@[simp] theorem State.settleMwait_mem (s : State) (u i : Nat) : (s.settleMwait u i).mem = s.mem := by
  refine State.foldl_mem (fun s l => ?_) _ _
  dsimp only
  split <;> simp

@[simp] theorem State.regroupFault_mem (s : State) (u i : Nat) : (s.regroupFault u i).mem = s.mem := by
  simp [State.regroupFault]

@[simp] theorem State.tryRegroup_mem (s : State) (u i l : Nat) : (s.tryRegroup u i l).mem = s.mem := by
  unfold State.tryRegroup
  split
  · rfl
  · split
    · rfl
    · simp [State.foldl_modSheaf_mem]

@[simp] theorem State.settleRegroup_mem (s : State) (u : Nat) : (s.settleRegroup u).mem = s.mem := by
  simp [State.settleRegroup]

@[simp] theorem State.takeEntry_mem (s : State) (core id : Nat) : (s.takeEntry core id).mem = s.mem := by
  simp [State.takeEntry]

@[simp] theorem State.accept_mem (s : State) (core : Nat) (x : Copy) : (s.accept core x).mem = s.mem := by
  simp [State.accept]

@[simp] theorem copyAccept_mem (core k : Nat) (s : State) : (copyAccept core k s).mem = s.mem := by
  unfold copyAccept
  dsimp only
  repeat' split
  all_goals simp

@[simp] theorem State.endEntry_mem (s : State) (core : Nat) (c : Copy) (cause : Option Cause) :
    (s.endEntry core c cause).mem = s.mem := by
  unfold State.endEntry
  repeat' split
  all_goals simp

@[simp] theorem State.setCopy_mem (s : State) (core : Nat) (c : Copy) : (s.setCopy core c).mem = s.mem := by
  simp [State.setCopy]

@[simp] theorem State.keepSide_mem (s : State) (k : Stook) (c : Copy) (r : SideRead) : (s.keepSide k c r).mem = s.mem := by
  simp [State.keepSide]

@[simp] theorem State.fillReads_mem (s : State) (core : Nat) (reads : List (ByteLoc × Nat)) :
    (s.fillReads core reads).mem = s.mem := by
  simp [State.fillReads]

@[simp] theorem State.tellCopies_mem (s : State) (r : LaneRef) (cs : List Copy) : (s.tellCopies r cs).mem = s.mem := by
  simp [State.tellCopies]

@[simp] theorem State.settleCwait_mem (s : State) (u i : Nat) : (s.settleCwait u i).mem = s.mem := by
  simp [State.settleCwait]

@[simp] theorem State.tryCbinit_mem (s : State) (u i group : Nat) (ins : Instr) (geometry : Word) :
    (s.tryCbinit u i group ins geometry).mem = s.mem := by
  unfold State.tryCbinit
  split <;> simp

@[simp] theorem State.tryCbacq_mem (s : State) (u i group : Nat) (ins : Instr) :
    (s.tryCbacq u i group ins).mem = s.mem := by
  unfold State.tryCbacq
  dsimp only
  repeat' split
  all_goals simp

@[simp] theorem State.settleBuffers_mem (s : State) (u i : Nat) : (s.settleBuffers u i).mem = s.mem := by
  simp [State.settleBuffers]

@[simp] theorem refillReg_mem (u i r : Nat) (s : State) : (refillReg u i r s).mem = s.mem := by simp [refillReg]

@[simp] theorem State.submit_mem (s : State) (ctx queue : Nat) (bs : List Byte) :
    (s.submit ctx queue bs).2.2.mem = s.mem := by
  unfold State.submit
  dsimp only
  repeat' split
  all_goals simp

@[simp] theorem State.beginLaunch_mem (s : State) (l : Launch) : (s.beginLaunch l).mem = s.mem := by
  unfold State.beginLaunch
  split <;> rfl

@[simp] theorem State.addStook_mem (s : State) (core l1 : Nat) (k : Stook) : (s.addStook core l1 k).mem = s.mem := by
  simp [State.addStook]

@[simp] theorem State.startRotation_mem (s : State) (l : Launch) (core : Nat) : (s.startRotation l core).mem = s.mem := by
  simp [State.startRotation]

@[simp] theorem State.placed_mem (s : State) (l : Launch) (n : Nat) : (s.placed l n).mem = s.mem := by rfl

@[simp] theorem State.reply_mem (s : State) (h : MsgHdr) (status detail : Word) (data : List Byte) :
    (s.reply h status detail data).mem = s.mem := by
  rfl

@[simp] theorem State.nextMessage_mem (s : State) (ctx : Nat) : (s.nextMessage ctx).mem = s.mem := by
  unfold State.nextMessage
  split <;> rfl

@[simp] theorem seqGap_mem (ctx : Nat) (s : State) : (seqGap ctx s).mem = s.mem := by
  unfold seqGap
  dsimp only
  repeat' split
  all_goals simp

@[simp] theorem State.writeSettings_mem (s : State) (h : MsgHdr) (b : MemBlock) (data : List Byte) :
    (s.writeSettings h b data).mem = s.mem := by
  unfold State.writeSettings
  split <;> simp

@[simp] theorem State.failed_mem (s : State) (h : MsgHdr) (done : Nat) (c : Cause) : (s.failed h done c).mem = s.mem := by
  rfl

@[simp] theorem State.endTransfer_mem (s : State) (x : Transfer) : (s.endTransfer x).mem = s.mem := by
  unfold State.endTransfer
  repeat' split
  all_goals simp

@[simp] theorem State.setContext_mem (s : State) (n : Nat) (r : BitVec 512) : (s.setContext n r).mem = s.mem := by
  simp [State.setContext]

@[simp] theorem State.countTelemetry_mem (s : State) : s.countTelemetry.mem = s.mem := by rfl

@[simp] theorem State.answerTelemetry_mem (s : State) (h : MsgHdr) : (s.answerTelemetry h).mem = s.mem := by rfl

@[simp] theorem State.modLink_mem (s : State) (n : Nat) (f : Link → Link) : (s.modLink n f).mem = s.mem := by rfl

@[simp] theorem State.askLaunch_mem (s : State) (core : Nat) (r : LaunchReq) : (s.askLaunch core r).mem = s.mem := by
  simp [State.askLaunch]

@[simp] theorem launchAct_mem (w : AWord) (p : Focus) (s : State) : (launchAct w p s).mem = s.mem := by
  unfold launchAct
  split <;> simp

@[simp] theorem State.answerLaunch_mem (s : State) (r : LaunchReq) : (s.answerLaunch r).2.mem = s.mem := by
  unfold State.answerLaunch
  dsimp only
  repeat' split
  all_goals simp

@[simp] theorem State.giveLaunch_mem (s : State) (core : Nat) (r : LaunchReq) (x : Word) :
    (s.giveLaunch core r x).mem = s.mem := by
  simp [State.giveLaunch]

@[simp] theorem launchAnswer_mem (core k : Nat) (s : State) : (launchAnswer core k s).mem = s.mem := by
  unfold launchAnswer
  dsimp only
  repeat' split
  all_goals simp

@[simp] theorem State.judgeClusters_mem (s : State) (clusters : List Nat) (ok : Bool) :
    (s.judgeClusters clusters ok).mem = s.mem := by
  simp [State.judgeClusters]

@[simp] theorem State.freeImages_mem (s : State) (l : Launch) : (s.freeImages l).mem = s.mem := by rfl

@[simp] theorem State.dropReplicas_mem (s : State) (ctx : Nat) (id : Word) : (s.dropReplicas ctx id).mem = s.mem := by rfl

@[simp] theorem State.closeLaunch_mem (s : State) (l : Launch) (code : Nat) : (s.closeLaunch l code).mem = s.mem := by
  simp [State.closeLaunch]

@[simp] theorem State.settlePending_mem (s : State) : s.settlePending.mem = s.mem := by simp [State.settlePending]

@[simp] theorem State.watch_mem (s : State) (n : Nat) : (s.watch n).mem = s.mem := by rfl

@[simp] theorem watchdogExpiry_mem (ctx : Nat) (launch : Word) (s : State) : (watchdogExpiry ctx launch s).mem = s.mem := by
  unfold watchdogExpiry
  split <;> simp

@[simp] theorem State.dropPage_mem (s : State) (ctx va : Nat) : (s.dropPage ctx va).mem = s.mem := by rfl

@[simp] theorem State.stopFetches_mem (s : State) (f : FaultRec) : (s.stopFetches f).mem = s.mem := by
  exact State.foldl_mem (fun s k => by simp) _ _

@[simp] theorem State.goOnParked_mem (s : State) (r : LaneRef) : (s.goOnParked r).mem = s.mem := by rfl

@[simp] theorem State.trapParked_mem (s : State) (r : LaneRef) (id : Nat) (c : Cause) (t : TrapInfo) :
    (s.trapParked r id c t).mem = s.mem := by
  simp [State.trapParked]

@[simp] theorem State.parkAgain_mem (s : State) (core : Nat) (k : Stook) (e : Replay) (va level : Nat) :
    (s.parkAgain core k e va level).mem = s.mem := by
  simp [State.parkAgain]

@[simp] theorem State.settleFault_mem (s : State) (f : FaultRec) (c : Cause) : (s.settleFault f c).mem = s.mem := by
  unfold State.settleFault
  split <;> rfl

@[simp] theorem State.unparkTiles_mem (s : State) (id : Word) : (s.unparkTiles id).mem = s.mem := by rfl

@[simp] theorem State.nomapTiles_mem (s : State) (f : FaultRec) : (s.nomapTiles f).mem = s.mem := by simp [State.nomapTiles]

@[simp] theorem State.resumeEvent_mem (s : State) (f : FaultRec) : (s.resumeEvent f).mem = s.mem := by rfl

@[simp] theorem State.abortLocked_mem (s : State) (k : Stook) : (s.abortLocked k).mem = s.mem := by simp [State.abortLocked]

@[simp] theorem State.dropRun_mem (s : State) (k : Stook) : (s.dropRun k).mem = s.mem := by simp [State.dropRun]

@[simp] theorem State.settleRerun_mem (s : State) (k : Stook) : (s.settleRerun k).mem = s.mem := by simp [State.settleRerun]

@[simp] theorem State.settleHeld_mem (s : State) : s.settleHeld.mem = s.mem := by rfl

@[simp] theorem State.askSave_mem (s : State) (p : Stook → Bool) : (s.askSave p).mem = s.mem := by rfl

@[simp] theorem quantumExpiry_mem (u : Nat) (s : State) : (quantumExpiry u s).mem = s.mem := by
  unfold quantumExpiry
  split <;> simp

@[simp] theorem State.chargeSpill_mem (s : State) (k : Stook) (n : Nat) : (s.chargeSpill k n).mem = s.mem := by
  simp [State.chargeSpill]

@[simp] theorem State.dropFailed_mem (s : State) : s.dropFailed.mem = s.mem := by simp [State.dropFailed]

@[simp] theorem State.leaveQuarantine_mem (s : State) (l : Launch) : (s.leaveQuarantine l).mem = s.mem := by
  unfold State.leaveQuarantine
  split <;> simp

@[simp] theorem State.settleQuarantine_mem (s : State) : s.settleQuarantine.mem = s.mem := by simp [State.settleQuarantine]

@[simp] theorem State.parkLanes_mem (s : State) (p : Focus) (c : Cause) : (s.parkLanes p c).mem = s.mem := by
  unfold State.parkLanes
  split <;> rfl

@[simp] theorem State.parkAll_mem (s : State) (u i : Nat) (m : LaneMask) (c : Cause) : (s.parkAll u i m c).mem = s.mem := by
  simp [State.parkAll]

@[simp] theorem State.settleDebug_mem (s : State) (u : Nat) : (s.settleDebug u).mem = s.mem := by
  unfold State.settleDebug
  split <;> simp

@[simp] theorem State.releaseSheaf_mem (s : State) (u i : Nat) (stepping : Bool) :
    (s.releaseSheaf u i stepping).mem = s.mem := by
  rfl

@[simp] theorem State.releaseNamed_mem (s : State) (k : Stook) (arg : Word) (stepping : Bool) :
    (s.releaseNamed k arg stepping).mem = s.mem := by
  simp [State.releaseNamed]

@[simp] theorem State.modSvc_mem (s : State) (f : Service → Service) : (s.modSvc f).mem = s.mem := by rfl

@[simp] theorem drainUnit_mem (stack : Nat) (s : State) : (drainUnit stack s).mem = s.mem := by
  unfold drainUnit
  split <;> rfl

@[simp] theorem takeWanted_mem (ctx : Nat) (launch : Word) (g : Nat) (la : Bool) (s : State) :
    (takeWanted ctx launch g la s).mem = s.mem := by
  simp [takeWanted]

@[simp] theorem State.twinsDiffer_mem (s : State) (k : Stook) : (s.twinsDiffer k).mem = s.mem := by simp [State.twinsDiffer]

@[simp] theorem watermarkCompare_mem (u t : Nat) (s : State) : (watermarkCompare u t s).mem = s.mem := by
  unfold watermarkCompare
  split <;> simp

@[simp] theorem twinTimeout_mem (u : Nat) (s : State) : (twinTimeout u s).mem = s.mem := by
  unfold twinTimeout
  repeat' split
  all_goals simp

@[simp] theorem sampleCheck_mem (ctx : Nat) (launch stookId : Word) (v : SampleVerdict) (s : State) :
    (sampleCheck ctx launch stookId v s).mem = s.mem := by
  unfold sampleCheck
  dsimp only
  repeat' split
  all_goals simp

@[simp] theorem State.joinAges_mem (s : State) (u i : Nat) : (s.joinAges u i).mem = s.mem := by
  unfold State.joinAges
  split <;> rfl

@[simp] theorem State.markHeld_mem (s : State) (u i : Nat) : (s.markHeld u i).mem = s.mem := by
  unfold State.markHeld
  split <;> rfl

@[simp] theorem State.askRefills_mem (s : State) (u i : Nat) : (s.askRefills u i).mem = s.mem := by
  unfold State.askRefills
  split <;> simp

@[simp] theorem State.passTime_mem (s : State) (core : Nat) : (s.passTime core).mem = s.mem := by simp [State.passTime]

@[simp] theorem State.takePaths_mem (s : State) (u i : Nat) (ready : List Path) : (s.takePaths u i ready).mem = s.mem := by
  rfl

@[simp] theorem beginLane_mem (locked : Bool) (imm : Int) (u i : Nat) (s : State) (l : Nat) :
    (beginLane locked imm u i s l).mem = s.mem := by
  simp [beginLane]

@[simp] theorem State.unlockLane_mem (s : State) (r : LaneRef) : (s.unlockLane r).mem = s.mem := by rfl

@[simp] theorem State.partDone_mem (s : State) (r : LaneRef) : (s.partDone r).mem = s.mem := by rfl

@[simp] theorem State.committed_mem (s : State) (r : LaneRef) : (s.committed r).mem = s.mem := by simp [State.committed]

@[simp] theorem State.promote_mem (s : State) (f : Focus) (k : Stook) (p : Path) (rest : List Focus) :
    (s.promote f k p rest).2.mem = s.mem := by
  unfold State.promote
  split <;> simp

@[simp] theorem State.settlePoints_mem (s : State) : s.settlePoints.mem = s.mem := by
  refine State.foldl_mem (fun s f => ?_) _ _
  split <;> simp

@[simp] theorem State.settleTurn_mem (s : State) : s.settleTurn.mem = s.mem := by simp [State.settleTurn]

@[simp] theorem State.tick_mem (s : State) (core : Nat) : (s.tick core).mem = s.mem := by simp [State.tick]

end Sys2Proof.Machine

/-! ### What keeps memory's canonical form

Memory is changed by `Memory.put`, `Bank.clear` and a filter alone, which the model's laws say keep the form. One rule
per operation that may write memory, in the order of the model. -/

namespace Sys2Proof.Machine

open Sys2Proof

theorem State.foldl_wf {α : Type} {f : State → α → State} (hf : ∀ s x, s.mem.wf = true → (f s x).mem.wf = true)
    (l : List α) {s : State} (h : s.mem.wf = true) : (l.foldl f s).mem.wf = true := by
  induction l generalizing s with
  | nil => exact h
  | cons x t ih => exact ih (hf s x h)

theorem Memory.wf_foldl_put {α : Type} (a : α → Nat) (v : α → Byte) (l : List α) {m : Memory} (h : m.wf = true) :
    Memory.wf (l.foldl (fun m x => m.put (a x) (v x)) m) = true := by
  induction l generalizing m with
  | nil => exact h
  | cons x t ih => exact ih (Memory.wf_put h _ _)

theorem State.wf_ite {c : Prop} [Decidable c] {a b : State} (ha : a.mem.wf = true) (hb : b.mem.wf = true) :
    (if c then a else b).mem.wf = true := by
  split <;> assumption

@[simp] theorem Memory.wf_ite {c : Prop} [Decidable c] {a b : Memory} (ha : a.wf = true) (hb : b.wf = true) :
    Memory.wf (if c then a else b) = true := by
  split <;> assumption

/-! #### The homes and the durable log -/

@[simp] theorem State.restoreSnap_wf (s : State) (x : Snapshot) (h : s.mem.wf = true) : (s.restoreSnap x).mem.wf = true :=
  Memory.wf_foldl_put Prod.fst Prod.snd x.old (Bank.wf_clear h ..)

@[simp] theorem State.homeWrite_wf (s : State) (a : Author) (ws : List (ByteLoc × Byte)) (h : s.mem.wf = true) :
    (s.homeWrite a ws).mem.wf = true := by
  simp only [State.homeWrite, State.fireMonitors_mem]
  exact Memory.wf_foldl_put (fun w : ByteLoc × Byte => w.1.pa) Prod.snd _ h

@[simp] theorem State.applyDelta_wf (s : State) (core : Nat) (d : Delta) (h : s.mem.wf = true) :
    (s.applyDelta core d).mem.wf = true := by
  unfold State.applyDelta
  dsimp only
  repeat' split
  all_goals simp [h]

@[simp] theorem State.combineIf_wf (s : State) (hit : Delta → Bool) (h : s.mem.wf = true) :
    (s.combineIf hit).mem.wf = true := by
  unfold State.combineIf
  dsimp only
  split
  · exact h
  · exact State.foldl_wf (fun s d h => s.applyDelta_wf d.1 d.2 h) _ h

@[simp] theorem State.combine_wf (s : State) (pas : List Nat) (h : s.mem.wf = true) : (s.combine pas).mem.wf = true := by
  simp [State.combine, h]

@[simp] theorem State.combineLocs_wf (s : State) (bs : List ByteLoc) (h : s.mem.wf = true) :
    (s.combineLocs bs).mem.wf = true := by
  simp [State.combineLocs, h]

@[simp] theorem State.storeAt_wf (s : State) (a : Author) (ws : List (ByteLoc × Byte)) (h : s.mem.wf = true) :
    (s.storeAt a ws).mem.wf = true := by
  simp [State.storeAt, h]

@[simp] theorem State.undoByte_wf (s : State) (t : Staged) (h : s.mem.wf = true) : (s.undoByte t).mem.wf = true := by
  unfold State.undoByte
  dsimp only
  split
  · exact h
  · exact h
  · exact Memory.wf_foldl_put Prod.fst Prod.snd _ h

@[simp] theorem State.undoUnits_wf (s : State) (hit : Nat → Bool) (h : s.mem.wf = true) : (s.undoUnits hit).mem.wf = true :=
  State.foldl_wf State.undoByte_wf _ h

@[simp] theorem State.releaseDurable_wf (s : State) (h : s.mem.wf = true) : s.releaseDurable.mem.wf = true := by
  simp [State.releaseDurable, h]

@[simp] theorem State.loseVolatile_wf (s : State) (mine : NvWrite → Bool) (h : s.mem.wf = true) :
    (s.loseVolatile mine).mem.wf = true := by
  simp [State.loseVolatile, h]

@[simp] theorem State.addDelta_wf (s : State) (core : Nat) (d : Delta) (h : s.mem.wf = true) :
    (s.addDelta core d).mem.wf = true := by
  simp [State.addDelta, h]

@[simp] theorem State.performElems_wf (s : State) (core : Nat) (r : Req) (es : List Elem) (ds : List Nat)
    (h : s.mem.wf = true) : (s.performElems core r es ds).1.mem.wf = true := by
  induction es generalizing s ds with
  | nil => exact h
  | cons e es ih =>
    unfold State.performElems
    extract_lets d put old
    have hput (ws : List (ByteLoc × Byte)) : (put s ws).mem.wf = true := by
      simp only [put]
      split <;> simp [h]
    have hadd : (s.addDelta core (r.delta e d)).mem.wf = true := by simp [h]
    clear_value put
    dsimp only
    apply ih
    cases r.op <;> simp [apply_ite Prod.fst, h, hput, hadd]

@[simp] theorem State.perform_wf (s : State) (core : Nat) (r : Req) (sector : SectorRead) (h : s.mem.wf = true) :
    (s.perform core r sector).mem.wf = true := by
  unfold State.perform
  extract_lets _ k qs reads lost
  have hr : (if reads.isEmpty then (lost, s) else s.readSectors core reads sector).2.mem = s.mem := by split <;> simp
  generalize (if reads.isEmpty then (lost, s) else s.readSectors core reads sector) = read at hr ⊢
  obtain ⟨cause, t⟩ := read
  have ht : t.mem.wf = true := by rw [show t.mem = s.mem from hr, h]
  cases cause with
  | some c => simpa using ht
  | none =>
    dsimp -zeta only
    extract_lets s1 s2 u v w
    have h1 : s1.mem.wf = true := State.combineIf_wf _ _ ht
    have h2 : s2.mem.wf = true := by simp only [s2]; split <;> simp [h1]
    have hu : u.mem.wf = true := by
      change (if r.op == .load then s2.loadStep k r qs else (s2, r)).1.mem.wf = true
      split <;> simp [h2]
    have hw : w.mem.wf = true := by simp [w, v, hu]
    simp [hu, hw]

@[simp] theorem State.passFence_wf (s : State) (core : Nat) (r : LaneRef) (h : s.mem.wf = true) :
    (s.passFence core r).mem.wf = true := by
  unfold State.passFence
  split <;> simp [h]

@[simp] theorem State.issueLane_wf (s : State) (a : Access) (k : Stook) (p : Focus) (issue l : Nat)
    (es : List (Elem × List ByteLoc)) (h : s.mem.wf = true) : (s.issueLane a k p issue l es).mem.wf = true := by
  simp [State.issueLane, h]

/-! #### Transactional accesses -/

/-- The state a step of a transactional access has come to is in its canonical form of memory, whether the access goes on,
waits or has aborted. -/
def TxRes.Formed {α : Type} : TxRes α → Prop
  | .ok s _ => s.mem.wf = true
  | .wait s => s.mem.wf = true
  | .aborted s => s.mem.wf = true

theorem State.takeLock_formed (s : State) (r : LaneRef) (pa : Nat) (h : s.mem.wf = true) : (s.takeLock r pa).Formed := by
  unfold State.takeLock
  dsimp only
  repeat' split
  all_goals simp [TxRes.Formed, h]

/-- The lock that a locked transaction takes with a word. -/
theorem State.lockWord_formed (s : State) (r : LaneRef) (pa : Nat) (locked : Bool) (h : s.mem.wf = true) :
    (if locked then s.takeLock r pa else .ok s ()).Formed := by
  split
  · exact s.takeLock_formed r pa h
  · exact h

theorem State.txReadRest_formed (s : State) (r : LaneRef) (va pa key reuse : Nat) (x : TxState) (view : DWord → DWord)
    (h : s.mem.wf = true) : (State.txReadWord.rest r va pa key reuse s x view).Formed := by
  unfold State.txReadWord.rest
  split
  · exact h
  · split
    · exact h
    split
    · exact h
    split
    · simpa [TxRes.Formed] using h
    have hl := s.lockWord_formed r pa x.locked h
    generalize (if x.locked then s.takeLock r pa else TxRes.ok s ()) = y at hl ⊢
    cases y with
    | wait t => exact hl
    | aborted t => exact hl
    | ok t _ =>
      have ht : t.mem.wf = true := hl
      dsimp only
      split
      · next hr => simp [TxRes.Formed, State.readSectors_eq_mem hr, ht]
      · next hr => simp [TxRes.Formed, State.readSectors_eq_mem hr, ht]

theorem State.txReadWord_formed (s : State) (r : LaneRef) (va pa key reuse : Nat) (h : s.mem.wf = true) :
    (s.txReadWord r va pa key reuse).Formed := by
  unfold State.txReadWord
  extract_lets x we view
  clear_value view we
  cases we with
  | some e =>
    dsimp only
    split
    · exact h
    · exact s.txReadRest_formed r va pa key reuse x view h
  | none => exact s.txReadRest_formed r va pa key reuse x view h

theorem State.txWriteWord_formed (s : State) (r : LaneRef) (va pa : Nat) (la : Bool) (key reuse : Nat)
    (bytes : List (Nat × Byte)) (h : s.mem.wf = true) : (s.txWriteWord r va pa la key reuse bytes).Formed := by
  unfold State.txWriteWord
  extract_lets x merge stack
  split
  · simpa [TxRes.Formed] using h
  split
  · simpa [TxRes.Formed] using h
  split
  · simpa [TxRes.Formed] using h
  have hl := s.lockWord_formed r pa x.locked h
  generalize (if x.locked then s.takeLock r pa else TxRes.ok s ()) = y at hl ⊢
  cases y with
  | wait t => exact hl
  | aborted t => exact hl
  | ok t _ =>
    have ht : t.mem.wf = true := hl
    dsimp only
    split <;> simp [TxRes.Formed, ht]

theorem State.txRead_formed (s : State) (r : LaneRef) (reuse : Nat) (ws : List (Nat × ByteLoc × List (Nat × Nat)))
    (h : s.mem.wf = true) : (s.txRead r reuse ws).Formed := by
  induction ws generalizing s with
  | nil => exact h
  | cons w ws ih =>
    obtain ⟨va, l, js⟩ := w
    have hw := s.txReadWord_formed r va l.pa l.key reuse h
    rw [State.txRead]
    cases hx : s.txReadWord r va l.pa l.key reuse with
    | wait t => rw [hx] at hw; exact hw
    | aborted t => rw [hx] at hw; exact hw
    | ok t v =>
      rw [hx] at hw
      have hr := ih t hw
      dsimp only
      cases hy : t.txRead r reuse ws <;> rw [hy] at hr <;> exact hr

theorem State.txWrite_formed (s : State) (r : LaneRef) (reuse v : Nat) (ws : List (Nat × ByteLoc × List (Nat × Nat)))
    (h : s.mem.wf = true) : (s.txWrite r reuse v ws).Formed := by
  induction ws generalizing s with
  | nil => exact h
  | cons w ws ih =>
    obtain ⟨va, l, js⟩ := w
    have hw := s.txWriteWord_formed r va l.pa l.la l.key reuse (js.map fun j => (j.2, BitVec.ofNat 8 (v >>> (8 * j.1)))) h
    rw [State.txWrite]
    cases hx : s.txWriteWord r va l.pa l.la l.key reuse (js.map fun j => (j.2, BitVec.ofNat 8 (v >>> (8 * j.1)))) with
    | wait t => rw [hx] at hw; exact hw
    | aborted t => rw [hx] at hw; exact hw
    | ok t _ => rw [hx] at hw; exact ih t hw

theorem State.txElem_formed (s : State) (r : LaneRef) (q : Req) (e : Elem) (d : Nat) (h : s.mem.wf = true) :
    (s.txElem r q e d).Formed := by
  unfold State.txElem
  split
  · exact h
  extract_lets ws withOld
  have put {α : Type} (t : State) (n : Nat) (v : α) (ht : t.mem.wf = true) :
      (match t.txWrite r q.reuse n ws with
      | .wait s => TxRes.wait s
      | .aborted s => .aborted s
      | .ok s _ => .ok s v).Formed := by
    have hw := t.txWrite_formed r q.reuse n ws ht
    cases hx : t.txWrite r q.reuse n ws <;> rw [hx] at hw <;> exact hw
  have old (f : Nat → Option Nat) (res : Nat → Nat × FlagSet) : (withOld f res).Formed := by
    have hw := s.txRead_formed r q.reuse ws h
    simp only [withOld]
    cases hx : s.txRead r q.reuse ws with
    | wait t => rw [hx] at hw; exact hw
    | aborted t => rw [hx] at hw; exact hw
    | ok t bs =>
      rw [hx] at hw
      dsimp only
      split
      · exact hw
      · exact put t _ _ hw
  clear_value withOld
  split
  · exact old ..
  · exact put s _ _ h
  all_goals exact old ..

theorem State.txElems_formed (s : State) (r : LaneRef) (q : Req) (es : List Elem) (ds : List Nat) (h : s.mem.wf = true) :
    (s.txElems r q es ds).Formed := by
  induction es generalizing s ds with
  | nil => exact h
  | cons e es ih =>
    have hw := s.txElem_formed r q e (ds.headD 0) h
    rw [State.txElems]
    cases hx : s.txElem r q e (ds.headD 0) with
    | wait t => rw [hx] at hw; exact hw
    | aborted t => rw [hx] at hw; exact hw
    | ok t v =>
      rw [hx] at hw
      have hr := ih t (ds.drop 1) hw
      dsimp only
      cases hy : t.txElems r q es (ds.drop 1) <;> rw [hy] at hr <;> exact hr

@[simp] theorem State.txGo_wf (s : State) (ref : LaneRef) (r : Req) (n : Nat) (h : s.mem.wf = true) :
    (s.txGo ref r n).mem.wf = true := by
  unfold State.txGo
  extract_lets hold one
  have held (t : State) (ht : t.mem.wf = true) : (hold t).mem.wf = true := ht
  split
  · simp [h]
  split
  · exact held s h
  have hw := s.txElems_formed ref r r.elems r.data h
  cases hx : s.txElems ref r r.elems r.data with
  | wait t => rw [hx] at hw; exact held t hw
  | aborted t => rw [hx] at hw; exact hw
  | ok t v =>
    rw [hx] at hw
    have ht : t.mem.wf = true := hw
    dsimp only
    split <;> simp [ht]

@[simp] theorem State.txLane_wf (s : State) (a : Access) (i : Instr) (k : Stook) (p : Focus) (issue l : Nat)
    (es : List (Elem × List ByteLoc)) (h : s.mem.wf = true) : (s.txLane a i k p issue l es).mem.wf = true := by
  simp [State.txLane, h]

@[simp] theorem memAccess_wf (i : Instr) (a : Access) (p : Focus) (s : State) (h : s.mem.wf = true) :
    (memAccess i a p s).mem.wf = true := by
  unfold memAccess
  split
  · exact h
  · dsimp -zeta only
    extract_lets s0 g tx fates traps misses unsup goes goMask s1 s2 s3 f s4 plain s5 gone s6
    have h5 : s5.mem = s.mem := by simp [s5, s4, s3, s2, s1, s0]
    have h6 : s6.mem.wf = true := by
      refine State.foldl_wf (fun t x ht => ?_) _ (h5 ▸ h)
      split
      · exact State.issueLane_wf _ _ _ _ _ _ _ ht
      split
      · exact ht
      · exact State.txLane_wf _ _ _ _ _ _ _ _ ht
    split
    · exact h6
    · exact h6

/-! #### Hints, homes' answers, copies and requests -/

@[simp] theorem State.cleanStores_wf (s : State) (core : Nat) (pas : List Nat) (h : s.mem.wf = true) :
    (s.cleanStores core pas).mem.wf = true :=
  State.foldl_wf (fun s q h => by simp [h]) _ h

@[simp] theorem State.cleanDeltas_wf (s : State) (pas : List Nat) (h : s.mem.wf = true) :
    (s.cleanDeltas pas).mem.wf = true := by
  simp [State.cleanDeltas, h]

@[simp] theorem homeRequest_wf (core k : Nat) (sector : SectorRead) (s : State) (h : s.mem.wf = true) :
    (homeRequest core k sector s).mem.wf = true := by
  unfold homeRequest
  dsimp only
  repeat' split
  all_goals simp [h]

@[simp] theorem copyAct_wf (i : Instr) (kind : Nat) (w : MWord) (p : Focus) (s : State) (h : s.mem.wf = true) :
    (copyAct i kind w p s).mem.wf = true := by
  unfold copyAct
  split
  · exact h
  dsimp only
  split
  · simp [h]
  · simp only [State.modSheaf_mem, State.takeEntry_mem, State.modCore_mem]
    exact State.foldl_wf (fun s l h => s.passFence_wf _ _ h) _ (by simp [h])

@[simp] theorem State.endCopy_wf (s : State) (core : Nat) (c : Copy) (cause : Option Cause) (h : s.mem.wf = true) :
    (s.endCopy core c cause).mem.wf = true := by
  unfold State.endCopy
  dsimp only
  repeat' split
  all_goals simp [h]

@[simp] theorem State.chunkDone_wf (s : State) (core : Nat) (c : Copy) (h : s.mem.wf = true) :
    (s.chunkDone core c).mem.wf = true := by
  unfold State.chunkDone
  split <;> simp [h]

@[simp] theorem State.landWord_wf (s : State) (core : Nat) (c : Copy) (h : s.mem.wf = true) :
    (s.landWord core c).mem.wf = true := by
  simp [State.landWord, h]

theorem State.beginChunk_wf {s t : State} {core : Nat} {k : Stook} {c : Copy} {sector : SectorRead} {m : Nat}
    (h : s.mem.wf = true) (ht : s.beginChunk core k c sector m = some t) : t.mem.wf = true := by
  unfold State.beginChunk at ht
  split at ht
  · rw [← Option.some.inj ht]
    simp [h]
  · dsimp only at ht
    rw [← Option.some.inj ht]
    simp [h]
  · extract_lets reads at ht
    split at ht
    · cases ht
    split at ht
    · next hr => cases ht; simp [State.readSectors_eq_mem hr, h]
    · next hr => cases ht; simp [State.readSectors_eq_mem hr, h]
    · next u hr =>
      have hu : u.mem.wf = true := by rw [State.readSectors_eq_mem hr, h]
      extract_lets s1 s2 s3 s4 s5 s6 at ht
      have h1 : s1.mem.wf = true := State.combineLocs_wf _ _ hu
      have h3 : s3.mem = s1.mem := by simp [s3, s2]
      have h4 : s4.mem = s3.mem := by
        simp only [s4]
        split
        · rfl
        · exact State.foldl_mem (fun s u => s.modStook_mem u _) _ _
      have h6 : s6.mem.wf = true := by simp [s6, s5, h4, h3, h1]
      rw [← Option.some.inj ht]
      simp [h6]

@[simp] theorem copyChunk_wf (core j n : Nat) (sector : SectorRead) (s : State) (h : s.mem.wf = true) :
    (copyChunk core j n sector s).mem.wf = true := by
  unfold copyChunk
  split
  · exact h
  split
  · exact h
  split
  · exact h
  split
  · simp [h]
  split
  · simp [h]
  extract_lets m
  cases h1 : s.beginChunk core _ _ sector (s.wholeChunk _ _ 16 m) with
  | some t => exact State.beginChunk_wf h h1
  | none =>
    cases h2 : s.beginChunk core _ _ sector (s.wholeChunk _ _ 16 _) with
    | some t => simpa [h2] using State.beginChunk_wf h h2
    | none => simpa [h2] using h

@[simp] theorem State.combineNv_wf (s : State) (r : LaneRef) (h : s.mem.wf = true) : (s.combineNv r).mem.wf = true := by
  simp [State.combineNv, h]

@[simp] theorem State.completePersist_wf (s : State) (r : LaneRef) (h : s.mem.wf = true) :
    (s.completePersist r).mem.wf = true := by
  simp [State.completePersist, h]

theorem State.request_wf (s : State) (m : MsgHdr) (i : Instr) (who len : Nat) {act : State → State}
    (hact : ∀ t, t.mem.wf = true → (act t).mem.wf = true) (h : s.mem.wf = true) :
    (s.request m i who len act).mem.wf = true := by
  unfold State.request
  dsimp only
  repeat' split
  all_goals simp [h, hact]

@[simp] theorem State.nodeWrite_wf (s : State) (bs : List ByteLoc) (data : List Byte) (h : s.mem.wf = true) :
    (s.nodeWrite bs data).mem.wf = true := by
  simp [State.nodeWrite, h]

@[simp] theorem State.moveWord_wf (s : State) (x : Transfer) (h : s.mem.wf = true) : (s.moveWord x).mem.wf = true := by
  unfold State.moveWord
  repeat' split
  all_goals simp [h]

@[simp] theorem State.beginTransfer_wf (s : State) (m : MsgHdr) (i : Instr) (ws : List (ByteLoc × Byte))
    (c : Option Cause) (h : s.mem.wf = true) : (s.beginTransfer m i ws c).mem.wf = true :=
  State.moveWord_wf _ _ h

theorem State.breakLocks_wf (s : State) (words : List Nat) (self : Option LaneRef) {go : State → State}
    (hgo : ∀ t, t.mem.wf = true → (go t).mem.wf = true) (h : s.mem.wf = true) :
    (s.breakLocks words self go).mem.wf = true := by
  unfold State.breakLocks
  dsimp only
  split
  · exact h
  · exact hgo _ (by simp [h])

@[simp] theorem lockedTimeout_wf (core k : Nat) (s : State) (h : s.mem.wf = true) : (lockedTimeout core k s).mem.wf = true := by
  unfold lockedTimeout
  extract_lets reqs
  split
  · split
    · exact h
    · exact s.breakLocks_wf _ _ (fun t ht => t.moveWord_wf _ ht) h
  split
  · split
    · exact h
    · exact s.breakLocks_wf _ _ (homeRequest_wf core k .good) h
  split
  · exact h
  · exact s.breakLocks_wf _ _ (copyChunk_wf core _ 1 .good) h

/-! #### The end of launches and faults -/

@[simp] theorem State.combineOf_wf (s : State) (ctx : Nat) (id : Word) (h : s.mem.wf = true) :
    (s.combineOf ctx id).mem.wf = true := by
  simp [State.combineOf, h]

@[simp] theorem State.retireWork_wf (s : State) (ctx : Nat) (id : Word) (h : s.mem.wf = true) :
    (s.retireWork ctx id).mem.wf = true := by
  simp [State.retireWork, h]

@[simp] theorem State.dropWork_wf (s : State) (ctx : Nat) (id : Word) (h : s.mem.wf = true) :
    (s.dropWork ctx id).mem.wf = true := by
  simp [State.dropWork, h]

@[simp] theorem State.undoSnaps_wf (s : State) (ctx : Nat) (id : Word) (all : Bool) (h : s.mem.wf = true) :
    (s.undoSnaps ctx id all).mem.wf = true :=
  State.foldl_wf State.restoreSnap_wf _ h

@[simp] theorem State.finishEnding_wf (s : State) (l : Launch) (code : Nat) (h : s.mem.wf = true) :
    (s.finishEnding l code).mem.wf = true := by
  have hw : ((if l.plain then s.combineOf l.ctx l.id else s).dropWork l.ctx l.id).mem.wf = true :=
    State.dropWork_wf _ _ _ (by simp [h])
  unfold State.finishEnding
  cases l.errorRec <;> simp [hw]

@[simp] theorem State.settleEnding_wf (s : State) (l : Launch) (h : s.mem.wf = true) :
    (s.settleEnding l).mem.wf = true := by
  unfold State.settleEnding
  dsimp only
  repeat' split
  all_goals simp [h]

@[simp] theorem State.settleDone_wf (s : State) (l : Launch) (h : s.mem.wf = true) : (s.settleDone l).mem.wf = true := by
  simp [State.settleDone, h]

@[simp] theorem laCompletion_wf (ctx : Nat) (launch : Word) (s : State) (h : s.mem.wf = true) :
    (laCompletion ctx launch s).mem.wf = true := by
  unfold laCompletion
  dsimp only
  repeat' split
  all_goals simp [h]

@[simp] theorem State.reissue_wf (s : State) (core : Nat) (e : Replay) (h : s.mem.wf = true) :
    (s.reissue core e).mem.wf = true := by
  unfold State.reissue
  dsimp only
  repeat' split
  all_goals simp [h]

@[simp] theorem State.reissueHeld_wf (s : State) (core : Nat) (e : Replay) (h : s.mem.wf = true) :
    (s.reissueHeld core e).mem.wf = true := by
  simp [State.reissueHeld, h]

@[simp] theorem State.retryFault_wf (s : State) (f : FaultRec) (h : s.mem.wf = true) : (s.retryFault f).mem.wf = true :=
  State.foldl_wf (fun s c h => State.foldl_wf (fun s e h => s.reissueHeld_wf c.num e h) _ (by simp [h])) _ (by simp [h])

@[simp] theorem State.nomapFault_wf (s : State) (f : FaultRec) (h : s.mem.wf = true) : (s.nomapFault f).mem.wf = true := by
  simp only [State.nomapFault, State.nomapTiles_mem]
  exact State.foldl_wf (fun s c h => State.foldl_wf (fun s y h => s.endCopy_wf c.num y _ h) _ (by simp [h])) _ (by simp [h])

@[simp] theorem faultService_wf (id : Word) (s : State) (h : s.mem.wf = true) : (faultService id s).mem.wf = true := by
  unfold faultService
  repeat' split
  all_goals simp [h]

/-! #### Images and placement -/

@[simp] theorem State.writeImage_wf (s : State) (ctx va : Nat) (bs : List Byte) (h : s.mem.wf = true) :
    (s.writeImage ctx va bs).mem.wf = true := by
  unfold State.writeImage
  dsimp only
  split
  · exact h
  · split
    · exact State.foldl_wf (fun s w h => s.storeAt_wf .node w h) _ h
    · exact s.storeAt_wf .node _ h

@[simp] theorem State.saveStook_wf (s : State) (k : Stook) (batch : Nat) (h : s.mem.wf = true) :
    (s.saveStook k batch).mem.wf = true := by
  simp [State.saveStook, h]

@[simp] theorem State.settleSave_wf (s : State) (u : Nat) (h : s.mem.wf = true) : (s.settleSave u).mem.wf = true := by
  unfold State.settleSave
  split
  · exact h
  refine State.wf_ite h ?_
  extract_lets t
  have ht : t.mem.wf = true := by simp [t, h]
  split
  · exact ht
  · exact State.wf_ite (State.foldl_wf (fun s x h => s.saveStook_wf x s.next h) _ ht) ht

theorem State.placeNew_mem {s t : State} {l : Launch} {id core : Nat} {ahead : List Launch}
    (ht : s.placeNew l id core ahead = some t) : t.mem = s.mem := by
  unfold State.placeNew at ht
  split at ht
  · cases ht
  split at ht
  · rw [← Option.some.inj ht]
    simp
  split at ht
  · cases ht
  · rw [← Option.some.inj ht]
    simp

theorem State.placeAll_mem {s t : State} {l : Launch} {ahead : List Launch} {n id : Nat}
    (ht : s.placeAll l ahead n id = some t) : t.mem = s.mem := by
  induction n generalizing s id with
  | zero => rw [← Option.some.inj ht]
  | succ n ih =>
    unfold State.placeAll at ht
    dsimp only at ht
    split at ht
    · cases ht
    · next hu =>
      obtain ⟨c, -, hc⟩ := List.exists_of_findSome?_eq_some hu
      rw [ih ht, State.placeNew_mem hc]

theorem State.placeRerun_mem {s t : State} {l : Launch} {core : Nat} (ht : s.placeRerun l core = some t) :
    t.mem = s.mem := by
  unfold State.placeRerun at ht
  split at ht
  · cases ht
  · obtain ⟨d, -, hd⟩ := Option.map_eq_some_iff.1 ht
    rw [← hd]
    simp

theorem State.placeOn_wf {s t : State} {core : Nat} {l : Launch}
    {restore : State → Launch → Nat → List Launch → Option State} {ahead : List Launch}
    (hr : ∀ {s t l c a}, s.mem.wf = true → restore s l c a = some t → t.mem.wf = true) (h : s.mem.wf = true)
    (ht : s.placeOn core l restore ahead = some t) : t.mem.wf = true := by
  unfold State.placeOn at ht
  split at ht
  · cases ht
  have hb : (s.beginLaunch l).mem.wf = true := by simp [h]
  dsimp only at ht
  generalize s.beginLaunch l = b at ht hb
  split at ht
  · cases ht
  split at ht
  · next hv =>
    split at hv
    · exact hr hb (hv.trans ht)
    · cases hv
  split at ht
  · split at ht
    · obtain ⟨u, hu, e⟩ := Option.map_eq_some_iff.1 ht
      rw [← e, State.placed_mem, State.placeAll_mem hu, hb]
    split at ht
    · split at ht
      · exact hr hb ht
      · obtain ⟨u, hu, e⟩ := Option.map_eq_some_iff.1 ht
        rw [← e, State.placed_mem, State.modLaunch_mem, State.placeNew_mem hu, hb]
    · obtain ⟨u, hu, e⟩ := Option.map_eq_some_iff.1 ht
      rw [← e, State.placed_mem, State.placeNew_mem hu, hb]
  split at ht
  · cases ht
  · exact hr hb ht

@[simp] theorem State.replaySaved_wf (s : State) (core : Nat) (v : Saved) (h : s.mem.wf = true) :
    (s.replaySaved core v).mem.wf = true := by
  unfold State.replaySaved
  extract_lets settled waiting again lost s0 s1 s2 s3 failed s4 alone s5 ids s6 s7
  have h2 : s2.mem.wf = true := State.foldl_wf (fun s e h => s.reissue_wf core e h) _ (by simp [s1, h])
  have h3 : s3.mem.wf = true := by simp [s3, h2]
  have h4 : s4.mem.wf = true := State.foldl_wf (fun s c h => s.endCopy_wf core c _ h) _ h3
  simp [s7, s6, s5, h4]

@[simp] theorem State.reinstate_wf (s : State) (l : Launch) (v : Saved) (core : Nat) (h : s.mem.wf = true) :
    (s.reinstate l v core).mem.wf = true := by
  simp [State.reinstate, h]

theorem State.restoreGo_wf {s t : State} {l : Launch} {core : Nat} {ahead : List Launch} {vs : List Saved}
    (h : s.mem.wf = true) (ht : State.restoreOn.go l core ahead s vs = some t) : t.mem.wf = true := by
  induction vs generalizing s with
  | nil => rw [← Option.some.inj ht]; exact h
  | cons v vs ih =>
    unfold State.restoreOn.go at ht
    split at ht
    · cases ht
    split at ht
    · exact ih (by simp [h]) ht
    · cases ht

theorem State.restoreOn_wf {s t : State} {l : Launch} {core : Nat} {ahead : List Launch} (h : s.mem.wf = true)
    (ht : s.restoreOn l core ahead = some t) : t.mem.wf = true := by
  unfold State.restoreOn at ht
  dsimp only at ht
  split at ht
  · cases ht
  · exact State.restoreGo_wf h ht

@[simp] theorem stookPlacement_wf (core : Nat) (s : State) (h : s.mem.wf = true) :
    (stookPlacement core s).mem.wf = true := by
  have hd : s.dropFailed.mem.wf = true := by simp [h]
  unfold stookPlacement
  dsimp only
  generalize s.dropFailed = d at hd
  split
  · exact hd
  split
  · next ht =>
    obtain ⟨l, -, hl⟩ := List.exists_of_findSome?_eq_some ht
    split at hl
    · cases hl
    · exact State.placeOn_wf State.restoreOn_wf hd hl
  · cases ht : (d.offerOrder d.launches).findSome? fun l => d.placeRerun l core with
    | none => exact hd
    | some t =>
      obtain ⟨l, -, hl⟩ := List.exists_of_findSome?_eq_some ht
      simp [State.placeRerun_mem hl, hd]

/-! #### Keys and power -/

@[simp] theorem State.writeBack_wf (s : State) (slot : Nat) (h : s.mem.wf = true) : (s.writeBack slot).mem.wf = true :=
  State.foldl_wf (fun s q h => by simp [h]) _ (by simp [h])

@[simp] theorem State.dropSlot_wf (s : State) (slot : Nat) (h : s.mem.wf = true) : (s.dropSlot slot).mem.wf = true := by
  simp [State.dropSlot, h]

@[simp] theorem State.failDrain_wf (s : State) (h : s.mem.wf = true) : s.failDrain.mem.wf = true :=
  Memory.wf_foldl_put id _ _ (s.undoUnits_wf _ h)

@[simp] theorem State.losePower_wf (s : State) (drained trip : Bool) (h : s.mem.wf = true) :
    (s.losePower drained trip).mem.wf = true := by
  have hu := s.undoUnits_wf s.isVolatile h
  exact Memory.wf_filter (by simp [hu]) _

@[simp] theorem State.recover_wf (s : State) (h : s.mem.wf = true) : s.recover.mem.wf = true :=
  State.foldl_wf State.restoreSnap_wf _ h

@[simp] theorem powerUp_wf (energyOk : Bool) (s : State) (h : s.mem.wf = true) : (powerUp energyOk s).mem.wf = true := by
  unfold powerUp
  split <;> simp [h]

/-! #### Rotation, commits and the settling step -/

theorem State.takeOn_wf {s t : State} {core n : Nat} (h : s.mem.wf = true) (ht : s.takeOn core n = some t) :
    t.mem.wf = true := by
  induction n generalizing s with
  | zero => rw [← Option.some.inj ht]; exact h
  | succ n ih =>
    unfold State.takeOn at ht
    split at ht
    · rw [← Option.some.inj ht]; exact h
    dsimp only at ht
    split at ht
    · split at ht
      · rw [← Option.some.inj ht]; exact h
      split at ht
      · cases ht
      split at ht
      · cases ht
      · next hr => exact ih (State.restoreOn_wf h hr) ht
    · split at ht
      · rw [← Option.some.inj ht]; exact h
      split at ht
      · cases ht
      split at ht
      · cases ht
      · next hp => exact ih (by simp [State.placeNew_mem hp, h]) ht

@[simp] theorem rotate_wf (core : Nat) (s : State) (h : s.mem.wf = true) : (rotate core s).mem.wf = true := by
  unfold rotate
  split
  · exact h
  split
  · exact h
  · next t ht =>
    have hw : t.mem.wf = true := State.takeOn_wf h ht
    dsimp only
    repeat' split
    all_goals simp [hw]

theorem State.lockAll_formed (s : State) (r : LaneRef) (pas : List Nat) (h : s.mem.wf = true) :
    (s.lockAll r pas).Formed := by
  induction pas generalizing s with
  | nil => exact h
  | cons pa rest ih =>
    rw [State.lockAll]
    split
    · split
      · exact ih s h
      · split
        · exact h
        · simpa [TxRes.Formed] using h
    · exact ih _ h

@[simp] theorem State.tryLane_wf (s : State) (r : LaneRef) (i : Instr) (group : Nat) (h : s.mem.wf = true) :
    (s.tryLane r i group).mem.wf = true := by
  unfold State.tryLane
  split
  · exact h
  extract_lets x val depth twin twinAt _ both abort ws a commit goes
  clear_value twinAt twin
  have hboth (u : State) (f : LaneRef → State → State) (hf : ∀ q v, v.mem.wf = true → (f q v).mem.wf = true) (hu : u.mem.wf = true) :
      (both u f).mem.wf = true := by
    simp only [both]
    cases twin with
    | some q => exact hf _ _ (hf _ _ hu)
    | none => exact hf _ _ hu
  clear_value both
  have habort {u : State} (hu : u.mem.wf = true) : (abort u).mem.wf = true := by
    exact hboth u _ (fun q v hv => by simpa using hv) hu
  have hcommit {u : State} (hu : u.mem.wf = true) : (commit u).mem.wf = true := by
    simp only [commit]
    split
    · exact hboth _ _ (fun q v hv => by simpa using hv) (by simp [hu])
    · exact hboth _ _ (fun q v hv => by simpa using hv) (by simp [hu])
  clear_value goes commit abort
  refine State.wf_ite (by simp [h]) (State.wf_ite (by simp [h]) (State.wf_ite (by simp [h]) (State.wf_ite h (State.wf_ite h
    (State.wf_ite h (State.wf_ite (by simp [h]) (State.wf_ite h (State.wf_ite (hcommit h) ?_))))))))
  have hl := s.lockAll_formed r (lockOrder (x.tx.reads ++ if val then [] else x.tx.writes)) h
  cases hx : s.lockAll r (lockOrder (x.tx.reads ++ if val then [] else x.tx.writes)) with
  | wait u => rw [hx] at hl; exact hl
  | aborted u =>
    rw [hx] at hl
    have hu : u.mem.wf = true := hl
    dsimp only
    split <;> simp [hu]
  | ok u _ =>
    rw [hx] at hl
    have hu : u.mem.wf = true := hl
    dsimp only
    split
    · exact habort (by simp [hu])
    · exact hcommit (by simp [hu])

theorem State.tryCommitGo_wf (u i : Nat) (ins : Instr) (group : Nat) (s : State) (ls : List Nat) (h : s.mem.wf = true) :
    (State.tryCommit.go u i ins group s ls).mem.wf = true := by
  induction ls generalizing s with
  | nil => exact h
  | cons l ls ih =>
    unfold State.tryCommit.go
    dsimp only
    split
    · simp [h]
    · exact ih _ (by simp [h])

@[simp] theorem State.tryCommit_wf (s : State) (u i : Nat) (ins : Instr) (group : Nat) (h : s.mem.wf = true) :
    (s.tryCommit u i ins group).mem.wf = true := by
  have hg := State.tryCommitGo_wf u i ins group s (lanesOf ((s.sheafAt u i).committers group (some false))) h
  unfold State.tryCommit
  dsimp only
  split
  · exact hg
  · split <;> simp [hg]

@[simp] theorem commitTimeout_wf (r : LaneRef) (s : State) (h : s.mem.wf = true) : (commitTimeout r s).mem.wf = true := by
  unfold commitTimeout
  split <;> simp [h]

@[simp] theorem State.settleTx_wf (s : State) (u i : Nat) (h : s.mem.wf = true) : (s.settleTx u i).mem.wf = true := by
  refine State.foldl_wf (fun s g h => ?_) _ (State.foldl_wf (fun s l h => ?_) _ h)
  · split <;> simp [h]
  · dsimp only
    split <;> simp [h]

@[simp] theorem State.settleStook_wf (s : State) (u : Nat) (h : s.mem.wf = true) : (s.settleStook u).mem.wf = true := by
  unfold State.settleStook
  split
  · exact h
  · refine State.settleSave_wf _ u ?_
    rw [State.settleRegroup_mem, State.foldl_mem (fun s n => s.settleBarrier_mem u n)]
    refine State.foldl_wf (fun s i h => State.settleTx_wf _ u i ?_) _ (by simp [h])
    simp [h]

@[simp] theorem State.settle_wf (s : State) (h : s.mem.wf = true) : s.settle.mem.wf = true := by
  unfold State.settle
  dsimp only
  rw [State.foldl_mem State.nextMessage_mem]
  simp only [State.settlePending_mem, State.settleHeld_mem]
  refine State.foldl_wf (fun s l h => ?_) _ (by simp; exact State.foldl_wf State.settleStook_wf _ h)
  repeat' split
  all_goals simp [h]

end Sys2Proof.Machine

/-! ### What an instruction answers

An event answers a next state wherever it happens. A word answers one wherever a path with a resident stook stands in
focus, and is a fault of the model elsewhere. -/

namespace Sys2Proof.Machine

open Sys2Proof

/-- The agenda takes an instruction of no words for an event: a word always has some. -/
theorem Instr.words_pos {i : Instr} (h : i.isWord = true) : 0 < i.words := by
  cases i <;> simp [Instr.isWord, Instr.op, Instr.words, encode] at h ⊢

/-- The outcome is a next state, whose memory is in its canonical form if that of `s` is. -/
def Answers (s : State) (o : Host.Outcome State Fault Refusal) : Prop :=
  ∃ t, o = .next t ∧ (s.mem.wf = true → t.mem.wf = true)

/-- The outcome is that of the word's issue, with an effect that keeps the form of memory. -/
def IsIssue (i : Instr) (s : State) (o : Host.Outcome State Fault Refusal) : Prop :=
  ∃ act : Focus → State → State, (∀ p t, t.mem.wf = true → (act p t).mem.wf = true) ∧ o = issueWord i s act

theorem Answers.next {s t : State} (h : s.mem.wf = true → t.mem.wf = true) : Answers s (.next t) := ⟨t, rfl, h⟩

theorem event_answers {s : State} {f : State → State} (hf : ∀ t, t.mem.wf = true → (f t).mem.wf = true) :
    Answers s (event s f) :=
  .next fun h => State.wf_ite (hf s h) h

theorem issueWord_isIssue {i : Instr} {s : State} {act : Focus → State → State}
    (h : ∀ p t, t.mem.wf = true → (act p t).mem.wf = true) : IsIssue i s (issueWord i s act) :=
  ⟨act, h, rfl⟩

theorem issueWord_answers {i : Instr} {s : State} {p : Focus} {k : Stook} {act : Focus → State → State}
    (hp : s.focus = some p) (hk : s.stook? p.stook = some k) (ha : ∀ p t, t.mem.wf = true → (act p t).mem.wf = true) :
    Answers s (issueWord i s act) := by
  unfold issueWord
  rw [hp]
  dsimp -zeta only
  rw [hk]
  dsimp -zeta only
  extract_lets h s0 tx spent s1 refused s2 goOn counted fp s3 s4
  split
  · exact .next fun hs => by simp [s0, hs]
  have h2 : s2.mem = s.mem := by simp [s2, s1, s0]
  have h4 : s4.mem = s.mem := by simp [s4, s3, h2]
  split
  · exact .next fun hs => by simp [h2, hs]
  split
  · exact .next fun hs => by simp [h2, hs]
  split
  · exact .next fun hs => by simp [h2, hs]
  · exact .next fun hs => ha _ _ (by simp [h4, hs])

theorem sheafWord_isIssue (i : Instr) (s : State) (eff : LaneMask → Sheaf → Sheaf) : IsIssue i s (sheafWord i s eff) :=
  issueWord_isIssue fun _ _ h => h

theorem maskWord_isIssue (i : Instr) (s : State) (f : LaneMask → Sheaf → Sheaf) : IsIssue i s (maskWord i s f) :=
  sheafWord_isIssue i s f

theorem scalarImmWord_isIssue (i : Instr) (w : IWord) (f : Word → Word) (s : State) : IsIssue i s (scalarImmWord i w f s) :=
  sheafWord_isIssue i s fun _ h => h.ws w.d.toNat (f (h.ssrc w.a))

theorem viaWord_isIssue {i : Instr} {s : State} {chk : Stook → Sheaf → List Nat → Except Cause Via}
    {act : Stook → Sheaf → Via → Focus → State → State}
    (ha : ∀ k g v p t, t.mem.wf = true → (act k g v p t).mem.wf = true) : IsIssue i s (viaWord i s chk act) := by
  unfold viaWord
  refine issueWord_isIssue fun p t h => ?_
  split
  · exact h
  dsimp only
  split
  · simp [h]
  · exact ha _ _ _ _ _ h

theorem hintWord_isIssue {i : Instr} {w : MWord} {s : State} {act : Stook → Nat → State → State}
    (ha : ∀ k pa t, t.mem.wf = true → (act k pa t).mem.wf = true) : IsIssue i s (hintWord i w act s) :=
  viaWord_isIssue fun k _ _ _ _ h => State.foldl_wf (fun t pa ht => ha k pa t ht) _ h

theorem spadWord_isIssue (i : Instr) (s : State) (acc : Sheaf → Access) : IsIssue i s (spadWord i s acc) :=
  issueWord_isIssue fun p t h => memAccess_wf i _ p t h

theorem atomWord_isIssue (i : Instr) (w : MWord) (swap : Bool) (acc : Sheaf → Option Via → Access) (s : State) :
    IsIssue i s (atomWord i w swap acc s) := by
  unfold atomWord
  split
  · exact spadWord_isIssue ..
  · exact viaWord_isIssue fun _ _ _ p t h => memAccess_wf i _ p t h

theorem requestMessage_answers {s : State} {m : MsgHdr} {i : Instr} {who len : Nat} {act : State → State}
    (ha : ∀ t, t.mem.wf = true → (act t).mem.wf = true) : Answers s (message s m i who len act) :=
  event_answers fun t h => State.wf_ite h (State.request_wf t m i who len ha h)

theorem transferMessage_answers {s : State} {m : MsgHdr} {i : Instr} {len : Nat} {act : State → State}
    (ha : ∀ t, t.mem.wf = true → (act t).mem.wf = true) : Answers s (transferMessage s m i len act) := by
  unfold transferMessage
  split
  · exact event_answers fun t h => t.moveWord_wf _ h
  · exact requestMessage_answers ha

theorem ackWord_answers {s : State} {m : MsgHdr} {i : Instr} {id : Word} {permitted : FaultRec → Bool}
    {act : FaultRec → State → State} (ha : ∀ f t, t.mem.wf = true → (act f t).mem.wf = true) :
    Answers s (ackWord m i id s permitted act) := by
  refine requestMessage_answers fun t h => ?_
  split
  · simp [h]
  · next f _ => simp [h, ha f t h]

theorem debugWord_answers {s : State} {m : MsgHdr} {i : Instr} {launch : Word} {act : Launch → State → State}
    (ha : ∀ l t, t.mem.wf = true → (act l t).mem.wf = true) : Answers s (debugWord m i launch s act) := by
  refine requestMessage_answers fun t h => ?_
  split
  · simp [h]
  split
  · simp [h]
  · exact ha _ t h

theorem keyWord_answers {s : State} {m : MsgHdr} {i : Instr} {slot : Byte} {bad : Bool} {act : State → State}
    (ha : ∀ t, t.mem.wf = true → (act t).mem.wf = true) : Answers s (keyWord m i slot bad s act) :=
  requestMessage_answers fun t h => by simp [h, ha t h]

theorem fwWord_answers {s : State} {m : MsgHdr} {i : Instr} {len : Nat} {act : State → State}
    (ha : ∀ t, t.mem.wf = true → (act t).mem.wf = true) : Answers s (fwWord m i len s act) :=
  event_answers fun t h => State.request_wf t m i 2 _ (fun u hu => by simp [hu, ha u hu]) h

theorem releaseWord_answers (m : MsgHdr) (i : Instr) (launch arg0 arg1 : Word) (stepping : Bool) (s : State) :
    Answers s (releaseWord m i launch arg0 arg1 stepping s) := by
  refine debugWord_answers fun _ t h => ?_
  split <;> simp [h]

/-! #### The words -/

theorem issueWord_isIssue_of_mem {i : Instr} {s : State} {act : Focus → State → State} (h : ∀ p t, (act p t).mem = t.mem) :
    IsIssue i s (issueWord i s act) := issueWord_isIssue fun p t ht => (h p t).symm ▸ ht

theorem valuWord_isIssue (op : Nat) (i : Instr) (w : AWord) (f : AluFn) (s : State) : IsIssue i s (valuWord op i w f s) :=
  issueWord_isIssue_of_mem fun _ _ => rfl

theorem compareWord_isIssue (op : Nat) (i : Instr) (w : AWord) (f : AluFn) (s : State) :
    IsIssue i s (compareWord op i w f s) :=
  issueWord_isIssue_of_mem fun _ _ => rfl

theorem immWord_isIssue (i : Instr) (w : IWord) (f : Word → Word) (s : State) : IsIssue i s (immWord i w f s) :=
  issueWord_isIssue_of_mem fun _ _ => rfl

theorem transferWord_isIssue (i : Instr) (s : State) (target : Sheaf → Nat → Word) (pre : LaneMask → Sheaf → Sheaf) :
    IsIssue i s (transferWord i s target pre) :=
  issueWord_isIssue_of_mem fun _ _ => rfl

theorem crossWord_isIssue (op : Nat) (i : Instr) (w : AWord) (s : State) : IsIssue i s (crossWord op i w s) :=
  issueWord_isIssue_of_mem fun p t => by simp

theorem barWord_isIssue (i : Instr) (w : IWord) (x : Sheaf → Hold) (s : State) : IsIssue i s (barWord i w x s) :=
  issueWord_isIssue_of_mem fun p t => by simp

theorem tileWord_isIssue (i : Instr) (s : State) : IsIssue i s (tileWord i s) :=
  issueWord_isIssue_of_mem fun p t => by simp

theorem beginWord_isIssue (i : Instr) (w : MWord) (locked : Bool) (s : State) : IsIssue i s (beginWord i w locked s) :=
  issueWord_isIssue_of_mem fun p t => by simp

theorem commitWord_isIssue (i : Instr) (tok : Nat) (dest : OpCode7) (s : State) : IsIssue i s (commitWord i tok dest s) :=
  issueWord_isIssue fun p t h => by simp [h]

theorem execExit_isIssue (w : JWord) (s : State) : IsIssue (.exit w) s (execExit w s) :=
  issueWord_isIssue_of_mem fun p t => by simp

theorem execWaitm_isIssue (w : IWord) (s : State) : IsIssue (.waitm w) s (execWaitm w s) :=
  issueWord_isIssue_of_mem fun p t => by simp

theorem execMon_isIssue (w : MWord) (s : State) : IsIssue (.mon w) s (execMon w s) :=
  viaWord_isIssue fun k h v p t ht => by simp [ht]

theorem execMwait_isIssue (w : AWord) (s : State) : IsIssue (.mwait w) s (execMwait w s) :=
  issueWord_isIssue_of_mem fun p t => by simp

theorem execUni_isIssue (w : AWord) (s : State) : IsIssue (.uni w) s (execUni w s) :=
  issueWord_isIssue_of_mem fun p t => by simp

theorem execRegroup_isIssue (w : AWord) (s : State) : IsIssue (.regroup w) s (execRegroup w s) :=
  issueWord_isIssue_of_mem fun p t => by simp

theorem execRdsr_isIssue (w : IWord) (s : State) : IsIssue (.rdsr w) s (execRdsr w s) :=
  issueWord_isIssue_of_mem fun _ _ => rfl

theorem execWrsr_isIssue (w : IWord) (s : State) : IsIssue (.wrsr w) s (execWrsr w s) :=
  issueWord_isIssue_of_mem fun p t => by simp

theorem execRand_isIssue (w : AWord) (s : State) : IsIssue (.rand w) s (execRand w s) :=
  issueWord_isIssue_of_mem fun p t => by simp

theorem execTrap_isIssue (w : IWord) (s : State) : IsIssue (.trap w) s (execTrap w s) :=
  issueWord_isIssue_of_mem fun p t => by simp

theorem execBkpt_isIssue (w : IWord) (s : State) : IsIssue (.bkpt w) s (execBkpt w s) :=
  issueWord_isIssue_of_mem fun p t => by simp

theorem execLaunch_isIssue (w : AWord) (s : State) : IsIssue (.launch w) s (execLaunch w s) :=
  issueWord_isIssue_of_mem fun p t => by simp

theorem execVfree_isIssue (w : AWord) (s : State) : IsIssue (.vfree w) s (execVfree w s) :=
  issueWord_isIssue_of_mem fun p t => by simp

theorem execFfn_isIssue (w : AWord) (s : State) : IsIssue (.ffn w) s (execFfn w s) :=
  issueWord_isIssue_of_mem fun p t => by simp

theorem execBrset_isIssue (w : MWord) (s : State) : IsIssue (.brset w) s (execBrset w s) :=
  issueWord_isIssue_of_mem fun p t => by
    split
    · rfl
    dsimp only
    split <;> simp

theorem execBrget_isIssue (w : MWord) (s : State) : IsIssue (.brget w) s (execBrget w s) :=
  viaWord_isIssue fun _ _ _ _ _ ht => ht

theorem execBrinv_isIssue (w : MWord) (s : State) : IsIssue (.brinv w) s (execBrinv w s) :=
  issueWord_isIssue_of_mem fun p t => by
    split
    · rfl
    · simp

theorem memWord_isIssue {i : Instr} {s : State} {chk : Stook → Sheaf → List Nat → Except Cause Via}
    (acc : Sheaf → Via → Access) : IsIssue i s (viaWord i s chk fun _ h v p s => memAccess i (acc h v) p s) :=
  viaWord_isIssue fun _ h v p t ht => memAccess_wf i (acc h v) p t ht

theorem execFence_isIssue (w : MWord) (s : State) : IsIssue (.fence w) s (execFence w s) :=
  issueWord_isIssue_of_mem fun p t => by simp

theorem execPref_isIssue (w : MWord) (s : State) : IsIssue (.pref w) s (execPref w s) :=
  hintWord_isIssue fun k pa t ht => by simp [ht]

theorem execCctl_isIssue (w : MWord) (s : State) : IsIssue (.cctl w) s (execCctl w s) :=
  hintWord_isIssue fun k pa t ht => by
    have h := State.cleanDeltas_wf _ (linePas pa) (State.cleanStores_wf t k.core (linePas pa) ht)
    simp [h]

theorem execTabort_isIssue (w : AWord) (s : State) : IsIssue (.tabort w) s (execTabort w s) :=
  issueWord_isIssue_of_mem fun p t => by simp

theorem execPbarOrd_isIssue (w : MWord) (s : State) : IsIssue (.pbarOrd w) s (execPbarOrd w s) :=
  issueWord_isIssue_of_mem fun _ _ => rfl

theorem execPbarSync_isIssue (w : MWord) (s : State) : IsIssue (.pbarSync w) s (execPbarSync w s) :=
  issueWord_isIssue_of_mem fun p t => by simp

theorem execCwait_isIssue (w : AWord) (s : State) : IsIssue (.cwait w) s (execCwait w s) :=
  issueWord_isIssue_of_mem fun p t => by simp

theorem execCbinit_isIssue (w : AWord) (s : State) : IsIssue (.cbinit w) s (execCbinit w s) :=
  issueWord_isIssue_of_mem fun p t => by simp

theorem execCbacq_isIssue (w : AWord) (s : State) : IsIssue (.cbacq w) s (execCbacq w s) :=
  issueWord_isIssue_of_mem fun p t => by simp

theorem execCbrel_isIssue (w : AWord) (s : State) : IsIssue (.cbrel w) s (execCbrel w s) :=
  issueWord_isIssue_of_mem fun p t => by simp

/-! #### The events -/

theorem event_answers_of_mem {s : State} {f : State → State} (hf : ∀ t, (f t).mem = t.mem) : Answers s (event s f) :=
  event_answers fun t h => (hf t).symm ▸ h

theorem requestMessage_answers_of_mem {s : State} {m : MsgHdr} {i : Instr} {who len : Nat} {act : State → State}
    (hact : ∀ t, (act t).mem = t.mem) : Answers s (message s m i who len act) :=
  requestMessage_answers fun t h => (hact t).symm ▸ h

theorem execFaultAckRetry_answers (m : MsgHdr) (fault : Word) (s : State) : Answers s (execFaultAckRetry m fault s) :=
  ackWord_answers fun f t h => State.retryFault_wf t f h

theorem execFaultAckNomap_answers (m : MsgHdr) (fault : Word) (s : State) : Answers s (execFaultAckNomap m fault s) :=
  ackWord_answers fun f t h => State.nomapFault_wf t f h

theorem execFaultAckResume_answers (m : MsgHdr) (fault : Word) (s : State) : Answers s (execFaultAckResume m fault s) :=
  ackWord_answers fun f t h => by simp [h]

theorem execFaultAckEndLaunch_answers (m : MsgHdr) (fault : Word) (s : State) :
    Answers s (execFaultAckEndLaunch m fault s) :=
  ackWord_answers fun f t h => by simp [h]

theorem execFaultAckEndContext_answers (m : MsgHdr) (fault : Word) (s : State) :
    Answers s (execFaultAckEndContext m fault s) :=
  ackWord_answers fun f t h => by simp [h]

theorem execSubmit_answers (m : MsgHdr) (queue : DWord) (desc : BitVec 2048) (s : State) :
    Answers s (execSubmit m queue desc s) :=
  requestMessage_answers_of_mem fun t => by simp

theorem execCancel_answers (m : MsgHdr) (launch : Word) (s : State) : Answers s (execCancel m launch s) :=
  requestMessage_answers_of_mem fun t => by
    split
    · simp
    · split <;> simp

theorem execQuery_answers (m : MsgHdr) (launch : Word) (s : State) : Answers s (execQuery m launch s) :=
  requestMessage_answers_of_mem fun t => by
    split
    · simp
    · split <;> simp

theorem execTelemetryQuery_answers (m : MsgHdr) (s : State) : Answers s (execTelemetryQuery m s) :=
  requestMessage_answers_of_mem fun t => by simp

theorem execMemread_answers (m : MsgHdr) (b : MemBlock) (s : State) : Answers s (execMemread m b s) :=
  transferMessage_answers fun t h => by
    refine State.wf_ite (by simp [h]) (State.wf_ite (by simp [h]) (State.wf_ite ?_ ?_)) <;> simp [h]

theorem execMemwrite_answers (m : MsgHdr) (b : MemBlock) (data : List Byte) (s : State) :
    Answers s (execMemwrite m b data s) :=
  transferMessage_answers fun t h => by
    refine State.wf_ite (by simp [h]) (State.wf_ite (by simp [h]) (State.wf_ite ?_ ?_)) <;> simp [h]

theorem execSettingsWrite_answers (m : MsgHdr) (b : MemBlock) (data : List Byte) (s : State) :
    Answers s (execSettingsWrite m b data s) :=
  requestMessage_answers_of_mem fun t => by simp

theorem execCtxset_answers (m : MsgHdr) (rec : BitVec 512) (s : State) : Answers s (execCtxset m rec s) :=
  event_answers fun t h => by
    refine State.wf_ite h ?_
    dsimp only
    refine State.wf_ite (State.request_wf t m _ 2 64 (fun _ hu => hu) h) ?_
    simp [h]

theorem execPeercfg_answers (m : MsgHdr) (cfg : BitVec 4160) (s : State) : Answers s (execPeercfg m cfg s) :=
  requestMessage_answers_of_mem fun t => by simp

theorem execPreempt_answers (m : MsgHdr) (launch : Word) (s : State) : Answers s (execPreempt m launch s) :=
  requestMessage_answers_of_mem fun t => by
    have fold (ids : List Word) (f : Launch → Launch) :
        (ids.foldl (fun u id => u.modLaunch m.context id f) t).mem = t.mem :=
      State.foldl_mem (fun u id => (rfl : (u.modLaunch m.context id f).mem = u.mem)) ids t
    simp [fold]

theorem execRestore_answers (m : MsgHdr) (launch : Word) (s : State) : Answers s (execRestore m launch s) :=
  requestMessage_answers_of_mem fun t => by
    split
    · simp
    · split <;> simp

theorem execSetbp_answers (m : MsgHdr) (launch arg0 arg1 : Word) (s : State) : Answers s (execSetbp m launch arg0 arg1 s) :=
  debugWord_answers fun l t h => by simp [h]

theorem execClrbp_answers (m : MsgHdr) (launch arg0 arg1 : Word) (s : State) : Answers s (execClrbp m launch arg0 arg1 s) :=
  debugWord_answers fun l t h => by simp [h]

theorem execStopall_answers (m : MsgHdr) (launch arg0 arg1 : Word) (s : State) :
    Answers s (execStopall m launch arg0 arg1 s) :=
  debugWord_answers fun l t h => by
    split <;> simp [h]

theorem execDump_answers (m : MsgHdr) (launch arg0 arg1 : Word) (s : State) : Answers s (execDump m launch arg0 arg1 s) :=
  debugWord_answers fun l t h => by
    split
    · simp [h]
    · exact State.wf_ite (by simp [h]) (State.wf_ite (by simp [h]) (by simp [h]))

theorem execKeyloadLoad_answers (m : MsgHdr) (slot : Byte) (rsv : BitVec 48) (epk : BitVec 448) (wkey : BitVec 576)
    (s : State) : Answers s (execKeyloadLoad m slot rsv epk wkey s) :=
  keyWord_answers fun t h => by
    split <;> simp [h]

theorem execKeyloadErase_answers (m : MsgHdr) (slot : Byte) (rsv : BitVec 48) (epk : BitVec 448) (wkey : BitVec 576)
    (s : State) : Answers s (execKeyloadErase m slot rsv epk wkey s) :=
  keyWord_answers fun t h => by simp [h]

theorem execFwupdateBegin_answers (m : MsgHdr) (total : DWord) (s : State) : Answers s (execFwupdateBegin m total s) :=
  fwWord_answers fun t h => by simp [h]

theorem execFwupdateData_answers (m : MsgHdr) (offset : DWord) (data : List Byte) (s : State) :
    Answers s (execFwupdateData m offset data s) :=
  fwWord_answers fun t h => by simp [h]

theorem execFwupdateCommit_answers (m : MsgHdr) (s : State) : Answers s (execFwupdateCommit m s) :=
  fwWord_answers fun t h => by
    split <;> simp [h]

theorem execAttest_answers (m : MsgHdr) (nonce : BitVec 256) (s : State) : Answers s (execAttest m nonce s) :=
  fwWord_answers fun t h => by simp [h]

theorem execUnknownMessageType_answers (m : MsgHdr) (u : Unlisted) (s : State) :
    Answers s (execUnknownMessageType m u s) := by
  unfold execUnknownMessageType
  dsimp only
  split
  · exact requestMessage_answers_of_mem fun t => by simp
  · exact requestMessage_answers_of_mem fun t => by simp
  · exact fwWord_answers fun t h => by simp [h]
  · exact ackWord_answers fun _ _ h => h
  · exact requestMessage_answers_of_mem fun t => by simp

theorem execMwaitTimeout_answers (l : LaneRef) (s : State) : Answers s (execMwaitTimeout l s) :=
  event_answers_of_mem fun t => by simp

theorem execMwaitSpuriousWake_answers (l : LaneRef) (s : State) : Answers s (execMwaitSpuriousWake l s) :=
  event_answers_of_mem fun t => by simp

theorem execPageWalk_answers (core ctx : Nat) (va : DWord) (s : State) : Answers s (execPageWalk core ctx va s) :=
  event_answers_of_mem fun t => by simp

theorem execControlPortFailover_answers (port : Nat) (s : State) : Answers s (execControlPortFailover port s) :=
  event_answers_of_mem fun t => by simp

theorem execTelemetryTick_answers (s : State) : Answers s (execTelemetryTick s) :=
  event_answers_of_mem fun t => by simp

theorem execPowerWindow_answers (mw mdeg : Nat) (s : State) : Answers s (execPowerWindow mw mdeg s) :=
  event_answers_of_mem fun t => by simp

theorem execThermalTrip_answers (die mdeg : Nat) (s : State) : Answers s (execThermalTrip die mdeg s) :=
  event_answers fun t h => by simp [h]

theorem execPowerUp_answers (energyOk : Bool) (s : State) : Answers s (execPowerUp energyOk s) :=
  .next fun h => State.wf_ite h (powerUp_wf energyOk s h)

theorem execScrub_answers (pa : Nat) (sector : SectorRead) (s : State) : Answers s (execScrub pa sector s) :=
  event_answers_of_mem fun t => by simp

theorem execNvWearManagement_answers (stack permille : Nat) (s : State) :
    Answers s (execNvWearManagement stack permille s) :=
  event_answers_of_mem fun t => by simp

theorem execLinkRetrain_answers (link : Nat) (ok : Bool) (s : State) : Answers s (execLinkRetrain link ok s) :=
  event_answers_of_mem fun t => by simp

theorem execControlFrameRetransmit_answers (port : Nat) (s : State) : Answers s (execControlFrameRetransmit port s) :=
  event_answers_of_mem fun t => by simp

/-- Every word of the seven classes issues: no arm of `exec` gives one another outcome. -/
theorem exec_isIssue {i : Instr} (hi : i.isWord = true) (s : State) : IsIssue i s (exec i s) := by
  cases i with
  | iadd _ | isub _ | imul _ | imulh _ | imad _ | imin _ | imax _ | iabs _ | and _ | or _ | xor _ | andn _ | shl _
  | shr _ | sar _ | rotl _ | bfx _ | bfi _ | popc _ | clz _ | ctz _ | brev _ | sel _ | mov _ | iadd64 _ | imad64 _
  | fadd _ | fsub _ | fmul _ | ffma _ | fmin _ | fmax _ | fabs _ | fneg _ | fclass _ | fcvt _ | frnd _ | fscalb _
  | fdiv _ | fsqrt _ | fdot2 _ => exact valuWord_isIssue ..
  | iset _ | fset _ => exact compareWord_isIssue ..
  | movi _ | movw _ _ | iaddImm _ | shlImm _ | shrImm _ | sarImm _ | rotlImm _ | andImm _ => exact immWord_isIssue ..
  | moviScalar _ | movwScalar _ _ | iaddScalarImm _ =>
    simp only [exec, execMoviScalar, execMovwScalar, execIaddScalarImm]
    exact scalarImmWord_isIssue ..
  | bra _ | brv _ | brs _ | call _ | ret _ | jmpi _ =>
    simp only [exec, execBra, execBrv, execBrs, execCall, execRet, execJmpi]
    exact transferWord_isIssue ..
  | exit _ => exact execExit_isIssue ..
  | join _ | leave _ | mset _ | mmov _ =>
    simp only [exec, execJoin, execLeave, execMset, execMmov]
    exact maskWord_isIssue ..
  | waitm _ => exact execWaitm_isIssue ..
  | mget _ | yield _ | nop _ | tstat _ =>
    simp only [exec, execMget, execYield, execNop, execTstat]
    exact sheafWord_isIssue ..
  | bar _ | bara _ | barw _ => exact barWord_isIssue ..
  | mon _ => exact execMon_isIssue ..
  | mwait _ => exact execMwait_isIssue ..
  | shfl _ | vote _ | matchLanes _ | rdlane _ | wrlane _ | elect _ | redl _ => exact crossWord_isIssue ..
  | uni _ => exact execUni_isIssue ..
  | regroup _ => exact execRegroup_isIssue ..
  | rdsr _ => exact execRdsr_isIssue ..
  | wrsr _ => exact execWrsr_isIssue ..
  | rand _ => exact execRand_isIssue ..
  | trap _ => exact execTrap_isIssue ..
  | bkpt _ => exact execBkpt_isIssue ..
  | launch _ => exact execLaunch_isIssue ..
  | vfree _ => exact execVfree_isIssue ..
  | ffn _ => exact execFfn_isIssue ..
  | mma _ | mmal _ => exact tileWord_isIssue ..
  | ldf _ | stf _ | ld _ | st _ | red _ | xred _ | xrd _ => exact memWord_isIssue _
  | brset _ => exact execBrset_isIssue ..
  | brget _ => exact execBrget_isIssue ..
  | brinv _ => exact execBrinv_isIssue ..
  | lds _ | sts _ => exact spadWord_isIssue ..
  | atom _ | cas _ => exact atomWord_isIssue ..
  | fence _ => exact execFence_isIssue ..
  | pref _ => exact execPref_isIssue ..
  | cctl _ => exact execCctl_isIssue ..
  | tbegin _ | tbeginl _ => exact beginWord_isIssue ..
  | tend _ | tval _ => exact commitWord_isIssue ..
  | tabort _ => exact execTabort_isIssue ..
  | pbarOrd _ => exact execPbarOrd_isIssue ..
  | pbarSync _ => exact execPbarSync_isIssue ..
  | cpy w | cpyg w | cpys w => exact issueWord_isIssue fun p t ht => copyAct_wf _ _ w p t ht
  | cwait _ => exact execCwait_isIssue ..
  | cbinit _ => exact execCbinit_isIssue ..
  | cbacq _ => exact execCbacq_isIssue ..
  | cbrel _ => exact execCbrel_isIssue ..
  | unassignedSlotIssue _ => exact issueWord_isIssue_of_mem fun _ _ => rfl
  | _ => cases hi

/-- Every event answers, wherever it happens. -/
theorem exec_answers_of_event {i : Instr} (hi : i.isWord = false) (s : State) : Answers s (exec i s) := by
  cases i with
  | clauseFetch p => exact event_answers_of_mem (fetchPath_mem p)
  | rotationStep core => exact event_answers (rotate_wf core)
  | exitComplete l => exact event_answers_of_mem (completeExit_mem l)
  | mwaitTimeout _ => exact execMwaitTimeout_answers ..
  | mwaitSpuriousWake _ => exact execMwaitSpuriousWake_answers ..
  | launchAnswer core k => exact event_answers_of_mem (launchAnswer_mem core k)
  | parkEntryGrant core k => exact event_answers_of_mem (parkGrant_mem core k)
  | wuAccept cluster => exact event_answers_of_mem (wuTake_mem cluster)
  | wuDecide core k => exact event_answers_of_mem (wuDecide_mem core k)
  | xsAccept die => exact event_answers_of_mem (xsTake_mem die)
  | xsDecide core k => exact event_answers_of_mem (xsDecide_mem core k)
  | registerRefill stook sheaf reg => exact event_answers_of_mem (refillReg_mem stook sheaf reg)
  | loadResponse core k => exact event_answers_of_mem (loadResponse_mem core k)
  | homeRequest core k sector => exact event_answers (homeRequest_wf core k sector)
  | bscFill core k => exact event_answers_of_mem (bscFill_mem core k)
  | commitLockTimeout l => exact event_answers (commitTimeout_wf l)
  | lockedAccessTimeout core k => exact event_answers (lockedTimeout_wf core k)
  | pbarSyncComplete _ => exact event_answers fun t ht => State.completePersist_wf t _ ht
  | copyAccept core k => exact event_answers_of_mem (copyAccept_mem core k)
  | copyChunk core k n sector => exact event_answers (copyChunk_wf core k n sector)
  | pageWalk _ _ _ => exact execPageWalk_answers ..
  | faultService fault => exact event_answers (faultService_wf fault)
  | faultAckRetry _ _ => exact execFaultAckRetry_answers ..
  | faultAckNomap _ _ => exact execFaultAckNomap_answers ..
  | faultAckResume _ _ => exact execFaultAckResume_answers ..
  | faultAckEndLaunch _ _ => exact execFaultAckEndLaunch_answers ..
  | faultAckEndContext _ _ => exact execFaultAckEndContext_answers ..
  | submit _ _ _ => exact execSubmit_answers ..
  | cancel _ _ => exact execCancel_answers ..
  | query _ _ => exact execQuery_answers ..
  | telemetryQuery _ => exact execTelemetryQuery_answers ..
  | memread _ _ => exact execMemread_answers ..
  | memwrite _ _ _ => exact execMemwrite_answers ..
  | settingsWrite _ _ _ => exact execSettingsWrite_answers ..
  | ctxset _ _ => exact execCtxset_answers ..
  | peercfg _ _ => exact execPeercfg_answers ..
  | seqGapTimeout ctx => exact event_answers_of_mem (seqGap_mem ctx)
  | controlPortFailover _ => exact execControlPortFailover_answers ..
  | stookPlacement core => exact event_answers (stookPlacement_wf core)
  | quantumExpiry stook => exact event_answers_of_mem (quantumExpiry_mem stook)
  | watchdogExpiry ctx launch => exact event_answers_of_mem (watchdogExpiry_mem ctx launch)
  | preempt _ _ => exact execPreempt_answers ..
  | restore _ _ => exact execRestore_answers ..
  | setbp _ _ _ _ => exact execSetbp_answers ..
  | clrbp _ _ _ _ => exact execClrbp_answers ..
  | stopall _ _ _ _ => exact execStopall_answers ..
  | release _ _ _ _ | step _ _ _ _ => exact releaseWord_answers ..
  | dump _ _ _ _ => exact execDump_answers ..
  | keyloadLoad _ _ _ _ _ => exact execKeyloadLoad_answers ..
  | keyloadErase _ _ _ _ _ => exact execKeyloadErase_answers ..
  | fwupdateBegin _ _ => exact execFwupdateBegin_answers ..
  | fwupdateData _ _ _ => exact execFwupdateData_answers ..
  | fwupdateCommit _ => exact execFwupdateCommit_answers ..
  | attest _ _ => exact execAttest_answers ..
  | telemetryTick => exact execTelemetryTick_answers ..
  | powerWindow _ _ => exact execPowerWindow_answers ..
  | thermalTrip _ _ => exact execThermalTrip_answers ..
  | powerLoss _ => exact event_answers fun t ht => State.losePower_wf t _ _ ht
  | stagingDrain stack => exact event_answers_of_mem (drainUnit_mem stack)
  | powerUp _ => exact execPowerUp_answers ..
  | laSnapshot ctx launch granule => exact event_answers_of_mem (takeWanted_mem ctx launch granule true)
  | granuleSnapshot ctx launch granule => exact event_answers_of_mem (takeWanted_mem ctx launch granule false)
  | laCompletionRecord ctx launch => exact event_answers (laCompletion_wf ctx launch)
  | watermarkCompare stook twin => exact event_answers_of_mem (watermarkCompare_mem stook twin)
  | twinTimeout stook => exact event_answers_of_mem (twinTimeout_mem stook)
  | sampleCheck ctx launch stookid verdict => exact event_answers_of_mem (sampleCheck_mem ctx launch stookid verdict)
  | scrub _ _ => exact execScrub_answers ..
  | calibration _ => exact event_answers fun _ ht => ht
  | nvWearManagement _ _ => exact execNvWearManagement_answers ..
  | linkRetrain _ _ => exact execLinkRetrain_answers ..
  | unknownMessageType _ _ => exact execUnknownMessageType_answers ..
  | controlFrameRetransmit _ => exact execControlFrameRetransmit_answers ..
  | peerFrameRetransmit link => exact event_answers_of_mem fun t => t.modLink_mem link _
  | storeQueueDrain stook sheaf => exact event_answers_of_mem (drainStore_mem stook sheaf)
  | _ => cases hi

end Sys2Proof.Machine

/-! ### The step

What a step chooses can be executed: an event anywhere, a word because its path stands in focus. -/

namespace Sys2Proof.Machine

open Sys2Proof

/-- A path stands in focus and its stook is resident: what a word needs to issue. -/
def State.InFocus (s : State) : Prop := ∃ p k, s.focus = some p ∧ s.stook? p.stook = some k

theorem issueWord_unfocused {i : Instr} {s : State} {act : Focus → State → State} (h : s.focus = none) :
    issueWord i s act = .fault .noIssuingPath := by
  unfold issueWord
  rw [h]

theorem exec_answers {i : Instr} {s : State} (h : i.isWord = true → s.InFocus) : Answers s (exec i s) := by
  cases hi : i.isWord with
  | false => exact exec_answers_of_event hi s
  | true =>
    obtain ⟨act, hact, ho⟩ := exec_isIssue hi s
    obtain ⟨p, k, hp, hk⟩ := h hi
    exact ho ▸ issueWord_answers hp hk hact

theorem State.event_of_enabled {i : Instr} {s : State} (hs : s.focus = none) (h : s.enabled i = true) :
    i.isWord = false := by
  refine Bool.eq_false_iff.mpr fun hw => ?_
  obtain ⟨act, -, ho⟩ := exec_isIssue hw s
  rw [State.enabled, ho, issueWord_unfocused hs] at h
  exact Bool.false_ne_true h

theorem event_of_agendaItem {i : Instr} (h : agendaItem i = true) : i.isWord = false := by
  refine Bool.eq_false_iff.mpr fun hw => ?_
  have hpos := Instr.words_pos hw
  unfold agendaItem at h
  split at h
  · cases h
  · have hzero := of_decide_eq_true h
    omega

/-- A choice that a step can take from `s`: it keeps the form of memory, and a word is chosen for a path in focus alone. -/
def State.Sound (s : State) (c : Option Instr × State) : Prop :=
  (s.mem.wf = true → c.2.mem.wf = true) ∧ ∀ i, c.1 = some i → i.isWord = true → c.2.InFocus

theorem State.Sound.none {s t : State} (h : s.mem.wf = true → t.mem.wf = true) : s.Sound (none, t) :=
  ⟨h, fun _ hi => by cases hi⟩

theorem State.Sound.event {s t : State} {i : Instr} (h : s.mem.wf = true → t.mem.wf = true) (hi : i.isWord = false) :
    s.Sound (some i, t) :=
  ⟨h, fun j hj hw => by cases hj; rw [hi] at hw; cases hw⟩

theorem State.Sound.focus {s t : State} {i : Instr} (h : s.mem.wf = true → t.mem.wf = true) (hi : t.InFocus) :
    s.Sound (some i, t) :=
  ⟨h, fun _ _ _ => hi⟩

theorem State.Sound.trans {s t : State} {c : Option Instr × State} (h : s.mem.wf = true → t.mem.wf = true)
    (hc : t.Sound c) : s.Sound c :=
  ⟨hc.1 ∘ h, hc.2⟩

theorem State.focused_inFocus {s : State} {p : Focus} (h : s.focused = some p) : s.InFocus := by
  obtain ⟨hp, hk⟩ := Option.filter_eq_some_iff.mp h
  exact ⟨p, _, hp, (Option.some_get hk).symm⟩

theorem State.evict_wf (s : State) (h : s.mem.wf = true) : s.evict.mem.wf = true := by
  unfold State.evict
  dsimp only
  split
  · exact h
  · simp [h]
  · exact State.combineIf_wf _ _ h

theorem State.livePath_stook {s : State} {f : Focus} {k : Stook} {p : Path} (h : s.livePath f = some (k, p)) :
    s.stook? f.stook = some k := by
  unfold State.livePath at h
  split at h
  · cases h
  · next k' hk =>
    obtain ⟨q, -, hq⟩ := List.exists_of_findSome?_eq_some h
    split at hq
    · cases hq
    · cases hq
      exact hk

theorem State.promote_sound (s : State) (f : Focus) {k : Stook} (p : Path) (rest : List Focus)
    (hk : s.stook? f.stook = some k) : s.Sound (some (s.promote f k p rest).1, (s.promote f k p rest).2) := by
  unfold State.promote
  extract_lets g s1 s2
  have hmem : s.mem.wf = true → s2.mem.wf = true := fun h => by simp [s2, s1, h]
  have hstook : ∃ k', s2.stook? f.stook = some k' := by
    unfold s2
    split
    · have h1 : s1.stook? f.stook = some k := hk
      simp [State.stook?_modStook, h1]
    · exact ⟨k, hk⟩
  split
  · obtain ⟨k', hk'⟩ := hstook
    exact .focus hmem ⟨g, k', rfl, hk'⟩
  · exact .event hmem rfl

theorem State.pickTurn_sound {s t : State} {i : Instr} {live kept : List Focus} {cores : List Nat}
    (h : s.pickTurn kept cores live = some (i, t)) : s.Sound (some i, t) := by
  induction live generalizing kept cores with
  | nil => cases h
  | cons f rest ih =>
    rw [State.pickTurn] at h
    split at h
    · exact ih h
    · next k p hp =>
      split at h
      · exact ih h
      · have hsound := s.promote_sound f p (kept ++ rest) (State.livePath_stook hp)
        rwa [Option.some.inj h] at hsound

theorem State.fromAgenda_sound {s : State} {c : Option Instr × State} (h : s.fromAgenda = some c) : s.Sound c := by
  unfold State.fromAgenda at h
  split at h
  · next i rest _ =>
    rw [← Option.some.inj h]
    split
    · next hi => exact .event id (event_of_agendaItem hi)
    · exact .none id
  · cases h

theorem State.own_sound {s : State} (hs : s.focus = none) : s.Sound s.own := by
  unfold State.own
  extract_lets all n t
  split
  · next i hi =>
    exact .event id (State.event_of_enabled hs (List.find?_some hi : s.can (.happen i) = true))
  · exact .none fun h => by simp [t, h]
  · exact .none fun h => State.evict_wf t h
  · exact .none id

theorem State.fromAgenda_getD_sound (s : State) {c : Option Instr × State} (h : s.Sound c) :
    s.Sound (s.fromAgenda.getD c) := by
  cases ha : s.fromAgenda with
  | none => exact h
  | some d => exact State.fromAgenda_sound ha

theorem State.choose_sound (s : State) : s.Sound s.choose := by
  unfold State.choose
  split
  · next p hp => exact .focus id (State.focused_inFocus hp)
  · extract_lets s0 live s1 t1 t2
    have h1 : s.mem.wf = true → s1.mem.wf = true := id
    split
    · exact s0.fromAgenda_getD_sound (.none id)
    split
    · exact .none fun h => by simp [t1, h1 h]
    split
    · next i t hi => exact .trans h1 (State.pickTurn_sound hi)
    split
    · exact .none fun h => State.settle_wf _ (h1 h)
    · exact .trans h1 (s1.fromAgenda_getD_sound (State.own_sound rfl))

theorem step_answers (s : State) : Answers s (step s) := by
  obtain ⟨hwf, hword⟩ := s.choose_sound
  unfold step
  split
  · next i t hc =>
    rw [hc] at hwf hword
    obtain ⟨u, hu, hmem⟩ := exec_answers (hword i rfl)
    exact ⟨u, hu, hmem ∘ hwf⟩
  · next t hc =>
    rw [hc] at hwf
    exact .next hwf

/-- Settles O60: what is chosen in a step can always be executed, a word because a path with a resident stook stands in
focus, an event because it has a meaning in every state. -/
theorem stepNeverStops : Obligations.StepNeverStops := by
  unfold Obligations.StepNeverStops
  intro s
  obtain ⟨t, ht, -⟩ := step_answers s
  exact ⟨t, ht⟩

/-- Settles O58: every operation that a step is made of keeps the form of memory. -/
theorem memoryKeepsItsForm : Obligations.MemoryKeepsItsForm := by
  unfold Obligations.MemoryKeepsItsForm
  intro s t hs hstep
  obtain ⟨u, hu, hmem⟩ := step_answers s
  rw [hu] at hstep
  cases hstep
  exact hmem hs

end Sys2Proof.Machine

/-! ### Launches, faults and stooks under the operations that end or place them -/

namespace Sys2Proof.Machine

open Sys2Proof

theorem event_powered {s : State} (hp : s.powered = true) (f : State → State) : event s f = .next (f s) := by
  unfold event
  rw [if_pos hp]

theorem State.launch?_key {s : State} {c : Nat} {id : Word} {l : Launch} (h : s.launch? c id = some l) :
    l.ctx = c ∧ l.id = id := by
  simpa using List.find?_some h

theorem State.launch?_modLaunch (s : State) (c : Nat) (id : Word) {f : Launch → Launch}
    (hf : ∀ l, (f l).ctx = l.ctx ∧ (f l).id = l.id) :
    (s.modLaunch c id f).launch? c id = (s.launch? c id).map f := by
  have hkey : ((fun l : Launch => l.ctx == c && l.id == id) ∘ fun l => if (l.ctx == c && l.id == id) = true then f l else l)
      = fun l => l.ctx == c && l.id == id := by
    funext l
    simp only [Function.comp]
    split
    · simp only [hf l]
    · rfl
  unfold State.launch?
  rw [State.modLaunch_launches, List.find?_map, hkey]
  cases h : s.launches.find? fun l => l.ctx == c && l.id == id with
  | none => rfl
  | some l => simp only [Option.map_some, List.find?_some h, if_true]

theorem State.launch?_modLaunch_of {s : State} {c : Nat} {id : Word} {l : Launch} (h : s.launch? c id = some l) (f : Launch → Launch)
    (hf : ∀ l, (f l).ctx = l.ctx ∧ (f l).id = l.id) : (s.modLaunch c id f).launch? c id = some (f l) := by
  rw [State.launch?_modLaunch s c id hf, h]
  rfl

theorem State.stook?_of_filter {s : State} {u : Nat} {k : Stook} (h : s.stooks.filter (fun x => x.uid == u) = [k]) :
    s.stook? u = some k := by
  unfold State.stook?
  rw [← List.head?_filter, h]
  rfl

theorem State.sheafAt_congr {s t : State} (h : t.stooks = s.stooks) (u i : Nat) : t.sheafAt u i = s.sheafAt u i := by
  unfold State.sheafAt State.stook?
  rw [h]

@[simp] theorem State.failLaunch_stooks (s : State) (c : Nat) (id : Word) (cause : Cause) (code : Nat) :
    (s.failLaunch c id cause code).stooks = s.stooks := by
  unfold State.failLaunch
  split <;> rfl

@[simp] theorem State.unspill_stooks (s : State) (c n : Nat) : (s.unspill c n).stooks = s.stooks := by
  unfold State.unspill
  split <;> rfl

/-- A lane that awaits a register stands in a sheaf of a resident stook. -/
theorem State.stook_of_pending {s : State} {u i l : Nat} {q : Nat × Nat} (h : q ∈ ((s.sheafAt u i).lane l).pending) :
    (∃ k, s.stook? u = some k ∧ i < k.sheaves.length ∧ s.sheafAt u i = k.sheaf i)
      ∧ (s.sheafAt u i).lane l ∈ (s.sheafAt u i).lanes := by
  have hl : l < (s.sheafAt u i).lanes.length := by
    refine Nat.lt_of_not_le fun hn => ?_
    have hdefault : (s.sheafAt u i).lane l = default := by
      unfold Sheaf.lane
      rw [List.getD_eq_getElem?_getD, List.getElem?_eq_none hn, Option.getD_none]
    rw [hdefault] at h
    cases h
  refine ⟨?_, ?_⟩
  · cases hk : s.stook? u with
    | none =>
      rw [State.sheafAt, hk] at hl
      exact absurd hl (Nat.not_lt_zero l)
    | some k =>
      refine ⟨k, rfl, Nat.lt_of_not_le fun hn => ?_, State.sheafAt_of hk i⟩
      have hdefault : k.sheaf i = default := by
        unfold Stook.sheaf
        rw [List.getD_eq_getElem?_getD, List.getElem?_eq_none hn, Option.getD_none]
      rw [State.sheafAt_of hk, hdefault] at hl
      exact absurd hl (Nat.not_lt_zero l)
  · unfold Sheaf.lane
    rw [List.getD_eq_getElem?_getD, List.getElem?_eq_getElem hl, Option.getD_some]
    exact List.getElem_mem hl

end Sys2Proof.Machine

/-! ### The order of arbitration (20 R354) -/

namespace Sys2Proof.Machine

open Sys2Proof

/-- A core's resources are offered to the launch `a` ahead of `b`. -/
def State.ahead (s : State) (a b : Launch) : Bool :=
  s.priority b < s.priority a || (s.priority a = s.priority b && s.turnOf a < s.turnOf b)

theorem State.ahead_iff {s : State} {a b : Launch} :
    s.ahead a b = true ↔ s.priority b < s.priority a ∨ (s.priority b = s.priority a ∧ s.turnOf a < s.turnOf b) := by
  rw [eq_comm (a := s.priority b)]
  simp [State.ahead]

theorem State.ahead_asymm {s : State} {a b : Launch} (h : s.ahead a b = true) : s.ahead b a = false := by
  rw [← Bool.not_eq_true, State.ahead_iff]
  rw [State.ahead_iff] at h
  omega

theorem State.ahead_irrefl (s : State) (a : Launch) : s.ahead a a = false :=
  Bool.eq_false_iff.2 fun h => Bool.eq_false_iff.1 (State.ahead_asymm h) h

/-- A launch takes its place in an order of offers: behind all that it is not ahead of. -/
def State.insertOffer (s : State) (o : List Launch) (l : Launch) : List Launch :=
  (o.takeWhile fun x => !s.ahead l x) ++ l :: o.dropWhile fun x => !s.ahead l x

theorem State.offerOrder_eq (s : State) (ls : List Launch) : s.offerOrder ls = ls.foldl s.insertOffer [] := rfl

theorem State.mem_insertOffer {s : State} {o : List Launch} {l x : Launch} :
    x ∈ s.insertOffer o l ↔ x = l ∨ x ∈ o := by
  have ho : x ∈ o ↔ x ∈ o.takeWhile (fun x => !s.ahead l x) ∨ x ∈ o.dropWhile fun x => !s.ahead l x := by
    rw [← List.mem_append, List.takeWhile_append_dropWhile]
  unfold State.insertOffer
  rw [List.mem_append, List.mem_cons, ho]
  exact or_left_comm

/-- A launch ahead of all others in an order goes to its head. -/
theorem State.insertOffer_first {s : State} {o : List Launch} {l : Launch} (h : ∀ x ∈ o, x ≠ l → s.ahead l x = true) :
    (s.insertOffer o l).head? = some l := by
  cases o with
  | nil => rfl
  | cons y t =>
    by_cases hy : y = l
    · simp [State.insertOffer, hy, State.ahead_irrefl]
    · simp [State.insertOffer, h y (List.mem_cons_self ..) hy]

/-- A launch at the head of an order stays there when one comes that it is ahead of. -/
theorem State.insertOffer_behind {s : State} {o : List Launch} {l a : Launch} (h : o.head? = some l)
    (ha : s.ahead l a = true) : (s.insertOffer o a).head? = some l := by
  obtain ⟨t, rfl⟩ := List.head?_eq_some_iff.1 h
  simp [State.insertOffer, State.ahead_asymm ha]

theorem State.foldl_insertOffer_mem {s : State} {x : Launch} (ls o : List Launch) :
    x ∈ ls.foldl s.insertOffer o ↔ x ∈ ls ∨ x ∈ o := by
  induction ls generalizing o with
  | nil => simp
  | cons a t ih =>
    rw [List.foldl_cons, ih, State.mem_insertOffer, List.mem_cons, or_assoc]
    exact or_left_comm

theorem State.mem_offerOrder {s : State} {ls : List Launch} {x : Launch} : x ∈ s.offerOrder ls ↔ x ∈ ls := by
  rw [State.offerOrder_eq, State.foldl_insertOffer_mem]
  simp

theorem State.foldl_insertOffer_head {s : State} {l : Launch} (ls o : List Launch)
    (h : ∀ x, x ∈ ls ∨ x ∈ o → x ≠ l → s.ahead l x = true) (ho : o.head? = some l ∨ (l ∈ ls ∧ l ∉ o)) :
    (ls.foldl s.insertOffer o).head? = some l := by
  induction ls generalizing o with
  | nil => simpa using ho
  | cons a t ih =>
    rw [List.foldl_cons]
    refine ih _ (fun x hx => h x ?_) ?_
    · rw [State.mem_insertOffer] at hx
      rw [List.mem_cons, or_assoc]
      exact or_left_comm.1 hx
    by_cases ha : a = l
    · subst ha
      exact .inl (State.insertOffer_first fun x hx => h x (.inr hx))
    rcases ho with ho | ⟨hl, hn⟩
    · exact .inl (State.insertOffer_behind ho (h a (.inl (List.mem_cons_self ..)) ha))
    · refine .inr ⟨(List.mem_cons.1 hl).resolve_left (Ne.symm ha), fun hm => ?_⟩
      exact (State.mem_insertOffer.1 hm).elim (fun e => ha e.symm) hn

/-- The launch that every other one follows in priority and turn is offered a core's resources first. -/
theorem State.offerOrder_head {s : State} {ls : List Launch} {l : Launch} (hl : l ∈ ls)
    (h : ∀ x ∈ ls, x ≠ l → s.ahead l x = true) : ∃ t, s.offerOrder ls = l :: t := by
  rw [State.offerOrder_eq]
  exact List.head?_eq_some_iff.1
    (State.foldl_insertOffer_head ls [] (fun x hx => h x (by simpa using hx)) (.inr ⟨hl, List.not_mem_nil⟩))

end Sys2Proof.Machine

/-! ### Placement of a launch's next stook (05 R96, R97, R111; 20 R354) -/

namespace Sys2Proof.Machine

open Sys2Proof

theorem State.dropFailed_of_noStrict {s : State} (h : ∀ x ∈ s.launches, x.desc.depStrict = false) : s.dropFailed = s := by
  have hnone : (s.launches.filter fun l => l.state ≤ 1 && l.ending.isNone && s.depsFailed l) = [] :=
    List.filter_eq_nil_iff.2 fun x hx => by simp [State.depsFailed, h x hx]
  unfold State.dropFailed
  rw [hnone]
  rfl

theorem Desc.not_rotates {d : Desc} (hd : d.det = false) (hc : d.contain ≠ 2) : d.rotates = false := by
  simp [Desc.rotates, hd, hc]

theorem State.startRotation_of_not_rotates {l : Launch} (h : l.desc.rotates = false) (s : State) (core : Nat) :
    s.startRotation l core = s := by
  simp [State.startRotation, h]

theorem State.placeNew_noRoom {s : State} {l : Launch} {core : Nat} (h : s.room core l = false) (id : Nat) (ahead : List Launch) :
    s.placeNew l id core ahead = none := by
  simp [State.placeNew, h]

theorem State.placeNew_single {s : State} {l : Launch} {core : Nat} (h : s.room core l = true) (hd : l.desc.det = false)
    (hc : l.desc.contain ≠ 2) (id : Nat) (ahead : List Launch) :
    s.placeNew l id core ahead = some (s.addStook core l.desc.l1 (s.newStook l id core s.next false none)) := by
  simp [State.placeNew, h, hc, State.startRotation_of_not_rotates (Desc.not_rotates hd hc)]

/-- A launch that has begun, is in ORDERED or QUANTUM placement and free mode and has no saved stook, places its next stook on
an eligible core where that fits. -/
theorem State.placeOn_begun {s : State} {core : Nat} {l : Launch} (hl : s.launch? l.ctx l.id = some l) (hc : l.code ≠ [])
    (he : core ∈ l.eligible) (hs : l.saved = []) (hp : l.desc.place ≠ 1) (hd : l.desc.det = false)
    (hn : l.nextStook < l.desc.stooks) (restore : State → Launch → Nat → List Launch → Option State) (ahead : List Launch) :
    s.placeOn core l restore ahead = (s.placeNew l l.nextStook core ahead).map fun t => t.placed l (l.nextStook + 1) := by
  have hb : s.beginLaunch l = s := by
    unfold State.beginLaunch
    rw [if_pos (by simpa using hc)]
  unfold State.placeOn
  rw [if_neg (by simp [he]), hb]
  simp [hl, hs, hn, hp, hd]

/-- With no sampled stook to run again, a core that no launch can use stays as it is. -/
theorem State.placeRerun_none {s : State} {l : Launch} (h : s.toRerun l = []) (core : Nat) : s.placeRerun l core = none := by
  simp [State.placeRerun, h]

/-- A launch's stook on a core, and the count of its placed stooks. -/
def State.withNext (s : State) (l : Launch) (core : Nat) : State :=
  (s.addStook core l.desc.l1 (s.newStook l l.nextStook core s.next false none)).placed l (l.nextStook + 1)

theorem stookPlacement_first {s : State} {core : Nat} {l : Launch} (hcore : core < Config.numCores)
    (hstrict : ∀ x ∈ s.launches, x.desc.depStrict = false) (hmem : l ∈ s.launches) (hready : s.ready l = true)
    (hl : s.launch? l.ctx l.id = some l) (hcode : l.code ≠ []) (he : core ∈ l.eligible) (hsaved : l.saved = [])
    (hp : l.desc.place ≠ 1) (hd : l.desc.det = false) (hc : l.desc.contain ≠ 2) (hn : l.nextStook < l.desc.stooks)
    (hroom : s.room core l = true) (hfirst : ∀ x ∈ s.launches, s.ready x = true → x ≠ l → s.ahead l x = true) :
    stookPlacement core s = s.withNext l core := by
  obtain ⟨rest, horder⟩ := State.offerOrder_head (List.mem_filter.2 ⟨hmem, hready⟩)
    fun x hx => hfirst x (List.mem_filter.1 hx).1 (List.mem_filter.1 hx).2
  have hplace : s.placeOn core l (fun s l c ahead => s.restoreOn l c ahead) [] = some (s.withNext l core) := by
    rw [State.placeOn_begun hl hcode he hsaved hp hd hn, State.placeNew_single hroom hd hc]
    rfl
  unfold stookPlacement
  rw [State.dropFailed_of_noStrict hstrict, if_neg (by omega), horder]
  simp [hd, hplace]

theorem stookPlacement_noRoom {s : State} {core : Nat} {l : Launch} (hcore : core < Config.numCores)
    (hstrict : ∀ x ∈ s.launches, x.desc.depStrict = false)
    (hl : s.launch? l.ctx l.id = some l) (hcode : l.code ≠ []) (he : core ∈ l.eligible) (hsaved : l.saved = [])
    (hp : l.desc.place ≠ 1) (hd : l.desc.det = false) (hn : l.nextStook < l.desc.stooks)
    (hrerun : ∀ x ∈ s.launches, s.toRerun x = [])
    (hroom : s.room core l = false) (honly : ∀ x ∈ s.launches, s.ready x = true → x = l) :
    stookPlacement core s = s := by
  have hplace (ahead : List Launch) : s.placeOn core l (fun s l c ahead => s.restoreOn l c ahead) ahead = none := by
    rw [State.placeOn_begun hl hcode he hsaved hp hd hn, State.placeNew_noRoom hroom]
    rfl
  have honly' (x : Launch) (hx : x ∈ s.offerOrder (s.launches.filter s.ready)) : x = l := by
    obtain ⟨hm, hr⟩ := List.mem_filter.1 (State.mem_offerOrder.1 hx)
    exact honly x hm hr
  have hnone : (s.offerOrder (s.launches.filter s.ready)).findSome? (fun x =>
      if (x.desc.det && (s.stooksOn core).any fun k => k.ctx == x.ctx && k.launch == x.id) = true then none
      else s.placeOn core x (fun s l c ahead => s.restoreOn l c ahead)
        ((s.offerOrder (s.launches.filter s.ready)).takeWhile fun a => a != x)) = none :=
    List.findSome?_eq_none_iff.2 fun x hx => by
      rw [honly' x hx, hplace]
      exact ite_self none
  have hagain : (s.offerOrder s.launches).findSome? (fun x => s.placeRerun x core) = none :=
    List.findSome?_eq_none_iff.2 fun x hx => State.placeRerun_none (hrerun x (State.mem_offerOrder.1 hx)) core
  unfold stookPlacement
  rw [State.dropFailed_of_noStrict hstrict, if_neg (by omega)]
  simp only [hnone, hagain, Option.getD_none]

/-! #### What a stook is as it is placed -/

theorem State.pickSlots_free {s : State} {core : Nat} {l : Launch} {i : Nat} (hi : i < (s.freeSlots core).length) :
    (s.pickSlots core l).getD i 0 ∈ s.freeSlots core := by
  have hlen : i < (s.pickSlots core l).length := by
    simp only [State.pickSlots, List.length_append, List.length_drop, List.length_take]
    omega
  rw [List.getD_eq_getElem?_getD, List.getElem?_eq_getElem hlen, Option.getD_some]
  have h := List.getElem_mem hlen
  unfold State.pickSlots at h
  exact (List.mem_append.1 h).elim List.mem_of_mem_drop List.mem_of_mem_take

theorem State.room_slots {s : State} {core : Nat} {l : Launch} (h : s.room core l = true) :
    l.desc.sheaves ≤ (s.freeSlots core).length := by
  simp only [State.room, Bool.and_eq_true, decide_eq_true_eq, and_assoc] at h
  obtain ⟨-, hslots, -⟩ := h
  exact hslots

theorem State.newStook_sheaf (s : State) (l : Launch) (id core uid : Nat) (secondary : Bool) (twin : Option Nat) {i : Nat}
    (hi : i < l.desc.sheaves) :
    (s.newStook l id core uid secondary twin).sheaf i = l.desc.newSheaf i ((s.pickSlots core l).getD i 0) := by
  simp [Stook.sheaf, State.newStook, hi]

theorem Desc.newSheaf_lane (d : Desc) (i slot : Nat) {m : Nat} (hm : m < 32) :
    (d.newSheaf i slot).lane m = Lane.atEntry (d.roleOf i).2.2 := by
  show (List.replicate 32 (Lane.atEntry (d.roleOf i).2.2)).getD m default = _
  rw [List.getD_eq_getElem?_getD, List.getElem?_replicate_of_lt hm, Option.getD_some]

/-! #### The state around it -/

@[simp] theorem State.discardFor_stooks (s : State) (core scope : Nat) : (s.discardFor core scope).stooks = s.stooks := by
  simp only [State.discardFor, State.modDie, apply_ite State.stooks, State.modCore_stooks, ite_self]

@[simp] theorem State.discardFor_launches (s : State) (core scope : Nat) : (s.discardFor core scope).launches = s.launches := by
  simp only [State.discardFor, State.modDie, apply_ite State.launches, State.modCore_launches, ite_self]

/-- An acquire at DIE scope or wider discards the core's cached copies (R143). -/
theorem State.discardFor_cache (s : State) (core : Nat) {scope : Nat} (h : 2 ≤ scope) :
    ((s.discardFor core scope).core core).cache = [] := by
  have hdie (t : State) (n : Nat) (f : Die → Die) : (t.modDie n f).core core = t.core core := by
    unfold State.modDie State.core
    split <;> rfl
  simp only [State.discardFor, if_pos h, apply_ite (State.core · core), hdie, ite_self]
  rw [State.core_modCore, if_pos rfl]
  exact fun _ => rfl

theorem State.addStook_stooks (s : State) (core l1 : Nat) (k : Stook) : (s.addStook core l1 k).stooks = s.stooks ++ [k] := by
  simp [State.addStook]

theorem State.addStook_launch? (s : State) (core l1 : Nat) (k : Stook) (c : Nat) (id : Word) :
    (s.addStook core l1 k).launch? c id = s.launch? c id := by
  simp [State.addStook, State.launch?]

theorem State.addStook_cache (s : State) (core l1 : Nat) (k : Stook) : ((s.addStook core l1 k).core core).cache = [] :=
  State.discardFor_cache _ core (by omega)

theorem State.placed_launch? {s : State} {l : Launch} (h : s.launch? l.ctx l.id = some l) (n : Nat) :
    (s.placed l n).launch? l.ctx l.id = some { l with nextStook := n, state := if n < l.desc.stooks then 2 else 3 } := by
  unfold State.placed
  rw [State.launch?_modLaunch]
  · exact congrArg (Option.map _) h
  · exact fun _ => ⟨rfl, rfl⟩

theorem State.withNext_stooks (s : State) (l : Launch) (core : Nat) :
    (s.withNext l core).stooks = s.stooks ++ [s.newStook l l.nextStook core s.next false none] :=
  State.addStook_stooks ..

theorem State.withNext_cache (s : State) (l : Launch) (core : Nat) : ((s.withNext l core).core core).cache = [] :=
  State.addStook_cache s core l.desc.l1 (s.newStook l l.nextStook core s.next false none)

theorem State.withNext_launch? {s : State} {l : Launch} (h : s.launch? l.ctx l.id = some l) (core : Nat) :
    (s.withNext l core).launch? l.ctx l.id
      = some { l with nextStook := l.nextStook + 1, state := if l.nextStook + 1 < l.desc.stooks then 2 else 3 } :=
  State.placed_launch? ((State.addStook_launch? ..).trans h) _

theorem State.withNext_mem (s : State) (l : Launch) (core : Nat) : (s.withNext l core).mem = s.mem := by
  simp [State.withNext]

end Sys2Proof.Machine

/-! ### Refills, quanta and the watchdog (05 R110, R112, R121) -/

namespace Sys2Proof.Machine

open Sys2Proof

/-- A register that is not bound takes a place among the bound ones of its sheaf, whatever is spilled for it. -/
theorem State.bindReg_binds {s : State} {u i r : Nat} {k : Stook} (hk : s.stook? u = some k) (hi : i < k.sheaves.length)
    (hr : r ∉ (k.sheaf i).bound) (m : LaneMask) :
    r ∈ ((s.bindReg u i r m).sheafAt u i).bound ∧ r ∉ ((s.bindReg u i r m).sheafAt u i).spilled := by
  unfold State.bindReg
  extract_lets a k' h room h' b c
  have hk' : a.stook? u = some (k.modSheaf i fun h => { h with freed := Bank.set h.freed r (Bank.get h.freed r &&& ~~~m) }) := by
    simp [a, State.stook?_modSheaf, hk]
  have hbound : h.bound = (k.sheaf i).bound := by
    simp [h, k', hk', Stook.sheaf_modSheaf, hi]
  have hbind : r ∈ h'.bound ∧ r ∉ h'.spilled := by
    simp only [h']
    split
    · simp
    · simp only [List.mem_append, List.mem_singleton, List.mem_filter, or_true, bne_self_eq_false, Bool.false_eq_true, and_false,
        false_or, true_and, hbound]
      exact fun hm => hr (List.mem_of_mem_take hm)
  have hb : r ∈ (b.sheafAt u i).bound ∧ r ∉ (b.sheafAt u i).spilled := by
    rw [State.sheafAt_modSheaf_self hk' (by simpa using hi)]
    exact hbind
  rw [if_neg (by rw [hbound]; simpa using hr)]
  split
  · rwa [State.sheafAt_congr (b.unspill_stooks ..)]
  split
  · exact hb
  split
  · exact hb
  · rwa [State.sheafAt_congr (b.failLaunch_stooks ..)]

/-- Binding a register changes no lane and no register of its sheaf. -/
theorem State.bindReg_keeps {s : State} {u i : Nat} {k : Stook} (hk : s.stook? u = some k) (hi : i < k.sheaves.length)
    (r : Nat) (m : LaneMask) :
    ((s.bindReg u i r m).sheafAt u i).lanes = (s.sheafAt u i).lanes ∧ ((s.bindReg u i r m).sheafAt u i).v = (s.sheafAt u i).v := by
  obtain ⟨f, hf, hstooks⟩ := (s.bindReg_touch u i r m).sheaves
  rw [State.sheafAt_congr hstooks, State.sheafAt_modSheaf_self hk hi, State.sheafAt_of hk, hf]
  exact ⟨rfl, rfl⟩

/-- A refill of a spilled register binds it; the marks of the lanes that awaited it go (R110). -/
theorem refillReg_binds {s : State} {u i r l : Nat} (hp : (r, 0) ∈ ((s.sheafAt u i).lane l).pending)
    (hs : r ∈ (s.sheafAt u i).spilled) (hb : r ∉ (s.sheafAt u i).bound) :
    r ∈ ((refillReg u i r s).sheafAt u i).bound ∧ r ∉ ((refillReg u i r s).sheafAt u i).spilled
      ∧ (∀ x ∈ ((refillReg u i r s).sheafAt u i).lanes, (r, 0) ∉ x.pending)
      ∧ ∀ n m, ((refillReg u i r s).sheafAt u i).rv n m = (s.sheafAt u i).rv n m := by
  obtain ⟨⟨k, hk, hi, hh⟩, hlane⟩ := State.stook_of_pending hp
  have hawaits : ∃ x ∈ (s.sheafAt u i).lanes, (r, 0) ∈ x.pending := ⟨_, hlane, hp⟩
  unfold refillReg
  extract_lets h clear t
  rw [if_neg (by simpa [h] using hawaits), if_pos (by simpa [h] using hs)]
  have ht : t.stook? u = some (k.modSheaf i fun h => { h with lanes := h.lanes.map clear }) := by
    simp [t, State.stook?_modSheaf, hk]
  have hi' (f : Sheaf → Sheaf) : i < (k.modSheaf i f).sheaves.length := by simpa using hi
  have hsheaf : t.sheafAt u i = { k.sheaf i with lanes := (k.sheaf i).lanes.map clear } := State.sheafAt_modSheaf_self hk hi _
  have hclear (x : Lane) : (r, 0) ∉ (clear x).pending := by simp [clear]
  obtain ⟨hbound, hspilled⟩ := State.bindReg_binds ht (hi' _) (r := r) (m := 0) (by
    rw [← State.sheafAt_of ht, hsheaf, ← hh]
    exact hb)
  obtain ⟨hlanes, hv⟩ := State.bindReg_keeps ht (hi' _) r 0
  refine ⟨hbound, hspilled, ?_, fun n m => Sheaf.rv_congr (hv.trans (by rw [hsheaf, hh])) n m⟩
  rw [hlanes, hsheaf]
  intro x hx
  obtain ⟨y, -, rfl⟩ := List.mem_map.1 hx
  exact hclear y

/-- A stook that asks for its save keeps room for its image (R374). -/
def State.askedStook (s : State) (k : Stook) : Stook := if k.stopping = 0 then { k with stopping := 1, reserve := s.imageSize k } else k

theorem State.askSave_eq (s : State) (p : Stook → Bool) :
    s.askSave p = { s with stooks := s.stooks.map fun k => if s.savedWith p k = true then s.askedStook k else k } := by
  refine congrArg (fun f : Stook → Stook => { s with stooks := s.stooks.map f }) (funext fun k => ?_)
  cases s.savedWith p k with
  | false => simp only [Bool.false_and, Bool.false_eq_true, if_false]
  | true => simp only [Bool.true_and, decide_eq_true_eq, if_true, State.askedStook]

/-- Outside rotation a stook is saved alone. -/
theorem State.savedWith_alone {s : State} {u : Nat} {k : Stook} (hk : s.stooks.filter (fun x => x.uid == u) = [k])
    (hr : (s.launchOf k).desc.rotates = false) : s.savedWith (fun x => x.uid == u) = fun x => x.uid == u := by
  have hgroup : s.saveGroup k = [k] := by
    have hc : (s.launchOf k).desc.contain ≠ 2 := fun hc => by simp [Desc.rotates, hc] at hr
    unfold State.saveGroup
    rw [if_neg hc, if_neg (by simp [hr])]
  have hmem : k ∈ s.stooks.filter fun x => x.uid == u := by
    rw [hk]
    exact List.mem_cons_self ..
  have hku : k.uid = u := by simpa using (List.mem_filter.1 hmem).2
  have honly (x : Stook) (hx : x ∈ s.stooks) (hu : x.uid = u) : x = k := by
    have : x ∈ s.stooks.filter fun x => x.uid == u := List.mem_filter.2 ⟨hx, by simpa using hu⟩
    simpa [hk] using this
  funext x
  unfold State.savedWith
  rw [Bool.or_eq_left_iff_imp, List.any_eq_true]
  rintro ⟨y, hy, hyx⟩
  rw [Bool.and_eq_true, beq_iff_eq] at hyx
  obtain ⟨hyu, hyx⟩ := hyx
  rw [honly y hy hyu, hgroup] at hyx
  have hkx : k.uid = x.uid := by simpa using hyx
  simp [← hkx, hku]

/-- A stook whose quantum is over is asked to stop if its image has room, and goes on if not (R112). -/
theorem quantumExpiry_alone {s : State} {u : Nat} {k : Stook} (hk : s.stooks.filter (fun x => x.uid == u) = [k])
    (hr : (s.launchOf k).desc.rotates = false) (hp : (s.launchOf k).desc.place = 2)
    (hq : (s.launchOf k).desc.quantum ≤ k.resident) (hu : (s.launchOf k).unplaced = true) (he : (s.launchOf k).ending = none)
    (hs : k.stopping = 0) :
    quantumExpiry u s = if s.spillRoom k.ctx (s.imageSize k) then s.modStook u s.askedStook else s := by
  have hgo : ((s.launchOf k).desc.place != 2 || decide (k.resident < (s.launchOf k).desc.quantum) || !(s.launchOf k).unplaced
      || (s.launchOf k).ending.isSome || k.stopping != 0) = false := by
    simp [hp, hq, hu, he, hs]
  unfold quantumExpiry
  simp only [State.stook?_of_filter hk, State.savedWith_alone hk hr, hk, hgo, State.askSave_eq, List.foldl_cons, List.foldl_nil, Nat.zero_add,
    Bool.false_eq_true, if_false, Bool.not_eq_true', State.modStook]
  cases s.spillRoom k.ctx (s.imageSize k) <;> rfl

theorem State.askedStook_uid (s : State) (k : Stook) : (s.askedStook k).uid = k.uid := by
  unfold State.askedStook
  split <;> rfl

theorem State.endLaunch_launch? {s : State} {c : Nat} {id : Word} {l : Launch} (h : s.launch? c id = some l)
    (hs : l.state ≤ 3) (hr : l.recorded = false) (he : l.ending = none) (code : Nat) :
    (s.endLaunch c id code).launch? c id = some { l with ending := some code } := by
  unfold State.endLaunch
  rw [State.launch?_modLaunch, h]
  · simp [hs, hr, he]
  · intro l
    split <;> exact ⟨rfl, rfl⟩

/-- A launch-wide event is reported once, naming no lane, and marks the launch's end (R366 to R368). -/
theorem State.failLaunch_ends {s : State} {c : Nat} {id : Word} {l : Launch} (h : s.launch? c id = some l)
    (hs : l.state ≤ 3) (hr : l.recorded = false) (he : l.ending = none) (cause : Cause) (code : Nat) :
    let f : FaultRec := { (default : FaultRec) with cause := cause, ctx := c, launch := id, kind := .none, id := s.nextFault, reported := true }
    let t := s.failLaunch c id cause code
    t.launch? c id = some { l with ending := some code } ∧ t.faults = s.faults ++ [f] ∧ t.sent = s.sent ++ [.faultReport f.pack] := by
  intro f t
  have ht : t = (s.report { (default : FaultRec) with cause := cause, ctx := c, launch := id, kind := .none }).endLaunch c id code := by
    simp only [t, State.failLaunch]
    rw [if_pos (by simp [h, hs, hr, he])]
  rw [ht]
  exact ⟨State.endLaunch_launch? h hs hr he code, rfl, rfl⟩

theorem State.watching_runs {s : State} {l : Launch} (h : s.watching l = true) : l.state ≤ 3 ∧ l.ending = none := by
  simp only [State.watching, Launch.running, Bool.and_eq_true, Bool.or_eq_true, decide_eq_true_eq, Option.isNone_iff_eq_none,
    and_assoc] at h
  obtain ⟨-, he, hs, -⟩ := h
  exact ⟨by omega, he⟩

theorem watchdogExpiry_ends {s : State} {c : Nat} {id : Word} {l : Launch} (h : s.launch? c id = some l)
    (hw : s.watching l = true) (hl : 1024 * l.desc.watchdog ≤ l.watched) :
    watchdogExpiry c id s = s.failLaunch c id .watchdog 5 := by
  simp [watchdogExpiry, h, hw, hl]

theorem watchdogExpiry_waits {s : State} {c : Nat} {id : Word} {l : Launch} (h : s.launch? c id = some l)
    (hw : s.watching l = false ∨ l.watched < 1024 * l.desc.watchdog) : watchdogExpiry c id s = s := by
  have hn : ¬ (s.watching l && decide (1024 * l.desc.watchdog ≤ l.watched)) = true := by
    rw [Bool.and_eq_true, decide_eq_true_eq]
    rintro ⟨hw', hl⟩
    exact hw.elim (fun e => by simp [e] at hw') (by omega)
  simp only [watchdogExpiry, h, if_neg hn]

end Sys2Proof.Machine

/-! ### PREEMPT and RESTORE (21 R374, R378) -/

namespace Sys2Proof.Machine

open Sys2Proof

/-! #### The state in which a request acts, and the state after it -/

@[simp] theorem State.turned_launch? (s : State) (h : MsgHdr) (c : Nat) (id : Word) : (s.turned h).launch? c id = s.launch? c id := rfl
@[simp] theorem State.turned_launchOf (s : State) (h : MsgHdr) (k : Stook) : (s.turned h).launchOf k = s.launchOf k := rfl
@[simp] theorem State.turned_stooks (s : State) (h : MsgHdr) : (s.turned h).stooks = s.stooks := rfl
@[simp] theorem State.turned_imageSize (s : State) (h : MsgHdr) (k : Stook) : (s.turned h).imageSize k = s.imageSize k := rfl

@[simp] theorem State.turned_spillRoom (s : State) (h : MsgHdr) (c n : Nat) : (s.turned h).spillRoom c n = s.spillRoom c n := by
  have hctx : ((s.turned h).ctx c).imageAt = (s.ctx c).imageAt ∧ ((s.turned h).ctx c).spillBytes = (s.ctx c).spillBytes := by
    rw [State.turned_ctx]
    split <;> exact ⟨rfl, rfl⟩
  unfold State.spillRoom
  rw [hctx.1, hctx.2]
  rfl

@[simp] theorem State.nextMessage_stooks (s : State) (c : Nat) : (s.nextMessage c).stooks = s.stooks := by
  rw [State.nextMessage_same]

@[simp] theorem State.nextMessage_sent (s : State) (c : Nat) : (s.nextMessage c).sent = s.sent := by
  rw [State.nextMessage_same]

@[simp] theorem State.nextMessage_pending (s : State) (c : Nat) : (s.nextMessage c).pending = s.pending := by
  rw [State.nextMessage_same]

@[simp] theorem State.nextMessage_launch? (s : State) (c d : Nat) (id : Word) : (s.nextMessage c).launch? d id = s.launch? d id := by
  rw [State.nextMessage_same]
  rfl

/-- A request that leaves the contexts alone but for its turn passes the turn on. -/
theorem TurnPassed.of_contexts {s u : State} {h : MsgHdr} (hs : h.seq = (s.ctx h.context).seq)
    (hu : u.contexts = (s.turned h).contexts) : TurnPassed s (u.nextMessage h.context) h := by
  have hctx (n : Nat) : (u.nextMessage h.context).ctx n = (s.turned h).ctx n := by
    rw [State.nextMessage_ctx]
    unfold State.ctx
    rw [hu]
  refine { turn := ?_, record := fun n => ?_, turns := fun n hn => ?_ }
  · rw [hctx]; simp [hs]
  · rw [hctx, State.turned_ctx]; split <;> rfl
  · rw [hctx, State.turned_ctx, if_neg hn]

/-! #### PREEMPT -/

/-- The stooks that a PREEMPT of one launch asks for are those of the launch. -/
theorem preempt_mine {s : State} {c : Nat} {id : Word} {l : Launch} (hid : id ≠ BitVec.allOnes 32)
    (hl : s.launch? c id = some l) (he : l.ending = none) :
    (fun k : Stook => k.ctx == c && (id == BitVec.allOnes 32 || k.launch == id) && (s.launchOf k).ending.isNone)
      = fun k => k.ctx == c && k.launch == id := by
  funext k
  by_cases hk : k.ctx = c ∧ k.launch = id
  · obtain ⟨rfl, rfl⟩ := hk
    simp [State.launchOf, hl, he]
  · have hother : (k.ctx == c && k.launch == id) = false := by simpa using hk
    rw [beq_eq_false_iff_ne.2 hid, Bool.false_or, hother, Bool.false_and]

theorem preempt_ids {ks : List Stook} {id : Word} (hne : ks ≠ []) (h : ∀ k ∈ ks, k.launch = id) :
    (ks.map Stook.launch).eraseDups = [id] := by
  obtain ⟨k, t, rfl⟩ := List.exists_cons_of_ne_nil hne
  have hk : k.launch = id := h k (List.mem_cons_self ..)
  have ht : (t.map Stook.launch).filter (fun x => !x == k.launch) = [] :=
    List.filter_eq_nil_iff.2 fun x hx => by
      obtain ⟨y, hy, rfl⟩ := List.mem_map.1 hx
      simp [h y (List.mem_cons_of_mem _ hy), hk]
  rw [List.map_cons, List.eraseDups_cons, ht, hk]
  rfl

theorem State.mem_askSave {s : State} {p : Stook → Bool} {k : Stook} (hk : k ∈ s.stooks) (hp : p k = true)
    (hs : k.stopping = 0) : { k with stopping := 1, reserve := s.imageSize k } ∈ (s.askSave p).stooks := by
  rw [State.askSave_eq]
  refine List.mem_map.2 ⟨k, hk, ?_⟩
  rw [if_pos (by simp [State.savedWith, hp])]
  exact if_pos hs

/-- A launch that a PREEMPT keeps from arbitration (R374). -/
def Launch.preempted (l : Launch) : Launch := { l with held := true }

/-- The launch is kept from arbitration, and the answer waits for the images (R374). -/
def State.preempting (s : State) (h : MsgHdr) (id : Word) : State :=
  { s.modLaunch h.context id Launch.preempted with
    pending := s.pending ++ [{ hdr := h, cancel := false, launches := [id], count := 0 }] }

theorem execPreempt_unknown {s : State} {h : MsgHdr} {id : Word} (I : InTurn s h 8 false) (hid : id ≠ BitVec.allOnes 32)
    (hl : s.launch? h.context id = none) : ∃ t, exec (.preempt h id) s = .next t ∧ Answered s t h stUnknown 0 :=
  message_answers I rfl (by
    have hall := beq_eq_false_iff_ne.2 hid
    dsimp only
    rw [hall]
    simp [hl])

theorem execPreempt_nothing {s : State} {h : MsgHdr} {id : Word} {l : Launch} (I : InTurn s h 8 false)
    (hid : id ≠ BitVec.allOnes 32) (hl : s.launch? h.context id = some l) (he : l.ending = none)
    (hks : s.stooks.filter (fun k => k.ctx == h.context && k.launch == id) = []) :
    ∃ t, exec (.preempt h id) s = .next t ∧ Answered s t h 0 0 :=
  message_answers I rfl (by
    simp only [State.turned_stooks, State.turned_launchOf, State.turned_launch?, preempt_mine hid hl he, hks, hl]
    simp)

theorem execPreempt_busy {s : State} {h : MsgHdr} {id : Word} {l : Launch} (I : InTurn s h 8 false)
    (hid : id ≠ BitVec.allOnes 32) (hl : s.launch? h.context id = some l) (he : l.ending = none)
    (hks : s.stooks.filter (fun k => k.ctx == h.context && k.launch == id) ≠ [])
    (hroom : s.spillRoom h.context (((s.stooks.filter fun k => k.ctx == h.context && k.launch == id).filter
      fun k => k.stopping = 0).foldl (fun n k => n + s.imageSize k) 0) = false) :
    ∃ t, exec (.preempt h id) s = .next t ∧ Answered s t h stBusy 0 :=
  message_answers I rfl (by
    simp only [State.turned_stooks, State.turned_launchOf, State.turned_launch?, State.turned_spillRoom, State.turned_imageSize,
      preempt_mine hid hl he, hroom, hl, List.isEmpty_eq_false_iff.2 hks]
    simp)

theorem execPreempt_asks {s : State} {h : MsgHdr} {id : Word} {l : Launch} (I : InTurn s h 8 false)
    (hid : id ≠ BitVec.allOnes 32) (hl : s.launch? h.context id = some l) (he : l.ending = none)
    (hks : s.stooks.filter (fun k => k.ctx == h.context && k.launch == id) ≠ [])
    (hroom : s.spillRoom h.context (((s.stooks.filter fun k => k.ctx == h.context && k.launch == id).filter
      fun k => k.stopping = 0).foldl (fun n k => n + s.imageSize k) 0) = true) :
    exec (.preempt h id) s = .next ((((s.turned h).preempting h id).askSave
      fun k => k.ctx == h.context && k.launch == id).nextMessage h.context) := by
  have hids := preempt_ids hks fun k hk => by
    obtain ⟨-, hkey⟩ := List.mem_filter.1 hk
    exact beq_iff_eq.1 (Bool.and_eq_true_iff.1 hkey).2
  refine (message_next I _).trans (congrArg _ (congrArg (State.nextMessage · h.context) ?_))
  simp only [State.turned_stooks, State.turned_launchOf, State.turned_launch?, State.turned_spillRoom, State.turned_imageSize,
    preempt_mine hid hl he, hroom, hl, hids, List.isEmpty_eq_false_iff.2 hks, List.foldl_cons, List.foldl_nil]
  simp [State.preempting, Launch.preempted]

/-! #### RESTORE -/

/-- The saved stooks of a launch take part in placement again, ahead of the unplaced ones (R378). -/
def Launch.restored (l : Launch) : Launch :=
  { l with held := false, saved := l.saved.map fun v => { v with first := true } }

theorem execRestore_unknown {s : State} {h : MsgHdr} {id : Word} (I : InTurn s h 8 false)
    (hl : s.launch? h.context id = none) : ∃ t, exec (.restore h id) s = .next t ∧ Answered s t h stUnknown 0 :=
  message_answers I rfl (by simp [hl])

theorem execRestore_ended {s : State} {h : MsgHdr} {id : Word} {l : Launch} (I : InTurn s h 8 false)
    (hl : s.launch? h.context id = some l) (he : 4 ≤ l.state) :
    ∃ t, exec (.restore h id) s = .next t ∧ Answered s t h 0 0 :=
  message_answers I rfl (by simp [hl, he])

theorem execRestore_restores {s : State} {h : MsgHdr} {id : Word} {l : Launch} (I : InTurn s h 8 false)
    (hl : s.launch? h.context id = some l) (he : l.state ≤ 3) :
    exec (.restore h id) s = .next ((((s.turned h).modLaunch h.context id Launch.restored).reply h 0
      (BitVec.ofNat 32 l.saved.length)).nextMessage h.context) := by
  refine (message_next I _).trans (congrArg _ (congrArg (State.nextMessage · h.context) ?_))
  have hn : ¬ 4 ≤ l.state := by omega
  simp only [State.turned_launch?, hl, if_neg hn]
  rfl

end Sys2Proof.Machine

/-! ### O47: placement, refills, quanta, the watchdog, PREEMPT and RESTORE -/

namespace Sys2Proof.Machine

open Sys2Proof

/-- A stook as it is placed: on free slots, each sheaf with 32 lanes at its role's entry and the parameters in its scalar
registers (R56, R96, R97). -/
theorem State.newStook_placed {s : State} {core : Nat} {l : Launch} (hroom : s.room core l = true) (id uid : Nat)
    (secondary : Bool) (twin : Option Nat) {i : Nat} (hi : i < l.desc.sheaves) :
    let h := (s.newStook l id core uid secondary twin).sheaf i
    h.slot ∈ s.freeSlots core ∧ h.s = l.desc.paramRegs ∧ h.lanes.length = 32
      ∧ ∀ m, m < 32 → (h.lane m).running = true ∧ (h.lane m).inside = false
        ∧ (h.lane m).pc = BitVec.ofNat 32 (l.desc.roleOf i).2.2 := by
  intro h
  have hh : h = l.desc.newSheaf i ((s.pickSlots core l).getD i 0) := s.newStook_sheaf l id core uid secondary twin hi
  rw [hh]
  refine ⟨State.pickSlots_free (Nat.lt_of_lt_of_le hi (State.room_slots hroom)), rfl, List.length_replicate .., fun m hm => ?_⟩
  rw [Desc.newSheaf_lane _ _ _ hm]
  exact ⟨rfl, rfl, rfl⟩

/-- Of the stooks, only the one whose quantum is over changes: it is asked to stop. -/
theorem State.modStook_askedStook {s : State} {u : Nat} {k : Stook} (hk : s.stooks.filter (fun x => x.uid == u) = [k])
    (hs : k.stopping = 0) :
    (s.modStook u s.askedStook).stook? u = some { k with stopping := 1, reserve := s.imageSize k }
      ∧ ∀ v, v ≠ u → (s.modStook u s.askedStook).stook? v = s.stook? v := by
  refine ⟨?_, fun v hv => ?_⟩
  · rw [State.stook?_modStook _ _ _ _ s.askedStook_uid, State.stook?_of_filter hk]
    simp [State.askedStook, hs]
  · rw [State.stook?_modStook _ _ _ _ s.askedStook_uid]
    simp [hv]

/-- Settles O47, clause by clause, from what each operation does in the case that the clause speaks of. -/
theorem stooksPlaced : Obligations.StooksPlaced := by
  unfold Obligations.StooksPlaced
  refine ⟨?placement, ?refill, ?quantum, ?watchdog, ?preempt, ?restore⟩
  case placement =>
    intro s core l hp hcore hstrict hmem hready hl hcode he hsaved hplace hdet hcontain hn hrerun
    refine ⟨fun hroom hfirst => ?_, fun hroom honly => ?_⟩
    · refine ⟨s.withNext l core, s.newStook l l.nextStook core s.next false none, ?_, State.withNext_stooks s l core, rfl, rfl, rfl, rfl,
        by simp [State.newStook], fun i hi => State.newStook_placed hroom _ _ _ _ hi, rfl, State.withNext_cache s l core,
        State.withNext_launch? hl core, fun a => by rw [State.withNext_mem]⟩
      refine (event_powered hp _).trans (congrArg _ ?_)
      exact stookPlacement_first hcore hstrict hmem hready hl hcode he hsaved hplace hdet hcontain hn hroom
        fun x hx hr hne => State.ahead_iff.2 (hfirst x hx hr hne)
    · refine (event_powered hp _).trans (congrArg _ ?_)
      exact stookPlacement_noRoom hcore hstrict hl hcode he hsaved hplace hdet hn hrerun hroom honly
  case refill =>
    intro s u i r l hp hpending hspilled hbound
    obtain ⟨hb, hs, hlanes, hv⟩ := refillReg_binds hpending hspilled hbound
    exact ⟨refillReg u i r s, event_powered hp _, hb, hs, hlanes, hv, fun a => by rw [refillReg_mem]⟩
  case quantum =>
    intro s u k hp hk _ l hr hplace hq hu he hs
    have hexec : exec (.quantumExpiry u) s = .next (quantumExpiry u s) := event_powered hp _
    rw [quantumExpiry_alone hk hr hplace hq hu he hs] at hexec
    refine ⟨fun hroom => ?_, fun hroom => ?_⟩
    · obtain ⟨hself, hothers⟩ := State.modStook_askedStook hk hs
      exact ⟨s.modStook u s.askedStook, by rw [hexec, if_pos hroom], hself, hothers, rfl⟩
    · rw [hexec, if_neg (by simp [hroom])]
  case watchdog =>
    intro s c id l hp hl
    have hexec : exec (.watchdogExpiry c id) s = .next (watchdogExpiry c id s) := event_powered hp _
    refine ⟨fun hw hr hlimit => ?_, fun hw => by rw [hexec, watchdogExpiry_waits hl hw]⟩
    obtain ⟨hs, he⟩ := State.watching_runs hw
    obtain ⟨hlaunch, hfaults, hsent⟩ := State.failLaunch_ends hl hs hr he .watchdog 5
    exact ⟨_, _, by rw [hexec, watchdogExpiry_ends hl hw hlimit], hlaunch, hfaults, hsent, rfl, rfl, rfl, rfl, rfl, rfl⟩
  case preempt =>
    intro s h id I hid
    refine ⟨fun hl => execPreempt_unknown I hid hl, fun l hl he => ⟨execPreempt_nothing I hid hl he, ?_, fun hks hroom => ?_⟩⟩
    · exact execPreempt_busy I hid hl he
    · refine ⟨_, execPreempt_asks I hid hl he hks hroom, TurnPassed.of_contexts I.turn rfl, ?_, ?_, fun k hk hs => ?_, ?_⟩
      · rw [State.nextMessage_sent]
        rfl
      · rw [State.nextMessage_launch?]
        exact State.launch?_modLaunch_of (s := s) hl Launch.preempted fun _ => ⟨rfl, rfl⟩
      · obtain ⟨hmem, hkey⟩ := List.mem_filter.1 hk
        rw [State.nextMessage_stooks]
        exact State.mem_askSave hmem hkey hs
      · rw [State.nextMessage_pending]
        rfl
  case restore =>
    intro s h id I
    refine ⟨fun hl => execRestore_unknown I hl, fun l hl => ⟨execRestore_ended I hl, fun he => ?_⟩⟩
    refine ⟨_, execRestore_restores I hl he, ?_, ?_⟩
    · rw [State.nextMessage_launch?]
      exact State.launch?_modLaunch_of (s := s) hl Launch.restored fun _ => ⟨rfl, rfl⟩
    · rw [State.nextMessage_sent]
      exact List.mem_append_right _ (List.mem_singleton_self _)

end Sys2Proof.Machine
